-- ==== Sys2Proof/Word.lean ====
section
/-! DEFINITION. The word types of the block: bytes, ticket times, FP32 encodings and Basin values. -/
namespace Sys2Proof

/-- One byte of memory (R235). -/
abbrev Byte := BitVec 8

/-- A ticket time: 48-bit unsigned nanoseconds, wrapping (R297). -/
abbrev Time := BitVec 48

/-- The encoding of an IEEE 754 binary32 value (R60). -/
abbrev F32 := BitVec 32

/-- A Basin: 136 bits, two's complement (R42). -/
abbrev Basin := BitVec 136

/-- The signed 48-bit difference of two ticket times, by which every comparison is made (R297). -/
def Time.diff (a b : Time) : Int := (a - b).toInt

end Sys2Proof
end

