-- ==== Sys2Proof/Syntax.lean ====
section
/-! DEFINITION. The commands of the block: one constructor per row of spec/opcode_table.json, with the row's operands. -/
namespace Sys2Proof

/-- The two compute dies (R26). -/
inductive Half where
  | bow | stern
  deriving DecidableEq, Repr

/-- The other half. -/
def Half.other : Half → Half
  | .bow => .stern
  | .stern => .bow

/-- 0 for Bow, 1 for Stern (R98). -/
def Half.num : Half → Nat
  | .bow => 0
  | .stern => 1

/-- The ports that carry link messages: the Ferry and a half's two Causeway ports (R278, R288). -/
inductive Port where
  | ferry | cw0 | cw1
  deriving DecidableEq, Repr

/-- Who makes a dictionary request (R411 to R413, R415): a CAN client with its `TRANS_ID`, a UDP source with its own, a BAR0 mailbox. -/
inductive Req where
  | can (client tr : Nat)
  | udp (addr port tr : Nat)
  | bar0 (mb : Nat)
  deriving DecidableEq, Repr

/-- What a `DICT` message carries (R27, R280, R378, R408, R409, R419): a mirrored write, an invalid mark, a commit boundary, a forwarded request. -/
inductive DictMsg where
  | mirror (idx sub : Nat) (bytes : List Byte)
  | invalid (t : Time)
  | boundary (t : Time)
  | request (r : Req) (msg : List Byte)
  deriving DecidableEq, Repr

/-- What a `FRAME` message carries to the other half's switch (R281, R315): bytes, the class of its priority, and for a replica its launch time, source time and budget. -/
structure FrameMsg where
  data : List Byte
  cls : Nat
  replica : Bool
  launch : Option Time
  srcT : Time
  budget : Nat
  deriving DecidableEq, Repr

/-- What a message carries beside lines of memory: nothing, dictionary traffic, a frame, or one of the earlier pieces of either (R280). -/
inductive Cargo where
  | none
  | dict (m : DictMsg)
  | frame (f : FrameMsg)
  | piece
  deriving DecidableEq, Repr

/-- The message types of R280. -/
inductive MsgKind where
  | rdReq | rdData | wr | wrAck | or8 | orAck | counter | counterAck | dict | frame
  deriving DecidableEq, Repr

/-- A link message: the header fields of R280 and its data. `mask` is one 64-bit byte mask per line when `masked`. A `COUNTER` message names its pair by `program` and `seq` and its counter by `unit` and `ctr` (R287); `flit` is the sequence number of its header flit (R279). -/
structure LinkMsg where
  kind : MsgKind
  addr : Nat
  tag : Nat
  lines : Nat
  status : Nat
  dev : Nat
  half : Half
  unit : Nat
  cls : Nat
  poison : Bool
  masked : Bool
  mask : List Nat
  data : List Byte
  program : Nat
  seq : Nat
  ctr : Nat
  cargo : Cargo
  flit : Nat
  deriving DecidableEq, Repr

/-- Who writes a request to a port of a half's control space: a core's program or host software (R191, R230). -/
inductive Src where
  | core (c : Nat)
  | host
  deriving DecidableEq, Repr

/-- A gPTP Announce as BMCA sees it: the grandmaster's vector and the steps removed (R301). -/
structure Announce where
  priority1 : Nat
  clockClass : Nat
  accuracy : Nat
  variance : Nat
  priority2 : Nat
  identity : Nat
  steps : Nat
  deriving DecidableEq, Repr

/-- A CAN frame as it is on the bus (R348). -/
structure CanFrame where
  format : Nat
  ide : Bool
  rtr : Bool
  brs : Bool
  esi : Bool
  sec : Bool
  id : Nat
  dlc : Nat
  sdt : Nat
  vcid : Nat
  af : Nat
  data : List Byte
  deriving DecidableEq, Repr

/-- How a host-memory read fails (R272): no completion in time, Unsupported Request, Completer Abort, poisoned data. -/
inductive CplError where
  | timeout | unsupported | abort | poisoned
  deriving DecidableEq, Repr

/-- What the ECC of a CSI-2 packet header shows (R317). -/
inductive Ecc where
  | good | corrected | bad
  deriving DecidableEq, Repr

/-- The commands. `t` is the ticket time at which a time-driven command happens (DESIGN CHOICE, log 3); `d` is the descriptor that fetch delivers to core `c` of half `h` (DESIGN CHOICE, log 4); link messages arrive at half `h` by port `p` (DESIGN CHOICE, log 10); `hits` of a sample pairs a loop with the readings of its setpoint that a publication disturbs (DESIGN CHOICE, log 24). -/
inductive Instr where
  -- core commands: the descriptor fetch delivers
  | move (h : Half) (c : Nat) (d : BitVec 256)
  | s2c2 (h : Half) (c : Nat) (d : BitVec 256)
  | s2c4 (h : Half) (c : Nat) (d : BitVec 256)
  | c2s2 (h : Half) (c : Nat) (d : BitVec 256)
  | c2s4 (h : Half) (c : Nat) (d : BitVec 256)
  | fill (h : Half) (c : Nat) (d : BitVec 256)
  | loadw (h : Half) (c : Nat) (d : BitVec 256)
  | stream (h : Half) (c : Nat) (d : BitVec 256)
  | requantiseTile (h : Half) (c : Nat)
  | conv (h : Half) (c : Nat) (d : BitVec 512)
  | crop (h : Half) (c : Nat) (d : BitVec 256)
  | pool (h : Half) (c : Nat) (d : BitVec 256)
  | vec (h : Half) (c : Nat) (d : BitVec 256)
  | attn (h : Half) (c : Nat) (d : BitVec 512)
  | semAcquire (h : Half) (c : Nat) (d : BitVec 256)
  | semRelease (h : Half) (c : Nat) (d : BitVec 256)
  | gate (h : Half) (c : Nat) (d : BitVec 256)
  | gateOpen (h : Half) (c : Nat) (t : Time)
  | moor (h : Half) (c : Nat) (d : BitVec 256)
  | contextSaveDone (h : Half) (c : Nat)
  | contextRestore (h : Half) (c : Nat)
  | tally (h : Half) (c : Nat) (d : BitVec 256)
  | endCmd (h : Half) (c : Nat) (d : BitVec 256)
  | commandComplete (h : Half) (c : Nat) (k : Nat)
  | lbistEnd (h : Half) (c : Nat) (pass : Bool)
  | rollPassEnd (h : Half) (c : Nat)
  -- queues, contexts, Manifest
  | doorbell (h : Half) (src : Src) (ofs : Nat) (bs : List Byte)
  | dispatchChoice (h : Half)
  | coreHandover (h : Half) (c : Nat)
  | contextRunnable (h : Half) (n : Nat) (t : Time)
  | swapDrain (h : Half) (cl : Nat)
  | completionRecord (h : Half) (q : Nat)
  | abort (h : Half) (src : Src) (r : BitVec 128)
  | quayDescriptorWrite (h : Half) (q ofs : Nat) (bs : List Byte)
  | contextEntryWrite (h : Half) (n ofs : Nat) (bs : List Byte)
  | step (h : Half) (src : Src) (r : BitVec 256)
  | propose (h : Half) (src : Src) (r : BitVec 256)
  | accept (h : Half) (src : Src) (r : BitVec 256)
  | append (h : Half) (src : Src) (r : BitVec 256)
  | finish (h : Half) (src : Src) (r : BitVec 256)
  | resume (h : Half) (src : Src) (r : BitVec 256)
  | release (h : Half) (src : Src) (r : BitVec 256)
  | pageReturn (h : Half)
  -- memory system
  | perBankRefresh (h : Half) (ch bank : Nat)
  | rfm (h : Half) (ch bank : Nat)
  | patrolScrub (h : Half) (g : Nat) (t : Time)
  | retraining (h : Half) (ch : Nat) (ok : Bool)
  -- host link
  | bar4Write (h : Half) (ofs : Nat) (bs : List Byte)
  | bar4Read (h : Half) (ofs n : Nat)
  | bar0Write (h : Half) (ofs : Nat) (bs : List Byte)
  | hdPerstN (h : Half)
  | linkDown (h : Half)
  | linkUp (h : Half)
  | halfState (h : Half)
  | hostAlive (h : Half) (count : Nat)
  | hostHeartbeatMiss (h : Half)
  | hostCplTimeout (h : Half) (c k : Nat) (how : CplError)
  | hdPerstNRelease (h : Half)
  | adapterRetry (h : Half)
  | configurationRequest (h : Half) (wr : Bool) (ofs : Nat) (bs : List Byte)
  | msixUnmask (h : Half) (v : Nat)
  -- Ferry and Causeway
  | rdReq (h : Half) (p : Port) (m : LinkMsg)
  | rdData (h : Half) (p : Port) (m : LinkMsg)
  | wr (h : Half) (p : Port) (m : LinkMsg)
  | wrAck (h : Half) (p : Port) (m : LinkMsg)
  | or8 (h : Half) (p : Port) (m : LinkMsg)
  | orAck (h : Half) (p : Port) (m : LinkMsg)
  | counter (h : Half) (m : LinkMsg)
  | counterAck (h : Half) (m : LinkMsg)
  | dict (h : Half)
  | frame (h : Half) (t : Time)
  | nak (h : Half) (p : Port) (seq : Nat)
  | flitCrcFailure (h : Half) (p : Port) (seq : Nat)
  | heartbeatSend (h : Half) (p : Port) (t : Time)
  | heartbeat (h : Half) (p : Port)
  | heartbeatMiss (h : Half) (p : Port)
  | timeSend (h : Half) (t : Time)
  | time (h : Half) (t : Time)
  | retrain (h : Half) (p : Port)
  | retrainDone (h : Half) (p : Port) (ok : Bool)
  | trainingDone (h : Half) (p : Port) (dev : Nat) (sig : BitVec 32)
  -- time base
  | sync (h : Half) (port : Nat) (gm : Time) (t : Time)
  | syncReceiptTimeout (h : Half)
  | announceReceiptTimeout (h : Half)
  | announce (h : Half) (port : Nat) (a : Announce)
  | pdelay (h : Half) (port : Nat) (t1 t2 t3 t4 : Time)
  | syncSend (h : Half) (port : Nat) (t : Time)
  | stepAccept (h : Half) (r : Req) (v : BitVec 32)
  | stepApply (t : Time)
  -- switch
  | frameIngress (h : Half) (port : Nat) (bs : List Byte) (fcs : Bool) (t : Time)
  | txDescriptorTake (h : Half) (tc : Nat) (t : Time)
  | launch (h : Half) (tc : Nat) (t : Time)
  | gclCycleStart (h : Half) (port : Nat) (t : Time)
  | frerReset (h : Half) (e : Nat)
  -- cameras, triggers, captures
  | frameStart (h : Half) (port vc no : Nat) (ecc : Ecc) (t : Time)
  | line (h : Half) (port vc dt : Nat) (bs : List Byte) (crc : Bool) (ecc : Ecc) (t : Time)
  | embeddedData (h : Half) (port vc : Nat) (bs : List Byte) (ecc : Ecc) (t : Time)
  | frameEnd (h : Half) (port vc : Nat) (ecc : Ecc) (t : Time)
  | frameTimeout (h : Half) (port v : Nat) (t : Time)
  | triggerInstant (h : Half) (k : Nat) (t : Time)
  | triggerPulseEnd (h : Half) (k : Nat) (t : Time)
  | captureEdge (h : Half) (k : Nat) (rising : Bool) (t : Time)
  -- control loops and CAN
  | sample (h : Half) (hits : List (Nat × Nat)) (t : Time)
  | close (h : Half) (r : Req) (target : Half) (n : Nat)
  | openLoop (h : Half) (r : Req) (target : Half) (n : Nat)
  | closeFail (h : Half) (n : Nat) (t : Time)
  | following (h : Half) (n : Nat)
  | canReceive (h : Half) (c : Nat) (f : CanFrame) (t : Time)
  | canTxTake (h : Half) (c : Nat) (t : Time)
  | canTransmit (h : Half) (c : Nat) (t : Time)
  | arbitrationLost (h : Half) (c cause : Nat) (t : Time)
  | busOffRecovery (h : Half) (c : Nat)
  | abdDwell (h : Half) (c : Nat)
  | controllerChange (h : Half) (c : Nat)
  -- safety
  | safetyFrame (h : Half) (t : Time)
  | safetyFrameFallback (h : Half) (t : Time)
  | springDue (h : Half) (c : Nat) (t : Time)
  | springSegmentDone (h : Half) (c : Nat) (pass rerun : Bool) (t : Time)
  | springLate (h : Half) (c : Nat) (t : Time)
  | lockstepCe (h : Half) (t : Time)
  | lockstepSm (h : Half) (t : Time)
  | clockDrift (h : Half) (t : Time)
  | safetyMessageRepeat (h : Half) (t : Time)
  | peerFaultN (h : Half) (t : Time)
  | lifeboatDigestDone (h : Half) (t : Time)
  | rejoin (h : Half) (r : Req) (target : Half)
  | handover (h : Half) (r : Req) (target : Half)
  | halfCmdResume (h : Half) (r : Req) (target : Half)
  -- dictionary, transactions, recorder
  | read (h : Half) (r : Req) (msg : List Byte)
  | write (h : Half) (r : Req) (msg : List Byte)
  | describe (h : Half) (r : Req) (msg : List Byte)
  | canSegment (h : Half) (client : Nat) (bs : List Byte)
  | udpDatagram (h : Half) (addr port : Nat) (bs : List Byte)
  | mailboxGo (h : Half) (mb : Nat) (w : BitVec 64)
  | mirrorApply (t : Time)
  | begin (h : Half) (r : Req)
  | commit (h : Half) (r : Req) (t : Time)
  | rollback (h : Half) (r : Req)
  | commitBoundary (t : Time)
  | commitFrameTimeout (t : Time)
  | txnTimeout (t : Time)
  | recordEmit (h : Half) (i : Nat) (t : Time)
  | recClear (h : Half) (r : Req) (target : Half) (n : BitVec 32)
  -- boot, identity, update
  | resetRelease (h : Half)
  | firstStageVerified (h : Half)
  | mainFirmwareStart (h : Half)
  | attestNonce (h : Half) (r : Req) (target : Half) (nonce : List Byte)
  | attestReport (h : Half) (t : Time)
  | ownerRecord (h : Half) (r : Req) (bs : List Byte)
  | settingsRecord (h : Half) (r : Req) (bs : List Byte)
  | fwWrite (h : Half) (r : Req) (target : Half) (ofs : Nat) (bs : List Byte)
  | erase (h : Half) (r : Req) (target : Half)
  | verify (h : Half) (r : Req) (target : Half)
  | activate (h : Half) (r : Req) (target : Half)
  | commitSvn (h : Half) (r : Req) (target : Half)
  | fwTrialTimeout (h : Half)
  | load (h : Half) (r : Req) (target : Half)
  | loadDone (h : Half)
  | unload (h : Half) (r : Req) (target : Half)
  -- power, clocks, start-up, board
  | opRequest (h : Half) (r : Req) (target : Half) (p : Nat)
  | opChange (h : Half) (t : Time)
  | vrAck (h : Half) (t : Time)
  | vrTimeout (h : Half) (t : Time)
  | thermalSample (h : Half) (temps : List Int) (t : Time)
  | throttle (h : Half) (t : Time)
  | powerReqRun (h : Half) (r : Req) (target : Half)
  | powerReqIdle (h : Half) (r : Req) (target : Half)
  | powerReqNap (h : Half) (r : Req) (target : Half)
  | idleEntry (h : Half) (t : Time)
  | napEntryDone (h : Half) (t : Time)
  | standbyReq (h : Half) (r : Req)
  | dWake
  | canWake (h : Half)
  | suppliesApplied (h : Half)
  | supplyFault (h : Half) (rail : Nat)
  | resetNAssert (h : Half)
  | dramZeroWrite (h : Half)
  | ready3 (h : Half) (t : Time)
  | startupBoundMiss (h : Half)
  | napWakeDone (h : Half) (t : Time)
  | boundaryScan (rising tms tdi : Bool)
  deriving DecidableEq, Repr

end Sys2Proof
end

