-- ==== Sys2Proof/Machine/Bits.lean ====
section
/-! DEFINITION. Bit fields, sign extension and little-endian byte strings (R8, R37). -/
namespace Sys2Proof.Machine

/-- Bits `[hi:lo]` of `d` (R8). -/
def fld (d hi lo : Nat) : Nat := (d >>> lo) % 2 ^ (hi + 1 - lo)

/-- Bit `i` of `d`. -/
def bitAt (d i : Nat) : Bool := d.testBit i

/-- The two's complement value of the low `w` bits of `n`. -/
def sext (w n : Nat) : Int :=
  let m := n % 2 ^ w
  if m < 2 ^ (w - 1) then (m : Int) else (m : Int) - (2 ^ w : Nat)

/-- The two's complement encoding of `i` in `w` bits. -/
def twos (w : Nat) (i : Int) : Nat := (i % ((2 ^ w : Nat) : Int)).toNat

/-- 1 for true, 0 for false. -/
def b2n (b : Bool) : Nat := if b then 1 else 0

/-- The number a little-endian byte string holds (R37). -/
def leNat : List Byte → Nat
  | [] => 0
  | b :: bs => b.toNat + 256 * leNat bs

/-- The `w` bytes of `n`, least significant first (R37). -/
def natLe (w n : Nat) : List Byte :=
  match w with
  | 0 => []
  | w + 1 => BitVec.ofNat 8 n :: natLe w (n / 256)

/-- `f 0, f 1, ..., f (n-1)` in order. -/
def upto {α : Type} (n : Nat) (f : Nat → α) : List α := (List.range n).map f

/-- The sum of an integer list. -/
def isum (l : List Int) : Int := l.foldl (· + ·) 0

/-- Round `n` up to a multiple of `k`. -/
def roundUp (k n : Nat) : Nat := (n + (k - 1)) / k * k

/-- Saturating addition to a counter of `w` bits ("stops at all ones"). -/
def satAdd (w a b : Nat) : Nat := min (a + b) (2 ^ w - 1)

/-- The position-`i` element of a list of numbers, 0 beyond its end. -/
def nth (l : List Nat) (i : Nat) : Nat := l.getD i 0

/-- `v` held between `lo` and `hi`. -/
def clampI (lo hi v : Int) : Int := if v < lo then lo else if v > hi then hi else v

end Sys2Proof.Machine
end

