-- ==== Sys2Proof/Machine/Sha384.lean ====
section
/-! DEFINITION. SHA-384 (FIPS 180-4), which the spec names for digests of images, keys and records (R396, R432, R445).
The constants are computed from their definition in that standard: fractions of square and cube roots of primes. -/
namespace Sys2Proof.Machine

/-- The primes below 410, of which there are 80. -/
def shaPrimes : List Nat :=
  (List.range 410).filter (fun n => 1 < n ∧ (List.range 21).all (fun d => d < 2 ∨ n ≤ d ∨ n % d ≠ 0))

/-- The largest number below 2^bits whose power `k` is at most `n`, found bit by bit. -/
def rootBits (k n : Nat) : Nat → Nat → Nat
  | 0, acc => acc
  | b + 1, acc => rootBits k n b (if (acc + 2 ^ b) ^ k ≤ n then acc + 2 ^ b else acc)

/-- The first 64 bits of the fraction of the root of degree `k` of a prime below 2^16. -/
def rootFraction (k p : Nat) : BitVec 64 := BitVec.ofNat 64 (rootBits k (p * 2 ^ (64 * k)) 72 0)

/-- The additive constant of each round: the cube roots of the primes. -/
def shaConstants : List (BitVec 64) := shaPrimes.map (rootFraction 3)

/-- The hash value before the first block: the square roots of the ninth to the sixteenth prime. -/
def shaStart : List (BitVec 64) := ((shaPrimes.drop 8).take 8).map (rootFraction 2)

/-- The exclusive or of a word rotated right by each of some amounts. -/
def rotations (x : BitVec 64) (ns : List Nat) : BitVec 64 :=
  ns.foldl (fun acc n => acc ^^^ x.rotateRight n) 0

/-- The number that a byte list spells, its first byte most significant. -/
def beNat : List Byte → Nat
  | [] => 0
  | b :: bs => b.toNat * 256 ^ bs.length + beNat bs

/-- The `w` bytes of a number, most significant first. -/
def natBe (w n : Nat) : List Byte := (natLe w n).reverse

/-- A message with its closing bit, zeros up to 16 bytes short of a whole block, and its length in bits. -/
def shaPad (bs : List Byte) : List Byte :=
  let tail := natBe 16 (8 * bs.length)
  bs ++ 0x80#8 :: List.replicate ((2 * 128 - 17 - bs.length % 128) % 128) 0#8 ++ tail

/-- The schedule word that follows, from the words before it, newest first. -/
def shaExtend (ws : List (BitVec 64)) : BitVec 64 :=
  match ws[14]?, ws[1]?, ws[15]?, ws[6]? with
  | some early, some late, some oldest, some middle =>
    oldest + (rotations early [1, 8] ^^^ early >>> 7) + middle + (rotations late [19, 61] ^^^ late >>> 6)
  | _, _, _, _ => 0

/-- `n` words more of a schedule, newest first. -/
def shaExpand : Nat → List (BitVec 64) → List (BitVec 64)
  | 0, ws => ws
  | n + 1, ws => shaExpand n (shaExtend ws :: ws)

/-- The 80 words of a block's schedule, in order. -/
def shaSchedule (block : List Byte) : List (BitVec 64) :=
  (shaExpand 64 (upto 16 (fun j => BitVec.ofNat 64 (beNat ((block.drop (8 * j)).take 8)))).reverse).reverse

/-- One round over the eight working words. -/
def shaRound (words : List (BitVec 64)) (add : BitVec 64) : List (BitVec 64) :=
  match words with
  | [p, q, r, s, t, u, v, w] =>
    let choice := v ^^^ (t &&& (u ^^^ v))
    let majority := (p &&& (q ||| r)) ||| (q &&& r)
    let first := w + rotations t [14, 18, 41] + choice + add
    [first + rotations p [28, 34, 39] + majority, p, q, r, s + first, t, u, v]
  | _ => words

/-- Take one block into the hash value. -/
def shaBlock (hash : List (BitVec 64)) (block : List Byte) : List (BitVec 64) :=
  let adds := List.zipWith (· + ·) shaConstants (shaSchedule block)
  List.zipWith (· + ·) hash (adds.foldl shaRound hash)

/-- The hash value after the first `n` blocks of a padded message. -/
def shaHash (m : List Byte) : Nat → List (BitVec 64)
  | 0 => shaStart
  | n + 1 => shaBlock (shaHash m n) ((m.drop (128 * n)).take 128)

/-- The SHA-384 digest of a byte string: the first six words of the hash value, 48 bytes. -/
def sha384 (bs : List Byte) : List Byte :=
  let m := shaPad bs
  ((shaHash m (m.length / 128)).take 6).flatMap (fun w => natBe 8 w.toNat)

end Sys2Proof.Machine
end

