-- ==== Sys2Proof/Config.lean ====
section
/-! DEFINITION. What the spec leaves open: constants without a body, of which no proof can know a value (log 7, 9, 11, 12, 14, 15, 19, 25). -/
namespace Sys2Proof.Config

/-- A free value: what the spec calls undefined or does not state, one for each value of `State.freeCtr` (DESIGN CHOICE, log 9). -/
opaque freeNat : Nat → Nat

/-- What a byte of host memory that nothing has written reads as, by bus address (DESIGN CHOICE, log 7). -/
opaque hostByte : Nat → BitVec 8

/-- What a byte of a firmware slot that this model has not written holds, by half, slot and offset (DESIGN CHOICE, log 19). -/
opaque slotByte : Nat → Nat → Nat → BitVec 8

/-- Whether both signatures of a signed record verify (R432): its signed bytes, public-key block and signatures (DESIGN CHOICE, log 11). -/
opaque signaturesVerify : List (BitVec 8) → List (BitVec 8) → List (BitVec 8) → Bool

/-- The two signatures a half makes over a record body, by half (R439; DESIGN CHOICE, log 11). -/
opaque signReport : Nat → List (BitVec 8) → List (BitVec 8)

/-- The public-key block of a half's identity keys (R437, R439; DESIGN CHOICE, log 11). -/
opaque identityKeys : Nat → List (BitVec 8)

/-- The vendor root-key digest in mask ROM (R432; DESIGN CHOICE, log 11). -/
opaque rootDigest : List (BitVec 8)

/-- SHA-384 of the part record of a half, and of its service entries in force from their bytes (R439; DESIGN CHOICE, log 11). -/
opaque recordDigest : Nat → List (BitVec 8) → List (BitVec 8)

/-- Whether a half rebuilds its PUF seed and its helper data match (R437; DESIGN CHOICE, log 11). -/
opaque pufGood : Nat → Bool

/-- The identity certificates in flash, by half and kind (R438; DESIGN CHOICE, log 19). -/
opaque identityCert : Nat → Nat → List (BitVec 8)

/-- The static filtering database (R308): half, VLAN, destination MAC to a mask of egress ports, 0 for an unknown destination (DESIGN CHOICE, log 12). -/
opaque filterPorts : Nat → Nat → Nat → Nat

/-- Rate change of the time servo for a measured offset, in parts per billion (R298; DESIGN CHOICE, log 14). -/
opaque servoGain : Int → Int

/-- Whether the last place of a scaled correctionField is rounded up (R310; DESIGN CHOICE, log 14). -/
opaque rateRounds : Int → Bool

/-- The PCIe vendor ID of configuration space (R262; PRESUMED, log 15). -/
opaque vendorId : BitVec 16

/-- Cells of the boundary register (R482; DESIGN CHOICE, log 25). -/
opaque boundaryCells : Nat

end Sys2Proof.Config
end

