-- ==== Sys2Proof/Machine/Tab.lean ====
section
/-! DEFINITION. Sparse tables: a list of (key, value) pairs with rising keys, in which no value equals what an unlisted key reads as. -/
namespace Sys2Proof.Machine

/-- A sparse table by number. `Host.Cell` lists are the case of bytes. -/
abbrev Tab (α : Type) := List (Nat × α)

/-- The value listed for `k`, if any. -/
def Tab.find {α : Type} : Tab α → Nat → Option α
  | [], _ => none
  | (k', v) :: t, k => if k = k' then some v else Tab.find t k

/-- What key `k` reads as, with `d` for an unlisted key. -/
def Tab.get {α : Type} (d : α) (t : Tab α) (k : Nat) : α := (t.find k).getD d

/-- Put `v` at `k`, keys rising. -/
def Tab.insert {α : Type} : Tab α → Nat → α → Tab α
  | [], k, v => [(k, v)]
  | (k', v') :: t, k, v =>
    if k < k' then (k, v) :: (k', v') :: t
    else if k = k' then (k, v) :: t
    else (k', v') :: Tab.insert t k v

/-- Take `k` out of the table. -/
def Tab.erase {α : Type} : Tab α → Nat → Tab α
  | [], _ => []
  | (k', v') :: t, k => if k = k' then t else (k', v') :: Tab.erase t k

/-- Write `v` at `k`; writing what an unlisted key reads as takes the entry out. -/
def Tab.set {α : Type} [DecidableEq α] (d : α) (t : Tab α) (k : Nat) (v : α) : Tab α :=
  if v = d then Tab.erase t k else Tab.insert t k v

/-- Keys strictly rising, all above `lo` where one is given. -/
def Tab.sortedFrom {α : Type} : Option Nat → Tab α → Bool
  | _, [] => true
  | lo, (k, _) :: t => (match lo with | none => true | some b => decide (b < k)) && Tab.sortedFrom (some k) t

/-- The canonical form: keys strictly rising, no value equal to the default. -/
def Tab.wf {α : Type} [DecidableEq α] (d : α) (t : Tab α) : Bool :=
  Tab.sortedFrom none t && t.all (fun p => decide (p.2 ≠ d))

end Sys2Proof.Machine
end

