-- ==== Sys2Proof/Machine/Codes.lean ====
section
/-! DEFINITION. The layout of DRAM addresses and the outer memory code (R246, R247, R249). -/
namespace Sys2Proof.Machine

/-! ### Where a half-local DRAM address lies (R246, R247) -/

/-- One byte of a channel group: the stack it lies on, and the bank, row and byte there. -/
structure DramPlace where
  stack : Nat
  bank : Nat
  row : Nat
  col : Nat
  deriving DecidableEq, Repr

/-- The place of byte `col` of row slot `t` of a group. -/
def slotPlace (t col : Nat) : DramPlace := ⟨t % 6, t / 6 % 16, t / 6 / 16, col⟩

/-- The channel group of a half-local address. -/
def dramGroup (a : Nat) : Nat := a / 2 ^ 34

/-- The data row of a half-local address within its group. -/
def dramRow (a : Nat) : Nat := (a % 2 ^ 34) / 2048

/-- The 64-byte line of a half-local address within its data row. -/
def dramLine (a : Nat) : Nat := a / 64 % 32

/-- The row slot of an address's data row. -/
def dataSlot (a : Nat) : Nat := 9 * (dramRow a / 8) + dramRow a % 8

/-- The row slot of an address's check row. -/
def checkSlot (a : Nat) : Nat := 9 * (dramRow a / 8) + 8

/-- Where the byte of a half-local address is stored. -/
def dataPlace (a : Nat) : DramPlace := slotPlace (dataSlot a) (a % 2048)

/-- Where the first of its line's 8 check bytes is stored. -/
def checkPlace (a : Nat) : DramPlace := slotPlace (checkSlot a) (dramRow a % 8 * 256 + dramLine a * 8)

/-- The channel of the half that serves stack `i` of group `g` (R246). -/
def channelOf (g i : Nat) : Nat := 4 * i + g

/-- The DRAM channel of a half-local address. -/
def dramChannel (a : Nat) : Nat := channelOf (dramGroup a) (dataPlace a).stack

/-! ### The field GF(2^8) (R249) -/

/-- Multiply by α = x, modulo x^8 + x^4 + x^3 + x^2 + 1. -/
def gfTwice (a : Nat) : Nat := if 128 ≤ a then (2 * a) ^^^ 0x11D else 2 * a

/-- Product in the field. -/
def gfMul (a b : Nat) : Nat :=
  ((List.range 8).foldl (fun (r : Nat × Nat) i => (if bitAt b i then r.1 ^^^ r.2 else r.1, gfTwice r.2)) (0, a)).1

/-- α to the power `n`; α has order 255. -/
def gfExp (n : Nat) : Nat := (List.range (n % 255)).foldl (fun x _ => gfTwice x) 1

/-- Power of a field element. -/
def gfPow (a : Nat) : Nat → Nat
  | 0 => 1
  | n + 1 => gfMul a (gfPow a n)

/-- Inverse: the power 254. -/
def gfInv (a : Nat) : Nat :=
  let a3 := gfMul a (gfMul a a)
  let sq (x : Nat) : Nat := gfMul x x
  let a12 := sq (sq a3)
  let a15 := gfMul a12 a3
  let a240 := sq (sq (sq (sq a15)))
  gfMul a240 (gfMul a12 (sq a))

/-- The value at `x` of a polynomial given from its constant term up. -/
def gfEval (p : List Nat) (x : Nat) : Nat := p.foldr (fun c r => c ^^^ gfMul r x) 0

/-- Sum of two polynomials. -/
def gfAdd (p q : List Nat) : List Nat := upto (max p.length q.length) (fun i => nth p i ^^^ nth q i)

/-! ### The code RS(72,64) (R249) -/

/-- The generator (x − α^0)(x − α^1)…(x − α^7), from its constant term up. -/
def rsGenerator : List Nat :=
  (List.range 8).foldl (fun p i => gfAdd (0 :: p) (p.map (gfMul (gfExp i)))) [1]

/-- The four virtual symbols of a line: bits [36:6] of its half-local address (R249). -/
def addressSymbols (a : Nat) : List Nat := upto 4 (fun i => fld a 36 6 / 2 ^ (8 * i) % 256)

/-- The remainder of a message, its first symbol the coefficient of the highest power, shifted past the check symbols; the last remainder symbol is the constant term. -/
def rsRemainder (msg : List Nat) : List Nat :=
  msg.foldl (fun r m =>
    let f := m ^^^ nth r 0
    upto 8 (fun i => nth (r.drop 1) i ^^^ gfMul f (nth rsGenerator (7 - i)))) (List.replicate 8 0)

/-- The 8 check bytes of a line of half-local address `a` (R249; the order of the symbols in the codeword is a DESIGN CHOICE, log 32). -/
def rsCheck (data : List Nat) (a : Nat) : List Nat := rsRemainder (data ++ addressSymbols a)

/-- The power of x that stored byte `j` of a codeword stands at: 64 data bytes, then 8 check bytes, with the four virtual symbols between them. -/
def storedPower (j : Nat) : Nat := if j < 64 then 75 - j else 71 - j

/-- The stored byte that stands at a power, unless a virtual symbol does. -/
def powerStored (p : Nat) : Option Nat := if p < 8 then some (71 - p) else if p < 12 then none else some (75 - p)

/-- The syndromes of a pattern of errors: stored byte and the bits that are wrong in it. -/
def syndromes (e : Tab Nat) : List Nat :=
  upto 8 (fun i => e.foldl (fun r p => r ^^^ gfMul p.2 (gfExp (i * storedPower p.1))) 0)

/-- A step of the search for the shortest recurrence: connection polynomial, its predecessor, length, shift and predecessor's discrepancy. -/
structure Recur where
  c : List Nat
  b : List Nat
  len : Nat
  shift : Nat
  disc : Nat
  deriving DecidableEq, Repr

/-- Take syndrome `n` into the recurrence (Berlekamp and Massey). -/
def recurStep (syn : List Nat) (r : Recur) (n : Nat) : Recur :=
  let d := (List.range (r.len + 1)).foldl (fun x i => x ^^^ gfMul (nth r.c i) (nth syn (n - i))) 0
  if d = 0 then { r with shift := r.shift + 1 }
  else
    let k := gfMul d (gfInv r.disc)
    let c := gfAdd r.c (List.replicate r.shift 0 ++ r.b.map (gfMul k))
    if 2 * r.len ≤ n then ⟨c, r.c, n + 1 - r.len, 1, d⟩ else { r with c := c, shift := r.shift + 1 }

/-- The pattern of at most four wrong stored bytes that has given syndromes, if there is one (R249). -/
def nearPattern (syn : List Nat) : Option (Tab Nat) :=
  let r := (List.range 8).foldl (recurStep syn) ⟨[1], [1], 0, 1, 1⟩
  let powers := (List.range 76).filter (fun p => gfEval r.c (gfExp (255 - p)) == 0)
  if 4 < r.len ∨ powers.length ≠ r.len then none
  else
    let omega := upto 8 (fun n => (List.range (n + 1)).foldl (fun x i => x ^^^ gfMul (nth r.c i) (nth syn (n - i))) 0)
    let slope := upto r.c.length (fun i => if i % 2 = 0 then nth r.c (i + 1) else 0)
    let value (p : Nat) : Nat :=
      let x := gfExp (255 - p)
      gfMul (gfExp p) (gfMul (gfEval omega x) (gfInv (gfEval slope x)))
    let found := powers.filterMap (fun p => (powerStored p).map (fun j => (j, value p)))
    let e := found.foldl (fun (t : Tab Nat) p => Tab.set 0 t p.1 p.2) []
    if found.length = r.len ∧ syndromes e = syn then some e else none

/-- What the decoder takes for the errors of a codeword whose errors are `e`: up to 4 wrong bytes are found as they are; a codeword with more is uncorrectable unless it lies within 4 bytes of another codeword (R249). -/
def decodePattern (e : Tab Nat) : Option (Tab Nat) := if e.length ≤ 4 then some e else nearPattern (syndromes e)

end Sys2Proof.Machine
end

