-- ==== Sys2Proof/Machine/DictTable.lean ====
section
/-! DEFINITION. The entries of the object dictionary: index, sub-index, type, access, default and range, as the entry tables of the spec give them (R10, R20, R403 to R407). -/
namespace Sys2Proof.Machine

/-- Entry types (R404). -/
inductive DType where
  | bool | u8 | u16 | u32 | u64 | i8 | i16 | i32 | i64 | f32 | time48 | str | domain
  deriving DecidableEq, Repr

/-- Access rights (R404). -/
inductive DAcc where
  | const | ro | wo | rw | rwt
  deriving DecidableEq, Repr

/-- Where an entry's default comes from: a number, a run of zero bytes, the part record, the channel's own number (`VC`), the port (`PORT_EN`, `SPEED_MBPS`). -/
inductive DDef where
  | num (n : Nat) | zeros (n : Nat) | part | chan | portEn | portSpeed
  deriving DecidableEq, Repr

/-- One row of an entry table: first sub-index, number of sub-indices, name, type, access, default, allowed range (of the signed value for signed types), required multiple (0: any). -/
structure Entry where
  sub : Nat
  subs : Nat
  name : String
  typ : DType
  acc : DAcc
  dflt : DDef
  range : Option (Int × Int)
  step : Nat
  deriving DecidableEq, Repr

/-- The R404 type code. -/
def dtypeCode : DType → Nat
  | .bool => 1 | .u8 => 2 | .u16 => 3 | .u32 => 4 | .u64 => 5 | .i8 => 6 | .i16 => 7 | .i32 => 8 | .i64 => 9
  | .f32 => 10 | .time48 => 11 | .str => 12 | .domain => 13

/-- The R404 access code. -/
def daccCode : DAcc → Nat
  | .const => 0 | .ro => 1 | .wo => 2 | .rw => 3 | .rwt => 4

/-- Bytes of a value of a fixed-size type (R404); 0 for STR and DOMAIN. -/
def dtypeBytes : DType → Nat
  | .bool | .u8 | .i8 => 1
  | .u16 | .i16 => 2
  | .u32 | .i32 | .f32 => 4
  | .u64 | .i64 | .time48 => 8
  | .str | .domain => 0

/-- True for the signed types. -/
def dtypeSigned : DType → Bool
  | .i8 | .i16 | .i32 | .i64 => true
  | _ => false

/-- Entries of index 0x1000 (R7, R358, R435). -/
def rows1000 : List Entry :=
  [⟨0x01, 1, "PART_NUMBER", .str, .const, .part, none, 0⟩,
   ⟨0x02, 1, "STEPPING", .u8, .const, .num 0x10, none, 0⟩,
   ⟨0x03, 1, "GRADE", .u16, .const, .part, none, 0⟩,
   ⟨0x04, 1, "HOST_DIE_CODE", .u8, .const, .part, none, 0⟩,
   ⟨0x05, 1, "TEMP_GRADE", .u8, .const, .num 2, none, 0⟩,
   ⟨0x06, 1, "ARITH_SIGNATURE", .u32, .ro, .num 0x1010000, none, 0⟩,
   ⟨0x07, 1, "SERIAL", .domain, .const, .part, none, 0⟩]

/-- Entries of index 0x1100 (R21). -/
def rows1100 : List Entry :=
  [⟨0x01, 1, "SHAPE_VERSION", .u16, .const, .num 1, none, 0⟩,
   ⟨0x02, 1, "HALVES", .u8, .const, .num 2, none, 0⟩,
   ⟨0x03, 1, "CLUSTERS_PER_HALF", .u8, .const, .part, none, 0⟩,
   ⟨0x04, 1, "CORES_PER_HALF", .u16, .const, .part, none, 0⟩,
   ⟨0x05, 1, "ARRAYS_PER_CORE", .u8, .const, .num 0x40, none, 0⟩,
   ⟨0x06, 1, "POOL_KIB", .u32, .const, .num 0x800, none, 0⟩,
   ⟨0x07, 1, "MERE_KIB", .u32, .const, .num 0x2000, none, 0⟩,
   ⟨0x08, 1, "MERE_WAYS", .u8, .const, .num 0x10, none, 0⟩,
   ⟨0x09, 1, "DRAM_CHANNELS", .u8, .const, .num 0x18, none, 0⟩,
   ⟨0x0A, 1, "CHANNEL_GROUPS", .u8, .const, .num 4, none, 0⟩,
   ⟨0x0B, 1, "DRAM_GIB", .u16, .const, .num 0x40, none, 0⟩,
   ⟨0x0C, 1, "QUEUES", .u32, .const, .num 0x20000, none, 0⟩,
   ⟨0x0D, 1, "CONTEXTS", .u16, .const, .num 0x1000, none, 0⟩,
   ⟨0x0E, 1, "RESIDENT_SLOTS", .u8, .const, .num 0x10, none, 0⟩,
   ⟨0x0F, 1, "MANIFEST_ENTRIES", .u16, .const, .num 0x2000, none, 0⟩,
   ⟨0x10, 1, "CAUSEWAY_PORTS", .u8, .const, .num 2, none, 0⟩,
   ⟨0x11, 1, "MAX_DEVICES", .u8, .const, .num 4, none, 0⟩]

/-- Entries of index 0x1F00 (R415). -/
def rows1F00 : List Entry :=
  [⟨0x01, 1, "TXN_STATE", .u8, .ro, .num 0, none, 0⟩,
   ⟨0x02, 1, "TXN_CMD", .u8, .wo, .num 0, some ((1), (3)), 0⟩,
   ⟨0x03, 1, "TXN_ID", .u32, .ro, .num 0, none, 0⟩,
   ⟨0x04, 1, "TXN_OWNER", .u64, .ro, .num 0, none, 0⟩,
   ⟨0x05, 1, "COMMIT_MODE", .u8, .rw, .num 0, some ((0), (1)), 0⟩,
   ⟨0x06, 1, "COMMIT_AT", .time48, .rw, .num 0, none, 0⟩,
   ⟨0x07, 1, "COMMIT_FRAME_SRC", .u16, .rwt, .num 0, some ((0), (47)), 0⟩,
   ⟨0x08, 1, "TXN_STAGED", .u16, .ro, .num 0, none, 0⟩,
   ⟨0x09, 1, "TXN_RESULT", .u8, .ro, .num 0, none, 0⟩,
   ⟨0x0A, 1, "TXN_FAIL_ENTRY", .u32, .ro, .num 0, none, 0⟩,
   ⟨0x0B, 1, "TXN_BOUNDARY", .time48, .ro, .num 0, none, 0⟩,
   ⟨0x0C, 1, "TXN_TIMEOUTS", .u32, .rw, .num 0, none, 0⟩]

/-- Entries of index 0x2600 (R290). -/
def rows2600 : List Entry :=
  [⟨0x01, 1, "DEVICE_NUMBER", .u8, .ro, .num 0, none, 0⟩,
   ⟨0x02, 1, "MESH_DEVICES", .u8, .rwt, .num 1, some ((1), (4)), 0⟩,
   ⟨0x03, 1, "MESH_SIG_DIFFERS", .bool, .ro, .num 0, none, 0⟩]

/-- Entries of index 0x2800 (R299, R301, R303, R305). -/
def rows2800 : List Entry :=
  [⟨0x01, 1, "TIME_LEADER", .u8, .rwt, .num 0, some ((0), (1)), 0⟩,
   ⟨0x02, 1, "STEP_THRESHOLD_NS", .u32, .rwt, .num 0x4e20, some ((1000), (1000000)), 0⟩,
   ⟨0x03, 1, "SYNC_LOG_INTERVAL", .i8, .rwt, .num 0xfd, some ((-5), (0)), 0⟩,
   ⟨0x04, 1, "GM_CAPABLE", .bool, .rwt, .num 0, none, 0⟩,
   ⟨0x05, 1, "PRIORITY1", .u8, .rwt, .num 0xf8, none, 0⟩,
   ⟨0x06, 1, "PORT_ROLE_MODE", .u8, .rwt, .num 0, some ((0), (1)), 0⟩,
   ⟨0x07, 1, "STEP_ID", .u32, .ro, .num 0, none, 0⟩,
   ⟨0x08, 1, "STEP_PENDING_NS", .i64, .ro, .num 0, none, 0⟩,
   ⟨0x09, 1, "STEP_AT", .time48, .rw, .num 0, none, 0⟩,
   ⟨0x0A, 1, "STEP_ACCEPT", .u32, .wo, .num 0, none, 0⟩,
   ⟨0x0B, 1, "LAST_STEP_NS", .i64, .ro, .num 0, none, 0⟩,
   ⟨0x0C, 1, "LAST_STEP_AT", .time48, .ro, .num 0, none, 0⟩]

/-- Entries of index 0x2900 (R382, R388, R395, R398). -/
def rows2900 : List Entry :=
  [⟨0x01, 1, "PRIMARY_HALF", .u8, .rwt, .num 0, some ((0), (1)), 0⟩,
   ⟨0x02, 1, "SPRING_PERIOD_MS", .u16, .rwt, .num 0x64, some ((20), (1000)), 0⟩,
   ⟨0x03, 1, "DL_MISS_LIMIT", .u8, .rwt, .num 3, some ((1), (255)), 0⟩,
   ⟨0x04, 1, "HALF_CMD", .u8, .wo, .num 0, none, 0⟩]

/-- Entries of index 0x2A00 (R440, R441). -/
def rows2A00 : List Entry :=
  [⟨0x01, 1, "OWNER_RECORD", .domain, .wo, .zeros 0, none, 0⟩,
   ⟨0x02, 1, "OWNER_KEY_DIGEST", .domain, .ro, .zeros 48, none, 0⟩,
   ⟨0x03, 1, "OWNER_POLICY", .u8, .ro, .num 0, none, 0⟩,
   ⟨0x04, 1, "OWNER_EPOCH", .u32, .ro, .num 0, none, 0⟩,
   ⟨0x05, 1, "SETTINGS_RECORD", .domain, .wo, .zeros 0, none, 0⟩,
   ⟨0x06, 1, "SETTINGS_EPOCH", .u32, .ro, .num 0, none, 0⟩]

/-- Entries of index 0x2B00 (R458, R460). -/
def rows2B00 : List Entry :=
  [⟨0x01, 1, "DEVICE_POWER", .u8, .ro, .num 0, none, 0⟩,
   ⟨0x02, 1, "STANDBY_REQ", .u8, .wo, .num 0, some ((1), (1)), 0⟩]

/-- Entries of index 0x3000 (R423, R424, R427, R428). -/
def rows3000 : List Entry :=
  [⟨0x01, 1, "REC_HEAD", .u32, .ro, .num 0, none, 0⟩,
   ⟨0x02, 1, "REC_TAIL", .u32, .ro, .num 0, none, 0⟩,
   ⟨0x03, 1, "REC_HEAD_SEQ", .u32, .ro, .num 0, none, 0⟩,
   ⟨0x04, 1, "REC_CLEAR", .u32, .wo, .num 0, none, 0⟩,
   ⟨0x05, 1, "REC_SPAN_MS", .u16, .rwt, .num 0x3e8, some ((10), (60000)), 0⟩,
   ⟨0x06, 1, "REC_EARLY", .u32, .rw, .num 0, none, 0⟩]

/-- Entries of index 0x3100 (R429). -/
def rows3100 : List Entry :=
  [⟨0x01, 1, "RECORD", .domain, .ro, .zeros 64, none, 0⟩]

/-- Entries of index 0x4300 (R225, R226). -/
def rows4300 : List Entry :=
  [⟨0x01, 4, "CHGRP_CLASSES_G", .u8, .rwt, .num 0xf, none, 0⟩,
   ⟨0x05, 4, "MERE_WAYS_C", .u16, .rwt, .num 0xfff, none, 0⟩,
   ⟨0x09, 1, "MERE_SWAP_WAYS", .u16, .rwt, .num 0xf000, none, 0⟩,
   ⟨0x0A, 1, "SWAP_RESERVE_KIB", .u32, .rwt, .num 0x400, none, 0⟩,
   ⟨0x0B, 1, "CLASS0_RESERVED", .bool, .ro, .num 0, none, 0⟩]

/-- Entries of index 0x4400 (R182). -/
def rows4400 : List Entry :=
  [⟨0x01, 1, "PAGE_BASE", .u64, .rwt, .num 0, none, 4096⟩,
   ⟨0x02, 1, "PAGE_BYTES", .u32, .rwt, .num 0x4000, some ((4096), (1048576)), 4096⟩,
   ⟨0x03, 1, "PAGE_COUNT", .u32, .rwt, .num 0, some ((0), (16777216)), 0⟩,
   ⟨0x04, 1, "PAGES_FREE", .u32, .ro, .num 0, none, 0⟩,
   ⟨0x05, 1, "PAGES_DEFERRED", .u32, .ro, .num 0, none, 0⟩,
   ⟨0x06, 4, "PAGE_RESERVE_C", .u32, .rwt, .num 0, none, 0⟩,
   ⟨0x0A, 4, "PAGES_USED_C", .u32, .ro, .num 0, none, 0⟩]

/-- Entries of index 0x4401 (R182). -/
def rows4401 : List Entry :=
  [⟨0x01, 4, "ENTRY_RESERVE_C", .u16, .rwt, .num 0, none, 0⟩,
   ⟨0x05, 4, "ENTRIES_USED_C", .u16, .ro, .num 0, none, 0⟩]

/-- Entries of index 0x4440 (R187). -/
def rows4440 : List Entry :=
  [⟨0x01, 1, "LAYERS", .u8, .rwt, .num 1, some ((1), (64)), 0⟩,
   ⟨0x02, 1, "REC0_BYTES", .u32, .rwt, .num 0, none, 0⟩,
   ⟨0x03, 1, "REC1_BYTES", .u32, .rwt, .num 0, none, 0⟩,
   ⟨0x04, 1, "MAX_TOKENS", .u32, .rwt, .num 0, none, 0⟩]

/-- Entries of index 0x4500 (R259). -/
def rows4500 : List Entry :=
  [⟨0x01, 24, "DRAM_CORRECTED", .u32, .rw, .num 0, none, 0⟩]

/-- Entries of index 0x4501 (R259). -/
def rows4501 : List Entry :=
  [⟨0x01, 24, "DRAM_UNCORRECTABLE", .u32, .rw, .num 0, none, 0⟩]

/-- Entries of index 0x4502 (R259). -/
def rows4502 : List Entry :=
  [⟨0x01, 1, "LAST_UE_ADDR", .u64, .ro, .num 0, none, 0⟩,
   ⟨0x02, 1, "LAST_UE_TIME", .time48, .ro, .num 0, none, 0⟩,
   ⟨0x03, 1, "POISONED_LINES", .u32, .ro, .num 0, none, 0⟩,
   ⟨0x04, 4, "SCRUB_ROW_G", .u32, .ro, .num 0, none, 0⟩,
   ⟨0x08, 1, "RETRAIN_FAILS", .u32, .rw, .num 0, none, 0⟩,
   ⟨0x09, 1, "SRAM_CORRECTED", .u32, .rw, .num 0, none, 0⟩,
   ⟨0x0A, 1, "SRAM_UNCORRECTABLE", .u32, .rw, .num 0, none, 0⟩]

/-- Entries of index 0x4600 (R270, R272, R277). -/
def rows4600 : List Entry :=
  [⟨0x01, 1, "HOST_OFFSET", .u64, .rwt, .num 0, none, 0⟩,
   ⟨0x02, 1, "HOST_CPL_TIMEOUT_US", .u16, .rwt, .num 0xc8, some ((50), (10000)), 0⟩,
   ⟨0x03, 1, "LINK_UP", .bool, .ro, .num 0, none, 0⟩,
   ⟨0x04, 1, "LINK_DOWNS", .u32, .rw, .num 0, none, 0⟩,
   ⟨0x05, 1, "ADAPTER_RETRIES", .u32, .rw, .num 0, none, 0⟩,
   ⟨0x06, 1, "HOST_HEARTBEAT_MISSES", .u32, .rw, .num 0, none, 0⟩]

/-- Entries of index 0x4610 (R290). -/
def rows4610 : List Entry :=
  [⟨0x01, 1, "CW_STATE", .u8, .ro, .num 0, none, 0⟩,
   ⟨0x02, 1, "CW_PARTNER", .u8, .ro, .num 0xff, none, 0⟩,
   ⟨0x03, 1, "CW_REPLAYS", .u32, .rw, .num 0, none, 0⟩,
   ⟨0x04, 1, "CW_RETRAINS", .u32, .rw, .num 0, none, 0⟩,
   ⟨0x05, 1, "CW_FEC_CORRECTED", .u32, .rw, .num 0, none, 0⟩,
   ⟨0x06, 1, "CW_ID_MISMATCHES", .u32, .rw, .num 0, none, 0⟩,
   ⟨0x07, 1, "CW_SIG_DIFFERS", .bool, .ro, .num 0, none, 0⟩,
   ⟨0x08, 1, "CW_PARTNER_SIG", .u32, .ro, .num 0, none, 0⟩]

/-- Entries of index 0x4620 (R286). -/
def rows4620 : List Entry :=
  [⟨0x01, 1, "FERRY_STATE", .u8, .ro, .num 0, none, 0⟩,
   ⟨0x02, 1, "FERRY_REPLAYS", .u32, .rw, .num 0, none, 0⟩,
   ⟨0x03, 1, "FERRY_RETRAINS", .u32, .rw, .num 0, none, 0⟩,
   ⟨0x04, 1, "FERRY_DELAY_PS", .u32, .ro, .num 0, none, 0⟩,
   ⟨0x05, 1, "HEARTBEAT_MISSES", .u32, .rw, .num 0, none, 0⟩]

/-- Entries of index 0x4700 of one virtual channel, sub-index low digit (R317, R318, R319, R320, R322, R323). -/
def rows4700cam : List Entry :=
  [⟨0x00, 1, "CH_EN", .bool, .rwt, .num 0, none, 0⟩,
   ⟨0x01, 1, "VC", .u8, .rwt, .chan, some ((0), (15)), 0⟩,
   ⟨0x02, 1, "DATA_TYPE", .u8, .rwt, .num 0x2a, some ((42), (47)), 0⟩,
   ⟨0x03, 1, "WIDTH", .u16, .rwt, .num 0, none, 0⟩,
   ⟨0x04, 1, "LINES", .u16, .rwt, .num 0, none, 0⟩,
   ⟨0x05, 1, "PIX8_SHIFT", .u8, .rwt, .num 0xff, none, 0⟩,
   ⟨0x06, 1, "REGROUP", .u8, .rwt, .num 1, some ((1), (4)), 0⟩,
   ⟨0x07, 1, "LINE_UNIT", .u8, .rwt, .num 0, some ((0), (1)), 0⟩,
   ⟨0x08, 1, "RING_BASE", .u64, .rwt, .num 0, none, 4096⟩,
   ⟨0x09, 1, "SLOT_BYTES", .u32, .rwt, .num 0, none, 4096⟩,
   ⟨0x0A, 1, "SLOTS", .u8, .rwt, .num 2, some ((2), (16)), 0⟩,
   ⟨0x0B, 1, "LINE_PITCH", .u32, .rwt, .num 0, none, 64⟩,
   ⟨0x0C, 1, "MERE_BASE", .u64, .rwt, .num 0, none, 0⟩,
   ⟨0x0D, 1, "MERE_LINES", .u16, .rwt, .num 0, none, 0⟩,
   ⟨0x0E, 1, "CLASS", .u8, .rwt, .num 1, some ((0), (3)), 0⟩,
   ⟨0x0F, 1, "FRAME", .u32, .ro, .num 0, none, 0⟩]

/-- Entries of index 0x4700 (R317, R324, R326). -/
def rows4700 : List Entry :=
  [⟨0x01, 1, "PHY_MODE", .u8, .rwt, .num 0, some ((0), (2)), 0⟩,
   ⟨0x02, 1, "LANES", .u8, .rwt, .num 4, some ((1), (4)), 0⟩,
   ⟨0x03, 1, "RATE", .u16, .rwt, .num 0x5dc, some ((80), (6000)), 0⟩,
   ⟨0x04, 1, "SCRAMBLE", .bool, .rwt, .num 0, none, 0⟩,
   ⟨0x05, 1, "CSI_DELAY_NS", .u32, .rwt, .num 0, none, 0⟩,
   ⟨0x06, 1, "FRAME_TIMEOUT_US", .u32, .rwt, .num 0xc350, none, 0⟩,
   ⟨0x07, 1, "ECC_CORRECTED", .u32, .rw, .num 0, none, 0⟩,
   ⟨0x08, 1, "CRC_ERRORS", .u32, .rw, .num 0, none, 0⟩,
   ⟨0x09, 1, "DISCARDED", .u32, .rw, .num 0, none, 0⟩]

/-- Entries of index 0x4800 (R301, R307, R308, R309, R311, R313). -/
def rows4800 : List Entry :=
  [⟨0x01, 1, "PORT_EN", .bool, .rwt, .portEn, none, 0⟩,
   ⟨0x02, 1, "SPEED_MBPS", .u16, .rwt, .portSpeed, none, 0⟩,
   ⟨0x03, 1, "RX_PHY_NS", .i32, .rwt, .num 0, none, 0⟩,
   ⟨0x04, 1, "TX_PHY_NS", .i32, .rwt, .num 0, none, 0⟩,
   ⟨0x05, 1, "PTP_ROLE", .u8, .rwt, .num 0, some ((0), (3)), 0⟩,
   ⟨0x06, 1, "LINK_DELAY_NS", .u32, .ro, .num 0, none, 0⟩,
   ⟨0x07, 1, "GCL", .domain, .rwt, .zeros 0, none, 0⟩,
   ⟨0x08, 1, "GCL_LEN", .u16, .rwt, .num 0, some ((0), (256)), 0⟩,
   ⟨0x09, 1, "GCL_BASE", .time48, .rwt, .num 0, none, 0⟩,
   ⟨0x0A, 1, "GCL_CYCLE_NS", .u32, .rwt, .num 0xf4240, none, 0⟩,
   ⟨0x0B, 1, "TX_LATE_DROPS", .u32, .rw, .num 0, none, 0⟩,
   ⟨0x0C, 1, "RX_DROPS", .u32, .rw, .num 0, none, 0⟩]

/-- Entries of index 0x4810 (R316). -/
def rows4810 : List Entry :=
  [⟨0x01, 8, "TX_BASE_TC", .u64, .rwt, .num 0, none, 0⟩,
   ⟨0x09, 8, "TX_LOG2_TC", .u8, .rwt, .num 4, some ((4), (12)), 0⟩]

/-- Entries of index 0x4811 (R316). -/
def rows4811 : List Entry :=
  [⟨0x01, 16, "RX_BASE", .u64, .rwt, .num 0, none, 0⟩,
   ⟨0x11, 16, "RX_LOG2", .u8, .rwt, .num 4, some ((4), (14)), 0⟩,
   ⟨0x21, 16, "RX_SLOT_BYTES", .u16, .rwt, .num 0x80, some ((128), (9280)), 64⟩]

/-- Entries of index 0x4812 (R316). -/
def rows4812 : List Entry :=
  [⟨0x01, 1, "RX_RULES", .domain, .rwt, .zeros 0, none, 0⟩]

/-- Entries of index 0x4813 (R315). -/
def rows4813 : List Entry :=
  [⟨0x01, 1, "FRER_RESET_MS", .u16, .rwt, .num 0x64, none, 0⟩,
   ⟨0x02, 1, "FRER_RX", .domain, .rwt, .zeros 0, none, 0⟩]

/-- Entries of index 0x4900 (R327). -/
def rows4900 : List Entry :=
  [⟨0x01, 1, "TRIG_MODE", .u8, .rwt, .num 0, some ((0), (2)), 0⟩,
   ⟨0x02, 1, "TRIG_START", .time48, .rwt, .num 0, none, 0⟩,
   ⟨0x03, 1, "TRIG_PERIOD_NS", .u32, .rwt, .num 0xf4240, some ((1000), 4294967295), 0⟩,
   ⟨0x04, 1, "TRIG_WIDTH_NS", .u32, .rwt, .num 0x3e8, some ((20), 4294967295), 0⟩,
   ⟨0x05, 1, "TRIG_ACTIVE_LOW", .bool, .rwt, .num 0, none, 0⟩,
   ⟨0x06, 1, "TRIG_SKIPPED", .u32, .rw, .num 0, none, 0⟩,
   ⟨0x07, 1, "TRIG_NEXT", .time48, .ro, .num 0, none, 0⟩]

/-- Entries of index 0x4910 (R328). -/
def rows4910 : List Entry :=
  [⟨0x01, 1, "CAP_EDGE", .u8, .rwt, .num 0, some ((0), (3)), 0⟩,
   ⟨0x02, 1, "CAP_DELAY_NS", .i32, .rwt, .num 0, none, 0⟩,
   ⟨0x03, 1, "CAP_RING", .u64, .rwt, .num 0, none, 8⟩,
   ⟨0x04, 1, "CAP_LOG2", .u8, .rwt, .num 6, some ((4), (12)), 0⟩,
   ⟨0x05, 1, "CAP_COUNT", .u32, .ro, .num 0, none, 0⟩,
   ⟨0x06, 1, "CAP_LOST", .u32, .rw, .num 0, none, 0⟩]

/-- Entries of index 0x4A00 (R300, R306). -/
def rows4A00 : List Entry :=
  [⟨0x01, 1, "TIME_STATE", .u8, .ro, .num 1, none, 0⟩,
   ⟨0x02, 1, "OFFSET_NS", .i64, .ro, .num 0, none, 0⟩,
   ⟨0x03, 1, "FREQ_ADJ_PPB", .i32, .ro, .num 0, none, 0⟩,
   ⟨0x04, 1, "GM_IDENTITY", .u64, .ro, .num 0, none, 0⟩,
   ⟨0x05, 1, "SLAVE_PORT", .u8, .ro, .num 0xff, none, 0⟩,
   ⟨0x06, 1, "BACKUP_SLAVE_PORT", .u8, .rwt, .num 0xff, none, 0⟩]

/-- Entries of index 0x4B00 (R378, R380, R389, R391, R393, R396, R401). -/
def rows4B00 : List Entry :=
  [⟨0x01, 1, "HALF_SAFETY_STATE", .u8, .ro, .num 0, none, 0⟩,
   ⟨0x02, 1, "SAFE_CAUSE", .u8, .ro, .num 0, none, 0⟩,
   ⟨0x03, 1, "SAFE_T", .time48, .ro, .num 0, none, 0⟩,
   ⟨0x04, 1, "SAFETY_FRAME_SRC", .u16, .rwt, .num 0, none, 0⟩,
   ⟨0x05, 1, "SAFETY_FRAME_NS", .u32, .rwt, .num 0x1fca055, none, 0⟩,
   ⟨0x06, 1, "SAFE_CAN_CTRL", .u8, .rwt, .num 0, some ((0), (3)), 0⟩,
   ⟨0x07, 1, "SAFE_CAN_ID", .u16, .rwt, .num 0x10, some ((0), (2047)), 0⟩,
   ⟨0x08, 1, "SAFE_ETH_DST", .u64, .rwt, .num 0, none, 0⟩,
   ⟨0x09, 1, "CRITICAL_CORES", .domain, .rwt, .zeros 0, none, 0⟩,
   ⟨0x0A, 1, "LIFEBOAT", .domain, .rwt, .zeros 0, none, 0⟩,
   ⟨0x0B, 1, "INVALID_SRC_T", .time48, .ro, .num 0, none, 0⟩,
   ⟨0x0C, 1, "CHECK_EVENTS", .u32, .rw, .num 0, none, 0⟩,
   ⟨0x0D, 1, "LB_SWITCH_T", .time48, .ro, .num 0, none, 0⟩,
   ⟨0x0E, 1, "SAFETY_FRAME_FALLBACKS", .u32, .rw, .num 0, none, 0⟩]

/-- Entries of index 0x4C00 (R438, R439). -/
def rows4C00 : List Entry :=
  [⟨0x01, 1, "ID_CERT_RSA", .domain, .ro, .zeros 0, none, 0⟩,
   ⟨0x02, 1, "ID_CERT_SLH", .domain, .ro, .zeros 0, none, 0⟩,
   ⟨0x03, 1, "ATTEST_NONCE", .domain, .wo, .zeros 0, none, 0⟩,
   ⟨0x04, 1, "ATTEST_REPORT", .domain, .ro, .zeros 0, none, 0⟩,
   ⟨0x05, 1, "ATTEST_COUNT", .u32, .ro, .num 0, none, 0⟩]

/-- Entries of index 0x4C10 (R442, R443, R444). -/
def rows4C10 : List Entry :=
  [⟨0x01, 1, "FW_ACTIVE", .u8, .ro, .num 0, none, 0⟩,
   ⟨0x02, 1, "FW_TRIAL", .bool, .ro, .num 0, none, 0⟩,
   ⟨0x03, 1, "FW_SVN_A", .u32, .ro, .num 0, none, 0⟩,
   ⟨0x04, 1, "FW_SVN_B", .u32, .ro, .num 0, none, 0⟩,
   ⟨0x05, 1, "FW_MIN_SVN", .u32, .ro, .num 0, none, 0⟩,
   ⟨0x06, 1, "FW_WRITE", .domain, .wo, .zeros 0, none, 0⟩,
   ⟨0x07, 1, "FW_CMD", .u8, .wo, .num 0, some ((1), (4)), 0⟩,
   ⟨0x08, 1, "FW_STATE", .u8, .ro, .num 0, none, 0⟩,
   ⟨0x09, 1, "FW_RESULT", .u8, .ro, .num 0, none, 0⟩,
   ⟨0x0A, 1, "FW_TRIAL_MS", .u16, .rwt, .num 0x7d0, some ((500), (10000)), 0⟩]

/-- Entries of index 0x4C20 (R445, R446). -/
def rows4C20 : List Entry :=
  [⟨0x01, 1, "PROG_CMD", .u8, .wo, .num 0, some ((1), (2)), 0⟩,
   ⟨0x02, 1, "PROG_SRC", .u64, .rw, .num 0, none, 0⟩,
   ⟨0x03, 1, "PROG_BYTES", .u32, .rw, .num 0, none, 0⟩,
   ⟨0x04, 1, "PROG_HANDLE", .u32, .rw, .num 0, none, 0⟩,
   ⟨0x05, 1, "PROG_BUSY", .bool, .ro, .num 0, none, 0⟩,
   ⟨0x06, 1, "PROG_RESULT", .u8, .ro, .num 0, none, 0⟩,
   ⟨0x07, 1, "PROG_STORE_BASE", .u64, .rwt, .num 0, none, 2048⟩,
   ⟨0x08, 1, "PROG_STORE_BYTES", .u32, .rwt, .num 0, none, 0⟩,
   ⟨0x09, 1, "PROG_ALIAS", .domain, .rwt, .zeros 1024, none, 0⟩,
   ⟨0x0A, 1, "PROG_INSTALLED", .u16, .ro, .num 0, none, 0⟩]

/-- Entries of index 0x4D00 (R452, R453, R454, R455, R456, R458, R461, R465). -/
def rows4D00 : List Entry :=
  [⟨0x01, 1, "OP_REQUEST", .u8, .rw, .num 0, some ((0), (2)), 0⟩,
   ⟨0x02, 1, "OP_CURRENT", .u8, .ro, .num 0, none, 0⟩,
   ⟨0x03, 1, "OP_LIMIT", .u8, .ro, .num 0, none, 0⟩,
   ⟨0x04, 1, "T_JUNCTION", .i16, .ro, .num 0, none, 0⟩,
   ⟨0x05, 1, "T_HOT", .i8, .rwt, .num 0x6e, some ((90), (115)), 0⟩,
   ⟨0x06, 1, "THROTTLE_STEPS", .u32, .rw, .num 0, none, 0⟩,
   ⟨0x07, 1, "THERMAL_HOLDS", .u32, .rw, .num 0, none, 0⟩,
   ⟨0x08, 1, "POWER_STATE", .u8, .ro, .num 4, none, 0⟩,
   ⟨0x09, 1, "POWER_REQ", .u8, .wo, .num 0, some ((0), (2)), 0⟩,
   ⟨0x0A, 1, "ISO_CLAMP", .bool, .rwt, .num 0, none, 0⟩,
   ⟨0x0B, 1, "WAKE_CAUSE", .u8, .ro, .num 0, none, 0⟩,
   ⟨0x0C, 1, "VR_FAULTS", .u32, .rw, .num 0, none, 0⟩]

/-- Entries of index 0x8000 (R331, R332, R335, R336, R337, R338, R340, R341, R342, R343, R345). -/
def rows8000 : List Entry :=
  [⟨0x01, 1, "LAW", .u8, .rwt, .num 0, some ((0), (1)), 0⟩,
   ⟨0x02, 1, "LOOP_STATE", .u8, .ro, .num 0, none, 0⟩,
   ⟨0x03, 1, "LOOP_CMD", .u8, .wo, .num 0, some ((1), (2)), 0⟩,
   ⟨0x04, 1, "SAMPLE_START", .time48, .rwt, .num 0, none, 0⟩,
   ⟨0x05, 1, "PERIOD_NS", .u32, .rwt, .num 0xf4240, some ((250000), 4294967295), 0⟩,
   ⟨0x06, 1, "OUT_DELAY_NS", .u32, .rwt, .num 0x186a0, some ((25000), 4294967295), 0⟩,
   ⟨0x07, 1, "TRAJ_ADDR", .u64, .rwt, .num 0, none, 64⟩,
   ⟨0x08, 1, "SP_HOLD_US", .u32, .rwt, .num 0, none, 0⟩,
   ⟨0x09, 1, "MEAS_MAX_AGE_US", .u32, .rwt, .num 0x2710, none, 0⟩,
   ⟨0x0A, 4, "FE_LIMIT", .f32, .rwt, .num 0x7f800000, none, 0⟩,
   ⟨0x0E, 1, "FE_TIME_US", .u32, .rwt, .num 0xc350, none, 0⟩,
   ⟨0x0F, 1, "CLOSING_SAMPLES", .u16, .rwt, .num 8, none, 0⟩,
   ⟨0x10, 1, "INPUTS", .u8, .rwt, .num 1, some ((0), (4)), 0⟩,
   ⟨0x11, 1, "OUTPUTS", .u8, .rwt, .num 1, some ((0), (4)), 0⟩,
   ⟨0x12, 1, "STATES", .u8, .rwt, .num 0, some ((0), (12)), 0⟩,
   ⟨0x13, 4, "IN_SIG", .u8, .rwt, .num 0, some ((0), (63)), 0⟩,
   ⟨0x17, 4, "SP_CH", .u8, .rwt, .num 0, some ((0), (3)), 0⟩,
   ⟨0x1B, 1, "FF_CH", .u8, .rwt, .num 0, some ((0), (3)), 0⟩,
   ⟨0x1C, 1, "COEFF", .domain, .rwt, .zeros 0, none, 0⟩,
   ⟨0x1D, 1, "OUT_FRAME", .domain, .rwt, .zeros 0, none, 0⟩,
   ⟨0x1E, 1, "TRIP_CAUSE", .u8, .ro, .num 0, none, 0⟩,
   ⟨0x1F, 1, "SKIPPED", .u32, .rw, .num 0, none, 0⟩,
   ⟨0x20, 1, "SP_RETRIES", .u32, .rw, .num 0, none, 0⟩]

/-- Entries of index 0x9000 (R411, R412, R414). -/
def rows9000 : List Entry :=
  [⟨0x01, 1, "DICT_CAN_CTRL", .u8, .rwt, .num 0xff, none, 0⟩,
   ⟨0x02, 1, "DICT_CAN_REQ_ID", .u16, .rwt, .num 0x600, some ((0), (2047)), 0⟩,
   ⟨0x03, 1, "DICT_CAN_RSP_ID", .u16, .rwt, .num 0x680, some ((0), (2047)), 0⟩,
   ⟨0x04, 1, "DICT_CAN_FORMAT", .u8, .rwt, .num 1, some ((1), (2)), 0⟩,
   ⟨0x05, 1, "DICT_IPV4_ADDR", .u32, .rwt, .num 0, none, 0⟩,
   ⟨0x06, 1, "DICT_UDP_PORT", .u16, .rwt, .num 0x76d4, none, 0⟩,
   ⟨0x07, 1, "DICT_MAC", .u64, .const, .part, none, 0⟩,
   ⟨0x08, 1, "DICT_REQUESTS", .u32, .rw, .num 0, none, 0⟩,
   ⟨0x09, 1, "DICT_REFUSED", .u32, .rw, .num 0, none, 0⟩]

/-- Entries of index 0x9100 (R346, R347, R348, R349, R350, R351, R352, R353). -/
def rows9100 : List Entry :=
  [⟨0x01, 1, "MODE", .u8, .rwt, .num 0, some ((0), (4)), 0⟩,
   ⟨0x02, 1, "FORMATS", .u8, .rwt, .num 0, none, 0⟩,
   ⟨0x03, 1, "ONE_SHOT", .bool, .rwt, .num 0, none, 0⟩,
   ⟨0x04, 1, "OWNER", .u8, .rwt, .num 0, some ((0), (1)), 0⟩,
   ⟨0x05, 3, "NBT_DBT_FD_DBT_XL", .u32, .rwt, .num 0x21fd020, none, 0⟩,
   ⟨0x08, 1, "TDC_OFFSET", .u8, .rwt, .num 0, none, 0⟩,
   ⟨0x09, 1, "RX_RING", .u64, .rwt, .num 0, none, 65536⟩,
   ⟨0x0A, 1, "RX_WPTR", .u32, .ro, .num 0, none, 0⟩,
   ⟨0x0B, 1, "RX_DELAY_NS", .i32, .rwt, .num 0, none, 0⟩,
   ⟨0x0C, 1, "TX_RING", .u64, .rwt, .num 0, none, 0⟩,
   ⟨0x0D, 1, "TEC", .u8, .ro, .num 0, none, 0⟩,
   ⟨0x0E, 1, "REC", .u8, .ro, .num 0, none, 0⟩,
   ⟨0x0F, 1, "ERR_STATE", .u8, .ro, .num 0, none, 0⟩,
   ⟨0x10, 1, "BUSOFF_AUTO", .bool, .rwt, .num 1, none, 0⟩,
   ⟨0x11, 1, "ABD_TABLE", .domain, .rwt, .zeros 0, none, 0⟩,
   ⟨0x12, 1, "ABD_DWELL_MS", .u16, .rwt, .num 0x32, none, 0⟩,
   ⟨0x13, 1, "ABD_ROUNDS", .u8, .rwt, .num 3, none, 0⟩,
   ⟨0x14, 1, "ABD_RESULT", .u8, .ro, .num 0xff, none, 0⟩,
   ⟨0x15, 1, "ERRORS", .u32, .rw, .num 0, none, 0⟩,
   ⟨0x16, 1, "ARB_LOSSES", .u32, .rw, .num 0, none, 0⟩,
   ⟨0x17, 1, "LATE_DROPS", .u32, .rw, .num 0, none, 0⟩]

/-- Entries of index 0x9200 (R334). -/
def rows9200 : List Entry :=
  [⟨0x01, 1, "SIG_SRC", .u8, .rwt, .num 0, some ((0), (5)), 0⟩,
   ⟨0x02, 1, "SIG_CAN_ID", .u32, .rwt, .num 0, none, 0⟩,
   ⟨0x03, 1, "SIG_RULE", .u8, .rwt, .num 0, some ((0), (63)), 0⟩,
   ⟨0x04, 1, "BYTE_OFS", .u16, .rwt, .num 0, none, 0⟩,
   ⟨0x05, 1, "WIDTH", .u8, .rwt, .num 8, some ((8), (32)), 0⟩,
   ⟨0x06, 1, "SIGNED", .bool, .rwt, .num 0, none, 0⟩,
   ⟨0x07, 1, "BIG_ENDIAN", .bool, .rwt, .num 0, none, 0⟩,
   ⟨0x08, 1, "SCALE", .f32, .rwt, .num 0x3f800000, none, 0⟩,
   ⟨0x09, 1, "OFFSET", .f32, .rwt, .num 0, none, 0⟩,
   ⟨0x0A, 1, "VALUE", .f32, .ro, .num 0, none, 0⟩,
   ⟨0x0B, 1, "VALUE_T", .time48, .ro, .num 0, none, 0⟩,
   ⟨0x0C, 1, "SHORT_FRAMES", .u32, .rw, .num 0, none, 0⟩]

/-- Entries of index 0xA020 (R93). -/
def rowsA020 : List Entry :=
  [⟨0x00, 96, "GANG_SPARE_MAP", .u32, .ro, .part, none, 0⟩]

/-- Entries of index 0xA021 (R92). -/
def rowsA021 : List Entry :=
  [⟨0x00, 96, "ROLL_STATE", .u8, .ro, .num 0, none, 0⟩]

/-- Entries of index 0xA022 (R92). -/
def rowsA022 : List Entry :=
  [⟨0x00, 96, "ROLL_POSITION", .u8, .ro, .num 0, none, 0⟩]

/-- Entries of index 0xA023 (R92). -/
def rowsA023 : List Entry :=
  [⟨0x00, 96, "ROLL_PASSES", .u32, .ro, .num 0, none, 0⟩]

/-- Entries of index 0xA024 (R92). -/
def rowsA024 : List Entry :=
  [⟨0x00, 96, "SHADOW_MISMATCHES", .u16, .ro, .num 0, none, 0⟩]

/-- Entries of index 0xA030 (R379). -/
def rowsA030 : List Entry :=
  [⟨0x00, 96, "UNIT_STATE", .u8, .ro, .num 0, none, 0⟩]

/-- Entries of index 0xA031 (R379). -/
def rowsA031 : List Entry :=
  [⟨0x00, 96, "SUSPECT_POS", .u64, .ro, .num 0, none, 0⟩]

/-- Entries of index 0xA032 (R386). -/
def rowsA032 : List Entry :=
  [⟨0x00, 96, "SPRING_STATE", .u8, .ro, .num 0, none, 0⟩]

/-- Entries of index 0xA033 (R384). -/
def rowsA033 : List Entry :=
  [⟨0x00, 96, "SPRING_LATE", .u32, .ro, .num 0, none, 0⟩]

/-- Entries of index 0xA034 (R384). -/
def rowsA034 : List Entry :=
  [⟨0x00, 96, "SPRING_MISSES", .u8, .ro, .num 0, none, 0⟩]

/-- Entries of index 0xA035 (R386). -/
def rowsA035 : List Entry :=
  [⟨0x00, 96, "LAST_SPRING_T", .time48, .ro, .num 0, none, 0⟩]

/-- The rows of a base index (Bow, replica 0). -/
def entriesAt (base : Nat) : List Entry :=
  match base with
  | 0x1000 => rows1000
  | 0x1100 => rows1100
  | 0x1F00 => rows1F00
  | 0x2600 => rows2600
  | 0x2800 => rows2800
  | 0x2900 => rows2900
  | 0x2A00 => rows2A00
  | 0x2B00 => rows2B00
  | 0x3000 => rows3000
  | 0x3100 => rows3100
  | 0x4300 => rows4300
  | 0x4400 => rows4400
  | 0x4401 => rows4401
  | 0x4440 => rows4440
  | 0x4500 => rows4500
  | 0x4501 => rows4501
  | 0x4502 => rows4502
  | 0x4600 => rows4600
  | 0x4610 => rows4610
  | 0x4620 => rows4620
  | 0x4700 => rows4700
  | 0x4800 => rows4800
  | 0x4810 => rows4810
  | 0x4811 => rows4811
  | 0x4812 => rows4812
  | 0x4813 => rows4813
  | 0x4900 => rows4900
  | 0x4910 => rows4910
  | 0x4A00 => rows4A00
  | 0x4B00 => rows4B00
  | 0x4C00 => rows4C00
  | 0x4C10 => rows4C10
  | 0x4C20 => rows4C20
  | 0x4D00 => rows4D00
  | 0x8000 => rows8000
  | 0x9000 => rows9000
  | 0x9100 => rows9100
  | 0x9200 => rows9200
  | 0xA020 => rowsA020
  | 0xA021 => rowsA021
  | 0xA022 => rowsA022
  | 0xA023 => rowsA023
  | 0xA024 => rowsA024
  | 0xA030 => rowsA030
  | 0xA031 => rowsA031
  | 0xA032 => rowsA032
  | 0xA033 => rowsA033
  | 0xA034 => rowsA034
  | 0xA035 => rowsA035
  | _ => []

/-- How many indices in a row hold a base index's entries (channels, ports, models, loops, maps). -/
def entryReps (base : Nat) : Nat :=
  match base with
  | 0x3100 => 256
  | 0x4440 => 64
  | 0x4610 => 2
  | 0x4700 => 12
  | 0x4800 => 7
  | 0x4900 => 16
  | 0x4910 => 16
  | 0x9100 => 4
  | 0x9200 => 64
  | _ => 1

/-- The base indices. -/
def entryBases : List Nat :=
  [0x1000, 0x1100, 0x1F00, 0x2600, 0x2800, 0x2900, 0x2A00, 0x2B00, 0x3000, 0x3100, 0x4300, 0x4400, 0x4401, 0x4440, 0x4500, 0x4501, 0x4502, 0x4600, 0x4610, 0x4620, 0x4700, 0x4800, 0x4810, 0x4811, 0x4812, 0x4813, 0x4900, 0x4910, 0x4A00, 0x4B00, 0x4C00, 0x4C10, 0x4C20, 0x4D00, 0x8000, 0x9000, 0x9100, 0x9200, 0xA020, 0xA021, 0xA022, 0xA023, 0xA024, 0xA030, 0xA031, 0xA032, 0xA033, 0xA034, 0xA035]

/-- A dictionary address taken apart: the half it belongs to (`none` for device-wide; `true` for Stern), its base index, its replica, its sub-index. -/
structure DAddr where
  stern : Option Bool
  base : Nat
  rep : Nat
  sub : Nat
  deriving DecidableEq, Repr

/-- The base index that holds `i` among its replicas. -/
def baseOf (i : Nat) : Option (Nat × Nat) :=
  (entryBases.find? (fun b => decide (b ≤ i ∧ i < b + entryReps b))).map (fun b => (b, i - b))

/-- Take an index apart by the index ranges (R10, R407). -/
def splitIndex (idx : Nat) : Option (Option Bool × Nat × Nat) :=
  if 0x1000 ≤ idx ∧ idx < 0x3000 then (baseOf idx).map (fun p => (none, p.1, p.2))
  else if 0x3000 ≤ idx ∧ idx < 0x4000 then
    let st := decide (0x3800 ≤ idx)
    (baseOf (if st then idx - 0x800 else idx)).map (fun p => (some st, p.1, p.2))
  else if 0x4000 ≤ idx ∧ idx < 0x8000 then
    let st := decide (0x6000 ≤ idx)
    (baseOf (if st then idx - 0x2000 else idx)).map (fun p => (some st, p.1, p.2))
  else if 0x8000 ≤ idx ∧ idx < 0x9000 then
    let st := decide (0x8800 ≤ idx)
    let i := if st then idx - 0x800 else idx
    if i % 0x100 = 0 then some (some st, 0x8000, (i - 0x8000) / 0x100) else none
  else if 0x9000 ≤ idx ∧ idx < 0xA000 then
    let st := decide (idx % 0x100 ≥ 0x80)
    (baseOf (if st then idx - 0x80 else idx)).map (fun p => (some st, p.1, p.2))
  else if 0xA000 ≤ idx ∧ idx < 0xB000 then
    let st := decide (0xA800 ≤ idx)
    (baseOf (if st then idx - 0x800 else idx)).map (fun p => (some st, p.1, p.2))
  else none

/-- The row of a sub-index at a base index, and its place in the row; sub-indices from 0x10 of a CSI-2 port are virtual channel (sub / 16 - 1). -/
def rowOf (base sub : Nat) : Option (Entry × Nat) :=
  let inRow (x : Nat) (es : List Entry) : Option (Entry × Nat) :=
    (es.find? (fun e => decide (e.sub ≤ x ∧ x < e.sub + e.subs))).map (fun e => (e, x - e.sub))
  if base = 0x4700 ∧ 0x10 ≤ sub then
    (if sub < 0x50 then inRow (sub % 16) rows4700cam else none)
  else inRow sub (entriesAt base)

/-- The entry at an index and sub-index. -/
def entryOf (idx sub : Nat) : Option (DAddr × Entry × Nat) :=
  match splitIndex idx with
  | none => none
  | some (st, base, rep) => (rowOf base sub).map (fun p => (⟨st, base, rep, sub⟩, p.1, p.2))

/-- The highest sub-index present at a base index (R403). -/
def topSub (base : Nat) : Nat :=
  if base = 0x4700 then 0x4F else ((entriesAt base).map (fun e => e.sub + e.subs - 1)).foldl max 0

end Sys2Proof.Machine
end

