-- ==== Sys2Proof/Machine/Float.lean ====
section
/-! DEFINITION. IEEE 754 binary32 arithmetic: round to nearest even, subnormals kept, one NaN (R51, R60). -/
namespace Sys2Proof.Machine

/-- A decoded element: NaN, an infinity, or the exact value ±m × 2^e. -/
inductive FV where
  | nan
  | inf (neg : Bool)
  | fin (neg : Bool) (m : Nat) (e : Int)
  deriving DecidableEq, Repr

/-- The canonical quiet NaN (R53, R60). -/
def f32NaN : F32 := 0x7FC00000#32
/-- An infinity. -/
def f32Inf (neg : Bool) : F32 := if neg then 0xFF800000#32 else 0x7F800000#32
/-- A zero. -/
def f32Zero (neg : Bool) : F32 := if neg then 0x80000000#32 else 0#32
/-- 1.0. -/
def f32One : F32 := 0x3F800000#32

/-- The exact value of an FP32 encoding (R35). -/
def f32Dec (x : F32) : FV :=
  let n := x.toNat
  let s := bitAt n 31
  let e := fld n 30 23
  let m := fld n 22 0
  if e = 255 then (if m = 0 then .inf s else .nan)
  else if e = 0 then .fin s m (-149)
  else .fin s (m + 2 ^ 23) ((e : Int) - 150)

/-- `m / 2^sh` rounded to nearest, ties to even. -/
def rneShift (m sh : Nat) : Nat :=
  if sh > m.log2 + 2 then 0
  else
    let q := m >>> sh
    let r := m - (q <<< sh)
    let half := if sh = 0 then 0 else 2 ^ (sh - 1)
    if sh = 0 then m
    else if r > half then q + 1
    else if r = half then q + q % 2
    else q

/-- The FP32 nearest to ±m × 2^e, ties to even; beyond the range, infinity. -/
def roundF32 (neg : Bool) (m : Nat) (e : Int) : F32 :=
  if m = 0 then f32Zero neg
  else
    let u : Int := max ((m.log2 : Int) + e) (-126) - 23
    let sh : Int := u - e
    let q := if sh ≤ 0 then m <<< (-sh).toNat else rneShift m sh.toNat
    let code := ((u + 149).toNat <<< 23) + q
    let code := if code ≥ 0x7F800000 then 0x7F800000 else code
    BitVec.ofNat 32 (code + (if neg then 2 ^ 31 else 0))

/-- |±m × 2^e| as FP32, truncated toward zero, held at the largest finite value (R58, `AMAX`). -/
def truncF32 (m : Nat) (e : Int) : F32 :=
  if m = 0 then 0#32
  else
    let u : Int := max ((m.log2 : Int) + e) (-126) - 23
    let sh : Int := u - e
    let q := if sh ≤ 0 then m <<< (-sh).toNat else m >>> sh.toNat
    let code := ((u + 149).toNat <<< 23) + q
    BitVec.ofNat 32 (if code ≥ 0x7F800000 then 0x7F7FFFFF else code)

/-- The integer ±m. -/
def signedNat (neg : Bool) (m : Nat) : Int := if neg then -(m : Int) else (m : Int)

/-- The FP32 nearest to the exact integer `i` × 2^e; an exact zero has the sign given. -/
def roundIntF32 (zeroNeg : Bool) (i : Int) (e : Int) : F32 :=
  if i = 0 then f32Zero zeroNeg else roundF32 (i < 0) i.natAbs e

/-- Addition (R60). -/
def fadd (a b : F32) : F32 :=
  match f32Dec a, f32Dec b with
  | .nan, _ => f32NaN
  | _, .nan => f32NaN
  | .inf s, .inf t => if s = t then f32Inf s else f32NaN
  | .inf s, .fin _ _ _ => f32Inf s
  | .fin _ _ _, .inf t => f32Inf t
  | .fin s m e, .fin t n f =>
    let g := min e f
    roundIntF32 (s && t) (signedNat s (m <<< (e - g).toNat) + signedNat t (n <<< (f - g).toNat)) g

/-- The encoding with its sign changed; NaN stays canonical. -/
def fneg (a : F32) : F32 :=
  match f32Dec a with
  | .nan => f32NaN
  | _ => a ^^^ 0x80000000#32

/-- Subtraction (R60). -/
def fsub (a b : F32) : F32 := fadd a (fneg b)

/-- Multiplication (R60). -/
def fmul (a b : F32) : F32 :=
  match f32Dec a, f32Dec b with
  | .nan, _ => f32NaN
  | _, .nan => f32NaN
  | .inf s, .inf t => f32Inf (s != t)
  | .inf s, .fin t n _ => if n = 0 then f32NaN else f32Inf (s != t)
  | .fin s m _, .inf t => if m = 0 then f32NaN else f32Inf (s != t)
  | .fin s m e, .fin t n f => roundF32 (s != t) (m * n) (e + f)

/-- The magnitude; NaN stays canonical. -/
def fabs (a : F32) : F32 :=
  match f32Dec a with
  | .nan => f32NaN
  | _ => a &&& 0x7FFFFFFF#32

/-- True for a NaN. -/
def isNaN (a : F32) : Bool := f32Dec a == .nan

/-- True for a finite value. -/
def isFinite (a : F32) : Bool :=
  match f32Dec a with
  | .fin _ _ _ => true
  | _ => false

/-- A number that orders the non-NaN encodings as their values, -0 just below +0. -/
def ordKey (a : F32) : Int :=
  let n := a.toNat
  if bitAt n 31 then -((fld n 30 0 : Nat) : Int) - 1 else (fld n 30 0 : Nat)

/-- The larger value; +0 above -0; NaN if either is NaN (`MAX`, *VEC operations*). -/
def fmax (a b : F32) : F32 :=
  if isNaN a || isNaN b then f32NaN else if ordKey a ≥ ordKey b then a else b

/-- The smaller value; -0 below +0; NaN if either is NaN (`MIN`). -/
def fmin (a b : F32) : F32 :=
  if isNaN a || isNaN b then f32NaN else if ordKey a ≤ ordKey b then a else b

/-- `a > b` by value, -0 and +0 equal; false when either is NaN. -/
def fgt (a b : F32) : Bool :=
  if isNaN a || isNaN b then false
  else if fld a.toNat 30 0 = 0 && fld b.toNat 30 0 = 0 then false
  else decide (ordKey a > ordKey b)

/-- True for +0 and -0. -/
def isZero (a : F32) : Bool := fld a.toNat 30 0 == 0

/-- The FP32 nearest to an integer. -/
def intToF32 (i : Int) : F32 := roundIntF32 false i 0

/-- Floor of ±m × 2^e as an integer. -/
def floorScaled (neg : Bool) (m : Nat) (e : Int) : Int :=
  if e ≥ 0 then signedNat neg (m <<< e.toNat)
  else signedNat neg m / ((2 ^ (-e).toNat : Nat) : Int)

/-- ±m × 2^e to the nearest integer, ties to even. -/
def rneScaled (neg : Bool) (m : Nat) (e : Int) : Int :=
  if e ≥ 0 then signedNat neg (m <<< e.toNat) else signedNat neg (rneShift m (-e).toNat)

/-- Largest integer not above `a` (`FLOOR`); a zero result keeps the sign of `a`. -/
def ffloor (a : F32) : F32 :=
  match f32Dec a with
  | .nan => f32NaN
  | .inf s => f32Inf s
  | .fin s m e => roundIntF32 s (floorScaled s m e) 0

/-- `a` to the nearest integer, ties to even (`RINT`); a zero result keeps the sign of `a`. -/
def frint (a : F32) : F32 :=
  match f32Dec a with
  | .nan => f32NaN
  | .inf s => f32Inf s
  | .fin s m e => roundIntF32 s (rneScaled s m e) 0

/-- ⌊log2 |a|⌋ from the encoding (`EXPO`). -/
def fexpo (a : F32) : F32 :=
  match f32Dec a with
  | .nan => f32NaN
  | .inf _ => f32NaN
  | .fin _ m e => if m = 0 then f32Inf true else intToF32 ((m.log2 : Int) + e)

end Sys2Proof.Machine
end

