-- ==== Sys2Proof/Machine/Formats.lean ====
section
/-! DEFINITION. Tensor element formats: codes, encodings, packing and exact values (R35 to R38). -/
namespace Sys2Proof.Machine

/-- The format codes of R35. -/
inductive Fmt where
  | int8 | uint8 | int4 | uint4 | e4m3 | e5m2 | mx8e4m3 | mx8e5m2 | mx6e2m3 | mx6e3m2 | mx4e2m1
  | bf16 | fp16 | fp32 | int16 | int32
  deriving DecidableEq, Repr

/-- The format a 5-bit code names; `0x10` to `0x1F` are reserved (R35). -/
def fmtOf (code : Nat) : Option Fmt :=
  match code with
  | 0 => some .int8 | 1 => some .uint8 | 2 => some .int4 | 3 => some .uint4 | 4 => some .e4m3 | 5 => some .e5m2
  | 6 => some .mx8e4m3 | 7 => some .mx8e5m2 | 8 => some .mx6e2m3 | 9 => some .mx6e3m2 | 10 => some .mx4e2m1
  | 11 => some .bf16 | 12 => some .fp16 | 13 => some .fp32 | 14 => some .int16 | 15 => some .int32
  | _ => none

/-- Bits per element (R35). -/
def fmtBits : Fmt → Nat
  | .int8 | .uint8 | .e4m3 | .e5m2 | .mx8e4m3 | .mx8e5m2 => 8
  | .int4 | .uint4 | .mx4e2m1 => 4
  | .mx6e2m3 | .mx6e3m2 => 6
  | .bf16 | .fp16 | .int16 => 16
  | .fp32 | .int32 => 32

/-- The MX formats (R36). -/
def fmtIsMx : Fmt → Bool
  | .mx8e4m3 | .mx8e5m2 | .mx6e2m3 | .mx6e3m2 | .mx4e2m1 => true
  | _ => false

/-- INT8, UINT8, INT4 and UINT4: the operands that carry zero points (R38, R50). -/
def fmtIsGangInt : Fmt → Bool
  | .int8 | .uint8 | .int4 | .uint4 => true
  | _ => false

/-- Integer targets (R54). -/
def fmtIsInt : Fmt → Bool
  | .int8 | .uint8 | .int4 | .uint4 | .int16 | .int32 => true
  | _ => false

/-- BF16 and FP16: the ordered path (R38). -/
def fmtOrdered : Fmt → Bool
  | .bf16 | .fp16 => true
  | _ => false

/-- The formats the Output column of R35 marks "yes". -/
def fmtIsOutput (f : Fmt) : Bool := !fmtIsMx f

/-- The 4-bit formats (R67). -/
def fmtIs4 (f : Fmt) : Bool := fmtBits f == 4

/-- The operand pairs the gang accepts (R38). -/
def pairOk (a w : Fmt) : Bool :=
  (fmtIsGangInt a && fmtIsGangInt w)
  || ((a == .e4m3 || a == .e5m2) && (w == .e4m3 || w == .e5m2))
  || (fmtIsMx a && fmtIsMx w)
  || (fmtOrdered a && fmtOrdered w)

/-- Smallest value of an integer format. -/
def intMin : Fmt → Int
  | .int8 => -128 | .int4 => -8 | .int16 => -32768 | .int32 => -2147483648 | _ => 0

/-- Largest value of an integer format. -/
def intMax : Fmt → Int
  | .int8 => 127 | .uint8 => 255 | .int4 => 7 | .uint4 => 15 | .int16 => 32767 | .int32 => 2147483647 | _ => 0

/-- True for a two's complement format. -/
def fmtSigned : Fmt → Bool
  | .int8 | .int4 | .int16 | .int32 => true
  | _ => false

/-- Mantissa bits of a floating format (R35). -/
def fmtM : Fmt → Nat
  | .e4m3 | .mx8e4m3 | .mx6e2m3 => 3
  | .e5m2 | .mx8e5m2 | .mx6e3m2 => 2
  | .mx4e2m1 => 1
  | .bf16 => 7
  | .fp16 => 10
  | .fp32 => 23
  | _ => 0

/-- Exponent bias of a floating format (R35). -/
def fmtBias : Fmt → Int
  | .e4m3 | .mx8e4m3 => 7
  | .e5m2 | .mx8e5m2 | .fp16 => 15
  | .mx6e2m3 | .mx4e2m1 => 1
  | .mx6e3m2 => 3
  | .bf16 | .fp32 => 127
  | _ => 0

/-- `emin` of R54: the exponent of the smallest normal number. -/
def fmtEmin (f : Fmt) : Int := 1 - fmtBias f

/-- The encoding of the largest finite magnitude (R35). -/
def fmtMaxCode : Fmt → Nat
  | .e4m3 | .mx8e4m3 => 0x7E
  | .e5m2 | .mx8e5m2 => 0x7B
  | .mx6e2m3 | .mx6e3m2 => 0x1F
  | .mx4e2m1 => 7
  | .bf16 => 0x7F7F
  | .fp16 => 0x7BFF
  | .fp32 => 0x7F7FFFFF
  | _ => 0

/-- The canonical NaN of a floating target; MXFP6 and MXFP4 have none (R55). -/
def fmtNaN : Fmt → Option Nat
  | .e4m3 | .mx8e4m3 => some 0x7F
  | .e5m2 | .mx8e5m2 => some 0x7E
  | .bf16 => some 0x7FC0
  | .fp16 => some 0x7E00
  | .fp32 => some 0x7FC00000
  | _ => none

/-- The smallest exponents of R41. -/
def fmtSmallExp : Fmt → Int
  | .e4m3 | .mx8e4m3 => -9
  | .e5m2 | .mx8e5m2 => -16
  | .mx6e2m3 => -3
  | .mx6e3m2 => -4
  | .mx4e2m1 => -1
  | _ => 0

/-- The default grid of an operand pair (R41). -/
def defaultGrid (a w : Fmt) : Int :=
  fmtSmallExp a + fmtSmallExp w - (if fmtIsMx a && fmtIsMx w then 32 else 0)

/-- The exact value of an element code, without any group scale (R35). -/
def fmtDec (f : Fmt) (code : Nat) : FV :=
  if fmtIsInt f then
    let v : Int := if fmtSigned f then sext (fmtBits f) code else ((code % 2 ^ fmtBits f : Nat) : Int)
    .fin (decide (v < 0)) v.natAbs 0
  else
    let b := fmtBits f
    let mb := fmtM f
    let eb := b - 1 - mb
    let s := bitAt code (b - 1)
    let e := fld code (b - 2) mb
    let m := code % 2 ^ mb
    let allOnes := e == 2 ^ eb - 1
    match f with
    | .e4m3 | .mx8e4m3 =>
      if allOnes && m == 7 then .nan
      else if e = 0 then .fin s m (fmtEmin f - mb) else .fin s (m + 2 ^ mb) ((e : Int) - fmtBias f - mb)
    | .mx6e2m3 | .mx6e3m2 | .mx4e2m1 =>
      if e = 0 then .fin s m (fmtEmin f - mb) else .fin s (m + 2 ^ mb) ((e : Int) - fmtBias f - mb)
    | _ =>
      if allOnes then (if m = 0 then .inf s else .nan)
      else if e = 0 then .fin s m (fmtEmin f - mb)
      else .fin s (m + 2 ^ mb) ((e : Int) - fmtBias f - mb)

/-- A decoded element as FP32: exact for every source format but INT32, which rounds to nearest even (R118). -/
def fvToF32 : FV → F32
  | .nan => f32NaN
  | .inf s => f32Inf s
  | .fin s m e => roundF32 s m e

/-- Element `i` of a packed run that starts at byte 0 of `rd` (R37). -/
def elemAt (f : Fmt) (rd : Nat → Byte) (i : Nat) : Nat :=
  match fmtBits f with
  | 4 => fld (rd (i / 2)).toNat (if i % 2 = 0 then 3 else 7) (if i % 2 = 0 then 0 else 4)
  | 6 =>
    let w := leNat (upto 3 (fun k => rd (i / 4 * 3 + k)))
    fld w (6 * (i % 4) + 5) (6 * (i % 4))
  | b => leNat (upto (b / 8) (fun k => rd (i * (b / 8) + k)))

/-- Bytes a run of `n` elements occupies, its last byte or three-byte group whole (R37). -/
def runBytes (f : Fmt) (n : Nat) : Nat :=
  match fmtBits f with
  | 4 => (n + 1) / 2
  | 6 => (n + 3) / 4 * 3
  | b => n * (b / 8)

/-- Two 4-bit elements to a byte (R37). -/
def pack4 : List Nat → List Byte
  | [] => []
  | [a] => [BitVec.ofNat 8 (a % 16)]
  | a :: b :: t => BitVec.ofNat 8 (a % 16 + 16 * (b % 16)) :: pack4 t

/-- Four 6-bit elements to three bytes (R37). -/
def pack6 : List Nat → List Byte
  | [] => []
  | [a] => natLe 3 (a % 64)
  | [a, b] => natLe 3 (a % 64 + 64 * (b % 64))
  | [a, b, c] => natLe 3 (a % 64 + 64 * (b % 64) + 4096 * (c % 64))
  | a :: b :: c :: d :: t => natLe 3 (a % 64 + 64 * (b % 64) + 4096 * (c % 64) + 262144 * (d % 64)) ++ pack6 t

/-- The bytes of a run of element codes (R37). -/
def packRun (f : Fmt) (codes : List Nat) : List Byte :=
  match fmtBits f with
  | 4 => pack4 codes
  | 6 => pack6 codes
  | b => codes.flatMap (natLe (b / 8))

end Sys2Proof.Machine
end

