-- ==== Sys2Proof/Machine/Requant.lean ====
section
/-! DEFINITION. Alignment onto the Basin grid, Basins and requantisation (R39 to R44, R51 to R59, R485). -/
namespace Sys2Proof.Machine

/-- One aligned term: its value in grid units, whether low bits were lost, whether it was clamped (R40). -/
structure Term where
  val : Int
  spill : Bool
  ovf : Bool
  deriving DecidableEq, Repr

/-- Bits needed for `n`: 0 for 0. -/
def bitLen (n : Nat) : Nat := if n = 0 then 0 else n.log2 + 1

/-- Align ±m × 2^pe onto the grid of unit 2^lsb (R40). -/
def alignTerm (neg : Bool) (m : Nat) (pe lsb : Int) : Term :=
  let sh := pe - lsb
  if m = 0 then ⟨0, false, false⟩
  else if 0 ≤ sh then
    if bitLen m + sh.toNat > 127 then ⟨signedNat neg (2 ^ 127 - 1), false, true⟩
    else ⟨signedNat neg (m <<< sh.toNat), false, false⟩
  else
    let k := (-sh).toNat
    let mag := if k > bitLen m then 0 else m >>> k
    ⟨signedNat neg mag, decide (mag <<< (min k (bitLen m)) ≠ m), false⟩

/-- One output's accumulator: the Basin of the exact path or the FP32 of the ordered path, with the conditions it latches until its tile is requantised (R42, R52, R57). -/
structure Acc where
  basin : Basin
  f : F32
  spill : Bool
  clamped : Bool
  nonfin : Bool
  deriving DecidableEq, Repr

/-- An empty accumulator. -/
def accZero : Acc := ⟨0, 0, false, false, false⟩

/-- Add aligned terms to a Basin modulo 2^136, latching their conditions (R42, R57). -/
def accAdd (a : Acc) (ts : List Term) (nonfin : Bool) : Acc :=
  { a with
    basin := ts.foldl (fun b t => b + BitVec.ofInt 136 t.val) a.basin
    spill := a.spill || ts.any (·.spill)
    clamped := a.clamped || ts.any (·.ovf)
    nonfin := a.nonfin || nonfin }

/-- `OVF` of R44: bits [135:127] not all equal, or a clamped term. -/
def accOvf (a : Acc) : Bool :=
  let top := fld a.basin.toNat 135 127
  a.clamped || (top != 0 && top != 511)

/-- One product of two exact-path elements as sign, significand and exponent; NaN and infinity give none (R39). -/
def fvProduct (a b : FV) : Option (Bool × Nat × Int) :=
  match a, b with
  | .fin s m e, .fin t n f => some (s != t, m * n, e + f)
  | _, _ => none

/-- An ordered-path product in FP32 (R51). -/
def fvProduct32 (a b : FV) : F32 :=
  match a, b with
  | .fin s m e, .fin t n f => roundF32 (s != t) (m * n) (e + f)
  | _, _ => fmul (fvToF32 a) (fvToF32 b)

/-- What the requantiser is given for one output: an exact-path Basin with its grid, or an FP32 accumulator. -/
inductive AccIn where
  | exact (basin : Int) (lsb : Int) (ovf : Bool)
  | ordered (x : F32)
  deriving DecidableEq, Repr

/-- What the requantiser does for one output: the code written and the flags raised; `amax` is the entry into `AMAX`, `none` where R485 gives no entry. -/
structure ReqOut where
  code : Nat
  sat : Bool
  ufl : Bool
  ovf : Bool
  nonfin : Bool
  amax : Option Nat
  deriving DecidableEq, Repr

/-- `zo` clamped to an integer target, and whether the clamp changed it (R56). -/
def clampZp (tgt : Fmt) (zo : Int) : Int × Bool :=
  let c := clampI (intMin tgt) (intMax tgt) zo
  (c, decide (c ≠ zo))

/-- The code of an integer value. -/
def encInt (tgt : Fmt) (v : Int) : Nat := twos (fmtBits tgt) v

/-- `encode_zero` of R54: its code and whether it raises `SAT`. -/
def encZero (tgt : Fmt) (zo : Int) : Nat × Bool :=
  if fmtIsInt tgt then (encInt tgt (clampZp tgt zo).1, (clampZp tgt zo).2) else (0, false)

/-- The target's limit of a sign (R44, R55). -/
def encLimit (tgt : Fmt) (neg : Bool) : Nat :=
  if fmtIsInt tgt then encInt tgt (if neg then intMin tgt else intMax tgt)
  else fmtMaxCode tgt + (if neg then 2 ^ (fmtBits tgt - 1) else 0)

/-- The procedure of R54 on the exact value ±mag × 2^pe, mag not 0: code, `SAT`, `UFL`. -/
def requantMag (tgt : Fmt) (ofs : Nat) (zo : Int) (neg : Bool) (mag : Nat) (pe : Int) : Nat × Bool × Bool :=
  let mb := (fmtM tgt : Int)
  let u : Int := if fmtIsInt tgt then 0 else max ((mag.log2 : Int) + pe) (fmtEmin tgt) - mb
  let sh := u - pe
  let q : Nat :=
    if sh ≤ 0 then min (mag <<< (-sh).toNat) (2 ^ 40)
    else
      let s2 := min sh.toNat 168
      min (((mag <<< 8) + (ofs <<< s2)) >>> (s2 + 8)) (2 ^ 40)
  if q = 0 then ((encZero tgt zo).1, (encZero tgt zo).2, true)
  else if fmtIsInt tgt then
    let r := signedNat neg q + zo
    let c := clampI (intMin tgt) (intMax tgt) r
    (encInt tgt c, decide (c ≠ r), false)
  else
    let code := ((u - (fmtEmin tgt - mb)).toNat <<< fmtM tgt) + q
    let lim := fmtMaxCode tgt
    let sgn := if neg then 2 ^ (fmtBits tgt - 1) else 0
    if code > lim then (lim + sgn, true, false) else (code + sgn, false, false)

/-- The exact value a finite accumulator holds. -/
def accInVal : AccIn → Option (Bool × Nat × Int)
  | .exact b lsb _ => some (decide (b < 0), b.natAbs, lsb)
  | .ordered x => match f32Dec x with
    | .fin s m e => some (s, m, e)
    | _ => none

/-- Requantise one output: the first row of R485 that applies decides it, R54 otherwise. -/
def requant (tgt : Fmt) (ofs : Nat) (zo : Int) (a : AccIn) (scale : F32) : ReqOut :=
  let z := encZero tgt zo
  let nanOut : ReqOut :=
    match fmtNaN tgt with
    | some c => ⟨c, true, false, false, true, none⟩
    | none => ⟨z.1, true, false, false, true, none⟩
  match f32Dec scale with
  | .nan => ⟨z.1, true, false, false, true, none⟩
  | .inf _ => ⟨z.1, true, false, false, true, none⟩
  | .fin sn sm se =>
    let special : Option ReqOut :=
      match a with
      | .ordered x =>
        match f32Dec x with
        | .nan => some nanOut
        | .inf s =>
          if sm = 0 then some nanOut
          else some ⟨encLimit tgt (s != sn), true, false, false, true, some 0x7F7FFFFF⟩
        | _ => none
      | .exact _ _ _ => none
    match special with
    | some r => r
    | none =>
      let ovf := match a with
        | .exact _ _ o => o
        | .ordered _ => false
      match accInVal a with
      | none => nanOut
      | some (vn, vm, ve) =>
        if sm = 0 then ⟨z.1, z.2, false, ovf, false, some 0⟩
        else if ovf then ⟨encLimit tgt (vn != sn), true, false, true, false, some 0x7F7FFFFF⟩
        else if vm = 0 then ⟨z.1, z.2, false, false, false, some 0⟩
        else
          let r := requantMag tgt ofs zo (vn != sn) (vm * sm) (ve + se)
          ⟨r.1, r.2.1, r.2.2, false, false, some (truncF32 (vm * sm) (ve + se)).toNat⟩

/-- The figures one command merges into a statistics record and into its ticket (R57, R58). -/
structure Stat where
  amax : Nat
  sat : Nat
  ufl : Nat
  spill : Nat
  ovf : Nat
  nonfin : Nat
  deriving DecidableEq, Repr

/-- No figures. -/
def statZero : Stat := ⟨0, 0, 0, 0, 0, 0⟩

/-- Count one output: `lspill` and `lnonfin` are what its Basin latched (R39, R57, R58). -/
def statOut (st : Stat) (r : ReqOut) (lspill lnonfin : Bool) : Stat :=
  { amax := max st.amax (r.amax.getD 0)
    sat := st.sat + b2n (r.sat || lnonfin)
    ufl := st.ufl + b2n r.ufl
    spill := st.spill + b2n lspill
    ovf := st.ovf + b2n r.ovf
    nonfin := st.nonfin + b2n (r.nonfin || lnonfin) }

/-- Merge figures into the 16-byte record of R58: maximum for `AMAX`, saturating addition for the counts. -/
def statMerge (rec16 : Nat) (st : Stat) : Nat :=
  let am := max (fld rec16 127 96) st.amax
  let sa := satAdd 32 (fld rec16 95 64) st.sat
  let uf := satAdd 32 (fld rec16 63 32) st.ufl
  let sp := satAdd 16 (fld rec16 31 16) st.spill
  let ov := satAdd 8 (fld rec16 15 8) st.ovf
  let nf := satAdd 8 (fld rec16 7 0) st.nonfin
  nf + 2 ^ 8 * ov + 2 ^ 16 * sp + 2 ^ 32 * uf + 2 ^ 64 * sa + 2 ^ 96 * am

end Sys2Proof.Machine
end

