-- ==== Sys2Proof/Machine/CoreTypes.lean ====
section
/-! DEFINITION. Plain data of cores, contexts, queues, programs and sequence memory (R98 to R134, R182 to R232). -/
namespace Sys2Proof.Machine

/-- A fetched descriptor and its byte offset in the core's stream (R103, R104). -/
structure Cmd where
  d : Nat
  ofs : Nat
  deriving DecidableEq, Repr

/-- A command issued and not complete (R107, R109): its number; whether its effect has run (it waits while bytes it reads come over a link); the bytes that have come; the requantiser runs it still owes; the figures it has merged; the Manifest entries an `ATTN` read (R186); whether it reads host memory (R272) and the other half (R29). -/
structure Flight where
  cmd : Cmd
  cid : Nat
  ran : Bool
  got : Tab Byte
  runs : Nat
  stat : Stat
  entries : List Nat
  host : Bool
  far : Bool
  deriving DecidableEq, Repr

/-- A stationary block as loaded: element codes at `(engine * K + k) * N + n`, zero points and group scales at `engine * N + n` (R70, R112). -/
structure WBlk where
  form : Nat
  fmt : Fmt
  group : Nat
  codes : List Nat
  zps : List Int
  mxs : List Nat
  deriving DecidableEq, Repr

/-- An open tile: the figures its loading `STREAM` fixes, the reduction so far, its Basins at `row * N + n` (R77, R82). -/
structure Tile where
  form : Nat
  rows : Nat
  ordered : Bool
  grid : Int
  chunk : Nat
  mask : List Bool
  red : Nat
  group : Nat
  accs : List Acc
  deriving DecidableEq, Repr

/-- A run of row groups that waits for the requantiser: the `STREAM` it belongs to, its row indices and their Basins (R78). -/
structure Run where
  cid : Nat
  d : Nat
  rows : List Nat
  accs : List Acc
  grid : Int
  ordered : Bool
  deriving DecidableEq, Repr

/-- A taken mooring (R128). -/
structure Moor where
  cmd : Cmd
  saving : Bool
  deriving DecidableEq, Repr

/-- The saved state of one core of a context (R128): `drained` once it has left the swap ways (R227); `place` is where its live buffers start, in the order of the swap ways or in the save area. -/
structure SavedCore where
  core : Nat
  cmd : Cmd
  args : List Nat
  lastLoadw : Option Nat
  live : List (Nat × List Byte)
  drained : Bool
  place : Nat
  deriving DecidableEq, Repr

/-- The per-core record of an installed program (R98). -/
structure PerCore where
  stern : Bool
  lcore : Nat
  streamBase : Nat
  streamLen : Nat
  imgOfs : Nat
  tags : List Nat
  deriving DecidableEq, Repr

/-- An installed program: handle, where it lies in the store and the bytes it takes there, the address of its image body, the digest of its image, its per-core records (R98, R99, R445). -/
structure Prog where
  handle : Nat
  base : Nat
  bytes : Nat
  bodyAddr : Nat
  digest : List Byte
  cores : List PerCore
  deriving DecidableEq, Repr

/-- One core (R97 to R130). `ctx` is `none` while no context holds it. -/
structure CoreSt where
  ctx : Option Nat
  restoring : Bool
  streamBase : Nat
  streamLen : Nat
  fetch : Nat
  tags : List Nat
  args : List Nat
  window : List Cmd
  inflight : List Flight
  wait : Option Cmd
  moor : Option Moor
  preempt : Bool
  wActive : Option WBlk
  wNext : Option WBlk
  lastLoadw : Option Nat
  tile : Option Tile
  runs : List Run
  deriving DecidableEq, Repr

/-- A core that no context holds. -/
def coreFree : CoreSt :=
  { ctx := none, restoring := false, streamBase := 0, streamLen := 0, fetch := 0, tags := [], args := [], window := []
    inflight := [], wait := none, moor := none, preempt := false, wActive := none, wNext := none, lastLoadw := none
    tile := none, runs := [] }

/-- The context states of R218. -/
inductive CtxState where
  | idle | running | placing | parked | blocked | unloaded | ending
  deriving DecidableEq, Repr

/-- The value of the `STATE` field (R218). -/
def ctxStateCode : CtxState → Nat
  | .idle => 0 | .running => 1 | .placing => 2 | .parked => 3 | .blocked => 4 | .unloaded => 5 | .ending => 6

/-- A ticket taken from a queue (R210) with the argument block read with it (R101). -/
structure Ticket where
  queue : Nat
  k : Nat
  seq : Nat
  handle : Nat
  deadline : Time
  notify : Bool
  args : List Nat
  prog : Prog
  deriving DecidableEq, Repr

/-- What a ticket has raised so far (R57, R136, R215, R216). -/
structure TickFlags where
  sat : Bool
  ufl : Bool
  spill : Bool
  ovf : Bool
  lateSpring : Bool
  empty : Bool
  mismatch : Bool
  satTotal : Nat
  uflTotal : Nat
  deriving DecidableEq, Repr

/-- Nothing raised. -/
def tickZero : TickFlags := ⟨false, false, false, false, false, false, false, 0, 0⟩

/-- A context entry (R218) with what its running ticket holds: cores still claimed, cores ended, saved cores, row counters at `core * 4 + counter` and mirrors (R102, R287), the held semaphore, bitmap ORs done and pending (R132), the order in which it last ran, and whether it gives up its cores to free a slot (R220). -/
structure Ctx where
  saveAddr : Nat
  saveMib : Nat
  en : Bool
  cls : Nat
  lastSeq : Nat
  state : CtxState
  ticket : Option Ticket
  want : List Nat
  ended : List Nat
  saved : List SavedCore
  rows : Tab Nat
  mirror : Tab Nat
  startT : Option Time
  flags : TickFlags
  sem : Option Nat
  progress : Nat
  pend : Nat
  ran : Nat
  runnable : Bool
  evict : Bool
  deriving DecidableEq, Repr

/-- The reset context entry (R218). -/
def ctxReset : Ctx :=
  { saveAddr := 0, saveMib := 0, en := false, cls := 3, lastSeq := 0, state := .idle, ticket := none, want := []
    ended := [], saved := [], rows := [], mirror := [], startT := none, flags := tickZero, sem := none, progress := 0
    pend := 0, ran := 0, runnable := false, evict := false }

/-- A semaphore: its holder and its waiters (class, context, core) in order of arrival (R122). -/
structure Sem where
  holder : Option Nat
  waiters : List (Nat × Nat × Nat)
  deriving DecidableEq, Repr

/-- A free semaphore. -/
def semFree : Sem := ⟨none, []⟩

/-- A Quay descriptor (R205); `aborts` are the indices of waiting tickets an abort has named (R230). -/
structure Quay where
  tring : Nat
  cring : Nat
  tail : Nat
  head : Nat
  ctail : Nat
  ringLog2 : Nat
  context : Nat
  cls : Nat
  vector : Nat
  irq : Bool
  en : Bool
  err : Nat
  aborts : List Nat
  deriving DecidableEq, Repr

/-- The reset descriptor (R205). -/
def quayReset : Quay :=
  { tring := 0, cring := 0, tail := 0, head := 0, ctail := 0, ringLog2 := 4, context := 0, cls := 3, vector := 0
    irq := false, en := false, err := 0, aborts := [] }

/-- A ticket that has ended and whose completion record is not yet written (R214 to R217). -/
structure DoneRec where
  queue : Nat
  k : Nat
  seq : Nat
  ctx : Option Nat
  status : Nat
  flags : Nat
  startT : Time
  endT : Time
  satTotal : Nat
  uflTotal : Nat
  deadline : Time
  notify : Bool
  deriving DecidableEq, Repr

/-- The sequence states of R189. -/
inductive SeqState where
  | active | starved | done | evicted
  deriving DecidableEq, Repr

/-- The value of the `STATE` field (R189). -/
def seqStateCode : SeqState → Nat
  | .active => 0 | .starved => 1 | .done => 2 | .evicted => 3

/-- A Manifest entry (R189). -/
structure MEntry where
  gen : Nat
  seg : Nat
  head : Nat
  length : Nat
  cand : Nat
  layer : Nat
  model : Nat
  context : Nat
  cls : Nat
  state : SeqState
  built : Bool
  next : Nat
  step : Nat
  user : Nat
  deriving DecidableEq, Repr

/-- The reset entry (R189). -/
def mentryReset : MEntry :=
  { gen := 0, seg := 0, head := 0xFFFFFFFF, length := 0, cand := 0, layer := 0, model := 0, context := 0, cls := 0
    state := .evicted, built := false, next := 0, step := 0, user := 0 }

/-- A released page that still waits for the `ATTN` commands that read its entry (R186). -/
structure Deferred where
  page : Nat
  cls : Nat
  waits : List Nat
  deriving DecidableEq, Repr

/-- Where a hardware error of a core sits (R373): one of the 16 sums of the array at a position, the column tree or the Basin add of an output column, the requantiser, a lane of the vector engine, a transfer over the fabric. -/
inductive Spot where
  | position (q : Nat)
  | column (n : Nat)
  | basin (n : Nat)
  | requant
  | lane
  | fabric
  deriving DecidableEq, Repr

/-- A hardware error that waits for a command it can touch: half, core (4095 for a transfer that a link asks for), place, the row or element of the command it falls in, and what it adds to the value there (R373 to R376). -/
structure Upset where
  half : Half
  core : Nat
  spot : Spot
  item : Nat
  delta : Int
  deriving DecidableEq, Repr

end Sys2Proof.Machine
end

