-- ==== Sys2Proof/Machine/DevTypes.lean ====
section
/-! DEFINITION. Plain data of the time base, the switch, cameras, triggers, loops, CAN controllers, Spring tests, power, boot, the loader, the dictionary and transactions (R297 to R482). -/
namespace Sys2Proof.Machine

/-- The gPTP side of a half (R300 to R305): Syncs in a row below 100 ns; whether a Sync has set the counter since reset; the Announce that stands on each port; the ingress time of the slave port's last Sync; whether the half has taken the lead as survivor. -/
structure TimeBase where
  good : Nat
  locked : Bool
  anns : Tab Announce
  relay : Option Time
  leads : Bool
  deriving DecidableEq, Repr

/-- A step of ticket time that has been applied (R305, R306): the model's clock at it, the ticket time before it, its amount. -/
structure TimeStep where
  clock : Nat
  t : Time
  d : Int
  deriving DecidableEq, Repr

/-- The endpoint's queues: the transmit rings, the control engine's own queue, and frames that come to this switch as replicas over port 6 (R312, R315). -/
inductive TxSrc where
  | ring | engine | peer
  deriving DecidableEq, Repr

/-- A frame waiting for its launch (R312 to R315): the queue it waits in; the device address of its ring descriptor; traffic class; bytes without FCS; launch time; source time and budget; the loop that posted it with the offsets of its status byte and CRC. -/
structure TxFrame where
  src : TxSrc
  slot : Option Nat
  cls : Nat
  data : List Byte
  launch : Option Time
  srcT : Time
  budget : Nat
  loop : Option Nat
  statusOfs : Nat
  crcOfs : Nat
  deriving DecidableEq, Repr

/-- A frame that waits at an egress port (R308, R311): the port it entered by, its bytes, its ingress time. -/
structure Egress where
  port : Nat
  data : List Byte
  ingress : Time
  deriving DecidableEq, Repr

/-- A gate-control list in force (R311): (gates, interval) pairs, a cycle start that has come, the cycle, and the `GCL_BASE` it is reckoned from. -/
structure Gcl where
  entries : List (Nat × Nat)
  base : Time
  cycle : Nat
  origin : Time
  deriving DecidableEq, Repr

/-- FRER vector recovery of one entry (R315): the highest sequence number taken and which of the 32 before it have come. -/
structure Frer where
  seq : Nat
  hist : Nat
  deriving DecidableEq, Repr

/-- The switch and port-5 endpoint of a half (R307 to R316): frames delivered to each receive ring; next slot of each transmit ring; taken frames, oldest first; frames that wait at an egress port, at `port * 8 + class`; FRER sequence numbers by stream and recovery state by entry; gate lists in force by port. -/
structure Tsn where
  rxCount : Tab Nat
  txNext : Tab Nat
  txq : List TxFrame
  egress : Tab (List Egress)
  frerSeq : Tab Nat
  frerRx : Tab Frer
  gcls : Tab Gcl
  frerDups : Nat
  deriving DecidableEq, Repr

/-- Settings of a camera channel in force for a frame (R318 to R325). -/
structure CamSet where
  dt : Nat
  width : Nat
  lines : Nat
  shift : Nat
  f : Nat
  unit : Nat
  base : Nat
  slotBytes : Nat
  slots : Nat
  pitch : Nat
  mereBase : Nat
  mereLines : Nat
  deriving DecidableEq, Repr

/-- An open frame of a channel (R320 to R324): its settings, virtual channel, number, packet number, start, last packet's time, rows, rows with CRC errors, embedded bytes stored, flags, and the rows of a stored line not yet whole. -/
structure CamFrame where
  set : CamSet
  vc : Nat
  n : Nat
  csiNo : Nat
  tFs : Time
  tLast : Time
  rows : Nat
  crcRows : Nat
  emb : Nat
  embTrunc : Bool
  long : Bool
  lenErr : Bool
  part : List (List Byte)
  deriving DecidableEq, Repr

/-- A trigger output (R327): a pulse is under way; the last instant acted on in single mode; the leading edge of the last pulse and its width. -/
structure Trig where
  active : Bool
  last : Option Time
  edge : Time
  width : Nat
  deriving DecidableEq, Repr

/-- A trigger output after reset. -/
def trigReset : Trig := ⟨false, none, 0, 0⟩

/-- A control loop (R331 to R345): PID state, state vector, whether the previous measurement is still to be taken, good samples and following-error samples in a row, time of its `CLOSE`, setpoint channels last used and their source time, alive counter, the last instant run and the model's clock at it, an instant that the next ones are reckoned from. -/
structure Loop where
  i : F32
  d : F32
  yPrev : F32
  x : List F32
  first : Bool
  good : Nat
  fe : Nat
  closeT : Time
  sp : List F32
  spSrc : Time
  alive : Nat
  last : Option Time
  lastAt : Nat
  origin : Time
  deriving DecidableEq, Repr

/-- A loop after reset. -/
def loopReset : Loop :=
  { i := 0, d := 0, yPrev := 0, x := [], first := false, good := 0, fe := 0, closeT := 0, sp := [0, 0, 0, 0], spSrc := 0
    alive := 0, last := none, lastAt := 0, origin := 0 }

/-- A frame in a CAN controller's queue (R349, R350), `cause` of its last failed attempt; a refused one completes when it comes to the head. -/
structure CanTx where
  slot : Option Nat
  f : CanFrame
  launch : Option Time
  srcT : Time
  budget : Nat
  cause : Nat
  loop : Option Nat
  statusOfs : Nat
  crcOfs : Nat
  refused : Bool
  deriving DecidableEq, Repr

/-- A CAN controller (R346 to R353): its queue, next ring slot, records written, settings in force (`MODE`, `FORMATS`, `ONE_SHOT`, `OWNER`, the three bit-timing words, `RX_RING`, `RX_DELAY_NS`, `TX_RING`, `BUSOFF_AUTO`, `ABD_TABLE`, `ABD_ROUNDS`), error counters and bus-off, whether `MODE` was written during bus-off, and bit-rate detection: candidate, error-free frames in a row, FD and XL timing validated, passes done, frames held until the candidate is accepted; safety messages that wait beside the queue, by the half they are about (R391). -/
structure Can where
  queue : List CanTx
  next : Nat
  recNo : Nat
  mode : Nat
  formats : Nat
  oneShot : Bool
  owner : Nat
  nbt : Nat
  dbtFd : Nat
  dbtXl : Nat
  rxRing : Nat
  rxDelay : Int
  txRing : Nat
  busoffAuto : Bool
  abd : List Byte
  abdRounds : Nat
  tec : Nat
  recv : Nat
  busOff : Bool
  recover : Bool
  cand : Option Nat
  goodFrames : Nat
  fdOk : Bool
  xlOk : Bool
  rounds : Nat
  held : List (CanFrame × Time)
  safe : Tab CanFrame
  deriving DecidableEq, Repr

/-- A controller after reset (R346 to R353). -/
def canReset : Can :=
  { queue := [], next := 0, recNo := 0, mode := 0, formats := 0, oneShot := false, owner := 0, nbt := 0x021FD020
    dbtFd := 0x021FD020, dbtXl := 0x021FD020, rxRing := 0, rxDelay := 0, txRing := 0, busoffAuto := true, abd := [], abdRounds := 3, tec := 0, recv := 0, busOff := false, recover := false, cand := none
    goodFrames := 0, fdOk := false, xlOk := false, rounds := 0, held := [], safe := [] }

/-- A core's Spring test (R382 to R385): segments passed, due time of the test last due, recorded late, the model's clock when it fell due. -/
structure Spring where
  seg : Nat
  due : Time
  late : Bool
  mark : Option Nat
  deriving DecidableEq, Repr

/-- No Spring test under way. -/
def springIdle : Spring := ⟨0, 0, false, none⟩

/-- Power, clocks and supplies of a half (R449 to R465, R476, R477): `x_RESET_N` low; supplies up; held in reset by a supply fault; DRAM without valid code after Off; `POWER_REQ` taken; time of the last operating-point change; a raise waiting for the regulator (target); the point whose voltage the regulator has not yet reported; thermal timers; thermal hold; planned Nap entry under way (1), as part of a handover (2), or its wake (3); output clamps in force, with the trigger outputs that are active low; stopped at a start-up step; dispatcher held. -/
structure Power where
  resetN : Bool
  supplied : Bool
  supplyFault : Bool
  cold : Bool
  req : Nat
  lastChange : Option Time
  raise : Option Nat
  vcmd : Option Nat
  hotSince : Option Time
  coolSince : Option Time
  hold : Bool
  nap : Nat
  clamp : Bool
  clampLow : Nat
  stuck : Bool
  dispatchOff : Bool
  deriving DecidableEq, Repr

/-- Power state of a half held in reset with its supplies up. -/
def powerReset : Power :=
  { resetN := true, supplied := true, supplyFault := false, cold := true, req := 0, lastChange := none, raise := none
    vcmd := none, hotSince := none, coolSince := none, hold := false, nap := 0, clamp := false, clampLow := 0, stuck := false
    dispatchOff := false }

/-- A firmware slot: erased since it was last given, and the bytes written to it (R430, R442). -/
structure Slot where
  erased : Bool
  cells : Tab Byte
  deriving DecidableEq, Repr

/-- What a half's flash holds beside its part and service records (R430, R431, R434): boot control block, both slots, owner key record with authorisation, permission and defaults records; counters 0, 1 and 3 (counter 2 is `serviceCtr`). -/
structure Flash where
  preferred : Nat
  trial : Bool
  tries : Nat
  lastGood : Nat
  slotA : Slot
  slotB : Slot
  owner : List Byte
  perm : List Byte
  dflt : List Byte
  cnt0 : Nat
  cnt1 : Nat
  cnt3 : Nat
  partOk : Bool
  deriving DecidableEq, Repr

/-- The flash of a half as first seen (R434; DESIGN CHOICE, log 19). -/
def flashReset : Flash :=
  { preferred := 0, trial := false, tries := 0, lastGood := 0, slotA := ⟨false, []⟩, slotB := ⟨false, []⟩, owner := []
    perm := [], dflt := [], cnt0 := 0, cnt1 := 0, cnt3 := 0, partOk := true }

/-- Boot of a half (R433, R434, R443): stage (0 in reset, 1 first stage confined, 2 first stage verified, 3 main firmware running), slot being run, slots that failed a check, confinement, reset release of a trial. -/
structure Boot where
  stage : Nat
  slot : Nat
  failed : List Nat
  trialT : Option Time
  deriving DecidableEq, Repr

/-- A half in reset. -/
def bootReset : Boot := ⟨0, 0, [], none⟩

/-- Owner settings in force in a half (R403, R406, R440, R441): write-permission masks and defaults by dictionary key, and the owner key record. -/
structure Settings where
  perms : Tab Nat
  dflts : List (Nat × List Byte)
  owner : List Byte
  deriving DecidableEq, Repr

/-- A dictionary message being assembled from CAN segments (R411). -/
structure SegAsm where
  trans : Nat
  next : Nat
  bytes : List Byte
  deriving DecidableEq, Repr

/-- A response kept by the CAN and UDP endpoints (R414). -/
structure Kept where
  req : Req
  bytes : List Byte
  deriving DecidableEq, Repr

/-- A staged entry (R417, R418): its bytes, with none where a byte of a DOMAIN has not been written. -/
structure Staged where
  idx : Nat
  sub : Nat
  bytes : List (Option Byte)
  deriving DecidableEq, Repr

/-- The device's one transaction (R415 to R421): owner, `BEGIN` and `COMMIT` times, boundary once fixed, whether it has reached the other half, staged entries. -/
structure Txn where
  owner : Option (Half × Req)
  beginT : Time
  commitT : Time
  boundary : Option Time
  staged : List Staged
  deriving DecidableEq, Repr

/-- No transaction. -/
def txnIdle : Txn := ⟨none, 0, 0, none, []⟩

/-- An RW write to a device-wide entry taken and not yet applied (R409). -/
structure MirrorWrite where
  half : Half
  req : Req
  idx : Nat
  sub : Nat
  bytes : List Byte
  at_ : Time
  acked : Bool
  deriving DecidableEq, Repr

/-- A heartbeat on the Ferry (R285): time of sending, `HALF_STATUS` bits [21:0], count. -/
structure Beat where
  t : Time
  status : Nat
  count : Nat
  deriving DecidableEq, Repr

/-- A `LOAD` under way (R445). -/
structure Loading where
  src : Nat
  bytes : Nat
  deriving DecidableEq, Repr

/-- The test access port (R482): controller state, instruction and its shift register, bypass bit, boundary register (shift and update stages). -/
structure Scan where
  tap : Nat
  ir : Nat
  irShift : Nat
  bypass : Bool
  cells : List Bool
  out : List Bool
  deriving DecidableEq, Repr

end Sys2Proof.Machine
end

