-- ==== Sys2Proof/Machine/LinkTypes.lean ====
section
/-! DEFINITION. Plain data of the host link, the Ferry and the Causeway ports (R261 to R296). -/
namespace Sys2Proof.Machine

/-- The link states of R284. -/
inductive LinkState where
  | down | training | active | retrain | failed
  deriving DecidableEq, Repr

/-- The value of a link state (R284). -/
def linkStateCode : LinkState → Nat
  | .down => 0 | .training => 1 | .active => 2 | .retrain => 3 | .failed => 4

/-- A numbered flit in a replay buffer (R283): its sequence number and its 72 bytes, body and trailer. -/
structure Flit where
  seq : Nat
  bytes : List Byte
  deriving DecidableEq, Repr

/-- One link port: its state; messages waiting for credits and messages sent and not yet served (R282); the number of the next flit to send and the next expected (R279); numbered flits not yet acknowledged, oldest first (R283); data-flit buffers freed by class and not yet returned as credits; whether arriving flits are discarded until the replay; a `NAK` on its way and the number it names; the last `NAK`'s number and how often it came (R283); retrains failed in a row, heartbeat periods missed in a row, and the heartbeats a Causeway port has sent (R285). -/
structure Link where
  state : LinkState
  waiting : List LinkMsg
  sent : List LinkMsg
  txSeq : Nat
  rxSeq : Nat
  replay : List Flit
  owed : Tab Nat
  discard : Bool
  nakTx : Option Nat
  nakSeq : Nat
  nakCount : Nat
  failedRetrains : Nat
  missed : Nat
  beats : Nat
  deriving DecidableEq, Repr

/-- A link after reset (R284). -/
def linkDown : Link :=
  { state := .down, waiting := [], sent := [], txSeq := 0, rxSeq := 0, replay := [], owed := [], discard := false, nakTx := none, nakSeq := 0
    nakCount := 0, failedRetrains := 0, missed := 0, beats := 0 }

/-- What an outstanding access over a link does when its response comes (R281). -/
inductive XferKind where
  | rd (addr lines : Nat)
  | wr
  | or8
  | counter
  deriving DecidableEq, Repr

/-- An access outstanding over a link: its tag, the port it left by, the core and command it belongs to, and the context whose ticket it serves. -/
structure Xfer where
  tag : Nat
  port : Port
  core : Nat
  cid : Nat
  ctx : Nat
  kind : XferKind
  deriving DecidableEq, Repr

/-- A value that waits in the pending-counter store for its context (R287): program, `SEQ`, core, counter, value. -/
structure PendCtr where
  program : Nat
  seq : Nat
  core : Nat
  ctr : Nat
  value : Nat
  deriving DecidableEq, Repr

/-- The host side of a half (R261 to R277): link and PCIe state, MSI-X, mailboxes, and the counts of discarded writes, to host memory while the link is down (R275) and by BAR4 to the program store (R445). -/
structure HostIf where
  perst : Bool
  linkUp : Bool
  cfgDone : Bool
  busMaster : Bool
  memEnable : Bool
  config : Tab Byte
  msixEnable : Bool
  msixMaskAll : Bool
  msixTable : Tab Byte
  msixPending : List Nat
  hostAlive : Nat
  mailboxIn : Tab Byte
  mailboxOut : Tab Byte
  lostWrites : Nat
  storeWrites : Nat
  deriving DecidableEq, Repr

/-- The host interface after reset: held in `x_HD_PERST_N`, link down, PCIe reset values (R275, R276). -/
def hostReset : HostIf :=
  { perst := true, linkUp := false, cfgDone := false, busMaster := false, memEnable := false, config := [], msixEnable := false
    msixMaskAll := false, msixTable := [], msixPending := [], hostAlive := 0, mailboxIn := [], mailboxOut := [], lostWrites := 0, storeWrites := 0 }

end Sys2Proof.Machine
end

