-- ==== Sys2Proof/Machine/State.lean ====
section
/-! DEFINITION. The state of the block, its reset, and the reasons a step could stop. -/
namespace Sys2Proof.Machine

/-- Reasons the block stops with a fault. There is none: a fault of the spec ends a context, a half or a request, and the block goes on (DESIGN CHOICE, log 1). -/
inductive Fault where
  deriving DecidableEq, Repr

/-- Reasons a command is refused. -/
inductive Refusal where
  /-- A row of the table without a meaning yet, by its mnemonic; raised by `exec` alone. Safe. -/
  | notModelled (mnemonic : String)
  deriving DecidableEq, Repr

/-- What the part record says (R1, R2, R93, R435; DESIGN CHOICE, log 18). -/
structure Part where
  cores : Nat
  hostDie : Nat
  serial : Nat
  macBow : Nat
  macStern : Nat
  spareBow : Tab Nat
  spareStern : Tab Nat
  deriving DecidableEq, Repr

/-- What leaves the block and is not memory (DESIGN CHOICE, log 17). -/
inductive Output where
  | msix (h : Half) (vector : Nat) (addr data : Nat)
  | sideband (h : Half) (msg : Nat) (value : Nat)
  | hostPosted (h : Half) (addr : Nat) (data : List Byte)
  | completion (h : Half) (poisoned : Bool) (bytes : List Byte)
  | cfgCompletion (h : Half) (retry : Bool) (bytes : List Byte)
  | frameOut (h : Half) (port : Nat) (bytes : List Byte) (t : Time)
  | canOut (h : Half) (ctrl : Nat) (f : CanFrame) (t : Time)
  | udp (h : Half) (addr port : Nat) (bytes : List Byte)
  | trigger (h : Half) (k : Nat) (level : Bool) (t : Time)
  | syncOut (h : Half) (port : Nat) (t : Time) (correction : Option Int)
  | regulator (h : Half) (millivolt : Nat)
  | response (h : Half) (p : Port) (m : LinkMsg)
  | beat (h : Half) (p : Port) (b : Beat)
  | flit (h : Half) (p : Port) (bytes : List Byte)
  | unsupported (h : Half)
  | tdo (level : Bool)
  deriving DecidableEq, Repr

/-- One accumulator of the event recorder (R423). Extremes are the 32-bit values of the record. -/
structure RAcc where
  kind : Nat
  scope : Nat
  unit : Nat
  key : Nat
  bins : List Nat
  count : Nat
  low : Option Int
  high : Option Int
  tFirst : Time
  tLast : Time
  deriving DecidableEq, Repr

/-- One record of the ring (R425): `acc` its contents, its number, `WSEQ` and `REPEAT`. -/
structure RRec where
  num : Nat
  wseq : Nat
  rep : Nat
  acc : RAcc
  deriving DecidableEq, Repr

/-- A half's event recorder (R423 to R427): records oldest first. -/
structure Recorder where
  accs : List RAcc
  recs : List RRec
  head : Nat
  tail : Nat
  seq : Nat
  deriving DecidableEq, Repr

/-- An empty recorder. -/
def recEmpty : Recorder := ⟨[], [], 0, 0, 0⟩

/-- Safety manager state (R378 to R400): safety frame number, whether frames are counted from ticket time, time of the last frame counted, camera frame counted last; over-budget counts by ring (0 to 7), CAN controller (8 to 11) and loop (16 to 23); frames at which uncorrectable errors were found, by channel group; failed retrainings in a row by channel; units under suspicion (`core * 128` for the core, `+ 1 + q` for position `q`, `0xFFFF` for the fabric) with the frame that made them so; the message's alive counter; the output gate; the lifeboat switch under way; the peer's `HALF_STATUS` in its last heartbeat and the cause of its loss where known; reads of bad lines reported to the manager, by core, `0xFFFF` for readers that are no core (R258, R268); failed reads of host memory, by core (R272); trips by loop (R342, R393). -/
structure Safety where
  frameNo : Nat
  byTime : Bool
  frameT : Time
  camSeen : Nat
  overBudget : Tab Nat
  ueHist : List (Nat × Nat)
  retrainRow : Tab Nat
  suspects : Tab Nat
  alive : Nat
  gateClosed : Bool
  gated : Bool
  digesting : Bool
  handover : Bool
  peerStat : Option Nat
  peerCause : Nat
  poisonReads : Tab Nat
  hostErrs : Tab Nat
  trips : Tab Nat
  deriving DecidableEq, Repr

/-- The safety manager after reset. -/
def safetyReset : Safety :=
  { frameNo := 0, byTime := false, frameT := 0, camSeen := 0, overBudget := [], ueHist := [], retrainRow := [], suspects := [], alive := 0
    gateClosed := false, gated := false, digesting := false, handover := false, peerStat := none, peerCause := 0, poisonReads := [], hostErrs := [], trips := [] }

/-- A core's spares and rolling test (R84 to R93): the spare map word in force; retired positions whose mapping is pending, each with the spare that is to take it; those whose block the last `LOADW` also wrote into their spare; the test spare; the spare that tested last; whether its pass is in its first phase; whether the test spare holds its position's active block. -/
structure Roll where
  word : Nat
  pend : List (Nat × Nat)
  armed : List Nat
  testSpare : Option Nat
  lastTest : Nat
  lbist : Bool
  shadow : Bool
  deriving DecidableEq, Repr

/-- A core without spares in use and without a test under way. -/
def rollFree : Roll := ⟨0, [], [], none, 3, false, false⟩

/-- One entry of a half's service record (R436): sequence number, kind, core, spare, position, time; whether its MAC holds. -/
structure ServEntry where
  seq : Nat
  kind : Nat
  core : Nat
  spare : Nat
  pos : Nat
  t : Time
  valid : Bool
  deriving DecidableEq, Repr

/-- One half. `phase` is what its ticket time has gained beyond whole nanoseconds by its rate adjustment, in 10⁻⁹ ns (R298); `springS` is the `S` of R382 and `springClock` the model's clock at it. -/
structure HalfState where
  tt : Time
  phase : Int
  queues : Tab Quay
  ctxs : Tab Ctx
  passed : List (Nat × Option Nat)
  cursors : List Nat
  sems : Tab Sem
  cores : Tab CoreSt
  ranStamp : Nat
  nextCid : Nat
  done : List DoneRec
  manifest : Tab MEntry
  pages : Tab Nat
  deferred : List Deferred
  stepNo : Nat
  progs : List Prog
  pendCtrs : List PendCtr
  ferry : Link
  cw0 : Link
  cw1 : Link
  xfers : List Xfer
  nextTag : Nat
  host : HostIf
  faultN : Bool
  peer : Nat
  ready : Nat
  lifeboat : Bool
  recorder : Recorder
  recMirror : Recorder
  safety : Safety
  roll : Tab Roll
  service : List ServEntry
  serviceCtr : Nat
  beatTx : Option Beat
  timeTx : Option (Time × Nat)
  beats : Nat
  beatsRx : Nat
  lineCtr : Tab Nat
  tb : TimeBase
  tsn : Tsn
  cams : Tab CamFrame
  trigs : Tab Trig
  caps : Tab Time
  loops : Tab Loop
  cans : Tab Can
  springS : Time
  springClock : Nat
  springs : Tab Spring
  power : Power
  flash : Flash
  boot : Boot
  settings : Settings
  attNonce : Option (List Byte)
  loading : Option Loading
  gens : Tab Nat
  canSeg : Tab SegAsm
  kept : List Kept
  deriving DecidableEq, Repr

/-- The whole block. `devPins` is the level of `D_DEVID1` and `D_DEVID0` (R289). Hardware errors that wait to be found are data of it: `lineErr` gives the bytes in error of a DRAM line, stored byte 0 to 71 and the bits wrong in it (R249), `sramBad` marks Pool and Mere words with one (1) or two (2) wrong bits (R240), `upsets` the errors of the computing units and of the fabric (R373 to R376). `clock` is the model's own count of nanoseconds since reset, which tells apart ticket times more than 2^47 ns old (R297). -/
structure State where
  pending : List Instr
  freeCtr : Nat
  outbox : List Output
  part : Part
  devPins : Nat
  mem : Tab Byte
  poison : List Nat
  lineErr : Tab (Tab Nat)
  sramBad : Tab Nat
  upsets : List Upset
  hostMem : Tab Byte
  dict : Tab Nat
  dictBytes : Tab (List Byte)
  txn : Txn
  mirrors : List MirrorWrite
  stepAt : Option Time
  steps : List TimeStep
  clock : Nat
  standby : Bool
  scan : Scan
  bow : HalfState
  stern : HalfState
  deriving DecidableEq, Repr

/-- A half held in reset (R265, R276, R284, R302, R433): links down, peer not yet started, `FAULT_N` asserted. -/
def halfReset : HalfState :=
  { tt := 0, phase := 0, queues := [], ctxs := [], passed := [], cursors := [0, 0, 0, 0], sems := [], cores := [], ranStamp := 0
    nextCid := 0, done := [], manifest := [], pages := [], deferred := [], stepNo := 0, progs := [], pendCtrs := []
    ferry := linkDown, cw0 := linkDown, cw1 := linkDown, xfers := [], nextTag := 0, host := hostReset, faultN := true
    peer := 3, ready := 0, lifeboat := false, recorder := recEmpty, recMirror := recEmpty, safety := safetyReset
    roll := [], service := [], serviceCtr := 0, beatTx := none, timeTx := none, beats := 0
    beatsRx := 0, lineCtr := [], tb := ⟨0, false, [], none, false⟩, tsn := ⟨[], [], [], [], [], [], [], 0⟩, cams := [], trigs := [], caps := []
    loops := [], cans := [], springS := 0, springClock := 0, springs := [], power := powerReset, flash := flashReset, boot := bootReset
    settings := ⟨[], [], []⟩, attNonce := none, loading := none, gens := [], canSeg := [], kept := [] }

/-- The block right after reset: both halves in reset, nothing in memory, no command waiting (log 6, 8, 18). -/
def State.reset : State :=
  { pending := [], freeCtr := 0, outbox := [], part := ⟨96, 2, 0, 0, 0, [], []⟩, devPins := 0, mem := [], poison := [], lineErr := []
    sramBad := [], upsets := [], hostMem := [], dict := [], dictBytes := [], txn := txnIdle, mirrors := []
    stepAt := none, steps := [], clock := 0, standby := false, scan := ⟨0, 3, 0, false, [], []⟩, bow := halfReset, stern := halfReset }

end Sys2Proof.Machine
end

