-- ==== Sys2Proof/Machine/Ops.lean ====
section
/-! DEFINITION. Named operations over the state: halves, cores, contexts, dictionary registers, memory, free values, outputs and the event recorder. -/
namespace Sys2Proof.Machine

/-- One half of the state. -/
def State.half (s : State) : Half → HalfState
  | .bow => s.bow
  | .stern => s.stern

/-- Put a half into the state. -/
def State.setHalf (s : State) (h : Half) (x : HalfState) : State :=
  match h with
  | .bow => { s with bow := x }
  | .stern => { s with stern := x }

/-- Change one half. -/
def State.modHalf (s : State) (h : Half) (f : HalfState → HalfState) : State := s.setHalf h (f (s.half h))

/-- Core `c` of half `h`. -/
def State.core (s : State) (h : Half) (c : Nat) : CoreSt := Tab.get coreFree (s.half h).cores c

/-- Put core `c` of half `h`. -/
def State.setCore (s : State) (h : Half) (c : Nat) (k : CoreSt) : State :=
  s.modHalf h (fun x => { x with cores := Tab.set coreFree x.cores c k })

/-- Context `n` of half `h`. -/
def State.ctx (s : State) (h : Half) (n : Nat) : Ctx := Tab.get ctxReset (s.half h).ctxs n

/-- Put context `n` of half `h`. -/
def State.setCtx (s : State) (h : Half) (n : Nat) (k : Ctx) : State :=
  s.modHalf h (fun x => { x with ctxs := Tab.set ctxReset x.ctxs n k })

/-- Queue `q` of half `h`. -/
def State.quay (s : State) (h : Half) (q : Nat) : Quay := Tab.get quayReset (s.half h).queues q

/-- Put queue `q` of half `h`. -/
def State.setQuay (s : State) (h : Half) (q : Nat) (k : Quay) : State :=
  s.modHalf h (fun x => { x with queues := Tab.set quayReset x.queues q k })

/-- Manifest entry `e` of half `h`. -/
def State.mentry (s : State) (h : Half) (e : Nat) : MEntry := Tab.get mentryReset (s.half h).manifest e

/-- Put Manifest entry `e` of half `h`. -/
def State.setMentry (s : State) (h : Half) (e : Nat) (k : MEntry) : State :=
  s.modHalf h (fun x => { x with manifest := Tab.set mentryReset x.manifest e k })

/-- Semaphore `i` of half `h`. -/
def State.sem (s : State) (h : Half) (i : Nat) : Sem := Tab.get semFree (s.half h).sems i

/-- Put semaphore `i` of half `h`. -/
def State.setSem (s : State) (h : Half) (i : Nat) (k : Sem) : State :=
  s.modHalf h (fun x => { x with sems := Tab.set semFree x.sems i k })

/-- The link of a port. -/
def State.link (s : State) (h : Half) : Port → Link
  | .ferry => (s.half h).ferry
  | .cw0 => (s.half h).cw0
  | .cw1 => (s.half h).cw1

/-- Put the link of a port. -/
def State.setLink (s : State) (h : Half) (p : Port) (l : Link) : State :=
  match p with
  | .ferry => s.modHalf h (fun x => { x with ferry := l })
  | .cw0 => s.modHalf h (fun x => { x with cw0 := l })
  | .cw1 => s.modHalf h (fun x => { x with cw1 := l })

/-- Ticket time of half `h` (R297). -/
def State.now (s : State) (h : Half) : Time := (s.half h).tt

/-! ### Dictionary registers (R403) -/

/-- The key of an entry in the sparse stores. -/
def dkey (idx sub : Nat) : Nat := idx * 256 + sub

/-- Index `idx` of the half ranges, in half `h` (R10). -/
def hk (h : Half) (idx : Nat) : Nat := match h with
  | .bow => idx
  | .stern => idx + 0x2000

/-- Index of the recorder, control-loop and per-core ranges, in half `h` (R10). -/
def hk8 (h : Half) (idx : Nat) : Nat := match h with
  | .bow => idx
  | .stern => idx + 0x800

/-- Index of the communication range, in half `h` (R10). -/
def hkc (h : Half) (idx : Nat) : Nat := match h with
  | .bow => idx
  | .stern => idx + 0x80

/-- The default of a number entry: its table's, or the port's or channel's own (R311, R317). -/
def dictDflt (idx sub : Nat) : Nat :=
  match entryOf idx sub with
  | none => 0
  | some (a, e, _) =>
    match e.dflt with
    | .num n => n
    | .zeros _ => 0
    | .part => 0
    | .chan => sub / 16 - 1
    | .portEn => if a.rep = 5 ∨ a.rep = 6 then 1 else 0
    | .portSpeed => if a.rep = 4 then 1000 else 10000

/-- The value in force of a number entry. -/
def State.num (s : State) (idx sub : Nat) : Nat :=
  match s.dict.find (dkey idx sub) with
  | some v => v
  | none => dictDflt idx sub

/-- Set a number entry; a value equal to its default is not listed. -/
def State.setNum (s : State) (idx sub v : Nat) : State :=
  { s with dict := if v = dictDflt idx sub then Tab.erase s.dict (dkey idx sub)
                   else Tab.insert s.dict (dkey idx sub) v }

/-- The default of a byte-string entry. -/
def bytesDflt (idx sub : Nat) : List Byte :=
  match entryOf idx sub with
  | some (_, e, _) => match e.dflt with
    | .zeros n => List.replicate n 0
    | _ => []
  | none => []

/-- The value in force of a byte-string entry. -/
def State.bytes (s : State) (idx sub : Nat) : List Byte :=
  match s.dictBytes.find (dkey idx sub) with
  | some v => v
  | none => bytesDflt idx sub

/-- Set a byte-string entry. -/
def State.setBytes (s : State) (idx sub : Nat) (v : List Byte) : State :=
  { s with dictBytes := if v = bytesDflt idx sub then Tab.erase s.dictBytes (dkey idx sub)
                        else Tab.insert s.dictBytes (dkey idx sub) v }

/-- Raise a counter entry of 32 bits that stops at all ones (R259). -/
def State.bump (s : State) (idx sub n : Nat) : State := s.setNum idx sub (satAdd 32 (s.num idx sub) n)

/-- A signed dictionary value of `w` bits. -/
def State.int (s : State) (idx sub w : Nat) : Int := sext w (s.num idx sub)

/-! ### Ticket time (R297 to R299) -/

/-- `FREQ_ADJ_PPB`: the rate adjustment of half `h`'s counter (R298). -/
def State.rate (s : State) (h : Half) : Int := s.int (hk h 0x4A00) 3 32

/-- Half `h`'s counter advances over `ns` nanoseconds at its adjusted rate (R298). -/
def State.advance (s : State) (h : Half) (ns : Int) : State :=
  let gain := (s.half h).phase + ns * s.rate h
  s.modHalf h (fun x => { x with tt := x.tt + BitVec.ofInt 48 (ns + gain / 1000000000), phase := gain % 1000000000 })

/-- Bring the counters to the ticket time at which a time-driven command happens in half `h`, never back: the other half's counter advances over the same time at its own rate (R297 to R299; DESIGN CHOICE, log 3). -/
def State.atTime (s : State) (h : Half) (t : Time) : State :=
  let d := Time.diff t (s.half h).tt
  if 0 ≤ d then
    let ns := d * 1000000000 / (1000000000 + s.rate h)
    let s := (s.modHalf h (fun x => { x with tt := t, phase := 0 })).advance h.other ns
    { s with clock := s.clock + ns.toNat }
  else s

/-! ### The device address map (R235 to R237) -/

/-- What a device address names (R235). -/
inductive Region where
  | dram (h : Half)
  | mere (h : Half) (cluster : Nat)
  | pool (h : Half) (core : Nat)
  | ctl (h : Half)
  | host
  | peer (dev : Nat)
  | unmapped
  deriving DecidableEq, Repr

/-- The region of a 48-bit address; windows exist only for enabled clusters and cores (R236). -/
def regionOf (cores a : Nat) : Region :=
  if a < 0x1000000000 then .dram .bow
  else if a < 0x2000000000 then .dram .stern
  else if a < 0x2008000000 then
    (if (a - 0x2000000000) / 0x800000 < cores / 8 then .mere .bow ((a - 0x2000000000) / 0x800000) else .unmapped)
  else if a < 0x2010000000 then
    (if (a - 0x2008000000) / 0x800000 < cores / 8 then .mere .stern ((a - 0x2008000000) / 0x800000) else .unmapped)
  else if a < 0x2020000000 then
    (if (a - 0x2010000000) / 0x200000 < cores then .pool .bow ((a - 0x2010000000) / 0x200000) else .unmapped)
  else if a < 0x2030000000 then
    (if (a - 0x2020000000) / 0x200000 < cores then .pool .stern ((a - 0x2020000000) / 0x200000) else .unmapped)
  else if a < 0x2100000000 then .unmapped
  else if a < 0x2140000000 then .ctl .bow
  else if a < 0x2180000000 then .ctl .stern
  else if a < 0x400000000000 then .unmapped
  else if a < 0x600000000000 then .host
  else if a < 0x800000000000 then .peer ((a - 0x600000000000) / 2 ^ 43)
  else .unmapped

/-- Start of core `c`'s Pool window (R235). -/
def poolBase (h : Half) (c : Nat) : Nat := match h with
  | .bow => 0x2010000000 + c * 0x200000
  | .stern => 0x2020000000 + c * 0x200000

/-- Start of a cluster's Mere window (R235). -/
def mereBase (h : Half) (cluster : Nat) : Nat := match h with
  | .bow => 0x2000000000 + cluster * 0x800000
  | .stern => 0x2008000000 + cluster * 0x800000

/-- Start of a half's DRAM (R235). -/
def dramBase : Half → Nat
  | .bow => 0
  | .stern => 0x1000000000

/-- Start of a half's control space (R235). -/
def ctlBase : Half → Nat
  | .bow => 0x2100000000
  | .stern => 0x2140000000

/-- The region of an address in this part. -/
def State.region (s : State) (a : Nat) : Region := regionOf s.part.cores a

/-- The 64-byte lines that `n` bytes from `a` touch (R260). -/
def linesOf (a n : Nat) : List Nat := if n = 0 then [] else upto ((a + n - 1) / 64 + 1 - a / 64) (fun i => (a / 64 + i) * 64)

/-- The 8-byte words that `n` bytes from `a` touch (R240). -/
def wordsOf (a n : Nat) : List Nat := if n = 0 then [] else upto ((a + n - 1) / 8 + 1 - a / 8) (fun i => (a / 8 + i) * 8)

/-! ### Memory (R235, R260): DRAM, Meres and Pools in one sparse list -/

/-- What a byte of the device's own memory that is not listed reads as (R129, R462; DESIGN CHOICE, log 6). -/
def memDflt : Byte := 0

/-- The byte at a device address. -/
def memGet (m : Tab Byte) (a : Nat) : Byte := Tab.get memDflt m a

/-- Write one byte. -/
def memSet (m : Tab Byte) (a : Nat) (b : Byte) : Tab Byte := Tab.set memDflt m a b

/-- Write bytes from an address upward. -/
def memWrite (m : Tab Byte) : Nat → List Byte → Tab Byte
  | _, [] => m
  | a, b :: bs => memWrite (memSet m a b) (a + 1) bs

/-- Read `n` bytes from an address upward. -/
def memRead (m : Tab Byte) (a n : Nat) : List Byte := upto n (fun i => memGet m (a + i))

/-- Clear the bytes `[a, a + n)`. -/
def memClear (m : Tab Byte) (a n : Nat) : Tab Byte := m.filter (fun p => !(decide (a ≤ p.1) && decide (p.1 < a + n)))

/-- The canonical form of memory. -/
def Memory.wf (m : Tab Byte) : Bool := Tab.wf memDflt m

/-- A byte of the device's memory. -/
def State.byte (s : State) (a : Nat) : Byte := memGet s.mem a

/-- `n` bytes of the device's memory. -/
def State.read (s : State) (a n : Nat) : List Byte := memRead s.mem a n

/-- The little-endian number in `n` bytes (R37). -/
def State.readNat (s : State) (a n : Nat) : Nat := leNat (s.read a n)

/-- Write bytes: a write that covers a whole line clears its poison and errors, a write of part of a line merges into the corrected line and re-encodes it, a write that covers a whole Pool or Mere word stores a fresh code (R240, R251, R258). -/
def State.write (s : State) (a : Nat) (bs : List Byte) : State :=
  let n := bs.length
  { s with
    mem := memWrite s.mem a bs
    poison := s.poison.filter (fun l => !(decide (a ≤ l) && decide (l + 64 ≤ a + n)))
    lineErr := s.lineErr.filter (fun p => !(decide (a < p.1 + 64) && decide (p.1 < a + n)
      && (decide (p.2.length ≤ 4) || (decide (a ≤ p.1) && decide (p.1 + 64 ≤ a + n)))))
    sramBad := s.sramBad.filter (fun p => !(decide (a ≤ p.1) && decide (p.1 + 8 ≤ a + n))) }

/-- A byte of host memory at a bus address (R270; DESIGN CHOICE, log 7). -/
def State.hostByte (s : State) (a : Nat) : Byte := (s.hostMem.find a).getD (Config.hostByte a)

/-- Write host memory; the host's own bytes are never taken out of the list (DESIGN CHOICE, log 7). -/
def State.hostWrite (s : State) : Nat → List Byte → State
  | _, [] => s
  | a, b :: bs => State.hostWrite { s with hostMem := Tab.insert s.hostMem (a % 2 ^ 64) b } (a + 1) bs

/-! ### Free values and outputs -/

/-- The next free value, and the state with the counter past it (DESIGN CHOICE, log 9). -/
def State.free (s : State) : Nat × State := (Config.freeNat s.freeCtr, { s with freeCtr := s.freeCtr + 1 })

/-- Log something that leaves the block (DESIGN CHOICE, log 17). -/
def State.emit (s : State) (o : Output) : State := { s with outbox := s.outbox ++ [o] }

/-- Byte of an MSI-X table that nothing has written: every vector is masked after reset, as PCIe defines (PRESUMED, log 15). -/
def msixByte (t : Tab Byte) (a : Nat) : Byte := (t.find a).getD (if a % 16 = 12 then 1 else 0)

/-- Signal MSI-X vector `v` of half `h` (R269, R275): sent when its function may send and the vector is unmasked; a masked vector sets its pending bit; while the link is down it is discarded. -/
def State.msix (s : State) (h : Half) (v : Nat) : State :=
  let x := (s.half h).host
  if !x.linkUp || !x.msixEnable || !x.busMaster then s
  else if x.msixMaskAll || (msixByte x.msixTable (v * 16 + 12)).toNat % 2 = 1 then
    s.modHalf h (fun y => { y with host := { y.host with
      msixPending := if v ∈ y.host.msixPending then y.host.msixPending else y.host.msixPending ++ [v] } })
  else
    let fieldAt (o n : Nat) : Nat := leNat (upto n (fun i => msixByte x.msixTable (v * 16 + o + i)))
    s.emit (.msix h v (fieldAt 0 8) (fieldAt 8 4))

/-! ### The event recorder (R423 to R429) -/

/-- The log rule of R426. -/
def logBin (v : Int) : Nat := if v < 1 then 0 else min (v.toNat.log2 + 1) 11

/-- The linear rule of R426. -/
def linBin (v base : Int) : Nat := (clampI 0 11 (v - base)).toNat

/-- The kinds of R426 marked urgent. -/
def kindUrgent (k : Nat) : Bool := k ∈ [6, 8, 11, 13, 14, 16]

/-- Smaller of two extremes. -/
def extLow : Option Int → Option Int → Option Int
  | some a, some b => some (min a b)
  | some a, none => some a
  | none, b => b

/-- Larger of two extremes. -/
def extHigh : Option Int → Option Int → Option Int
  | some a, some b => some (max a b)
  | some a, none => some a
  | none, b => b

/-- Same kind, scope, unit and key (R423). -/
def sameKey (a b : RAcc) : Bool := a.kind == b.kind && a.scope == b.scope && a.unit == b.unit && a.key == b.key

/-- Emit an accumulator: merged into the newest record held when that has the same key, else a new record (R424, R427). -/
def recEmit (r : Recorder) (a : RAcc) : Recorder :=
  match r.recs.getLast? with
  | some n =>
    if sameKey n.acc a && decide (r.tail ≤ n.num) then
      let m : RRec := { n with
        wseq := r.seq + 1
        rep := satAdd 16 n.rep 1
        acc := { n.acc with
          bins := List.zipWith (satAdd 16) n.acc.bins a.bins
          count := satAdd 32 n.acc.count a.count
          low := extLow n.acc.low a.low
          high := extHigh n.acc.high a.high
          tLast := a.tLast } }
      { r with recs := r.recs.dropLast ++ [m], seq := r.seq + 1 }
    else
      let recs := r.recs ++ [⟨r.head, r.seq + 1, 0, a⟩]
      let full := decide (r.head - r.tail = 256)
      { r with recs := if recs.length > 256 then recs.drop 1 else recs, head := r.head + 1
               tail := if full then r.tail + 1 else r.tail, seq := r.seq + 1 }
  | none => { r with recs := [⟨r.head, r.seq + 1, 0, a⟩], head := r.head + 1, seq := r.seq + 1 }

/-- Mirror half `h`'s records to the other half while the Ferry carries traffic (R429). -/
def State.recMirrored (s : State) (h : Half) : State :=
  if (s.half h).ferry.state = .active then
    s.modHalf h.other (fun y => { y with recMirror := (s.half h).recorder })
  else s

/-- Write a record from an accumulator, mirror it, signal vector 4 (R269, R424, R429). -/
def State.recWrite (s : State) (h : Half) (a : RAcc) : State :=
  ((s.modHalf h (fun x => { x with recorder := recEmit x.recorder a })).recMirrored h).msix h 4

/-- Record an observation in half `h` (R423, R424). -/
def State.observe (s : State) (h : Half) (kind scope unit key bin : Nat) (ext : Option Int) : State :=
  let now := s.now h
  let one : RAcc := ⟨kind, scope, unit, key, upto 12 (fun b => if b = bin then 1 else 0), 1, ext, ext, now, now⟩
  if kindUrgent kind then s.recWrite h one
  else
    let r := (s.half h).recorder
    match r.accs.find? (sameKey one) with
    | some a =>
      if nth a.bins bin ≥ 65535 ∨ a.count ≥ 2 ^ 32 - 1 then
        (s.modHalf h (fun x => { x with recorder := { x.recorder with
          accs := x.recorder.accs.map (fun b => if sameKey one b then one else b) } })).recWrite h a
      else
        let a' : RAcc := { a with
          bins := upto 12 (fun b => nth a.bins b + (if b = bin then 1 else 0))
          count := a.count + 1
          low := extLow a.low ext
          high := extHigh a.high ext
          tLast := now }
        s.modHalf h (fun x => { x with recorder := { x.recorder with
          accs := x.recorder.accs.map (fun b => if sameKey one b then a' else b) } })
    | none =>
      if r.accs.length < 64 then
        s.modHalf h (fun x => { x with recorder := { x.recorder with accs := x.recorder.accs ++ [one] } })
      else
        let oldest := r.accs.foldl (fun (m : RAcc) b => if Time.diff b.tFirst m.tFirst < 0 then b else m) (r.accs.headD one)
        ((s.modHalf h (fun x => { x with recorder := { x.recorder with
          accs := x.recorder.accs.filter (fun b => !sameKey oldest b) ++ [one] } })).recWrite h oldest).bump (hk8 h 0x3000) 6 1

end Sys2Proof.Machine
end

