-- ==== Sys2Proof/Machine/ResetOps.lean ====
section
/-! DEFINITION. What a reset of a half takes away and leaves, and the end of a firmware trial (R398, R433, R443, R477). -/
namespace Sys2Proof.Machine

/-- Pools and Meres of a half hold nothing any more and read zero with valid check bits (R129, R461, R462). -/
def clearClusters (s : State) (h : Half) : State :=
  let m := mereBase h 0
  let p := poolBase h 0
  { s with
    mem := memClear (memClear s.mem m 0x8000000) p 0x10000000
    sramBad := s.sramBad.filter (fun q => !((decide (m ≤ q.1) && decide (q.1 < m + 0x8000000))
      || (decide (p ≤ q.1) && decide (q.1 < p + 0x10000000)))) }

/-- `DEVICE_POWER` from both halves' states (R458). -/
def showDevicePower (s : State) : State :=
  let nap (h : Half) : Bool := s.num (hk h 0x4D00) 8 == 2 || s.num (hk h 0x4D00) 8 == 3
  s.setNum 0x2B00 1 (if nap .bow && nap .stern then 2 else if nap .bow || nap .stern then 1 else 0)

/-! ### Links and signatures (R284, R290, R294) -/

/-- Index of a Causeway port's entries; the Ferry's for the Ferry (R286, R290). -/
def portIdx (h : Half) : Port → Nat
  | .ferry => hk h 0x4620 | .cw0 => hk h 0x4610 | .cw1 => hk h 0x4611

/-- `ARITH_SIGNATURE` of this device (R358). -/
def arithSignature (s : State) : Nat := s.num 0x1000 6

/-- `CW_SIG_DIFFERS` of a port and `MESH_SIG_DIFFERS` from the link states (R290, R294). -/
def showSignatures (s : State) : State :=
  let show1 (s : State) (h : Half) (p : Port) : State :=
    let up := decide ((s.link h p).state = .active)
    s.setNum (portIdx h p) 7 (b2n (up && s.num (portIdx h p) 8 != arithSignature s))
  let s := show1 (show1 (show1 (show1 s .bow .cw0) .bow .cw1) .stern .cw0) .stern .cw1
  s.setNum 0x2600 3 (b2n (s.num (portIdx .bow .cw0) 7 == 1 || s.num (portIdx .bow .cw1) 7 == 1
    || s.num (portIdx .stern .cw0) 7 == 1 || s.num (portIdx .stern .cw1) 7 == 1))

/-- Half `h`'s end of the Ferry is down because the other half is in reset: what was in flight is gone (R269, R284). -/
def ferryDown (s : State) (h : Half) : State :=
  let l := (s.half h).ferry
  if l.state = .down then s
  else (s.setLink h .ferry { linkDown with waiting := l.waiting }).msix h 2

/-! ### Reset (R398, R433, R477) -/

/-- Dictionary keys of a half's own index ranges (R407). -/
def isHalfKey (h : Half) (k : Nat) : Bool :=
  let i := k / 256
  let st := decide (h = .stern)
  if 0x3000 ≤ i ∧ i < 0x4000 then decide (0x3800 ≤ i) == st
  else if 0x4000 ≤ i ∧ i < 0x8000 then decide (0x6000 ≤ i) == st
  else if 0x8000 ≤ i ∧ i < 0x9000 then decide (0x8800 ≤ i) == st
  else if 0x9000 ≤ i ∧ i < 0xA000 then decide (0x80 ≤ i % 0x100) == st
  else if 0xA000 ≤ i ∧ i < 0xB000 then decide (0xA800 ≤ i) == st
  else false

/-- Half `h` goes into reset: everything but its flash, its service record, its DRAM, its supplies and the slots that failed a check returns to reset values (R398, R433, R456, R477). Device-wide entries stay while the other half holds them (R27, R407). -/
def resetHalf (s : State) (h : Half) : State :=
  let x := s.half h
  let alone := decide ((s.half h.other).boot.stage = 0)
  let keep (k : Nat) : Bool := !isHalfKey h k && !(alone && decide (k / 256 < 0x3000))
  let s := { s with
    dict := s.dict.filter (fun p => keep p.1)
    dictBytes := s.dictBytes.filter (fun p => keep p.1)
    upsets := s.upsets.filter (fun u => decide (u.half ≠ h))
    txn := if alone then txnIdle else s.txn
    mirrors := if alone then [] else s.mirrors }
  let s := s.setHalf h { halfReset with
    service := x.service, serviceCtr := x.serviceCtr, flash := x.flash
    boot := { bootReset with failed := x.boot.failed, trialT := x.boot.trialT }
    host := { hostReset with perst := x.host.perst }
    power := { powerReset with resetN := x.power.resetN, supplied := x.power.supplied, supplyFault := x.power.supplyFault
                               cold := x.power.cold } }
  showSignatures (ferryDown (showDevicePower (clearClusters s h)) h.other)

/-- The firmware of a half in trial gives up: the old slot is preferred again and the half resets (R443). -/
def endTrial (s : State) (h : Half) : State :=
  resetHalf (s.modHalf h (fun x => { x with
    flash := { x.flash with preferred := x.flash.lastGood, trial := false }
    boot := { x.boot with trialT := none, failed := if x.flash.preferred ∈ x.boot.failed then x.boot.failed
                                                    else x.boot.failed ++ [x.flash.preferred] } })) h

/-- A half in trial: the new slot runs, its start not yet judged (R443). -/
def inTrial (s : State) (h : Half) : Bool := (s.half h).flash.trial && (s.half h).boot.trialT.isSome

end Sys2Proof.Machine
end

