-- ==== Sys2Proof/Machine/SafeState.lean ====
section
/-! DEFINITION. Status codes, safe state, safety messages, memory error reports (R234, R258, R277, R389 to R393). -/
namespace Sys2Proof.Machine

/-- Change a half's safety manager. -/
def State.modSafety (s : State) (h : Half) (f : Safety → Safety) : State :=
  s.modHalf h (fun x => { x with safety := f x.safety })

/-- Status codes (R234). -/
def stOK : Nat := 0
/-- `ABORTED`. -/
def stAborted : Nat := 1
/-- `ALREADY_DONE`. -/
def stAlready : Nat := 2
/-- `FAULT_CONTEXT`. -/
def stFault : Nat := 3
/-- `PAGE_EXHAUSTED`. -/
def stPage : Nat := 4
/-- `DEADLINE_MISSED`. -/
def stDeadline : Nat := 5
/-- `CHECK_MISMATCH`. -/
def stCheck : Nat := 6
/-- `HALF_LOST`. -/
def stHalfLost : Nat := 7
/-- `SHAPE_MISMATCH`. -/
def stShape : Nat := 8
/-- `EMPTY_OUTPUT`. -/
def stEmpty : Nat := 9
/-- `ACCESS_STATE`. -/
def stState : Nat := 10
/-- `ACCESS_RIGHT`. -/
def stRight : Nat := 11

/-- One byte of the CRC-8 of R345: polynomial 0x1D. -/
def crc8Byte (crc : BitVec 8) (b : Byte) : BitVec 8 :=
  (List.range 8).foldl (fun (c : BitVec 8) _ => if c.msb then (c <<< 1) ^^^ 0x1D#8 else c <<< 1) (crc ^^^ b)

/-- The CRC-8 of R345: initial value 0xFF, final XOR 0xFF. -/
def crc8 (bs : List Byte) : Byte := bs.foldl crc8Byte 0xFF#8 ^^^ 0xFF#8

/-- `HALF_SAFETY_STATE` (R401). -/
def State.halfState (s : State) (h : Half) : Nat := s.num (hk h 0x4B00) 1

/-- In service: `NORMAL`, `LIFEBOAT` or `SOLO`, not in Nap, not judged lost (R24). -/
def State.inService (s : State) (h : Half) : Bool :=
  decide (s.halfState h ∈ [1, 2, 3]) && decide (s.num (hk h 0x4D00) 8 ≤ 1) && (s.half h.other).peer != 1

/-- The other half as `h` last knew it: in service (R392). -/
def State.peerInService (s : State) (h : Half) : Bool :=
  (s.half h).peer == 0 && (match (s.half h).safety.peerStat with
    | some x => !bitAt x 11
    | none => true)

/-- `DEVICE` of a safety message sent by `h` about `about` (R392). -/
def State.deviceCode (s : State) (h about : Half) : Nat :=
  if about = h then
    (if s.inService h then (if s.peerInService h then 0 else 1)
     else if s.peerInService h then 1 else 2)
  else (if s.inService h then 1 else 2)

/-- The 8 bytes of a safety message (R391). -/
def safetyBytes (proxy : Bool) (device : Nat) (about : Half) (cause : Nat) (t : Time) (alive : Nat) : List Byte :=
  let b0 := 16 + (if proxy then 8 else 0) + device * 2 + about.num
  let body := [BitVec.ofNat 8 b0, BitVec.ofNat 8 cause] ++ natLe 4 (fld t.toNat 41 10) ++ [BitVec.ofNat 8 alive]
  body ++ [crc8 body]

/-- CAN controller `c`. -/
def State.can (s : State) (h : Half) (c : Nat) : Can := Tab.get canReset (s.half h).cans c

/-- Put CAN controller `c`. -/
def State.setCan (s : State) (h : Half) (c : Nat) (k : Can) : State :=
  s.modHalf h (fun x => { x with cans := Tab.set canReset x.cans c k })

/-- `DICT_MAC` of a half (R414, R435). -/
def dictMac (s : State) (h : Half) : Nat := match h with
  | .bow => s.part.macBow
  | .stern => s.part.macStern

/-- The CAN frame of a safety message: classical, base format (R391). -/
def safetyCanFrame (id : Nat) (bs : List Byte) : CanFrame :=
  { format := 0, ide := false, rtr := false, brs := false, esi := false, sec := false, id := id % 2048, dlc := 8, sdt := 0, vcid := 0, af := 0, data := bs }

/-- The Ethernet frame of a safety message: PCP 7, EtherType 0x88B5, the 8 bytes at the start of the payload (R391; VLAN 0, source and padding: DESIGN CHOICE, log 30). -/
def safetyEthFrame (dst src : Nat) (bs : List Byte) : List Byte :=
  natBe 6 dst ++ natBe 6 src ++ natBe 2 0x8100 ++ natBe 2 0xE000 ++ natBe 2 0x88B5 ++ bs ++ List.replicate (42 - bs.length) 0

/-- Put a safety message into the slot of controller `c` that bypasses its queue; one about the same half that has not left gives way to it (R391; DESIGN CHOICE, log 30). -/
def putSafeCan (s : State) (h : Half) (c : Nat) (about : Half) (f : CanFrame) : State :=
  if 3 < c then s else s.setCan h c { s.can h c with safe := Tab.insert (s.can h c).safe about.num f }

/-- Put a safety message into class 7 of egress port `p`, if it is enabled; no output gate holds it back (R390, R391). -/
def putSafeEth (h : Half) (bs : List Byte) (t : Time) (s : State) (p : Nat) : State :=
  if s.num (hk h (0x4800 + p)) 1 = 1 then
    s.modHalf h (fun x => { x with tsn := { x.tsn with
      egress := Tab.set [] x.tsn.egress (p * 8 + 7) (Tab.get [] x.tsn.egress (p * 8 + 7) ++ [⟨5, bs, t⟩]) } })
  else s

/-- Send a safety message on CAN and Ethernet (R391); a half whose manager has failed sends none (R399). -/
def State.safetyMessage (s : State) (h about : Half) (proxy : Bool) (cause : Nat) (t : Time) : State :=
  if (s.half h).safety.gated then s
  else
    let alive := (s.half h).safety.alive
    let bs := safetyBytes proxy (s.deviceCode h about) about cause t alive
    let s := s.modSafety h (fun x => { x with alive := (x.alive + 1) % 256 })
    let s := putSafeCan s h (s.num (hk h 0x4B00) 6) about (safetyCanFrame (s.num (hk h 0x4B00) 7) bs)
    (List.range 4).foldl (putSafeEth h (safetyEthFrame (s.num (hk h 0x4B00) 8 % 2 ^ 48) (dictMac s h) bs) (s.now h)) s

/-- Bits [21:0] of `HALF_STATUS` (R265): its `FAULT_N` bit reads the 0 of its table until firmware runs, although the ball is asserted in reset (R462; points read in log 36). -/
def State.halfStatus (s : State) (h : Half) : Nat :=
  let x := s.half h
  x.ready + 2 ^ 10 * b2n x.lifeboat + 2 ^ 11 * b2n (x.faultN && decide (1 ≤ x.ready)) + 2 ^ 12 * x.peer + 2 ^ 16 * linkStateCode x.ferry.state
    + 2 ^ 20 * b2n (x.cw0.state == .active) + 2 ^ 21 * b2n (x.cw1.state == .active)

/-- Assert `FAULT_N`: `FAULT_NOTICE` on the sideband and vector 0 (R269, R277). -/
def State.assertFaultN (s : State) (h : Half) : State :=
  if (s.half h).faultN then s
  else ((s.modHalf h (fun x => { x with faultN := true })).emit (.sideband h 2 (s.now h).toNat)).msix h 0

/-- Half `h` enters safe state (R389): gate closed, `FAULT_N`, state, cause and time, message; contexts run on. A half already out of service stays as it is; a half in trial goes back to its old firmware (R443). -/
def State.enterSafe (s : State) (h : Half) (cause : Nat) : State :=
  if s.halfState h = 4 ∨ s.halfState h = 5 then s
  else
    let t := s.now h
    let s := s.modHalf h (fun x => { x with safety := { x.safety with gateClosed := true, digesting := false } })
    let s := ((s.setNum (hk h 0x4B00) 1 4).setNum (hk h 0x4B00) 2 cause).setNum (hk h 0x4B00) 3 t.toNat
    let s := if (s.half h).faultN then s.msix h 0 else s.assertFaultN h
    let s := s.observe h 14 1 0xFF cause (linBin 4 0) none
    let s := s.safetyMessage h h false cause t
    if inTrial s h then endTrial s h else s

/-! ### Memory codes (R240, R249, R258) -/

/-- The safety manager of half `g` is told of a read of a bad line, by core `who` or by a reader that is no core (R18, R258, R268). -/
def State.tellPoison (s : State) (g : Half) (who : Option Nat) : State :=
  let k := who.getD 0xFFFF
  s.modHalf g (fun x => { x with safety := { x.safety with
    poisonReads := Tab.set 0 x.safety.poisonReads k (Tab.get 0 x.safety.poisonReads k + 1) } })

/-- A line of half `g`'s DRAM is found uncorrectable: poisoned, counted once, recorded, judged for the `MEMORY` cause (R258, R259, R393). `how`: 0 command read, 1 scrub, 2 host read. -/
def State.poisonLine (s : State) (g : Half) (line how : Nat) : State :=
  if line ∈ s.poison then s
  else
    let loc := line - dramBase g
    let ch := dramChannel loc
    let s := { s with poison := s.poison ++ [line], lineErr := Tab.erase s.lineErr line }
    let s := s.bump (hk g 0x4501) (ch + 1) 1
    let s := (s.setNum (hk g 0x4502) 1 line).setNum (hk g 0x4502) 2 (s.now g).toNat
    let s := s.observe g 8 1 0xFF ch how (some (dramRow loc))
    let grp := dramGroup loc
    let f := (s.half g).safety.frameNo
    let hist := (s.half g).safety.ueHist.filter (fun p => decide (f ≤ p.2 + 1000)) ++ [(grp, f)]
    let s := s.modHalf g (fun x => { x with safety := { x.safety with ueHist := hist } })
    if (hist.filter (fun p => p.1 == grp)).length ≥ 4 then s.enterSafe g 5 else s

/-- The line whose errors are `e` is taken for the codeword that differs from what is stored in `f`: where the two patterns are not the same, its data are that codeword's (R249). -/
def State.takeCodeword (s : State) (line : Nat) (e f : Tab Nat) : State :=
  if e = f then s
  else
    let mem := (List.range 64).foldl (fun m j =>
      memSet m (line + j) (memGet m (line + j) ^^^ BitVec.ofNat 8 (Tab.get 0 e j ^^^ Tab.get 0 f j))) s.mem
    { s with mem := mem, lineErr := Tab.set [] s.lineErr line f }

/-- Decode one stored DRAM line on a read by core `who` of its half, or by another reader (R249, R250, R258): returns whether it reads as good. A correctable line is counted and stays as stored, an uncorrectable one is poisoned (points read in log 32). -/
def State.decodeLine (s : State) (g : Half) (who : Option Nat) (line how : Nat) : Bool × State :=
  if line ∈ s.poison then (false, s.tellPoison g who)
  else
    let e := Tab.get [] s.lineErr line
    if e.isEmpty then (true, s)
    else
      match decodePattern e with
      | some f =>
        let loc := line - dramBase g
        let ch := dramChannel loc
        let s := s.takeCodeword line e f
        if f.isEmpty then (true, s)
        else (true, ((s.bump (hk g 0x4500) (ch + 1) 1).observe g 7 1 0xFF ch (linBin f.length 0)
          (some (dramRow loc))))
      | none =>
        let s := s.poisonLine g line how
        (false, if how = 1 then s else s.tellPoison g who)

/-- The bank of a Pool or Mere word: one of a Pool's 32, or of a Mere's 16 ways of 4 (R238, R241; numbered in log 32). -/
def sramBank (word : Nat) : Nat :=
  if 0x2010000000 ≤ word then word / 64 % 32 else (word % 0x800000) / 0x80000 * 4 + word / 64 % 4

/-- The half whose Pool or Mere holds a word. -/
def wordHalf (s : State) (word : Nat) : Half :=
  match s.region word with
  | .mere g _ => g
  | .pool g _ => g
  | _ => .bow

/-- Read one Pool or Mere word through its code (R240, R241): `false` for an uncorrectable word. It counts in the half that holds it, against the core `who` of that half that reads it, else against the half (R18, R259). -/
def State.decodeWord (s : State) (who : Option (Half × Nat)) (word : Nat) : Bool × State :=
  let g := wordHalf s word
  let key := if 0x2010000000 ≤ word then 0 else 1
  let note (s : State) (bin : Nat) : State :=
    match who with
    | some (h, c) =>
      if h = g then s.observe g 9 2 c key bin (some (sramBank word)) else s.observe g 9 1 0xFF key bin (some (sramBank word))
    | none => s.observe g 9 1 0xFF key bin (some (sramBank word))
  match Tab.get 0 s.sramBad word with
  | 0 => (true, s)
  | 1 => (true, note (s.bump (hk g 0x4502) 9 1) 0)
  | _ => (false, note (s.bump (hk g 0x4502) 10 1) 1)

/-- Ranges `[a, a + n)` that meet the `w` bytes from `x`. -/
def meets (rs : List (Nat × Nat)) (x w : Nat) : Bool :=
  rs.any (fun r => decide (r.1 < x + w) && decide (x < r.1 + r.2))

/-- Ranges that meet the `w` bytes from `x` without one of them covering all. -/
def cutsInto (rs : List (Nat × Nat)) (x w : Nat) : Bool :=
  rs.any (fun r => decide (r.1 < x + w) && decide (x < r.1 + r.2) && !(decide (r.1 ≤ x) && decide (x + w ≤ r.1 + r.2)))

/-- The half whose DRAM holds a line, if any. -/
def dramHalf (s : State) (a : Nat) : Option Half :=
  match s.region a with
  | .dram g => some g
  | _ => none

/-- Read the lines and words that `hit` picks through their codes, for core `who` or another reader: `false` when one of them is uncorrectable or poisoned. -/
def decodeHits (s : State) (who : Option (Half × Nat)) (how : Nat) (hit : Nat → Nat → Bool) : Bool × State :=
  let line (r : Bool × State) (l : Nat) : Bool × State :=
    match dramHalf s l with
    | some g =>
      if hit l 64 then
        let o := r.2.decodeLine g (who.bind (fun w => if w.1 = g then some w.2 else none)) l how
        (r.1 && o.1, o.2)
      else r
    | none => r
  let r1 := s.poison.foldl line (true, s)
  let r2 := s.lineErr.foldl (fun r p => line r p.1) r1
  s.sramBad.foldl (fun (r : Bool × State) p =>
    if hit p.1 8 then
      let o := r.2.decodeWord who p.1
      (r.1 && o.1, o.2)
    else r) r2

/-- A line is written as poisoned data: a DRAM line is poisoned, the words of a Mere line are bad; no error is found by it (R258, R280; points read in log 32). -/
def State.poisonWrite (s : State) (line : Nat) : State :=
  match s.region line with
  | .dram _ => { s with
      poison := if line ∈ s.poison then s.poison else s.poison ++ [line], lineErr := Tab.erase s.lineErr line }
  | .mere _ _ => { s with sramBad := (List.range 8).foldl (fun t i => Tab.set 0 t (line + 8 * i) 2) s.sramBad }
  | _ => s

/-- Every line that `n` bytes at `a` touch is written as poisoned data. -/
def State.poisonRange (s : State) (a n : Nat) : State := (linesOf a n).foldl State.poisonWrite s

/-- An engine, the dispatcher or firmware reads `n` bytes at `a` through the codes; an error that it finds counts as a command's read finds it (R240, R249, R258; DESIGN CHOICE, log 38). -/
def State.readCheck (s : State) (a n : Nat) : Bool × State := decodeHits s none 0 (meets [(a, n)])

/-- Bytes written to device memory by an engine, merged into the lines and words they cover in part; a write that cuts into a bad one leaves it as it is (R240, R251, R258; DESIGN CHOICE, log 38). -/
def State.mergeWrite (s : State) (a : Nat) (bs : List Byte) : State :=
  let o := decodeHits s none 0 (cutsInto [(a, bs.length)])
  if o.1 then o.2.write a bs else o.2

end Sys2Proof.Machine
end

