-- ==== Sys2Proof/Machine/ManifestOps.lean ====
section
/-! DEFINITION. The Manifest engine: pages, streams, work lists, acceptance, release (R182 to R203). -/
namespace Sys2Proof.Machine

/-- `PAGE_BASE` (R182). -/
def pageBase (s : State) (h : Half) : Nat := s.num (hk h 0x4400) 1
/-- `PAGE_BYTES` (R182). -/
def pageBytes (s : State) (h : Half) : Nat := s.num (hk h 0x4400) 2
/-- `PAGE_COUNT` (R182). -/
def pageCount (s : State) (h : Half) : Nat := s.num (hk h 0x4400) 3
/-- "No page" (R182). -/
def noPage : Nat := 0xFFFFFFFF
/-- Address of page `p` (R182). -/
def pageAddr (s : State) (h : Half) (p : Nat) : Nat := pageBase s h + p * pageBytes s h
/-- Pages that `n` tokens need (R193). -/
def pagesFor (n : Nat) : Nat := (n + 63) / 64

/-- Pages charged to a class: held and deferred (R185, R186). -/
def pagesUsed (s : State) (h : Half) (c : Nat) : Nat :=
  ((s.half h).pages.filter (fun p => p.2 == c + 1)).length

/-- Pages reserved to a class (R182). -/
def pagesReserved (s : State) (h : Half) (c : Nat) : Nat := s.num (hk h 0x4400) (6 + c)

/-- A class's excess over its reserve when it uses `u` pages (R185). -/
def excessOf (s : State) (h : Half) (c u : Nat) : Nat := u - pagesReserved s h c

/-- The lowest `x` free pages from `next` up to `limit`. -/
def freePages (limit : Nat) : Tab Nat → Nat → Nat → List Nat
  | [], next, x => upto (min x (limit - next)) (fun i => next + i)
  | (k, _) :: t, next, x =>
    let g := min x (min k limit - next)
    upto g (fun i => next + i) ++ freePages limit t (k + 1) (x - g)

/-- Grant `x` pages to class `c`, all or nothing, in ascending page order (R185). -/
def grantPages (s : State) (h : Half) (c x : Nat) : Option (List Nat) :=
  let used := pagesUsed s h
  let excess (k : Nat) : Nat := excessOf s h k (used k)
  let reserves := ((List.range 4).map (pagesReserved s h)).foldl (· + ·) 0
  let allExcess := ((List.range 4).map excess).foldl (· + ·) 0
  let grow := excessOf s h c (used c + x) - excess c
  let ps := freePages (pageCount s h) (s.half h).pages 0 x
  if grow + allExcess + reserves ≤ pageCount s h ∧ ps.length = x then some ps else none

/-- Charge pages to a class. -/
def takePages (s : State) (h : Half) (c : Nat) (ps : List Nat) : State :=
  s.modHalf h (fun y => { y with pages := ps.foldl (fun t p => Tab.set 0 t p (c + 1)) y.pages })

/-- Layers of a model (R187). -/
def layersOf (s : State) (h : Half) (m : Nat) : Nat := s.num (hk h (0x4440 + m)) 1
/-- Tokens a stream of a model may commit (R187). -/
def tokenLimit (s : State) (h : Half) (m : Nat) : Nat :=
  let mx := s.num (hk h (0x4440 + m)) 4
  let b := min (16 * pageBytes s h) (2 ^ 24 - 1)
  if mx = 0 then b else min mx b

/-- Address of slot `i` of an entry's index page (R184). -/
def slotAddr (s : State) (h : Half) (e : MEntry) (i : Nat) : Nat := pageAddr s h e.head + 4 * i

/-- The page that slot `i` of an entry's index page names (R184). -/
def slotPage (s : State) (h : Half) (e : MEntry) (i : Nat) : Nat := s.readNat (slotAddr s h e i) 4

/-- The engine reads slot `i` through the memory code; a slot that does not read as good names no page (R258; DESIGN CHOICE, log 38). -/
def readSlot (s : State) (h : Half) (e : MEntry) (i : Nat) : Nat × State :=
  let o := s.readCheck (slotAddr s h e i) 4
  (if o.1 then slotPage o.2 h e i else noPage, o.2)

/-- Change every entry of the stream led by `e` (R189); the function is given the layer. -/
def modStream (s : State) (h : Half) (e L : Nat) (f : Nat → MEntry → MEntry) : State :=
  (List.range L).foldl (fun (s : State) j => s.setMentry h (e + j) (f j (s.mentry h (e + j)))) s

/-- Pages of one layer that a stream holds: those of its tokens, candidates included while built (R193). -/
def heldPages (e : MEntry) : Nat := pagesFor (e.length + (if e.built then e.cand else 0))

/-- Append pages to the index pages of each layer, `per` to a layer from slot `start` (R193). -/
def appendPages (s : State) (h : Half) (e L start per : Nat) (ps : List Nat) : State :=
  (List.range L).foldl (fun (s : State) j =>
    (List.range per).foldl (fun (s : State) i =>
      s.mergeWrite (slotAddr s h (s.mentry h (e + j)) (start + i)) (natLe 4 (ps.getD (j * per + i) noPage))) s) s

/-- The `ATTN` commands in flight in a half that read a Manifest entry (R186). -/
def attnReaders (s : State) (h : Half) (e : Nat) : List Nat :=
  (s.half h).cores.flatMap (fun p => (p.2.inflight.filter (fun f => f.entries.contains e)).map (·.cid))

/-- Release pages of an entry: they join the deferral list and stay charged (R186). -/
def deferPages (s : State) (h : Half) (e : Nat) (ps : List Nat) : State :=
  let waits := attnReaders s h e
  let held := ps.filter (fun p => decide (Tab.get 0 (s.half h).pages p ≠ 0))
  s.modHalf h (fun y => { y with
    deferred := y.deferred ++ held.map (fun p => ⟨p, Tab.get 0 y.pages p - 1, waits⟩) })

/-- In each layer, release every page from slot `keep` to slot `held`, and empty those slots (R199). -/
def trimStream (s : State) (h : Half) (e L keep held : Nat) : State :=
  (List.range L).foldl (fun (s : State) j =>
    let m := s.mentry h (e + j)
    let slots := upto (held - keep) (fun i => keep + i)
    slots.foldl (fun (s : State) i =>
      let o := readSlot s h m i
      (deferPages o.2 h (e + j) [o.1]).mergeWrite (slotAddr s h m i) (natLe 4 noPage)) s) s

/-- Queues passed over for a cause may be tried again: for a ticket of context `n`, or for want of entries or pages (R196, R213, R221). -/
def clearPassed (s : State) (h : Half) (cause : Option Nat) : State :=
  s.modHalf h (fun y => { y with passed := y.passed.filter (fun p => decide (p.2 ≠ cause)) })

/-- Roll back a context's built streams as if nothing were accepted (R200). -/
def rollbackStreams (s : State) (h : Half) (n : Nat) : State :=
  (s.half h).manifest.foldl (fun (s : State) p =>
    let m := s.mentry h p.1
    if m.layer = 0 ∧ m.context = n ∧ m.built ∧ m.state ≠ .evicted then
      let L := layersOf s h m.model
      let s := trimStream s h p.1 L (pagesFor m.length) (heldPages m)
      modStream s h p.1 L (fun _ x => { x with cand := 0, built := false })
    else s) s

/-- Pages whose readers have completed return to the free list (R186). -/
def returnPages (s : State) (h : Half) : State :=
  let live := (s.half h).cores.flatMap (fun p => p.2.inflight.map (·.cid))
  let isFree (d : Deferred) : Bool := !(d.waits.any (fun w => live.contains w))
  let s := s.modHalf h (fun y => { y with
    deferred := y.deferred.filter (fun d => !isFree d)
    pages := (y.deferred.filter isFree).foldl (fun t d => Tab.erase t d.page) y.pages })
  clearPassed s h none

/-! ### Requests (R191, R192) -/

/-- The memory a half's engines reach for requests and responses: the DRAM and Meres of either half, and host memory. -/
def engineReach (s : State) (a n : Nat) : Bool :=
  (linesOf a n).all (fun l => match s.region l with
    | .dram _ => true
    | .mere _ _ => true
    | .host => true
    | _ => false)

/-- Bus address of a host-range device address (R270). -/
def busAddr (s : State) (h : Half) (a : Nat) : Nat := (a - 0x400000000000 + s.num (hk h 0x4600) 1) % 2 ^ 64

/-- A byte the engines read. -/
def engineByte (s : State) (h : Half) (a : Nat) : Byte :=
  match s.region a with
  | .host => s.hostByte (busAddr s h a)
  | _ => s.byte a

/-- Little-endian number the engines read. -/
def engineNat (s : State) (h : Half) (a n : Nat) : Nat := leNat (upto n (fun i => engineByte s h (a + i)))

/-- A write to host memory while the link is down is discarded and counted (R275; PRESUMED, log 15). -/
def hostDiscard (s : State) (h : Half) : State :=
  s.modHalf h (fun x => { x with host := { x.host with lostWrites := x.host.lostWrites + 1 } })

/-- Bytes the engines write, merged into lines they cover in part (R251); a write to host memory is discarded while the link is down (R275). -/
def engineWrite (s : State) (h : Half) (a : Nat) (bs : List Byte) : State :=
  match s.region a with
  | .host => if (s.half h).host.linkUp && (s.half h).host.busMaster then s.hostWrite (busAddr s h a) bs else hostDiscard s h
  | .dram _ => s.mergeWrite a bs
  | .mere _ _ => s.mergeWrite a bs
  | _ => s

/-- The 32-byte Manifest response (R191). -/
def manResp (value step count aux op status : Nat) : List Byte :=
  natLe 32 (status + 2 ^ 16 * op + 2 ^ 24 * aux + 2 ^ 40 * count + 2 ^ 64 * step + 2 ^ 96 * value)

/-- A work-list item (R194). -/
def listItem (e : Nat) (m : MEntry) (c status row qrow slot seg : Nat) : List Byte :=
  natLe 16 (e + 2 ^ 13 * status + 2 ^ 27 * slot + 2 ^ 31 * qrow + 2 ^ 35 * row + 2 ^ 48 * seg + 2 ^ 67 * c
    + 2 ^ 72 * m.length + 2 ^ 96 * m.next)

/-- Where a build stands (R193). -/
structure Build where
  s : State
  items : Nat
  ok : Bool
  row : Nat
  qrow : Nat
  slot : Nat
  rkeys : Nat
  starved : List Nat
  limited : Nat
  more : Bool

/-- Examine one lead in a build (R193). -/
def buildOne (h : Half) (ctx m budget dflt list cap step : Nat) (b : Build) (e : Nat) : Build :=
  let x := b.s.mentry h e
  if b.more then b
  else if x.layer ≠ 0 ∨ x.context ≠ ctx ∨ x.model ≠ m ∨ (x.state ≠ .active ∧ x.state ≠ .starved) ∨ x.built then b
  else if 32 + 16 * (b.items + 1) > cap then { b with more := true }
  else
    let L := layersOf b.s h m
    let c := if x.cand > 0 then x.cand else dflt
    let n := x.length
    let at_ := list + 32 + 16 * b.items
    if n + c > tokenLimit b.s h m then
      { b with s := engineWrite b.s h at_ (listItem e x c stState 0 0 0 0), items := b.items + 1, limited := b.limited + 1 }
    else
      let per := pagesFor (n + c) - pagesFor n
      match grantPages b.s h x.cls (per * L) with
      | none =>
        let s := modStream b.s h e L (fun _ y => { y with state := .starved })
        { b with s := engineWrite s h at_ (listItem e x c stPage 0 0 0 0), items := b.items + 1
                 starved := b.starved ++ [x.cls] }
      | some ps =>
        let s := appendPages (takePages b.s h x.cls ps) h e L (pagesFor n) per ps
        let k := n + c
        let newRow := decide (b.slot > 0) &&
          (decide (b.qrow + c > 16) || decide (b.slot = 16) || (decide (budget > 0) && decide (b.rkeys + k > 64 * budget)))
        let row := if newRow then b.row + 1 else b.row
        let qrow := if newRow then 0 else b.qrow
        let slot := if newRow then 0 else b.slot
        let rkeys := if newRow then 0 else b.rkeys
        let seg := slot + 16 * (row % 4096)
        let s := modStream s h e L (fun _ y => { y with state := .active, cand := c, built := true, step := step, seg := seg })
        { b with s := engineWrite s h at_ (listItem e x c stOK row qrow slot seg), items := b.items + 1, ok := true
                 row := row, qrow := qrow + c, slot := slot + 1, rkeys := rkeys + k }

/-- Build the work list of one step (R193, R194); `ctx` is `none` for host software, which has no context of its own (DEDUCED, log 20). A `VALUE` below 32 leaves no room for the header, and none is written; `COUNT` of the response counts starved and limited items too (DESIGN CHOICE, log 37). -/
def manStep (s : State) (h : Half) (ctx : Option Nat) (r : Nat) : State × List Byte :=
  let list := fld r 207 160
  let cap := fld r 159 128
  let step := ((s.half h).stepNo + 1) % 2 ^ 32
  let s := s.modHalf h (fun y => { y with stepNo := step })
  let leads := match ctx with
    | none => []
    | some _ => (s.half h).manifest.map Prod.fst
  let b0 : Build := ⟨s, 0, false, 0, 0, 0, 0, [], 0, false⟩
  let b := leads.foldl (buildOne h (ctx.getD 0) (fld r 58 53) (fld r 103 88) (fld r 52 48) list cap step) b0
  let rows := if b.ok then b.row + 1 else 0
  let header := natLe 32 (b2n b.more + 2 ^ 32 * b.limited + 2 ^ 48 * b.starved.length + 2 ^ 64 * b.items + 2 ^ 80 * rows
    + 2 ^ 96 * step)
  let s := if cap < 32 then b.s else engineWrite b.s h list header
  let s := (List.range 4).foldl (fun (s : State) c =>
    let n := (b.starved.filter (· == c)).length
    if n = 0 then s else s.observe h 10 1 0xFF c (logBin n) none) s
  (s, manResp 0 step b.items b.starved.length 1 stOK)

/-- Greedy acceptance (R198): the accepted candidates from `cur` on, at most `fuel` more. -/
def greedy (C : Nat) (parent token argmax : Nat → Nat) : Nat → Nat → List Nat
  | 0, _ => []
  | fuel + 1, cur =>
    match (List.range C).find? (fun j => decide (1 ≤ j) && parent j == cur && token j == argmax cur) with
    | none => []
    | some j => j :: greedy C parent token argmax fuel j

/-- Address of a token's tag and record slots in one layer (R161, R184). -/
def tokenSpans (s : State) (h : Half) (e : MEntry) (r0 r1 tok : Nat) : List (Nat × Nat) :=
  let p := pageAddr s h (slotPage s h e (tok / 64))
  let i := tok % 64
  [(p + 8 * i, 8), (p + 512 + r0 * i, r0), (p + 512 + 64 * r0 + r1 * i, r1)]

/-- Copy the slot of token `src` to the slot of token `dst` in every layer (R199); what does not read as good leaves its copy poisoned (R258; DESIGN CHOICE, log 38). -/
def copyToken (s : State) (h : Half) (e L m src dst : Nat) : State :=
  if src = dst then s
  else
    let r0 := s.num (hk h (0x4440 + m)) 2
    let r1 := s.num (hk h (0x4440 + m)) 3
    (List.range L).foldl (fun (s : State) j =>
      let x := s.mentry h (e + j)
      (List.zip (tokenSpans s h x r0 r1 src) (tokenSpans s h x r0 r1 dst)).foldl
        (fun (s : State) p =>
          let o := s.readCheck p.1.1 p.1.2
          if o.1 then o.2.mergeWrite p.2.1 (o.2.read p.1.1 p.1.2) else o.2.poisonRange p.2.1 p.1.2) s) s

/-- A verify record that breaks its rules is malformed (R198). -/
def verifyBad (s : State) (h : Half) (a : Nat) : Bool :=
  let rd (o n : Nat) : Nat := engineNat s h (a + o) n
  let C := rd 4 1
  rd 7 1 != 0 || rd 12 4 != 0 ||
  (decide (C ≤ 16) && (decide (0 < C) && rd 16 1 != 0xFF ||
    (List.range C).any (fun j => decide (1 ≤ j) && decide (j ≤ rd (16 + j) 1))))

/-- Carry out one verify record (R198, R199): the tokens accepted, the new `NEXT` and the state. -/
def acceptOne (s : State) (h : Half) (ctx : Option Nat) (a : Nat) : Nat × Option Nat × State :=
  let rd (o n : Nat) : Nat := engineNat s h (a + o) n
  let e := rd 0 2
  let C := rd 4 1
  let m := s.mentry h e
  let owner := match ctx with
    | none => true
    | some n => m.context == n
  let status (st : Nat) (s : State) : State := engineWrite s h (a + 6) [BitVec.ofNat 8 st]
  if e ≥ 8192 ∨ m.layer ≠ 0 ∨ !owner then (0, none, status stRight s)
  else if m.state = .evicted ∨ !m.built ∨ C ≠ m.cand ∨ rd 2 2 ≠ m.gen then (0, none, status stState s)
  else
    let argmax (j : Nat) : Nat := rd (96 + 4 * j) 4
    let acc := greedy C (fun j => rd (16 + j) 1) (fun j => rd (32 + 4 * j) 4) argmax C 0
    let n := acc.length + 1
    let next := argmax (acc.getLastD 0)
    let L := layersOf s h m.model
    let s := (List.zip (List.range acc.length) acc).foldl
      (fun (s : State) p => copyToken s h e L m.model (m.length + p.2) (m.length + p.1 + 1)) s
    let held := heldPages m
    let s := trimStream s h e L (pagesFor (m.length + n)) held
    let s := modStream s h e L (fun j x =>
      { x with length := m.length + n, cand := 0, built := false, next := if j = 0 then next else x.next })
    let s := engineWrite s h (a + 5) [BitVec.ofNat 8 n]
    let s := engineWrite s h (a + 8) (natLe 4 next)
    (n, some next, status stOK s)

/-- Carry out an `ACCEPT` (R198, R199; points read in log 29); a record that does not read as good is passed over (R258; DESIGN CHOICE, log 38). -/
def manAccept (s : State) (h : Half) (ctx : Option Nat) (r : Nat) : State × List Byte :=
  let out := (List.range (fld r 127 104)).foldl (fun (x : Nat × Nat × State) i =>
    let a := fld r 207 160 + 160 * i
    let g := x.2.2.readCheck a 160
    if !g.1 then (x.1, x.2.1, g.2)
    else
      let o := acceptOne g.2 h ctx a
      (x.1 + o.1, o.2.1.getD x.2.1, o.2.2)) (0, 0, s)
  (out.2.2, manResp out.2.1 0 out.1 0 3 stOK)

/-- The answer of a request that changes nothing. -/
def manAnswer (s : State) (op status : Nat) : State × List Byte := (s, manResp 0 0 0 0 op status)

/-- `PROPOSE` (R191). -/
def manPropose (s : State) (h : Half) (r e : Nat) (m : MEntry) : State × List Byte :=
  if m.built ∨ (m.state ≠ .active ∧ m.state ≠ .starved) then manAnswer s 2 stState
  else manAnswer (modStream s h e (layersOf s h m.model) (fun _ x => { x with cand := fld r 127 104 })) 2 stOK

/-- `APPEND` (R191, R192). A stream with `BUILT` = 1 takes it, and its candidates keep room behind the new tokens (DESIGN CHOICE, log 37). -/
def manAppend (s : State) (h : Half) (r e : Nat) (m : MEntry) : State × List Byte :=
  let n := fld r 127 104
  let L := layersOf s h m.model
  if m.state ≠ .active ∧ m.state ≠ .starved then manAnswer s 4 stState
  else if m.length + n > tokenLimit s h m.model then manAnswer s 4 stPage
  else
    let held := heldPages m
    let per := pagesFor (m.length + n + (if m.built then m.cand else 0)) - held
    match grantPages s h m.cls (per * L) with
    | none => manAnswer s 4 stPage
    | some ps =>
      let s := appendPages (takePages s h m.cls ps) h e L held per ps
      let s := modStream s h e L (fun j x =>
        { x with length := m.length + n, next := if j = 0 then fld r 159 128 else x.next })
      (s, manResp (m.length + n) 0 0 0 4 stOK)

/-- `FINISH` (R190 to R192). -/
def manFinish (s : State) (h : Half) (e : Nat) (m : MEntry) : State × List Byte :=
  if m.state = .done then manAnswer s 5 stAlready
  else if m.built ∨ m.state = .evicted then manAnswer s 5 stState
  else manAnswer (modStream s h e (layersOf s h m.model) (fun _ x => { x with state := .done })) 5 stOK

/-- `RESUME` (R190 to R192). -/
def manResume (s : State) (h : Half) (e : Nat) (m : MEntry) : State × List Byte :=
  if m.built ∨ m.state ≠ .done then manAnswer s 6 stState
  else manAnswer (modStream s h e (layersOf s h m.model) (fun _ x => { x with state := .active })) 6 stOK

/-- `RELEASE`: every page, the index pages too, and the entries to `EVICTED` (R190, R191; points read in log 29). -/
def manRelease (s : State) (h : Half) (e : Nat) (m : MEntry) : State × List Byte :=
  if m.state = .evicted then manAnswer s 7 stState
  else
    let L := layersOf s h m.model
    let s := trimStream s h e L 0 (heldPages m)
    let s := (List.range L).foldl (fun (s : State) j => deferPages s h (e + j) [(s.mentry h (e + j)).head]) s
    let s := modStream s h e L (fun _ x => { x with state := .evicted, built := false, cand := 0, head := noPage })
    manAnswer (clearPassed s h none) 7 stOK

/-- A request that breaks the rules of R192. A `RESP_ADDR` or `LIST_ADDR` that is not aligned, or not in memory that engines reach, breaks them too (DESIGN CHOICE, log 37). -/
def manBad (s : State) (h : Half) (r : Nat) : Bool :=
  let op := fld r 7 0
  op == 0 || decide (op > 7) || fld r 47 8 != 0 || fld r 255 208 % 32 != 0 || !engineReach s (fld r 255 208) 32
  || (op == 1 && (fld r 52 48 == 0 || decide (fld r 52 48 > 16) || fld r 207 160 % 32 != 0
       || !engineReach s (fld r 207 160) (max 1 (fld r 159 128))))
  || (op == 2 && (fld r 127 104 == 0 || decide (fld r 127 104 > 16)))
  || (op == 3 && (fld r 207 160 % 32 != 0 || !engineReach s (fld r 207 160) (max 1 (160 * fld r 127 104))
       || (List.range (fld r 127 104)).any (fun i => verifyBad s h (fld r 207 160 + 160 * i))))

/-- Carry out a well-formed request (R191, R192): the state after it and the response. -/
def manServe (s : State) (h : Half) (ctx : Option Nat) (r : Nat) : State × List Byte :=
  let op := fld r 7 0
  let e := fld r 71 59
  let m := s.mentry h e
  let owner := match ctx with
    | none => true
    | some n => m.context == n
  if op = 1 then manStep s h ctx r
  else if m.layer ≠ 0 ∨ !owner then manAnswer s op stRight
  else if fld r 87 72 ≠ m.gen then manAnswer s op stState
  else if op = 2 then manPropose s h r e m
  else if op = 3 then manAccept s h ctx r
  else if op = 4 then manAppend s h r e m
  else if op = 5 then manFinish s h e m
  else if op = 6 then manResume s h e m
  else manRelease s h e m

/-- A request at the Manifest port: carried out and answered, or malformed (`true`), which ends a program's context and answers host software `FAULT_CONTEXT` (R191, R192). -/
def manRequest (s : State) (h : Half) (ctx : Option Nat) (r : Nat) : Bool × State :=
  if manBad s h r then
    match ctx with
    | some _ => (true, s)
    | none => (true, engineWrite s h (fld r 255 208) (manResp 0 0 0 0 (fld r 7 0) stFault))
  else
    let o := manServe s h ctx r
    (false, engineWrite o.1 h (fld r 255 208) o.2)

end Sys2Proof.Machine
end

