-- ==== Sys2Proof/Machine/CtxOps.lean ====
section
/-! DEFINITION. Contexts: effective class, semaphores, the end of a ticket, completion records, dispatch, placing, resident slots, aborts (R122 to R132, R204 to R232). -/
namespace Sys2Proof.Machine

/-- The effective class of a context (R125). -/
def effClass (s : State) (h : Half) (n : Nat) : Nat :=
  let x := s.ctx h n
  match x.sem with
  | none => x.cls
  | some i => (s.sem h i).waiters.foldl (fun m w => min m w.1) x.cls

/-- The first waiter of the numerically lowest class present (R123). -/
def firstWaiter (ws : List (Nat × Nat × Nat)) : Option (Nat × Nat × Nat) :=
  match ws with
  | [] => none
  | w :: t => some (t.foldl (fun m v => if v.1 < m.1 then v else m) w)

/-- Waiters of contexts that hold a semaphore already: to grant them would give one context two, so their acquires fault (R124). -/
def doubleWaiters (s : State) (h : Half) (ws : List (Nat × Nat × Nat)) : List (Nat × Nat × Nat) :=
  ws.filter (fun w => (s.ctx h w.2.1).sem.isSome)

/-- Free semaphore `i`, or grant it at once to its first waiter (R123); a context that is off its cores becomes parked (R219). Gives with the state the contexts whose acquire faults (R124; points read in log 33). -/
def semRelease (s : State) (h : Half) (i : Nat) : State × List Nat :=
  let x := s.sem h i
  let double := doubleWaiters s h x.waiters
  let ws := x.waiters.filter (fun w => !double.contains w)
  (match firstWaiter ws with
    | none => s.setSem h i semFree
    | some w =>
      let n := w.2.1
      let s := s.setSem h i ⟨some n, ws.erase w⟩
      let c := s.ctx h n
      let k := s.core h w.2.2
      let s := s.setCtx h n { c with
        sem := some i
        state := if c.state = .blocked ∨ c.state = .unloaded then .parked else c.state }
      if k.ctx = some n then s.setCore h w.2.2 { k with wait := none } else s,
   (double.map (fun w => w.2.1)).eraseDups)

/-- The logical cores of half `h` that a program names (R213). -/
def progCores (h : Half) (p : Prog) : List Nat :=
  (p.cores.filter (fun r => r.stern == (h == .stern))).map (·.lcore)

/-- The per-core record of core `c` of half `h`. -/
def progCore (h : Half) (p : Prog) (c : Nat) : Option PerCore :=
  p.cores.find? (fun r => r.stern == (h == .stern) && r.lcore == c)

/-- True when a program names a core of half `h`. -/
def progNames (h : Half) (p : Prog) : Bool := !(progCores h p).isEmpty

/-- The flag byte of a completion record (R215). -/
def flagByte (f : TickFlags) (part : Bool) : Nat :=
  b2n f.sat + 2 * b2n f.ufl + 4 * b2n f.spill + 8 * b2n f.ovf + 16 * b2n part + 32 * b2n f.lateSpring

/-- Take a context off every core it holds; the cores are then free (R229). -/
def dropCores (s : State) (h : Half) (n : Nat) : State :=
  s.modHalf h (fun x => { x with cores := x.cores.filter (fun p => decide (p.2.ctx ≠ some n)) })

/-- Take a context out of every waiter queue. -/
def dropWaiter (s : State) (h : Half) (n : Nat) : State :=
  s.modHalf h (fun x => { x with
    sems := (x.sems.map (fun p => (p.1, { p.2 with waiters := p.2.waiters.filter (fun w => decide (w.2.1 ≠ n)) }))).filter
      (fun p => decide (p.2 ≠ semFree)) })

/-- Record END_T − DEADLINE of an ended ticket in the recorder (R211, R426). -/
def noteDeadline (s : State) (h : Half) (q : Nat) (endT deadline : Time) : State :=
  let us := Time.diff endT deadline / 1000
  s.observe h 2 1 0xFF q (logBin us) (some (clampI (-2147483648) 2147483647 us))

/-- Counters that wait in either half for a program's context with a sequence number are discarded (R287). -/
def dropPending (s : State) (handle seq : Nat) : State :=
  let keep (y : HalfState) : HalfState := { y with pendCtrs := y.pendCtrs.filter (fun p => !(p.program == handle && p.seq == seq)) }
  (s.modHalf .bow keep).modHalf .stern keep

/-- A context that ends releases the semaphore it holds, `ABANDONED` unless it ended OK (R126); gives the contexts that the release would give a second one (R124). -/
def dropSem (s : State) (h : Half) (held : Option Nat) (cls status : Nat) : State × List Nat :=
  match held with
  | none => (s, [])
  | some i =>
    let r := semRelease s h i
    (if status = stOK then r.1 else r.1.observe h 5 1 0xFF i (linBin cls 0) none, r.2)

/-- The completion point of a context's ticket (R231): cores freed, semaphore released, streams rolled back after a fault or abort (R200), pending counters discarded (R287), the record queued for writing (R217). A context that the release would give a second semaphore ends with a fault in its turn (R124); `fuel` bounds these. -/
def endTicketN (fuel : Nat) (s : State) (h : Half) (n status : Nat) : State :=
  match fuel with
  | 0 => s
  | fuel + 1 =>
  let x := s.ctx h n
  match x.ticket with
  | none => s
  | some tk =>
    if x.state = .ending then s
    else
      let now := s.now h
      let part := decide (¬ (progCores h tk.prog).all (fun c => x.ended.contains c))
      let s := dropCores s h n
      let s := dropWaiter s h n
      let r := dropSem (s.setCtx h n { s.ctx h n with sem := none }) h x.sem x.cls status
      let s := r.1
      let s := if status = stFault ∨ status = stAborted then rollbackStreams s h n else s
      let s := (dropPending s tk.handle tk.seq).modHalf h (fun y => { y with
        xfers := y.xfers.filter (fun f => decide (f.ctx ≠ n) || f.kind == .or8)
        done := y.done ++ [⟨tk.queue, tk.k, tk.seq, some n, status, flagByte x.flags part, x.startT.getD now, now,
          x.flags.satTotal, x.flags.uflTotal, tk.deadline, tk.notify⟩] })
      let c := s.ctx h n
      let s := s.setCtx h n { c with state := .ending, want := [], saved := [], runnable := false, evict := false }
      let s := clearPassed (noteDeadline s h tk.queue now tk.deadline) h (some n)
      r.2.foldl (fun (s : State) m => endTicketN fuel s h m stFault) s

/-- End a context's ticket (R231). -/
def endTicket (s : State) (h : Half) (n status : Nat) : State := endTicketN ((s.half h).ctxs.length + 1) s h n status

/-- A context ends with `FAULT_CONTEXT` (R229). -/
def faultCtx (s : State) (h : Half) (n : Nat) : State := endTicket s h n stFault

/-- The status of a ticket that reached `END` on every named core (R216). -/
def endStatus (f : TickFlags) : Nat := if f.mismatch then stCheck else if f.empty then stEmpty else stOK

/-- A ticket that ends without running (R212, R230, R232): its record shows `PARTIAL` and progress 0, or no `PARTIAL` when it names no core. -/
def endUnrun (s : State) (h : Half) (q k seq handle status : Nat) (deadline : Time) (notify part : Bool) : State :=
  let now := s.now h
  let s := (dropPending s handle seq).modHalf h (fun y => { y with
    done := y.done ++ [⟨q, k, seq, none, status, if part then 16 else 0, now, now, 0, 0, deadline, notify⟩] })
  noteDeadline s h q now deadline

/-- The bytes of a completion record (R214). -/
def recordBytes (d : DoneRec) (progress ringLog2 : Nat) : List Byte :=
  natLe 32 (d.status + 2 ^ 8 * d.flags + 2 ^ 16 * b2n (bitAt d.k ringLog2) + 2 ^ 39 * d.queue + 2 ^ 56 * d.uflTotal
    + 2 ^ 76 * d.satTotal + 2 ^ 96 * progress + 2 ^ 128 * d.seq + 2 ^ 160 * d.startT.toNat + 2 ^ 208 * d.endT.toNat)

/-- Rings lie in the half's own DRAM or Meres or in host memory (R207). -/
def ringReach (s : State) (h : Half) (a n : Nat) : Bool :=
  (linesOf a n).all (fun l => match s.region l with
    | .dram g => g == h
    | .mere g _ => g == h
    | .host => true
    | _ => false)

/-- Write the oldest completion record of queue `q` (R214 to R217): once every tally OR of its context has reached memory; then the MSI-X message, then `CTAIL`. -/
def writeRecord (s : State) (h : Half) (q : Nat) : State :=
  match (s.half h).done.find? (fun d => d.queue == q) with
  | none => s
  | some d =>
    let pend := match d.ctx with
      | some n => (s.ctx h n).pend
      | none => 0
    if pend ≠ 0 then s
    else
      let progress := match d.ctx with
        | some n => (s.ctx h n).progress
        | none => 0
      let y := s.quay h q
      let a := y.cring + 32 * (d.k % 2 ^ y.ringLog2)
      let s := if ringReach s h a 32 then engineWrite s h a (recordBytes d progress y.ringLog2) else s
      let s := s.modHalf h (fun z => { z with done := z.done.erase d })
      let s := match d.ctx with
        | some n =>
          let c := s.ctx h n
          s.setCtx h n { c with state := .idle, ticket := none, ended := [], rows := [], mirror := [], startT := none
                                flags := tickZero, progress := 0, pend := 0 }
        | none => s
      let s := if y.irq || d.notify then s.msix h y.vector else s
      let y := s.quay h q
      let s := s.setQuay h q { y with ctail := (y.ctail + 1) % 65536 }
      match d.ctx with
      | some n => clearPassed s h (some n)
      | none => s

/-! ### Resident slots (R219, R220) -/

/-- Clusters in which a program names a core. -/
def progClusters (h : Half) (p : Prog) : List Nat := ((progCores h p).map (· / 8)).eraseDups

/-- A context that holds a slot in each of its clusters (R219). -/
def isResident (x : Ctx) : Bool :=
  match x.state with
  | .running | .placing | .parked | .blocked => x.ticket.isSome
  | _ => false

/-- Contexts with a slot in a cluster. -/
def residents (s : State) (h : Half) (cl : Nat) : List Nat :=
  ((s.half h).ctxs.filter (fun p => isResident p.2 && (match p.2.ticket with
    | some tk => (progClusters h tk.prog).contains cl
    | none => false))).map Prod.fst

/-- Every core a running context holds waits at a `GATE` or `SEM` (R220). -/
def allWaiting (s : State) (h : Half) (n : Nat) : Bool :=
  let held := (s.half h).cores.filter (fun p => decide (p.2.ctx = some n))
  !held.isEmpty && held.all (fun p => p.2.wait.isSome && p.2.moor.isNone)

/-- The least urgent effective class first, then the one that ran least recently (R220). -/
def worstOf (s : State) (h : Half) (ns : List Nat) : Option Nat :=
  match ns with
  | [] => none
  | n :: t => some (t.foldl (fun m k =>
      if effClass s h k > effClass s h m then k
      else if effClass s h k = effClass s h m ∧ (s.ctx h k).ran < (s.ctx h m).ran then k else m) n)

/-- Leave bytes in an area, as far as its `room` bytes hold them, from a place in it that is not stated; `place j` is byte `j` of the area. Gives the offset they start at (R128, R227; DESIGN CHOICE, log 13). -/
def spill (s : State) (place : Nat → Nat) (room : Nat) (bs : List Byte) : Nat × State :=
  let bs := bs.take room
  let o := s.free
  let start := o.1 % ((room - bs.length) / 64 + 1) * 64
  (start, (List.zip (List.range bs.length) bs).foldl (fun (t : State) p => t.write (place (start + p.1)) [p.2]) o.2)

/-- Bytes of a context's save area, which lies in DRAM of the half, in channel groups of the context's class; none where it does not (R218, R226, R227). -/
def saveRoom (s : State) (h : Half) (n : Nat) : Nat :=
  let a := (s.ctx h n).saveAddr
  let m := (s.ctx h n).saveMib * 0x100000
  let fits (x : Nat) : Bool := match s.region x with
    | .dram g => g == h && bitAt (s.num (hk h 0x4300) (1 + (x - dramBase h) / 2 ^ 34)) (effClass s h n)
    | _ => false
  if m ≠ 0 ∧ fits a ∧ fits (a + m - 1) then m else 0

/-- Leave bytes in a context's save area (R219, R227). -/
def spillSave (s : State) (h : Half) (n : Nat) (bs : List Byte) : Nat × State :=
  spill s ((s.ctx h n).saveAddr + ·) (saveRoom s h n) bs

/-- The swap ways of a cluster (R225). -/
def swapWays (s : State) (h : Half) : List Nat := (List.range 16).filter (fun w => bitAt (s.num (hk h 0x4300) 9) w)

/-- Bytes of swap ways in a cluster (R225). -/
def swapCapacity (s : State) (h : Half) : Nat := (swapWays s h).length * 0x80000

/-- The address of byte `j` of a cluster's swap ways, which are striped at 64-byte granules (R242). -/
def swapPlace (s : State) (h : Half) (cl j : Nat) : Nat :=
  let ws := swapWays s h
  mereBase h cl + nth ws (j / 64 % ws.length) * 0x80000 + j / 64 / ws.length * 64 + j % 64

/-- The live buffers a core has saved, in ascending tag order (R128). -/
def liveBytes (v : SavedCore) : List Byte := v.live.flatMap Prod.snd

/-- Bytes of one core's saved live buffers. -/
def savedBytes (v : SavedCore) : Nat := (v.live.map (fun p => p.2.length)).foldl (· + ·) 0

/-- Swap bytes in use in a cluster: live sets not yet drained (R227). -/
def swapUsed (s : State) (h : Half) (cl : Nat) : Nat :=
  ((s.half h).ctxs.map (fun p => ((p.2.saved.filter (fun v => v.core / 8 == cl && !v.drained)).map savedBytes).foldl (· + ·) 0)).foldl
    (· + ·) 0

/-- Drain one saved live set to the context's save area (R227). -/
def drainOne (s : State) (h : Half) (n : Nat) (v : SavedCore) : State :=
  let o := spillSave s h n (liveBytes v)
  let x := o.2.ctx h n
  o.2.setCtx h n { x with saved := x.saved.map (fun w => if w = v then { w with drained := true, place := o.1 } else w) }

/-- Drain the live sets of a context that lie in swap ways, of one cluster or of all (R227). -/
def drainSets (s : State) (h : Half) (n : Nat) (cl : Option Nat) : State :=
  ((s.ctx h n).saved.filter (fun v => !v.drained && (cl.isNone || cl == some (v.core / 8)))).foldl
    (fun (s : State) v => drainOne s h n v) s

/-- Unload a context: its control state, whose size and layout are not stated, and its live buffers go to its save area (R219, R220). -/
def unload (s : State) (h : Half) (n : Nat) (runnable : Bool) : State :=
  let o := s.free
  let s := (spillSave o.2 h n (upto (o.1 % 0x10000) (fun j => BitVec.ofNat 8 (Config.freeNat (o.2.freeCtr + j))))).2
  let s := drainSets { s with freeCtr := s.freeCtr + o.1 % 0x10000 } h n none
  s.setCtx h n { s.ctx h n with state := .unloaded, runnable := runnable, evict := false }

/-- Request pre-emption on every core of a context that frees its slots (R220). -/
def evictRunning (s : State) (h : Half) (n : Nat) : State :=
  let s := s.modHalf h (fun x => { x with
    cores := x.cores.map (fun p => if p.2.ctx = some n then (p.1, { p.2 with preempt := true }) else p) })
  s.setCtx h n { s.ctx h n with evict := true }

/-- Find a slot in one cluster for a context of class `cls` (R220): `true` when one is free now. While a resident of the cluster is on its way out, that slot is waited for. -/
def freeSlot (s : State) (h : Half) (cls cl : Nat) : Bool × State :=
  let rs := residents s h cl
  if rs.length < 16 then (true, s)
  else if rs.any (fun n => (s.ctx h n).evict) then (false, s)
  else
    let waiting := rs.filter (fun n => (s.ctx h n).state == .blocked ||
      ((s.ctx h n).state == .running && allWaiting s h n))
    match worstOf s h waiting with
    | some n =>
      if (s.ctx h n).state = .blocked then (true, unload s h n false) else (false, evictRunning s h n)
    | none =>
      match worstOf s h (rs.filter (fun n => (s.ctx h n).state == .parked && decide (effClass s h n > cls))) with
      | some n => (true, unload s h n true)
      | none => (false, s)

/-- Find a slot in each cluster a program names; `true` when all are free now. -/
def freeSlots (s : State) (h : Half) (cls : Nat) (p : Prog) : Bool × State :=
  (progClusters h p).foldl (fun (r : Bool × State) cl =>
    if r.1 then freeSlot r.2 h cls cl else r) (true, s)

/-- A context has just run: it goes last among those that ran (R220, R222). -/
def stampRan (s : State) (h : Half) (n : Nat) : State :=
  let stamp := (s.half h).ranStamp + 1
  let s := s.modHalf h (fun y => { y with ranStamp := stamp })
  s.setCtx h n { s.ctx h n with ran := stamp }

/-! ### Admission (R196, R197) -/

/-- The entry regions of a class: its own, then the common one, as (first, past the last) (R197). -/
def entryRegions (s : State) (h : Half) (cls : Nat) : List (Nat × Nat) :=
  let r (c : Nat) : Nat := s.num (hk h 0x4401) (1 + c)
  let start := ((List.range cls).map r).foldl (· + ·) 0
  let total := ((List.range 4).map r).foldl (· + ·) 0
  [(start, start + r cls), (total, 8192)]

/-- The lowest run of `L` free entries in `[lo, hi)`, walking up from `e` with `run` free entries behind it. -/
def findRun (s : State) (h : Half) (L hi : Nat) : Nat → Nat → Nat → Option Nat
  | 0, _, _ => none
  | fuel + 1, e, run =>
    if run ≥ L then some (e - L)
    else if e ≥ hi then none
    else if (s.mentry h e).state = .evicted then findRun s h L hi fuel (e + 1) (run + 1)
    else findRun s h L hi fuel (e + 1) 0

/-- The run admission takes for one stream of a class (R197). -/
def admitRun (s : State) (h : Half) (cls L : Nat) : Option Nat :=
  match entryRegions s h cls with
  | [own, common] =>
    match findRun s h L own.2 (own.2 - own.1 + 2) own.1 0 with
    | some e => some e
    | none => findRun s h L common.2 (common.2 - common.1 + 2) common.1 0
  | _ => none

/-- Admit one stream: entries set, fresh index pages whose slots read no page (R197). Gives the handle. Every entry carries the lead's `GEN`, raised by 1, and its `SEG` and `STEP` (R189; points read in log 29). -/
def admitStream (s : State) (h : Half) (n cls m seq : Nat) (ps : List Nat) : Option (Nat × State) :=
  let L := layersOf s h m
  match admitRun s h cls L with
  | none => none
  | some e =>
    let lead := s.mentry h e
    let s := modStream s h e L (fun j x =>
      { x with gen := (lead.gen + 1) % 65536, seg := lead.seg, step := lead.step, state := .active, length := 0, cand := 0
               built := false, next := 0, model := m
               context := n, cls := cls, user := seq, layer := j, head := ps.getD j noPage })
    let s := ps.foldl (fun (s : State) p => s.write (pageAddr s h p) (List.replicate (pageBytes s h) 0xFF#8)) s
    some ((s.mentry h e).gen * 65536 + e, s)

/-- Admit `a` streams of model `m` or none (R196): the handles and the state. -/
def admitAll (s : State) (h : Half) (n cls m seq a : Nat) : Option (List Nat × State) :=
  if a = 0 then some ([], s)
  else
    let L := layersOf s h m
    match grantPages s h cls (a * L) with
    | none => none
    | some ps =>
      (List.range a).foldl (fun (r : Option (List Nat × State)) i =>
        match r with
        | none => none
        | some (hs, s) => (admitStream s h n cls m seq ((ps.drop (i * L)).take L)).map (fun o => (hs ++ [o.1], o.2)))
        (some ([], takePages s h cls ps))

/-- The argument registers with the admission handles in `ARG[60]` to `ARG[63]` (R197). -/
def putHandles (args hs : List Nat) : List Nat :=
  args.take 60 ++ upto 4 (fun i => hs.getD (2 * i) 0xFFFFFFFF + 2 ^ 32 * hs.getD (2 * i + 1) 0xFFFFFFFF)

/-- The half is lost for the other: `PEER` reads 1 (R265). -/
def peerLost (s : State) (h : Half) : Bool := (s.half h).peer == 1

/-- A core out of the schedule (R381). -/
def coreRetired (s : State) (h : Half) (c : Nat) : Bool := s.num (hk8 h 0xA030) c == 2

/-! ### Choosing and placing (R221, R222) -/

/-- A pre-emption request stands for core `c`: a context of a more urgent effective class claims it (R222, R233). -/
def preemptAsked (s : State) (h : Half) (c : Nat) : Bool :=
  match (s.core h c).ctx with
  | some m => (s.half h).ctxs.any (fun p => p.2.want.contains c && decide (effClass s h p.1 < effClass s h m))
  | none => false

/-- A context of effective class `cls` is in `PLACING` (R125, R222). -/
def placingBusy (s : State) (h : Half) (cls : Nat) : Bool :=
  (s.half h).ctxs.any (fun p => p.2.state == .placing && effClass s h p.1 == cls)

/-- The least recently run of some contexts. -/
def oldestOf (s : State) (h : Half) (ns : List Nat) : Option Nat :=
  match ns with
  | [] => none
  | n :: t => some (t.foldl (fun m k => if (s.ctx h k).ran < (s.ctx h m).ran then k else m) n)

/-- Contexts of an effective class that can resume (R222). -/
def resumable (s : State) (h : Half) (cls : Nat) : List Nat :=
  ((s.half h).ctxs.filter (fun p => (p.2.state == .parked || (p.2.state == .unloaded && p.2.runnable))
    && p.2.ticket.isSome && effClass s h p.1 == cls)).map Prod.fst

/-- Resume a context: it claims its cores again (R222); it waits when no slot is free. Gives `true` when the choice has been used. -/
def resumeCtx (s : State) (h : Half) (n : Nat) : Bool × State :=
  let x := s.ctx h n
  match x.ticket with
  | none => (false, s)
  | some tk =>
    let cores := (progCores h tk.prog).filter (fun c => !x.ended.contains c)
    if cores.any (coreRetired s h) then (true, faultCtx s h n)
    else
    let r := if x.state = .unloaded then freeSlots s h (effClass s h n) tk.prog else (true, s)
    if r.1 then
      (true, r.2.setCtx h n { x with state := .placing, want := cores })
    else r

/-- A queue whose leaf bit is set (R221). -/
def queueReady (s : State) (h : Half) (q : Nat) : Bool :=
  let y := s.quay h q
  y.en && decide (y.tail ≠ y.head) && (s.ctx h y.context).en && !(s.half h).passed.any (fun p => p.1 == q)

/-- The lowest-numbered ready queue of a class at or above its cursor, wrapping (R221). -/
def chooseQueue (s : State) (h : Half) (cls : Nat) : Option Nat :=
  let ready := ((s.half h).queues.filter (fun p => p.2.cls == cls && queueReady s h p.1)).map Prod.fst
  let cur := nth (s.half h).cursors cls
  match ready.find? (fun q => decide (cur ≤ q)) with
  | some q => some q
  | none => ready.head?

/-- Pass a queue over until a ticket of context `some n` ends, or entries or pages are released (R196, R213, R221). -/
def passOver (s : State) (h : Half) (q : Nat) (cause : Option Nat) : State :=
  s.modHalf h (fun y => { y with passed := y.passed ++ [(q, cause)] })

/-- Take the head ticket off a queue's ring. -/
def advanceHead (s : State) (h : Half) (q : Nat) : State :=
  let y := s.quay h q
  s.setQuay h q { y with head := (y.head + 1) % 65536, aborts := y.aborts.filter (fun k => decide (k ≠ y.head)) }

/-- The handle an alias handle stands for: a handle with bit 31 set names entry [7:0] of `PROG_ALIAS`, its bits [30:8] zero (R446). -/
def aliasHandle (s : State) (h : Half) (handle : Nat) : Option Nat :=
  if handle < 0x80000000 then some handle
  else if fld handle 30 8 ≠ 0 then none
  else
    let real := leNat (((s.bytes (hk h 0x4C20) 9).drop (4 * fld handle 7 0)).take 4)
    if real < 0x80000000 then some real else none

/-- The installed program a handle names (R212, R446); handle 0 names none. -/
def resolveProg (s : State) (h : Half) (handle : Nat) : Option Prog :=
  match aliasHandle s h handle with
  | none => none
  | some real => (s.half h).progs.find? (fun p => p.handle == real && decide (real ≠ 0))

/-- A ticket's fields break R204 or R210. -/
def ticketBad (tk cls : Nat) : Bool :=
  fld tk 511 205 != 0 || fld tk 191 176 != 0 || fld tk 127 112 != 0 || decide (fld tk 197 194 > 8)
  || (fld tk 197 194 == 0 && fld tk 203 198 != 0) || fld tk 193 192 != cls || fld tk 111 64 % 64 != 0

/-- Read the head ticket of queue `q`, check it, resolve its program, admit its streams, place its context (R210 to R213, R222; points read in log 33). Gives `true` when the choice has been used: the queue is not passed over and waits for no slot. -/
def takeTicket (s : State) (h : Half) (q : Nat) : Bool × State :=
  let y := s.quay h q
  let n := y.context
  let x := s.ctx h n
  let a := y.tring + 64 * (y.head % 2 ^ y.ringLog2)
  if x.state ≠ .idle then (false, passOver s h q (some n))
  else
    let reach := ringReach s h a 64 && (s.region a != .host || (s.half h).host.linkUp)
    let o := if reach then s.readCheck a 64 else (false, s)
    let s := o.2
    let tk := if o.1 then engineNat s h a 64 else 0
    let seq := fld tk 31 0
    let handle := fld tk 63 32
    let deadline := BitVec.ofNat 48 (fld tk 175 128)
    let notify := bitAt tk 204
    let unrun (s : State) (status : Nat) : Bool × State :=
      (true, endUnrun (advanceHead s h q) h q y.head seq handle status deadline notify true)
    if y.aborts.contains y.head then unrun s stAborted
    else if !o.1 || ticketBad tk y.cls || decide (x.cls ≠ y.cls) then unrun s stFault
    else
      match resolveProg s h handle with
      | none => unrun s stFault
      | some p =>
        let cores := progCores h p
        let args := fld tk 111 64
        if progNames h.other p && peerLost s h then unrun s stHalfLost
        else if cores.length > x.saveMib || cores.any (coreRetired s h) || !engineReach s args 512 then unrun s stFault
        else if cores.isEmpty then (true, endUnrun (advanceHead s h q) h q y.head seq handle stOK deadline notify false)
        else
          let b := s.readCheck args 512
          let s := b.2
          if !b.1 then unrun s stFault
          else
            match admitAll s h n y.cls (fld tk 203 198) seq (fld tk 197 194) with
            | none => (false, passOver s h q none)
            | some (hs, sa) =>
              let r := freeSlots sa h y.cls p
              if !r.1 then
                -- a slot is not free: the ticket stays at its queue's head; what was begun to free one stands
                (false, (freeSlots s h y.cls p).2)
              else
                let s := advanceHead r.2 h q
                let argv := putHandles (upto 64 (fun i => engineNat s h (args + 8 * i) 8)) hs
                let c := s.ctx h n
                (true, s.setCtx h n { c with
                  state := .placing, lastSeq := seq, want := cores, ended := [], saved := [], rows := [], mirror := []
                  startT := none, flags := tickZero, sem := none, progress := 0, pend := 0, runnable := false, evict := false
                  ticket := some ⟨q, y.head, seq, handle, deadline, notify, argv, p⟩ })

/-- The dispatcher's choice within a class (R221, R222): a resumable context before a new ticket. Gives `true` when the choice has been used. -/
def dispatchClass (s : State) (h : Half) (cls : Nat) : Bool × State :=
  if placingBusy s h cls then (false, s)
  else
    match oldestOf s h (resumable s h cls) with
    | some n => resumeCtx s h n
    | none =>
      match chooseQueue s h cls with
      | some q => takeTicket (s.modHalf h (fun y => { y with
          cursors := upto 4 (fun c => if c = cls then (q + 1) % 131072 else nth y.cursors c) })) h q
      | none => (false, s)

/-- One choice of the dispatcher (R221, R222): classes in order of urgency; a class whose choice is passed over or waits for a slot leaves it to the next (points read in log 33). -/
def dispatchChoice (s : State) (h : Half) : State :=
  ((List.range 4).foldl (fun (r : Bool × State) cls => if r.1 then r else dispatchClass r.2 h cls) (false, s)).2

/-- The claimant a free core goes to: the most urgent effective class, then the least recently run (R222). -/
def claimant (s : State) (h : Half) (c : Nat) : Option Nat :=
  let ns := ((s.half h).ctxs.filter (fun p => p.2.want.contains c)).map Prod.fst
  match ns with
  | [] => none
  | n :: t => some (t.foldl (fun m k =>
      if effClass s h k < effClass s h m then k
      else if effClass s h k = effClass s h m ∧ (s.ctx h k).ran < (s.ctx h m).ran then k else m) n)

/-- A context starts on a core (R99 to R102, R129): Pool cleared, stream copied in, tags and arguments loaded; `false` when its image does not read as good (R258; DESIGN CHOICE, log 38). -/
def startOnCore (s : State) (h : Half) (c n : Nat) (tk : Ticket) (r : PerCore) : Bool × State :=
  let o := s.readCheck (tk.prog.bodyAddr + r.imgOfs) r.streamLen
  let s := o.2
  let s := { s with
    mem := memClear s.mem (poolBase h c) 0x200000
    sramBad := s.sramBad.filter (fun p => !(decide (poolBase h c ≤ p.1) && decide (p.1 < poolBase h c + 0x200000))) }
  let s := s.write r.streamBase (s.read (tk.prog.bodyAddr + r.imgOfs) r.streamLen)
  (o.1, s.setCore h c { coreFree with
    ctx := some n, streamBase := r.streamBase, streamLen := r.streamLen, tags := r.tags, args := tk.args })

/-- Values waiting in the pending-counter store for a context that starts become its mirrors (R287). -/
def applyPending (s : State) (h : Half) (n : Nat) (tk : Ticket) : State :=
  let mine := (s.half h).pendCtrs.filter (fun p => p.program == tk.handle && p.seq == tk.seq)
  let s := s.modHalf h (fun y => { y with
    pendCtrs := y.pendCtrs.filter (fun p => !(p.program == tk.handle && p.seq == tk.seq)) })
  let x := s.ctx h n
  s.setCtx h n { x with mirror := mine.foldl (fun t p => Tab.set 0 t (p.core * 4 + p.ctr) p.value) x.mirror }

/-- `POWER_STATE` of a half: 0 Run, 1 Idle, 2 and 3 Nap, 4 off or starting (R456). -/
def powerState (s : State) (h : Half) : Nat := s.num (hk h 0x4D00) 8

/-- A half's DRAM and Meres answer: in Run or Idle, or while it starts once host objects are served (R456, R462). -/
def memOn (s : State) (h : Half) : Bool :=
  decide (powerState s h ≤ 1) || (powerState s h == 4 && decide (2 ≤ (s.half h).ready))

/-- A context of class 0 claims core `c` (R223, R383). -/
def class0Claim (s : State) (h : Half) (c : Nat) : Bool :=
  (s.half h).ctxs.any (fun p => p.2.want.contains c && effClass s h p.1 == 0)

/-- A due or yielded Spring test may take a free core: the claim of class 0 goes first (R223, R383). -/
def springReady (s : State) (h : Half) (c : Nat) : Bool :=
  (s.num (hk8 h 0xA032) c == 1 || s.num (hk8 h 0xA032) c == 3) && !class0Claim s h c

/-- A ticket that takes a core whose test is late carries `LATE_SPRING` (R384). -/
def markLate (s : State) (h : Half) (c n : Nat) : State :=
  if (Tab.get springIdle (s.half h).springs c).late then
    let x := s.ctx h n
    s.setCtx h n { x with flags := { x.flags with lateSpring := true } }
  else s

/-- A free claimed core is handed over (R222): the context starts on it, or begins its restore; a Spring test that waits for it goes before any claim but class 0 (R383; points read in log 33). -/
def handover (s : State) (h : Half) (c : Nat) : State :=
  if (s.core h c).ctx.isSome || coreRetired s h c || s.num (hk8 h 0xA032) c == 2 then s
  else if springReady s h c then s.setNum (hk8 h 0xA032) c 2
  else
    match claimant s h c with
    | none => s
    | some n =>
      let x := s.ctx h n
      match x.ticket with
      | none => s
      | some tk =>
        match progCore h tk.prog c with
        | none => s
        | some r =>
          let first := x.startT.isNone && x.saved.isEmpty
          let o := if x.saved.any (fun v => v.core == c) then
              (true, s.setCore h c { coreFree with
                ctx := some n, restoring := true, streamBase := r.streamBase, streamLen := r.streamLen, tags := r.tags })
            else startOnCore s h c n tk r
          let s := o.2
          let s := if first then applyPending s h n tk else s
          let s := markLate s h c n
          let x := s.ctx h n
          let want := x.want.filter (fun k => decide (k ≠ c))
          let s := stampRan (s.setCtx h n { x with want := want, state := if want.isEmpty then .running else x.state }) h n
          if o.1 then s else faultCtx s h n

/-! ### Aborts (R230, R231) -/

/-- The `SEQ` of waiting ticket `k` of a queue. -/
def ticketSeq (s : State) (h : Half) (y : Quay) (k : Nat) : Nat :=
  engineNat s h (y.tring + 64 * (k % 2 ^ y.ringLog2)) 4

/-- An abort request is malformed (R230). -/
def abortBad (s : State) (r : Nat) : Bool :=
  fld r 7 0 != 1 || fld r 30 8 != 0 || fld r 127 80 % 8 != 0 || !engineReach s (fld r 127 80) 8

/-- Judge an abort request: its status and the state after it (R230, R231). -/
def abortJudge (s : State) (h : Half) (ctx : Option Nat) (r : Nat) : Nat × State :=
  let q := fld r 47 31
  let seq := fld r 79 48
  let y := s.quay h q
  let x := s.ctx h y.context
  if (match ctx with | some n => decide (y.context ≠ n) | none => false) then (stRight, s)
  else
    let running : Bool := match x.ticket with
      | some tk => tk.queue == q && tk.seq == seq && x.state != .ending
      | none => false
    if running then (stOK, endTicket s h y.context stAborted)
    else
      let ks := upto ((y.tail + 65536 - y.head) % 65536) (fun i => (y.head + i) % 65536)
      let s := ks.foldl (fun (s : State) k => (s.readCheck (y.tring + 64 * (k % 2 ^ y.ringLog2)) 4).2) s
      match ks.find? (fun k => ticketSeq s h y k == seq && !y.aborts.contains k) with
      | some k => (stOK, s.setQuay h q { y with aborts := y.aborts ++ [k] })
      | none => (stAlready, s)

/-- An abort request at the port (R230): carried out and answered; `true` when malformed, which is answered where its response address can be. -/
def abortRequest (s : State) (h : Half) (ctx : Option Nat) (r : Nat) : Bool × State :=
  let at_ := fld r 127 80
  if abortBad s r then (true, if at_ % 8 = 0 ∧ engineReach s at_ 8 then engineWrite s h at_ (natLe 8 stFault) else s)
  else
    let o := abortJudge s h ctx r
    (false, engineWrite o.2 h (fld r 127 80) (natLe 8 o.1))

/-! ### Doorbells (R208, R209) -/

/-- A discarded doorbell is counted with its row of *Doorbell outcomes* (R209, R426). -/
def noteDiscard (s : State) (h : Half) (key row : Nat) : State := s.observe h 4 1 0xFF key row none

/-- An aligned 8-byte write of a doorbell word at offset 8`q` (R209). -/
def ringDoorbell (s : State) (h : Half) (q w : Nat) : State :=
  let y := s.quay h q
  if fld w 31 16 ≠ q % 65536 ∨ fld w 63 32 ≠ 0 then noteDiscard s h q 2
  else if !y.en then noteDiscard s h q 3
  else
    let t := fld w 15 0
    let d := (t + 65536 - y.head) % 65536
    if d > 2 ^ y.ringLog2 ∨ d < (y.tail + 65536 - y.head) % 65536 then
      noteDiscard (s.setQuay h q { y with en := false, err := stState }) h q 4
    else s.setQuay h q { y with tail := t }

end Sys2Proof.Machine
end

