-- ==== Sys2Proof/Machine/LinkOps.lean ====
section
/-! DEFINITION. Flits, messages, credits and the replay buffer of a link port (R279 to R284). -/
namespace Sys2Proof.Machine

/-- A link that works: it carries traffic, or holds it back while it retrains (R284; points read in log 33). -/
def linkWorks (l : Link) : Bool := l.state == .active || l.state == .retrain

/-! ### Flits (R279, R280) -/

/-- One bit of CRC-32: the reflected polynomial of IEEE 802.3. -/
def crc32Bit (crc : Nat) : Nat := if crc % 2 = 1 then (crc / 2) ^^^ 0xEDB88320 else crc / 2

/-- One byte of CRC-32. -/
def crc32Byte (crc : Nat) (b : Byte) : Nat := (List.range 8).foldl (fun c _ => crc32Bit c) (crc ^^^ b.toNat)

/-- The CRC-32 of IEEE 802.3 over a byte string (R279). -/
def crc32 (bs : List Byte) : Nat := bs.foldl crc32Byte 0xFFFFFFFF ^^^ 0xFFFFFFFF

/-- Bits [31:0] of a trailer (*Flit trailer*): `SEQ`, `ACK`, returned credits and type. -/
def trailerLow (seq ack crClass crCount ftype : Nat) : Nat :=
  ftype % 16 + 2 ^ 4 * (crCount % 64) + 2 ^ 10 * (crClass % 4) + 2 ^ 12 * (ack % 1024) + 2 ^ 22 * (seq % 1024)

/-- A flit's 72 bytes: its body, the low trailer word, and the CRC over both (R279). -/
def flitBytes (body : List Byte) (low : Nat) : List Byte :=
  let b := upto 64 (fun i => body.getD i 0) ++ natLe 4 low
  b ++ natLe 4 (crc32 b)

/-- A numbered flit of type `ftype`; the credits it returns are none: they return with `IDLE` flits (DESIGN CHOICE, log 10). -/
def numbered (l : Link) (seq ftype : Nat) (body : List Byte) : Flit :=
  ⟨seq % 1024, flitBytes body (trailerLow seq (l.rxSeq + 1023) 0 0 ftype)⟩

/-- An `IDLE` flit that returns credits of a class: `hdr` header credits and 16 × `dat` data-flit credits (R279, R282). -/
def idleFlit (l : Link) (cls hdr dat : Nat) : List Byte := flitBytes [] (trailerLow 0 (l.rxSeq + 1023) cls (hdr % 4 * 16 + dat % 16) 0)

/-- A `NAK` flit: a replay request from the number after `ack` (R279, R283). -/
def nakFlit (ack : Nat) : List Byte := flitBytes [] (trailerLow 0 ack 0 0 4)

/-- The code of a message type (*Message types*). -/
def msgCode : MsgKind → Nat
  | .rdReq => 1 | .rdData => 2 | .wr => 3 | .wrAck => 4 | .or8 => 5 | .orAck => 6 | .counter => 7 | .counterAck => 8
  | .dict => 9 | .frame => 10

/-- A message header (*Message header*). -/
def headerBits (m : LinkMsg) : Nat :=
  2 ^ 20 * b2n m.masked + 2 ^ 21 * b2n m.poison + 2 ^ 22 * (m.cls % 4) + 2 ^ 24 * msgCode m.kind + 2 ^ 37 * (m.unit % 256)
    + 2 ^ 45 * m.half.num + 2 ^ 46 * (m.dev % 4) + 2 ^ 48 * (m.status % 256) + 2 ^ 56 * ((m.lines + 31) % 32)
    + 2 ^ 64 * (m.tag % 65536) + 2 ^ 80 * (m.addr % 2 ^ 48)

/-- `DATA` flits of a message. -/
def dataLines (m : LinkMsg) : Nat :=
  match m.kind with
  | .rdData | .wr | .dict | .frame => m.lines
  | .or8 | .counter => 1
  | _ => 0

/-- `DATA` and `MASK` flits of a message, each of which takes a data-flit credit (R282). -/
def msgFlits (m : LinkMsg) : Nat := dataLines m + (if m.masked then dataLines m else 0)

/-- The number of a message's last flit. -/
def lastFlit (m : LinkMsg) : Nat := (m.flit + msgFlits m) % 1024

/-- The flits of a message (R279, R280): a header flit of its own, then for each line its mask and its data. -/
def messageFlits (l : Link) (m : LinkMsg) : List Flit :=
  let body := (List.range (dataLines m)).flatMap (fun i =>
    (if m.masked then [(3, natLe 8 (m.mask.getD i 0))] else []) ++ [(2, (m.data.drop (64 * i)).take 64)])
  let all := (1, natLe 16 (headerBits m)) :: body
  (List.zip (List.range all.length) all).map (fun p => numbered l (m.flit + p.1) p.2.1 p.2.2)

/-! ### Credits and the replay buffer (R282, R283) -/

/-- Flits a replay buffer holds (R283). -/
def replaySize : Nat := 512

/-- Header and data-flit credits of a port, per class (R282). -/
def credits : Port → Nat × Nat
  | .ferry => (64, 512)
  | _ => (128, 1024)

/-- Credits of a class suffice for one more message. -/
def creditOk (p : Port) (l : Link) (m : LinkMsg) : Bool :=
  let used := l.sent.filter (fun x => x.cls == m.cls)
  decide (used.length + 1 ≤ (credits p).1)
  && decide ((used.map msgFlits).foldl (· + ·) 0 + msgFlits m ≤ (credits p).2)

/-- The replay buffer has room for a message's flits. -/
def replayRoom (l : Link) (m : LinkMsg) : Bool := decide (l.replay.length + 1 + msgFlits m ≤ replaySize)

/-- A message leaves: its flits are numbered and kept until they are acknowledged. -/
def transmit (l : Link) (m : LinkMsg) : Link :=
  let m := { m with flit := l.txSeq }
  { l with sent := l.sent ++ [m], replay := l.replay ++ messageFlits l m, txSeq := (l.txSeq + 1 + msgFlits m) % 1024 }

/-- Send what the link carries: messages wait while it is not `ACTIVE`, without credits, or while the replay buffer is full; each class goes in order (R281 to R284). -/
def pumpLink (p : Port) (l : Link) : Link :=
  if l.state ≠ .active then l
  else
    l.waiting.foldl (fun (k : Link) m =>
      if k.waiting.any (fun w => w.cls == m.cls) || !creditOk p k m || !replayRoom k m then { k with waiting := k.waiting ++ [m] }
      else transmit k m) { l with waiting := [] }

/-- The receiver acknowledges every flit up to number `n`: the sender keeps them no longer (R283). -/
def acknowledge (l : Link) (n : Nat) : Link :=
  if l.replay.any (fun f => f.seq == n) then { l with replay := (l.replay.dropWhile (fun f => f.seq != n)).drop 1 } else l

/-- A response of R280. -/
def isResponse (m : LinkMsg) : Bool :=
  match m.kind with
  | .rdData | .wrAck | .orAck | .counterAck => true
  | _ => false

/-- Put a link and send what it now carries; a response over Causeway leaves the device (DESIGN CHOICE, log 10). -/
def putLink (s : State) (h : Half) (p : Port) (l : Link) : State :=
  let l' := pumpLink p l
  let s := s.setLink h p l'
  match p with
  | .ferry => s
  | _ => ((l'.sent.drop l.sent.length).filter isResponse).foldl (fun (s : State) m => s.emit (.response h p m)) s

/-- The partner of a Causeway port has been heard: what was sent before is acknowledged, and responses leave the books (R281 to R283; DESIGN CHOICE, log 10). -/
def hearPartner (s : State) (h : Half) (p : Port) : State :=
  let l := s.link h p
  putLink s h p { l with replay := [], sent := l.sent.filter (fun m => !isResponse m), discard := false }

/-- Buffers of a message that came over Causeway are free again: header and whole groups of 16 data-flit credits return in an `IDLE` flit (R279, R282). -/
def freeBuffers (s : State) (h : Half) (p : Port) (m : LinkMsg) : State :=
  let l := s.link h p
  let n := Tab.get 0 l.owed (m.cls % 4) + msgFlits m
  (s.setLink h p { l with owed := Tab.set 0 l.owed (m.cls % 4) (n % 16) }).emit (.flit h p (idleFlit l (m.cls % 4) 1 (n / 16)))

/-- Hand a message to a port. -/
def sendMsg (s : State) (h : Half) (p : Port) (m : LinkMsg) : State :=
  let l := s.link h p
  putLink s h p { l with waiting := l.waiting ++ [m] }

/-- Take a served message out of the sender's books: its flits are acknowledged and its credits return (R282, R283). -/
def returnCredit (s : State) (h : Half) (p : Port) (m : LinkMsg) : State :=
  let l := s.link h p
  putLink s h p { acknowledge l (lastFlit m) with sent := l.sent.erase m }

/-- A message with the header fields of a requester (R280). -/
def blankMsg (s : State) (h : Half) (kind : MsgKind) (unit cls tag addr lines : Nat) : LinkMsg :=
  { kind := kind, addr := addr, tag := tag, lines := lines, status := 0, dev := s.num 0x2600 1, half := h, unit := unit
    cls := cls, poison := false, masked := false, mask := [], data := [], program := 0, seq := 0, ctr := 0, cargo := .none
    flit := 0 }

/-! ### Messages of the halves' own agents (R280, R281) -/

/-- The unit number of a half-level agent (R280; DESIGN CHOICE, log 10). -/
def halfUnit : Nat := 128

/-- Messages of at most 32 lines that together carry `n` bytes, what they carry coming with the last (R280; DESIGN CHOICE, log 10). -/
def cargoMsgs (s : State) (h : Half) (kind : MsgKind) (cls : Nat) (bytes : List Byte) (cargo : Cargo) : List LinkMsg :=
  let k := max 1 ((bytes.length + 2047) / 2048)
  upto k (fun i =>
    let part := (bytes.drop (2048 * i)).take 2048
    { blankMsg s h kind halfUnit cls 0 0 (max 1 ((part.length + 63) / 64)) with
      data := part, cargo := if i + 1 = k then cargo else .piece })

/-- Send messages over the Ferry; while it trains or retrains they wait in the sender, and a Ferry that is down or failed carries nothing (R284). -/
def sendFerry (s : State) (h : Half) (ms : List LinkMsg) : State :=
  let l := (s.half h).ferry
  if l.state = .down ∨ l.state = .failed then s
  else putLink s h .ferry { l with waiting := l.waiting ++ ms }

/-- The bytes of a dictionary message on the Ferry: its kind, then its contents (DESIGN CHOICE, log 26). -/
def dictMsgBytes : DictMsg → List Byte
  | .mirror idx sub bs => 0#8 :: natLe 2 idx ++ natLe 1 sub ++ bs
  | .invalid t => 1#8 :: natLe 6 t.toNat
  | .boundary t => 2#8 :: natLe 6 t.toNat
  | .request _ msg => 3#8 :: msg

/-- Send a `DICT` message, of class 0, to the other half (R281, R408). -/
def sendDict (s : State) (h : Half) (m : DictMsg) : State := sendFerry s h (cargoMsgs s h .dict 0 (dictMsgBytes m) (.dict m))

/-- Send a `FRAME` message, in the class of its priority, to the other half's switch (R281). -/
def sendFrameMsg (s : State) (h : Half) (f : FrameMsg) : State := sendFerry s h (cargoMsgs s h .frame f.cls f.data (.frame f))

end Sys2Proof.Machine
end

