-- ==== Sys2Proof/Machine/UnitOps.lean ====
section
/-! DEFINITION. Checker disagreements, suspect units, retirement, spares and the service record (R84 to R95, R378 to R381, R436). -/
namespace Sys2Proof.Machine

/-- Core `c`'s spares and rolling test. -/
def State.rollOf (s : State) (h : Half) (c : Nat) : Roll := Tab.get rollFree (s.half h).roll c

/-- Put core `c`'s spares and rolling test; `GANG_SPARE_MAP` reads the word in force. -/
def State.setRoll (s : State) (h : Half) (c : Nat) (r : Roll) : State :=
  (s.modHalf h (fun x => { x with roll := Tab.set rollFree x.roll c r })).setNum (hk8 h 0xA020) c r.word

/-- Spare `i` is in service (R93). -/
def spareValid (w i : Nat) : Bool := bitAt w (7 * i + 6)
/-- The position spare `i` stands for (R93). -/
def sparePos (w i : Nat) : Nat := fld w (7 * i + 5) (7 * i)
/-- Spare `i` is bad (R93). -/
def spareBad (w i : Nat) : Bool := bitAt w (28 + i)
/-- A spare neither in service nor bad: free, or the test spare (R84). -/
def spareIdle (w i : Nat) : Bool := !spareValid w i && !spareBad w i

/-- The spare that stands for position `q`, if any. -/
def spareOf (w q : Nat) : Option Nat := (List.range 4).find? (fun i => spareValid w i && sparePos w i == q)

/-- The word with spare `i` standing for `q`. -/
def spareMap (w i q : Nat) : Nat := w + 2 ^ (7 * i) * (q + 64)

/-- The word with spare `i` bad and out of service. -/
def spareMarkBad (w i : Nat) : Nat :=
  w - (if spareValid w i then 2 ^ (7 * i) * (sparePos w i + 64) else 0) + (if spareBad w i then 0 else 2 ^ (28 + i))

/-- The word once spare `i` has taken position `q`: a spare that stood for it is bad (R86). -/
def mapWord (w i q : Nat) : Nat :=
  spareMap (match spareOf w q with
    | some j => spareMarkBad w j
    | none => w) i q

/-- The word once every pending mapping is in force. -/
def plannedWord (r : Roll) : Nat := r.pend.foldl (fun w p => mapWord w p.2 p.1) r.word

/-- A spare that may take a position or a pass: idle, and promised to no position. -/
def spareOpen (r : Roll) (i : Nat) : Bool := spareIdle r.word i && !r.pend.any (fun p => p.2 == i)

/-- The spare a retired position is promised: the free spare with the lowest number, else the test spare (R87). -/
def openSpare (r : Roll) : Option Nat :=
  ((List.range 4).find? (fun i => spareOpen r i && r.testSpare != some i)).or ((List.range 4).find? (spareOpen r))

/-- A word that breaks R94: a spare both bad and in service, or two spares for one position. -/
def spareInvalid (w : Nat) : Bool :=
  (List.range 4).any (fun i => spareBad w i && spareValid w i ||
    (List.range i).any (fun j => spareValid w i && spareValid w j && sparePos w i == sparePos w j))

/-- Entries of a service record bank: 256 KiB of 32 bytes (R430, R436). -/
def serviceBank : Nat := 8192

/-- Write one service record entry and raise the service counter (R436). -/
def writeService (s : State) (h : Half) (kind c spare pos : Nat) (t : Time) : State :=
  s.modHalf h (fun x => { x with
    service := x.service ++ [⟨x.serviceCtr + 1, kind, c, spare, pos, t, true⟩], serviceCtr := x.serviceCtr + 1 })

/-- A full bank is compacted: a snapshot of every core goes to the other bank, and the full one is erased (R436). -/
def compactService (s : State) (h : Half) : State :=
  let s := s.modHalf h (fun x => { x with service := [] })
  (List.range s.part.cores).foldl (fun (s : State) c =>
    writeService s h 4 c (b2n (s.num (hk8 h 0xA030) c == 2)) 0 (BitVec.ofNat 48 (plannedWord (s.rollOf h c)))) s

/-- Append a service record entry (R436). -/
def appendService (s : State) (h : Half) (kind c spare pos : Nat) : State :=
  let s := if (s.half h).service.length < serviceBank then s else compactService s h
  writeService s h kind c spare pos (s.now h)

/-- Core `c` is listed in `CRITICAL_CORES` (R393). -/
def coreCritical (s : State) (h : Half) (c : Nat) : Bool := bitAt (leNat (s.bytes (hk h 0x4B00) 9)) c

/-- The key of a unit under suspicion: core `c` itself (0), its array position `q` (1 + `q`), or the half's fabric. -/
def unitKey (c unit : Nat) : Nat := c * 128 + unit

/-- Retire a core (R381): out of the schedule, its contexts ended, its tests stopped, its units under suspicion no longer, the retirement recorded; a critical core takes the half out of service (R393). A context that still claims the core can never be placed and ends too. -/
def retireCore (s : State) (h : Half) (c : Nat) : State :=
  if coreRetired s h c then s
  else
    let hit := ((s.half h).ctxs.filter (fun p => p.2.want.contains c || (s.core h c).ctx == some p.1)).map Prod.fst
    let s := hit.foldl (fun s n => faultCtx s h n) s
    let s := ((s.setNum (hk8 h 0xA030) c 2).setNum (hk8 h 0xA021) c 3).setNum (hk8 h 0xA032) c 0
    let s := s.modHalf h (fun x => { x with
      springs := Tab.erase x.springs c
      safety := { x.safety with suspects := x.safety.suspects.filter (fun p => p.1 == 0xFFFF || decide (p.1 / 128 ≠ c)) } })
    let s := s.setRoll h c { s.rollOf h c with testSpare := none, lbist := false, shadow := false, pend := [], armed := [] }
    let s := appendService s h 3 c 0 0
    if coreCritical s h c then s.enterSafe h 2 else s

/-- Record in flash that spare `i` is to take position `q`, and that a spare which stood for it is bad (R95, R381). -/
def recordMapping (s : State) (h : Half) (c i q : Nat) : State :=
  let s := match spareOf (s.rollOf h c).word q with
    | some j => appendService s h 2 c j q
    | none => s
  appendService s h 1 c i q

/-- Put spare `i` in service for position `q` now (R86): counted in the recorder, with the spare it replaces. -/
def mapNow (s : State) (h : Half) (c i q : Nat) : State :=
  let r := s.rollOf h c
  let s := s.setRoll h c { r with
    word := mapWord r.word i q, pend := r.pend.filter (fun p => decide (p.1 ≠ q)), armed := r.armed.erase q }
  let s := if (spareOf r.word q).isSome then s.observe h 6 2 c q 1 none else s
  s.observe h 6 2 c q 0 none

/-- A spare has failed its logic self-test: it is bad (R84, R90). -/
def markBad (s : State) (h : Half) (c i q : Nat) : State :=
  let r := s.rollOf h c
  let s := s.setRoll h c { r with word := spareMarkBad r.word i }
  (appendService s h 2 c i q).observe h 6 2 c q 1 none

/-- Start the pass whose number the pass counter gives: its position, and the next open spare in cyclic order (R88); without one no pass runs, and the safety manager is told as that begins (R92). -/
def startPass (s : State) (h : Half) (c : Nat) : State :=
  let r := s.rollOf h c
  match (List.range 4).find? (fun i => spareOpen r ((r.lastTest + 1 + i) % 4)) with
  | some i =>
    let t := (r.lastTest + 1 + i) % 4
    ((s.setRoll h c { r with testSpare := some t, lastTest := t, lbist := true, shadow := false }).setNum (hk8 h 0xA022) c
      (s.num (hk8 h 0xA023) c % 64)).setNum (hk8 h 0xA021) c 0
  | none =>
    let told := s.num (hk8 h 0xA021) c == 2
    let s := (s.setRoll h c { r with testSpare := none, lbist := false, shadow := false }).setNum (hk8 h 0xA021) c 2
    if told then s else s.observe h 6 2 c (s.num (hk8 h 0xA023) c % 64) 2 none

/-- The rolling tests of a half start, at reset and when it wakes (R88): a retired core runs none. -/
def startPasses (s : State) (h : Half) : State :=
  (List.range s.part.cores).foldl (fun (s : State) c => if coreRetired s h c then s else startPass s h c) s

/-- The rolling tests of a half stop for Nap (*Rolling-test states*); what the spares hold is lost. -/
def stopPasses (s : State) (h : Half) : State :=
  (List.range s.part.cores).foldl (fun (s : State) c =>
    if coreRetired s h c then s
    else (s.setRoll h c { s.rollOf h c with testSpare := none, lbist := false, shadow := false, armed := [] }).setNum (hk8 h 0xA021) c 3) s

/-- The test spare takes the position it shadows, from the next row group on (R86). The pass it was running ends uncounted, and the next begins at once at the same position, as R90 has it for a pass that ends early (DESIGN CHOICE, log 37). -/
def mapTestSpare (s : State) (h : Half) (c i q : Nat) : State :=
  let s := s.setRoll h c { s.rollOf h c with testSpare := none, shadow := false }
  startPass (mapNow s h c i q) h c

/-- Retire array position `q` (R86, R87, R381), recorded at once: the test spare that shadows it takes it from the next row group on; otherwise it is promised a spare, which takes it from the swap point of the next `LOADW` on; with no spare left the core is retired. -/
def retirePosition (s : State) (h : Half) (c q : Nat) : State :=
  let r := s.rollOf h c
  let shadowing := r.shadow && s.num (hk8 h 0xA022) c == q
  if r.pend.any (fun p => p.1 == q) || coreRetired s h c then s
  else
    match (if shadowing then r.testSpare.filter (spareOpen r) else none), openSpare r with
    | some i, _ => mapTestSpare (recordMapping s h c i q) h c i q
    | none, some i => (recordMapping s h c i q).setRoll h c { r with pend := r.pend ++ [(q, i)] }
    | none, none => retireCore s h c

/-- Spare `i` is no longer to be had: a position promised to it is promised another, or the core is retired (R87). -/
def promiseAnew (s : State) (h : Half) (c i : Nat) : State :=
  let r := s.rollOf h c
  match r.pend.find? (fun p => p.2 == i) with
  | none => s
  | some p =>
    let r := { r with pend := r.pend.erase p, armed := r.armed.erase p.1 }
    match openSpare r with
    | some j => (appendService s h 1 c j p.1).setRoll h c { r with pend := r.pend ++ [(p.1, j)] }
    | none => retireCore s h c

/-- A `LOADW` of core `c` also writes the blocks of pending positions into the spares promised to them, but not into one that is testing (R70, R86). -/
def armMapping (s : State) (h : Half) (c : Nat) : State :=
  let r := s.rollOf h c
  if r.pend.isEmpty then s
  else s.setRoll h c { r with armed := (r.pend.filter (fun p => r.testSpare != some p.2)).map Prod.fst }

/-- Put the armed mappings of core `c` in force (R86). -/
def mapArmed (s : State) (h : Half) (c : Nat) : State :=
  (s.rollOf h c).armed.foldl (fun (s : State) q =>
    match (s.rollOf h c).pend.find? (fun p => p.1 == q) with
    | some p => mapNow s h c p.2 q
    | none => s) s

/-- A swap point of core `c` (R72): armed mappings come into force (R86); in the shadow phase the test spare takes its position's block (R89), and with it the position, if that is promised to it (R86). -/
def swapPoint (s : State) (h : Half) (c : Nat) : State :=
  let s := mapArmed s h c
  let r := s.rollOf h c
  let pos := s.num (hk8 h 0xA022) c
  match r.testSpare with
  | none => s
  | some i =>
    if r.lbist then s
    else
      let s := s.setRoll h c { r with shadow := true }
      if r.pend.contains (pos, i) then mapTestSpare s h c i pos else s

/-! ### Disagreements (R378, R379) -/

/-- The fabric's key. -/
def fabricKey : Nat := 0xFFFF

/-- Show a unit's state in its dictionary entry (R379); a retired core stays retired (R381). -/
def showUnit (s : State) (h : Half) (c unit : Nat) (suspect : Bool) : State :=
  if coreRetired s h c then s
  else if unit = 0 then s.setNum (hk8 h 0xA030) c (b2n suspect)
  else
    let w := s.num (hk8 h 0xA031) c
    let q := unit - 1
    if bitAt w q = suspect then s
    else s.setNum (hk8 h 0xA031) c (if suspect then w + 2 ^ q else w - 2 ^ q)

/-- Retire a unit of a core. -/
def retireUnit (s : State) (h : Half) (c unit : Nat) : State :=
  if unit = 0 then retireCore s h c else retirePosition (showUnit s h c unit false) h c (unit - 1)

/-- Set the invalid mark of half `h` to time `t` and count the event; the mark goes to the other half as a `DICT` message (R378). -/
def invalidMark (s : State) (h : Half) (t : Time) : State :=
  sendDict ((s.setNum (hk h 0x4B00) 0x0B t.toNat).bump (hk h 0x4B00) 0x0C 1) h (.invalid t)

/-- The new state of a unit after a disagreement in the present safety frame: 1 suspect, 2 retired (R379). -/
def suspectStep (s : State) (h : Half) (key : Nat) : Nat :=
  let f := (s.half h).safety.frameNo
  match Tab.find (s.half h).safety.suspects key with
  | some f0 => if f = f0 then 1 else if f ≤ f0 + 1000 then 2 else 1
  | none => 1

/-- Record the suspicion of a unit, or lift it. -/
def setSuspect (s : State) (h : Half) (key : Nat) (f : Option Nat) : State :=
  s.modHalf h (fun x => { x with safety := { x.safety with
    suspects := match f with
      | some n => Tab.insert x.safety.suspects key n
      | none => Tab.erase x.safety.suspects key } })

/-- A checker (row `row` of *Checkers*) disagrees in unit `unit` of core `c` (R378, R379). -/
def disagree (s : State) (h : Half) (c unit row : Nat) : State :=
  let s := match (s.core h c).ctx with
    | some n =>
      let x := s.ctx h n
      s.setCtx h n { x with flags := { x.flags with mismatch := true } }
    | none => s
  let s := invalidMark s h (s.now h)
  let key := unitKey c unit
  let st := suspectStep s h key
  let s := s.observe h 13 2 c row (linBin st 0) none
  if coreRetired s h c then s
  else if st = 2 then retireUnit (setSuspect s h key none) h c unit
  else
    let known := match Tab.find (s.half h).safety.suspects key with
      | some f0 => decide ((s.half h).safety.frameNo = f0)
      | none => false
    if known then s else showUnit (setSuspect s h key (some (s.half h).safety.frameNo)) h c unit true

/-- A fabric CRC failure (R376, R393): suspect first; while suspect it takes the half out of service. -/
def fabricFail (s : State) (h : Half) : State :=
  let s := invalidMark s h (s.now h)
  let st := suspectStep s h fabricKey
  let s := s.observe h 13 1 0xFF 6 (linBin st 0) none
  match Tab.find (s.half h).safety.suspects fabricKey with
  | some f0 => if (s.half h).safety.frameNo ≤ f0 + 1000 ∧ (s.half h).safety.frameNo ≠ f0 then s.enterSafe h 1
               else if (s.half h).safety.frameNo = f0 then s
               else setSuspect s h fabricKey (some (s.half h).safety.frameNo)
  | none => setSuspect s h fabricKey (some (s.half h).safety.frameNo)

/-- The core number under which `upsets` holds a fabric failure of a transfer that a link asks for. -/
def linkUnit : Nat := 4095

/-- An upset is the failure of a transfer of core `c` (`linkUnit`: of a request from a link). -/
def isFabric (h : Half) (c : Nat) (u : Upset) : Bool := u.half == h && u.core == c && u.spot == .fabric

/-- The next transfer of core `c` fails its CRC-32C (R376). -/
def fabricUpset (s : State) (h : Half) (c : Nat) : Bool := s.upsets.any (isFabric h c)

/-- The failure is found (R376, R379, R393). -/
def takeFabric (s : State) (h : Half) (c : Nat) : State := fabricFail { s with upsets := s.upsets.eraseP (isFabric h c) } h

/-- Suspect units with no disagreement for 1,000 safety frames return to `UNIT_OK` (R379). -/
def ageSuspects (s : State) (h : Half) : State :=
  let f := (s.half h).safety.frameNo
  (s.half h).safety.suspects.foldl (fun (s : State) p =>
    if f > p.2 + 1000 then
      let s := setSuspect s h p.1 none
      if p.1 = fabricKey then s else showUnit s h (p.1 / 128) (p.1 % 128) false
    else s) s

end Sys2Proof.Machine
end

