-- ==== Sys2Proof/Machine/Access.lean ====
section
/-! DEFINITION. Accesses of a core's commands: control-space objects, class checks, memory codes, poison, links and their credits (R29, R100, R103, R225 to R228, R235 to R251, R258, R270, R279 to R292). -/
namespace Sys2Proof.Machine

/-! ### Control space as it reads (R189, R205, R218, R245) -/

/-- A Quay descriptor's bytes (R205). -/
def quayBytes (y : Quay) : List Byte :=
  natLe 24 (2 ^ 8 * y.err + 2 ^ 16 * b2n y.en + 2 ^ 17 * b2n y.irq + 2 ^ 18 * y.vector + 2 ^ 29 * y.cls + 2 ^ 31 * y.context
    + 2 ^ 43 * y.ringLog2 + 2 ^ 48 * y.ctail + 2 ^ 64 * y.head + 2 ^ 80 * y.tail + 2 ^ 96 * y.cring + 2 ^ 144 * y.tring)

/-- A context entry's bytes (R218). -/
def ctxBytes (s : State) (h : Half) (n : Nat) : List Byte :=
  let x := s.ctx h n
  natLe 32 (x.cls + 2 ^ 4 * b2n x.en + 2 ^ 5 * ctxStateCode x.state + 2 ^ 8 * effClass s h n + 2 ^ 32 * x.lastSeq
    + 2 ^ 200 * x.saveMib + 2 ^ 208 * x.saveAddr)

/-- A Manifest entry's bytes (R189). -/
def mentryBytes (m : MEntry) : List Byte :=
  natLe 32 (m.user + 2 ^ 64 * m.step + 2 ^ 96 * m.next + 2 ^ 134 * b2n m.built + 2 ^ 135 * seqStateCode m.state
    + 2 ^ 137 * m.cls + 2 ^ 139 * m.context + 2 ^ 151 * m.model + 2 ^ 157 * m.layer + 2 ^ 163 * m.cand + 2 ^ 168 * m.length
    + 2 ^ 192 * m.head + 2 ^ 224 * m.seg + 2 ^ 240 * m.gen)

/-- A byte of half `h`'s control space; every other offset reads as zero to host software (R245). -/
def ctlByte (s : State) (h : Half) (o : Nat) : Byte :=
  if o < 0x300000 then (quayBytes (s.quay h (o / 24))).getD (o % 24) 0
  else if 0x400000 ≤ o ∧ o < 0x420000 then (ctxBytes s h ((o - 0x400000) / 32)).getD (o % 32) 0
  else if 0x480000 ≤ o ∧ o < 0x4C0000 then (mentryBytes (s.mentry h ((o - 0x480000) / 32))).getD (o % 32) 0
  else 0

/-- Offsets a program may read: the Quay, the context table, the Manifest window (R245). -/
def ctlReadOk (o n : Nat) : Bool :=
  decide (o + n ≤ 0x300000) || (decide (0x400000 ≤ o) && decide (o + n ≤ 0x420000))
  || (decide (0x480000 ≤ o) && decide (o + n ≤ 0x4C0000))

/-- Offsets a program may write: the two ports and the doorbell page (R245). -/
def ctlWriteOk (o n : Nat) : Bool :=
  (decide (0x500000 ≤ o) && decide (o + n ≤ 0x500020)) || (decide (0x501000 ≤ o) && decide (o + n ≤ 0x501010))
  || (decide (0x600000 ≤ o) && decide (o + n ≤ 0x700000))

/-! ### Where an access may go -/

/-- What an access meets before it is sent. -/
inductive Verdict where
  | ok | fault | lost
  deriving DecidableEq, Repr

/-- An access to half `g`'s DRAM or Meres is allowed to class `cls` (R225, R226). -/
def classOk (s : State) (g : Half) (cls a : Nat) : Bool :=
  match s.region a with
  | .dram _ => bitAt (s.num (hk g 0x4300) (1 + (a - dramBase g) / 2 ^ 34)) cls
  | .mere _ _ =>
    let w := (a % 0x800000) / 0x80000
    bitAt (s.num (hk g 0x4300) (5 + cls)) w && !bitAt (s.num (hk g 0x4300) 9) w
  | _ => false

/-- The other half is lost, whether or not it has been judged so yet: it was in service or in planned Nap, and asserts its `FAULT_N` (R29, R394). -/
def peerGone (s : State) (h : Half) : Bool :=
  peerLost s h || (((s.half h).peer == 0 || (s.half h).peer == 2) && (s.half h.other).faultN)

/-- The path to the other half is gone (R29, R285). -/
def ferryLost (s : State) (h : Half) : Bool := (s.half h).ferry.state == .failed || peerGone s h

/-- A working Causeway port whose partner is device `d` (R291). -/
def portReaches (s : State) (h : Half) (p : Nat) (d : Nat) : Bool :=
  linkWorks (s.link h (if p = 0 then .cw0 else .cw1)) && s.num (hk h (0x4610 + p)) 2 == d

/-- The port of half `g` by which device `d` is reached at address `a` (R291). -/
def ownPort (s : State) (g : Half) (d a : Nat) : Option Port :=
  let p0 := portReaches s g 0 d
  let p1 := portReaches s g 1 d
  if p0 && p1 then some (if bitAt a 11 then .cw1 else .cw0)
  else if p0 then some .cw0 else if p1 then some .cw1 else none

/-- The port by which half `h` sends to device `d`: one of its own, else the Ferry to the other half's (R291). -/
def peerRoute (s : State) (h : Half) (d a : Nat) : Option Port :=
  match ownPort s h d a with
  | some p => some p
  | none => if (linkWorks (s.half h).ferry || ferryLost s h) && (ownPort s h.other d a).isSome then some .ferry else none

/-- Offsets of a peer's window that may be reached (R292). -/
def peerOfsOk (o : Nat) (wr : Bool) : Bool :=
  decide (o < 0x2010000000)
  || (wr && (decide (ctlBase .bow + 0x600000 ≤ o) && decide (o < ctlBase .bow + 0x700000)
      || decide (ctlBase .stern + 0x600000 ≤ o) && decide (o < ctlBase .stern + 0x700000)))

/-- An address in half `g`'s program store, which only the loader writes (R445). -/
def inStore (s : State) (g : Half) (a : Nat) : Bool :=
  decide (s.num (hk g 0x4C20) 7 ≤ a) && decide (a < s.num (hk g 0x4C20) 7 + s.num (hk g 0x4C20) 8)

/-- Judge one access of `n` bytes that lies within one line, at address `a`, by a context of class `cls` of half `h`. -/
def accessVerdict (s : State) (h : Half) (cls : Nat) (wr : Bool) (a n : Nat) : Verdict :=
  match s.region a with
  | .dram g => if g = h then (if classOk s h cls a && !(wr && inStore s h a) then .ok else .fault) else if ferryLost s h then .lost else .ok
  | .mere g _ => if g = h then (if classOk s h cls a then .ok else .fault) else if ferryLost s h then .lost else .ok
  | .ctl g =>
    if g = h then (if (if wr then ctlWriteOk (a - ctlBase g) n else ctlReadOk (a - ctlBase g) n) then .ok else .fault)
    else if peerGone s h then .lost else .fault
  | .host => if (s.half h).host.linkUp && (s.half h).host.busMaster then .ok else .fault
  | .peer d =>
    let o := (a - 0x600000000000) % 2 ^ 43
    if d = s.num 0x2600 1 ∨ peerOfsOk o wr = false then .fault
    else
      match peerRoute s h d a with
      | none => .fault
      | some .ferry => if ferryLost s h then .lost else .ok
      | some _ => .ok
  | .pool g _ => if g ≠ h ∧ peerGone s h then .lost else .fault
  | .unmapped => .fault

/-- The parts of `n` bytes from `a` that lie in one line each. -/
def pieces (a n : Nat) : List (Nat × Nat) :=
  (linesOf a n).map (fun l => (max a l, min (a + n) (l + 64) - max a l))

/-- Judge the ranges of a command; the first that is not allowed decides. -/
def rangesVerdict (s : State) (h : Half) (cls : Nat) (wr : Bool) (rs : List (Nat × Nat)) : Verdict :=
  let vs := rs.flatMap (fun r => (pieces r.1 r.2).map (fun p => accessVerdict s h cls wr p.1 p.2))
  (vs.find? (fun v => v != .ok)).getD .ok

/-- Bytes that come over a link: the other half's memory and Causeway peers. -/
def isRemote (s : State) (h : Half) (a : Nat) : Bool :=
  match s.region a with
  | .dram g => g != h
  | .mere g _ => g != h
  | .peer _ => true
  | _ => false

/-- A byte that a command of half `h` reads: what has come over a link, else the place the address names. -/
def cmdByte (s : State) (h : Half) (got : Tab Byte) (a : Nat) : Byte :=
  match got.find a with
  | some b => b
  | none =>
    match s.region a with
    | .host => s.hostByte (busAddr s h a)
    | .ctl g => ctlByte s g (a - ctlBase g)
    | _ => s.byte a

/-! ### Memory codes on the way (R240, R249, R258) -/

/-- Read and merge through the codes what a command of core `c` reads and what it writes in part. -/
def decodeCmd (s : State) (h : Half) (c : Nat) (reads writes : List (Nat × Nat)) : Bool × State :=
  decodeHits s (some (h, c)) 0 (fun x w => meets reads x w || cutsInto writes x w)

/-! ### Requests over a link (R279 to R283) -/

/-- The port a remote address is reached by, and the address its message carries: in the target device's own map over Causeway, as it stands over the Ferry (R280, R291, R292). -/
def routeOf (s : State) (h : Half) (a : Nat) : Port × Nat :=
  match s.region a with
  | .peer d => match peerRoute s h d a with
    | some .ferry => (.ferry, a)
    | some p => (p, (a - 0x600000000000) % 2 ^ 43)
    | none => (.ferry, a)
  | _ => (.ferry, a)

/-- Send a request over a link for core `c`'s command `cid`, and book it as outstanding. -/
def sendRequest (s : State) (h : Half) (c cid n : Nat) (kind : XferKind) (a : Nat) (f : LinkMsg → LinkMsg)
    (mk : MsgKind) (lines : Nat) : State :=
  let r := routeOf s h a
  let tag := (s.half h).nextTag % 32768 * 2 + h.num
  let m := f (blankMsg s h mk c (effClass s h n) tag r.2 lines)
  let s := s.modHalf h (fun y => { y with
    nextTag := y.nextTag + 1
    xfers := y.xfers ++ [⟨tag, r.1, c, cid, n, kind⟩] })
  sendMsg s h r.1 m

/-- Consecutive lines grouped into messages of at most 32 (R280). -/
def groupLines : List Nat → List (Nat × Nat)
  | [] => []
  | l :: t =>
    match groupLines t with
    | (a, k) :: g => if a = l + 64 ∧ k < 32 then (l, k + 1) :: g else (l, 1) :: (a, k) :: g
    | [] => [(l, 1)]

/-- Request the remote lines a command reads (R280, R281). -/
def sendReads (s : State) (h : Half) (c cid n : Nat) (lines : List Nat) : State :=
  (groupLines lines).foldl (fun (s : State) g =>
    sendRequest s h c cid n (.rd g.1 g.2) g.1 id .rdReq g.2) s

/-- The byte mask of a line from `l` for a write of `n` bytes at `a` (R279). -/
def lineMask (a n l : Nat) : Nat :=
  (List.range 64).foldl (fun m i => if a ≤ l + i ∧ l + i < a + n then m + 2 ^ i else m) 0

/-- Write bytes over a link as `WR` messages of at most 32 lines (R280). -/
def sendWrite (s : State) (h : Half) (c cid n a : Nat) (bs : List Byte) : State :=
  let len := bs.length
  (groupLines (linesOf a len)).foldl (fun (s : State) g =>
    let whole := decide (a ≤ g.1) && decide (g.1 + 64 * g.2 ≤ a + len)
    let data := upto (64 * g.2) (fun i => if a ≤ g.1 + i ∧ g.1 + i < a + len then bs.getD (g.1 + i - a) 0 else 0)
    sendRequest s h c cid n .wr g.1 (fun m => { m with
      masked := !whole
      mask := if whole then [] else upto g.2 (fun j => lineMask a len (g.1 + 64 * j))
      data := data }) .wr g.2) s

/-- A command writes bytes to one place: memory of its own half, host memory (discarded while the link is down, R275), or over a link. Control space is written by `ctlWrite`. -/
def cmdWrite (s : State) (h : Half) (c cid n a : Nat) (bs : List Byte) : State :=
  match s.region a with
  | .host => engineWrite s h a bs
  | _ => if isRemote s h a then sendWrite s h c cid n a bs else s.write a bs

/-- A program's write to control space (R191, R208, R209, R230): the two ports take one aligned write of their whole length; `true` when the request is malformed. -/
def ctlWrite (s : State) (h : Half) (n o : Nat) (bs : List Byte) : Bool × State :=
  if o = 0x500000 ∧ bs.length = 32 then manRequest s h (some n) (leNat bs)
  else if o = 0x501000 ∧ bs.length = 16 then abortRequest s h (some n) (leNat bs)
  else if 0x600000 ≤ o then
    let q := (o - 0x600000) / 8
    if o % 8 = 0 ∧ bs.length = 8 then (false, ringDoorbell s h q (leNat bs))
    else (false, noteDiscard s h q 1)
  else (true, s)

/-- The aligned accesses of at most 32 bytes that a mover makes of `n` bytes of control space from offset `o`: each the largest power of two that its offset is a multiple of and that is not past the end (R252; DESIGN CHOICE, log 37). -/
def ctlPieces : Nat → Nat → Nat → List (Nat × Nat)
  | 0, _, _ => []
  | fuel + 1, o, n =>
    match [32, 16, 8, 4, 2, 1].find? (fun k => o % k == 0 && decide (k ≤ n)) with
    | some k => (o, k) :: ctlPieces fuel (o + k) (n - k)
    | none => []

/-- A program's write of a run of bytes to control space, access by access; it stops at a malformed request. -/
def ctlWrites (s : State) (h : Half) (n o : Nat) (bs : List Byte) : Bool × State :=
  (ctlPieces bs.length o bs.length).foldl (fun (r : Bool × State) p =>
    if r.1 then r else ctlWrite r.2 h n p.1 ((bs.drop (p.1 - o)).take p.2)) (false, s)

end Sys2Proof.Machine
end

