-- ==== Sys2Proof/Machine/Special.lean ====
section
/-! DEFINITION. The special functions of the vector engine, bit for bit (R61 to R65). -/
namespace Sys2Proof.Machine

/-- `TX[j]`: 2^(j/64) to FP32 (R61). -/
def tabTX : List Nat :=
  [0x3F800000, 0x3F8164D2, 0x3F82CD87, 0x3F843A29, 0x3F85AAC3, 0x3F871F62, 0x3F88980F, 0x3F8A14D5] ++
  [0x3F8B95C2, 0x3F8D1ADF, 0x3F8EA43A, 0x3F9031DC, 0x3F91C3D3, 0x3F935A2B, 0x3F94F4F0, 0x3F96942D] ++
  [0x3F9837F0, 0x3F99E046, 0x3F9B8D3A, 0x3F9D3EDA, 0x3F9EF532, 0x3FA0B051, 0x3FA27043, 0x3FA43516] ++
  [0x3FA5FED7, 0x3FA7CD94, 0x3FA9A15B, 0x3FAB7A3A, 0x3FAD583F, 0x3FAF3B79, 0x3FB123F6, 0x3FB311C4] ++
  [0x3FB504F3, 0x3FB6FD92, 0x3FB8FBAF, 0x3FBAFF5B, 0x3FBD08A4, 0x3FBF179A, 0x3FC12C4D, 0x3FC346CD] ++
  [0x3FC5672A, 0x3FC78D75, 0x3FC9B9BE, 0x3FCBEC15, 0x3FCE248C, 0x3FD06334, 0x3FD2A81E, 0x3FD4F35B] ++
  [0x3FD744FD, 0x3FD99D16, 0x3FDBFBB8, 0x3FDE60F5, 0x3FE0CCDF, 0x3FE33F89, 0x3FE5B907, 0x3FE8396A] ++
  [0x3FEAC0C7, 0x3FED4F30, 0x3FEFE4BA, 0x3FF28177, 0x3FF5257D, 0x3FF7D0DF, 0x3FFA83B3, 0x3FFD3E0C]

/-- `TL[j]`: log2(1 + j/64) to FP32 (R61). -/
def tabTL : List Nat :=
  [0x00000000, 0x3CB73CB4, 0x3D35D69C, 0x3D8759C5, 0x3DB31FB8, 0x3DDE4212, 0x3E0462C4, 0x3E19574F] ++
  [0x3E2E00D2, 0x3E42615F, 0x3E567AF1, 0x3E6A4F72, 0x3E7DE0B6, 0x3E88983F, 0x3E92203D, 0x3E9B8926] ++
  [0x3EA4D3C2, 0x3EAE00D2, 0x3EB7110E, 0x3EC0052B, 0x3EC8DDD4, 0x3ED19BB0, 0x3EDA3F60, 0x3EE2C97D] ++
  [0x3EEB3A9F, 0x3EF39355, 0x3EFBD42B, 0x3F01FED4, 0x3F060828, 0x3F0A0650, 0x3F0DF989, 0x3F11E20F] ++
  [0x3F15C01A, 0x3F1993E3, 0x3F1D5DA0, 0x3F211D84, 0x3F24D3C2, 0x3F28808C, 0x3F2C2411, 0x3F2FBE80] ++
  [0x3F335004, 0x3F36D8CB, 0x3F3A58FF, 0x3F3DD0C8, 0x3F41404F, 0x3F44A7BA, 0x3F480731, 0x3F4B5ED7] ++
  [0x3F4EAED0, 0x3F51F740, 0x3F553848, 0x3F587209, 0x3F5BA4A4, 0x3F5ED039, 0x3F61F4E5, 0x3F6512C7] ++
  [0x3F6829FB, 0x3F6B3A9F, 0x3F6E44CD, 0x3F7148A1, 0x3F744636, 0x3F773DA4, 0x3F7A2F04, 0x3F7D1A71]

/-- `TR[j]`: 1/(1 + j/64) to FP32 (R61). -/
def tabTR : List Nat :=
  [0x3F800000, 0x3F7C0FC1, 0x3F783E10, 0x3F74898D, 0x3F70F0F1, 0x3F6D7304, 0x3F6A0EA1, 0x3F66C2B4] ++
  [0x3F638E39, 0x3F607038, 0x3F5D67C9, 0x3F5A740E, 0x3F579436, 0x3F54C77B, 0x3F520D21, 0x3F4F6475] ++
  [0x3F4CCCCD, 0x3F4A4588, 0x3F47CE0C, 0x3F4565C8, 0x3F430C31, 0x3F40C0C1, 0x3F3E82FA, 0x3F3C5264] ++
  [0x3F3A2E8C, 0x3F381703, 0x3F360B61, 0x3F340B41, 0x3F321643, 0x3F302C0B, 0x3F2E4C41, 0x3F2C7692] ++
  [0x3F2AAAAB, 0x3F28E83F, 0x3F272F05, 0x3F257EB5, 0x3F23D70A, 0x3F2237C3, 0x3F20A0A1, 0x3F1F1166] ++
  [0x3F1D89D9, 0x3F1C09C1, 0x3F1A90E8, 0x3F191F1A, 0x3F17B426, 0x3F164FDA, 0x3F14F209, 0x3F139A86] ++
  [0x3F124925, 0x3F10FDBC, 0x3F0FB824, 0x3F0E7835, 0x3F0D3DCB, 0x3F0C08C1, 0x3F0AD8F3, 0x3F09AE41] ++
  [0x3F088889, 0x3F0767AB, 0x3F064B8A, 0x3F053408, 0x3F042108, 0x3F03126F, 0x3F020821, 0x3F010204]

/-- `TS[j]`: 1/√q_j to FP32 (R61). -/
def tabTS : List Nat :=
  [0x3F800000, 0x3F7C1764, 0x3F785B42, 0x3F74C867, 0x3F715BEF, 0x3F6E133E, 0x3F6AEBF5, 0x3F67E3ED] ++
  [0x3F64F92E, 0x3F6229ED, 0x3F5F7483, 0x3F5CD76E, 0x3F5A514A, 0x3F57E0CF, 0x3F5584CD, 0x3F533C2E] ++
  [0x3F5105EC, 0x3F4EE116, 0x3F4CCCCD, 0x3F4AC83F, 0x3F48D2AB, 0x3F46EB5A, 0x3F4511A3, 0x3F4344E6] ++
  [0x3F41848F, 0x3F3FD012, 0x3F3E26EB, 0x3F3C889F, 0x3F3AF4BA, 0x3F396ACE, 0x3F37EA74, 0x3F36734A] ++
  [0x3F3504F3, 0x3F32416A, 0x3F2F9D53, 0x3F2D166C, 0x3F2AAAAB, 0x3F285835, 0x3F261D5F, 0x3F23F8A2] ++
  [0x3F21E89B, 0x3F1FEC04, 0x3F1E01B3, 0x3F1C2896, 0x3F1A5FB2, 0x3F18A61F, 0x3F16FB06, 0x3F155DA2] ++
  [0x3F13CD3A, 0x3F124925, 0x3F10D0C3, 0x3F0F6381, 0x3F0E00D5, 0x3F0CA83F, 0x3F0B5948, 0x3F0A137D] ++
  [0x3F08D677, 0x3F07A1D2, 0x3F067532, 0x3F05503E, 0x3F0432A5, 0x3F031C1A, 0x3F020C52, 0x3F01030A]

/-- `TQ[j]`: 1/q_j to FP32 (R61). -/
def tabTQ : List Nat :=
  [0x3F800000, 0x3F783E10, 0x3F70F0F1, 0x3F6A0EA1, 0x3F638E39, 0x3F5D67C9, 0x3F579436, 0x3F520D21] ++
  [0x3F4CCCCD, 0x3F47CE0C, 0x3F430C31, 0x3F3E82FA, 0x3F3A2E8C, 0x3F360B61, 0x3F321643, 0x3F2E4C41] ++
  [0x3F2AAAAB, 0x3F272F05, 0x3F23D70A, 0x3F20A0A1, 0x3F1D89D9, 0x3F1A90E8, 0x3F17B426, 0x3F14F209] ++
  [0x3F124925, 0x3F0FB824, 0x3F0D3DCB, 0x3F0AD8F3, 0x3F088889, 0x3F064B8A, 0x3F042108, 0x3F020821] ++
  [0x3F000000, 0x3EF83E10, 0x3EF0F0F1, 0x3EEA0EA1, 0x3EE38E39, 0x3EDD67C9, 0x3ED79436, 0x3ED20D21] ++
  [0x3ECCCCCD, 0x3EC7CE0C, 0x3EC30C31, 0x3EBE82FA, 0x3EBA2E8C, 0x3EB60B61, 0x3EB21643, 0x3EAE4C41] ++
  [0x3EAAAAAB, 0x3EA72F05, 0x3EA3D70A, 0x3EA0A0A1, 0x3E9D89D9, 0x3E9A90E8, 0x3E97B426, 0x3E94F209] ++
  [0x3E924925, 0x3E8FB824, 0x3E8D3DCB, 0x3E8AD8F3, 0x3E888889, 0x3E864B8A, 0x3E842108, 0x3E820821]
/-- Entry `j` of a table, as FP32. -/
def tab (t : List Nat) (j : Nat) : F32 := BitVec.ofNat 32 (t.getD j 0)

/-- An FP32 constant by its encoding (R62, R64, R65). -/
def k32 (n : Nat) : F32 := BitVec.ofNat 32 n

/-- `y × 2^k` with one rounding (R63). -/
def scale2 (y : F32) (k : Int) : F32 :=
  match f32Dec y with
  | .fin s m e => roundF32 s m (e + k)
  | _ => y

/-- A non-zero magnitude as (24-bit significand of unit 2^-23, exponent): `m` in [1, 2) (R63). -/
def normalise (m : Nat) (e : Int) : Nat × Int := (m <<< (23 - m.log2), e + m.log2)

/-- exp2 of R63. -/
def fexp2 (x : F32) : F32 :=
  match f32Dec x with
  | .nan => f32NaN
  | .inf s => if s then f32Zero false else f32Inf false
  | .fin s m e =>
    let n6 := floorScaled s m (e + 6)
    if n6 ≥ 8192 then f32Inf false
    else if !(fgt x (k32 0xC3170000)) then f32Zero false
    else
      let j := (n6 % 64).toNat
      let k := n6 / 64
      let g := min e (-6)
      let r := roundIntF32 false (signedNat s (m <<< (e - g).toNat) - n6 * ((2 ^ (-6 - g).toNat : Nat) : Int)) g
      let p := fmul (fadd (fmul (fadd (fmul (k32 0x3D635847) r) (k32 0x3E75FDF0)) r) (k32 0x3F317218)) r
      let y := fadd (tab tabTX j) (fmul (tab tabTX j) p)
      scale2 y k

/-- log2 of R63. -/
def flog2 (x : F32) : F32 :=
  match f32Dec x with
  | .nan => f32NaN
  | .inf s => if s then f32NaN else f32Inf false
  | .fin s m e =>
    if m = 0 then f32Inf true
    else if s then f32NaN
    else
      let (mm, ee) := normalise m e
      let j := fld mm 22 17
      let r := roundIntF32 false ((mm : Int) - ((2 ^ 23 + j * 2 ^ 17 : Nat) : Int)) (-23)
      let u := fmul r (tab tabTR j)
      let p := fmul (fadd (fmul (fadd (fmul (fadd (fmul (k32 0xBEB8AA3B) u) (k32 0x3EF6384F)) u)
        (k32 0xBF38AA3B)) u) (k32 0x3FB8AA3B)) u
      fadd (fadd (intToF32 ee) (tab tabTL j)) p

/-- The reciprocal of R63. -/
def frecip (x : F32) : F32 :=
  match f32Dec x with
  | .nan => f32NaN
  | .inf s => f32Zero s
  | .fin s m e =>
    if m = 0 then f32Inf s
    else
      let (mm, ee) := normalise m e
      let j := fld mm 22 17
      let r := roundIntF32 false ((mm : Int) - ((2 ^ 23 + j * 2 ^ 17 : Nat) : Int)) (-23)
      let u := fmul r (tab tabTR j)
      let p := fmul (fsub (fmul (fadd (fmul (fsub (fmul f32One u) f32One) u) f32One) u) f32One) u
      let y := fadd (tab tabTR j) (fmul (tab tabTR j) p)
      let v := scale2 y (-ee)
      if s then fneg v else v

/-- rsqrt of R63. -/
def frsqrt (x : F32) : F32 :=
  match f32Dec x with
  | .nan => f32NaN
  | .inf s => if s then f32NaN else f32Zero false
  | .fin s m e =>
    if m = 0 then f32Inf s
    else if s then f32NaN
    else
      let (mm, ee) := normalise m e
      let odd := ee % 2 ≠ 0
      let ee := if odd then ee - 1 else ee
      let m2 := if odd then 2 * mm else mm
      let f := fld mm 22 18
      let j := if odd then 32 + f else f
      let qj : Nat := if odd then 2 ^ 24 + f * 2 ^ 19 else 2 ^ 23 + f * 2 ^ 18
      let r := roundIntF32 false ((m2 : Int) - (qj : Int)) (-23)
      let u := fmul r (tab tabTQ j)
      let p := fmul (fadd (fmul (fadd (fmul (fadd (fmul (k32 0x3E8C0000) u) (k32 0xBEA00000)) u)
        (k32 0x3EC00000)) u) (k32 0xBF000000)) u
      let y := fadd (tab tabTS j) (fmul (tab tabTS j) p)
      scale2 y (-(ee / 2))

/-- Sine and cosine of an argument in turns (R64). -/
def sincos (t : F32) : F32 × F32 :=
  match f32Dec t with
  | .nan => (f32NaN, f32NaN)
  | .inf _ => (f32NaN, f32NaN)
  | .fin sg m e =>
    let n := rneScaled sg m (e + 2)
    let g := min e (-2)
    let f := roundIntF32 sg (signedNat sg (m <<< (e - g).toNat) - n * ((2 ^ (-2 - g).toNat : Nat) : Int)) g
    let x := fmul f (k32 0x40C90FDB)
    let x2 := fmul x x
    let s := fadd x (fmul x (fmul x2 (fadd (k32 0xBE2AAAAB) (fmul x2 (fadd (k32 0x3C088889)
      (fmul x2 (fadd (k32 0xB9500D01) (fmul x2 (k32 0x3638EF1D)))))))))
    let c := fadd f32One (fmul x2 (fadd (k32 0xBF000000) (fmul x2 (fadd (k32 0x3D2AAAAB) (fmul x2
      (fadd (k32 0xBAB60B61) (fmul x2 (fadd (k32 0x37D00D01) (fmul x2 (k32 0xB493F27E))))))))))
    match (n % 4).toNat with
    | 0 => (s, c)
    | 1 => (c, fneg s)
    | 2 => (fneg s, fneg c)
    | _ => (fneg c, s)

/-- `L2E` of R62. -/
def l2e : F32 := k32 0x3FB8AA3B

/-- exp (R65). -/
def fexp (x : F32) : F32 := fexp2 (fmul x l2e)
/-- The logistic function (R65). -/
def fsigmoid (x : F32) : F32 := frecip (fadd f32One (fexp2 (fneg (fmul x l2e))))
/-- tanh (R65). -/
def ftanh (x : F32) : F32 :=
  let s := fsigmoid (fadd x x)
  fsub (fadd s s) f32One
/-- SiLU (R65). -/
def fsilu (x : F32) : F32 := fmul x (fsigmoid x)
/-- GELU, the tanh form (R65). -/
def fgelu (x : F32) : F32 :=
  let x3 := fmul (fmul x x) x
  let b := fadd x (fmul x3 (k32 0x3D372713))
  let t := ftanh (fmul b (k32 0x3F4C422A))
  fmul (fmul x (fadd f32One t)) (k32 0x3F000000)
/-- Division: multiplication by the reciprocal (R65). -/
def fdiv (x y : F32) : F32 := fmul x (frecip y)
/-- Square root: x × rsqrt(x), with the exact exceptions of R65. -/
def fsqrt (x : F32) : F32 :=
  if isZero x then x
  else if x = f32Inf false then x
  else fmul x (frsqrt x)
/-- exp2((s - m) × L2E): the softmax exponent and rescale of R65. -/
def fsoftexp (s m : F32) : F32 := fexp2 (fmul (fsub s m) l2e)

end Sys2Proof.Machine
end

