-- ==== Sys2Proof/Machine/VecOps.lean ====
section
/-! DEFINITION. The operations of the vector engine on lanes (*VEC operations*, R118, R119). -/
namespace Sys2Proof.Machine

/-- How an operation reads its sources (R118). -/
inductive VecKind where
  | one | two | three | reduce | int2
  deriving DecidableEq, Repr

/-- The kind of an operation code; `none` for a reserved one. -/
def vecKind (op : Nat) : Option VecKind :=
  if op = 0x05 ∨ op = 0x0E then some .three
  else if op = 0x01 ∨ (0x08 ≤ op ∧ op ≤ 0x0C) ∨ (0x10 ≤ op ∧ op ≤ 0x15) ∨ (0x18 ≤ op ∧ op ≤ 0x1C) ∨ op = 0x1E then
    some .one
  else if (0x02 ≤ op ∧ op ≤ 0x04) ∨ op = 0x06 ∨ op = 0x07 ∨ op = 0x0D ∨ op = 0x1D then some .two
  else if 0x20 ≤ op ∧ op ≤ 0x23 then some .reduce
  else if 0x30 ≤ op ∧ op ≤ 0x37 then some .int2
  else none

/-- `x != 0` of `SELECT`; a NaN is not zero. -/
def fnonzero (x : F32) : Bool := !isZero x

/-- One lane of a floating-point operation of one to three sources. -/
def vecLane (op : Nat) (a b c : F32) : F32 :=
  match op with
  | 0x01 => if isNaN a then f32NaN else a
  | 0x02 => fadd a b
  | 0x03 => fsub a b
  | 0x04 => fmul a b
  | 0x05 => fadd (fmul a b) c
  | 0x06 => fmax a b
  | 0x07 => fmin a b
  | 0x08 => fabs a
  | 0x09 => fneg a
  | 0x0A => ffloor a
  | 0x0B => frint a
  | 0x0C => fexpo a
  | 0x0D => if fgt a b then f32One else 0
  | 0x0E => if fnonzero c then (if isNaN a then f32NaN else a) else (if isNaN b then f32NaN else b)
  | 0x10 => fexp2 a
  | 0x11 => flog2 a
  | 0x12 => frecip a
  | 0x13 => frsqrt a
  | 0x14 => (sincos a).1
  | 0x15 => (sincos a).2
  | 0x18 => fexp a
  | 0x19 => fsigmoid a
  | 0x1A => ftanh a
  | 0x1B => fsilu a
  | 0x1C => fgelu a
  | 0x1D => fdiv a b
  | 0x1E => fsqrt a
  | _ => a

/-- One INT32 lane: sums wrap, `IMUL` keeps the low 32 bits, shifts use `s1[4:0]` (R118). -/
def vecInt (op : Nat) (a b : BitVec 32) : BitVec 32 :=
  match op with
  | 0x30 => a + b
  | 0x31 => a - b
  | 0x32 => a * b
  | 0x33 => a <<< (b.toNat % 32)
  | 0x34 => a.sshiftRight (b.toNat % 32)
  | 0x35 => a &&& b
  | 0x36 => a ||| b
  | _ => a ^^^ b

/-- The FP32 sum of elements `l, l+128, ...` in ascending order, starting from the first (R119 step 1). -/
def laneSum (xs : List F32) (l : Nat) : Option F32 :=
  let mine := (upto (xs.length / 128 + 1) (fun k => xs[l + 128 * k]?)).filterMap id
  match mine with
  | [] => none
  | x :: t => some (t.foldl fadd x)

/-- One level of R119 step 2: lane `l < w` becomes lane `l` + lane `l + w`; an absent operand leaves the other. -/
def foldLevel (w : Nat) (lanes : List (Option F32)) : List (Option F32) :=
  upto w (fun l =>
    match lanes.getD l none, lanes.getD (l + w) none with
    | some a, some b => some (fadd a b)
    | some a, none => some a
    | none, r => r)

/-- `RSUM` of one row (R119). A row of one element is that element, a NaN made canonical (R60). -/
def rowSum (xs : List F32) : F32 :=
  let lanes := upto 128 (laneSum xs)
  let out := [64, 32, 16, 8, 4, 2, 1].foldl (fun ls w => foldLevel w ls) lanes
  match out with
  | some a :: _ => if isNaN a then f32NaN else a
  | _ => 0

/-- The result of a reduction over one row (R119). -/
def rowReduce (op : Nat) (xs : List F32) : F32 :=
  match op with
  | 0x20 => rowSum xs
  | 0x21 => match xs with | [] => 0 | x :: t => t.foldl fmax (fmax x x)
  | 0x22 => match xs with | [] => 0 | x :: t => t.foldl fmin (fmin x x)
  | _ => match xs.map fabs with | [] => 0 | x :: t => t.foldl fmax x

/-- Write an FP32 result to a destination: FP32 directly, any other format through R54 with a factor of 1.0 and zero point 0 (R118). -/
def vecOut (dst : Fmt) (ofs : Nat) (x : F32) : Nat × Stat :=
  match dst with
  | .fp32 => (x.toNat, statZero)
  | _ =>
    let r := requant dst ofs 0 (.ordered x) f32One
    (r.code, statOut statZero r false false)

/-- The figures of two commands' outputs together. -/
def statPlus (a b : Stat) : Stat :=
  ⟨max a.amax b.amax, a.sat + b.sat, a.ufl + b.ufl, a.spill + b.spill, a.ovf + b.ovf, a.nonfin + b.nonfin⟩

end Sys2Proof.Machine
end

