-- ==== Sys2Proof/Machine/CmdBase.lean ====
section
/-! DEFINITION. What all core commands share: the common word, slots and tags, units, Pool buffers, arithmetic flags and statistics (R97, R100, R104 to R107, R57, R58). -/
namespace Sys2Proof.Machine

/-- Opcode of a descriptor (R104). -/
def opcodeOf (d : Nat) : Nat := fld d 7 0

/-- Size of a descriptor in bytes (R105). -/
def cmdBytes (d : Nat) : Nat := if opcodeOf d = 4 ∨ opcodeOf d = 8 then 64 else 32

/-- The tag slot `i` names, if valid (R104). -/
def slotTag (d i : Nat) : Option Nat := if bitAt d (8 + i) then some (fld d (21 + 6 * i) (16 + 6 * i)) else none

/-- What R106 asks of a slot. -/
inductive SlotReq where
  | none | pool | poolOpt | tokenOpt | anyOpt
  deriving DecidableEq, Repr

/-- A tag entry names a token (R100). -/
def tagIsToken (tags : List Nat) (t : Nat) : Bool := bitAt (nth tags t) 63

/-- Start of a tag's buffer in the Pool (R100). -/
def tagBase (tags : List Nat) (t : Nat) : Nat := fld (nth tags t) 15 0 * 32

/-- Length of a tag's buffer (R100). -/
def tagLen (tags : List Nat) (t : Nat) : Nat := (fld (nth tags t) 31 16 + 1) * 32

/-- A slot meets its requirement; a clear slot holds zero (R104, R106). -/
def slotOk (tags : List Nat) (d i : Nat) (r : SlotReq) : Bool :=
  match slotTag d i, r with
  | none, .pool => false
  | none, _ => fld d (21 + 6 * i) (16 + 6 * i) == 0
  | some _, .none => false
  | some t, .pool => !tagIsToken tags t
  | some t, .poolOpt => !tagIsToken tags t
  | some t, .tokenOpt => tagIsToken tags t
  | some _, .anyOpt => true

/-- All eight slots meet their requirements. -/
def slotsOk (tags : List Nat) (d : Nat) (rs : List SlotReq) : Bool :=
  (List.range 8).all (fun i => slotOk tags d i (rs.getD i .none))

/-- Roles of an opcode's slots (R106): (read, write) for slots 0 to 7. -/
def slotRoles (op : Nat) : List (Bool × Bool) :=
  let r := (true, false)
  let w := (false, true)
  let rw := (true, true)
  match op with
  | 0x01 => [r, w, w]
  | 0x02 => [r, r, r]
  | 0x03 => [r, w, r, r, rw, r]
  | 0x04 => [r, w, r, r, rw, r, r, r]
  | 0x05 => [r, w, r]
  | 0x06 => [r, w]
  | 0x07 => [r, r, r, w]
  | 0x08 => [r, w, rw, r, r, r, rw, r]
  | 0x0C => [r, r, r, r, r, r, r, r]
  | _ => []

/-- Tags a command reads. -/
def readTags (d : Nat) : List Nat :=
  (List.range 8).filterMap (fun i => if ((slotRoles (opcodeOf d)).getD i (false, false)).1 then slotTag d i else none)

/-- Tags a command writes. -/
def writeTags (d : Nat) : List Nat :=
  (List.range 8).filterMap (fun i => if ((slotRoles (opcodeOf d)).getD i (false, false)).2 then slotTag d i else none)

/-- Every tag a command names. -/
def allTags (d : Nat) : List Nat := (List.range 8).filterMap (slotTag d)

/-- The units of a core (R97). -/
inductive CUnit where
  | seq | su0 | su1 | g | w | q | v | m0 | m1
  deriving DecidableEq, Repr

/-- Units a command occupies (*Units occupied by each command*). -/
def unitsOf (d : Nat) : List CUnit :=
  match opcodeOf d with
  | 0x01 => if bitAt d 70 then [.m1] else [.m0]
  | 0x02 => [.su1, .w]
  | 0x03 => if bitAt d 77 then [.su0, .g, .q] else [.su0, .g]
  | 0x04 => [.su0, .su1, .g, .q]
  | 0x05 => [.su1, .v]
  | 0x06 => [.su1, .v]
  | 0x07 => [.v]
  | 0x08 => [.su0, .su1, .g, .v, .q, .m1]
  | _ => [.seq]

/-- Units an issued command still keeps from later ones: a `STREAM` has driven its row groups and keeps only the requantiser (R76, R97). -/
def heldUnits (d : Nat) : List CUnit :=
  if opcodeOf d = 3 then (if bitAt d 77 then [.q] else []) else unitsOf d

/-- `GATE`, `SEM` and `MOOR` (R107). -/
def isBarrier (d : Nat) : Bool := opcodeOf d == 0x09 || opcodeOf d == 0x0A || opcodeOf d == 0x0B

/-- Commands that issue in program order among themselves (R108). -/
def inGangOrder (d : Nat) : Bool := opcodeOf d == 2 || opcodeOf d == 3 || opcodeOf d == 4 || opcodeOf d == 8

/-- What a command does to memory, as judged before it runs: a fault its descriptor, tags or the state before it decide (R134); a fault found while it executes; the device addresses it reads and writes; the Pool bytes it reads and writes, as addresses in its own Pool window. -/
structure Plan where
  bad : Bool
  exec : Bool
  reads : List (Nat × Nat)
  writes : List (Nat × Nat)
  poolR : List (Nat × Nat)
  poolW : List (Nat × Nat)

/-- A plan that touches nothing. -/
def planNone (bad : Bool) : Plan := ⟨bad, false, [], [], [], []⟩

/-- What a command sees of its core. -/
structure Env where
  h : Half
  c : Nat
  n : Nat
  d : Nat
  cid : Nat
  tags : List Nat
  args : List Nat
  rd : Nat → Byte

/-- The buffer of slot `i`: its address in the Pool window and its length; an absent slot has no bytes. -/
def buf (e : Env) (i : Nat) : Nat × Nat :=
  match slotTag e.d i with
  | some t => (poolBase e.h e.c + tagBase e.tags t, tagLen e.tags t)
  | none => (0, 0)

/-- `n` bytes at offset `o` of slot `i` as an address range. -/
def span (e : Env) (i o n : Nat) : Nat × Nat := ((buf e i).1 + o, n)

/-- `n` bytes at offset `o` lie in slot `i`'s buffer and in the Pool (R111). -/
def inBuf (e : Env) (i o n : Nat) : Bool :=
  n == 0 || (decide (o + n ≤ (buf e i).2) && decide ((buf e i).1 + o + n ≤ poolBase e.h e.c + 0x200000))

/-- The byte at offset `o` of slot `i`. -/
def bufByte (s : State) (e : Env) (i o : Nat) : Byte := s.byte ((buf e i).1 + o)

/-- Little-endian number of `n` bytes at offset `o` of slot `i`. -/
def bufNat (s : State) (e : Env) (i o n : Nat) : Nat := s.readNat ((buf e i).1 + o) n

/-- Write at offset `o` of slot `i`. -/
def bufWrite (s : State) (e : Env) (i o : Nat) (bs : List Byte) : State := s.write ((buf e i).1 + o) bs

/-- Element `k` of a run of format `f` that starts at offset `o` of slot `i` (R37). -/
def bufElem (s : State) (e : Env) (i o : Nat) (f : Fmt) (k : Nat) : Nat := elemAt f (fun b => bufByte s e i (o + b)) k

/-! ### Flags and statistics (R57, R58, R426) -/

/-- Combine the figures of one command's outputs into its ticket (R57, R215). -/
def addFlags (s : State) (h : Half) (n : Nat) (st : Stat) : State :=
  let x := s.ctx h n
  let f := x.flags
  s.setCtx h n { x with flags := { f with
    sat := f.sat || decide (st.sat > 0)
    ufl := f.ufl || decide (st.ufl > 0)
    spill := f.spill || decide (st.spill > 0)
    ovf := f.ovf || decide (st.ovf > 0)
    satTotal := satAdd 20 f.satTotal st.sat
    uflTotal := satAdd 20 f.uflTotal st.ufl } }

/-- Mark the ticket's outputs empty (R136). -/
def markEmpty (s : State) (h : Half) (n : Nat) : State :=
  let x := s.ctx h n
  s.setCtx h n { x with flags := { x.flags with empty := true } }

/-- The statistics record that slot `i` names, if any: it is read and written (R58, R106). -/
def statSpan (e : Env) (i : Nat) : List (Nat × Nat) := if (slotTag e.d i).isSome then [span e i 0 16] else []

/-- ⌊log2⌋ of an FP32 magnitude. -/
def f32Log2 (x : Nat) : Int :=
  match f32Dec (BitVec.ofNat 32 x) with
  | .fin _ m e => (m.log2 : Int) + e
  | _ => 128

/-- ⌊log2⌋ of a target's largest finite value (R426). -/
def fmtLog2Max (f : Fmt) : Int :=
  if fmtIsInt f then ((intMax f).toNat.log2 : Int)
  else match fmtDec f (fmtMaxCode f) with
    | .fin _ m e => (m.log2 : Int) + e
    | _ => 0

/-- Merge figures into the statistics record a slot names, and record the scale (R58, R426). -/
def mergeStat (s : State) (e : Env) (i : Nat) (tgt : Fmt) (st : Stat) : State :=
  match slotTag e.d i with
  | none => s
  | some t =>
    let s := bufWrite s e i 0 (natLe 16 (statMerge (bufNat s e i 0 16) st))
    let prog := match (s.ctx e.h e.n).ticket with
      | some tk => tk.handle
      | none => 0
    let bin := if st.amax = 0 then 0 else linBin (f32Log2 st.amax - fmtLog2Max tgt) (-10)
    s.observe e.h 1 2 e.c (prog % 65536 * 65536 + t) bin (some (st.amax : Int))

end Sys2Proof.Machine
end

