-- ==== Sys2Proof/Machine/Gang.lean ====
section
/-! DEFINITION. The gang: weight blocks, row streams, tiles, the requantiser, windowed streams (R67 to R83, R112 to R115, R135 to R144). -/
namespace Sys2Proof.Machine

/-- Engines of a form (*Gang forms*). -/
def formEngines (f : Nat) : Nat := if f = 0 then 1 else if f = 1 then 8 else 64
/-- Reduction per row group of a form for 8-bit elements (*Gang forms*). -/
def formK (f : Nat) : Nat := if f = 0 then 16 else if f = 1 then 8 else 4
/-- Output columns per engine (*Gang forms*). -/
def formN (f : Nat) : Nat := formK f
/-- Tile rows per engine (*Basin file geometry*). -/
def formRows (f : Nat) : Nat := if f = 0 then 256 else if f = 1 then 64 else 16

/-- Elements one command reduces for an operand pair (R67, R70). -/
def pairK (form : Nat) (a w : Fmt) : Nat := if fmtIs4 a && fmtIs4 w then 2 * formK form else formK form

/-- Reduction rows of a stored block (R70). -/
def blockK (form : Nat) (w : Fmt) : Nat := if fmtIs4 w then 2 * formK form else formK form

/-- Group size of an `MX_GROUP` field (R112). -/
def mxGroup (g : Nat) : Nat := 32 * 2 ^ g

/-- The exponent of an E8M0 scale; `none` for NaN (R36). -/
def e8m0 (x : Nat) : Option Int := if x = 255 then none else some ((x : Int) - 127)

/-- The value of a zero point of an integer format (R49). -/
def zpVal (f : Fmt) (code : Nat) : Int :=
  if fmtIs4 f then (if f == .int4 then sext 4 code else ((code % 16 : Nat) : Int))
  else if f == .int8 then sext 8 code else ((code % 256 : Nat) : Int)

/-- The integer an element code of an integer format holds. -/
def elemInt (f : Fmt) (code : Nat) : Int :=
  if fmtSigned f then sext (fmtBits f) code else ((code % 2 ^ fmtBits f : Nat) : Int)

/-! ### Products and sums -/

/-- One exact-path product on the grid: its term, and whether it met a non-finite input (R39, R40). -/
def exactTerm (fa fw : Fmt) (a w : Nat) (sa sw : Option Int) (lsb : Int) : Term × Bool :=
  match sa, sw with
  | some x, some y =>
    match fvProduct (fmtDec fa a) (fmtDec fw w) with
    | some (neg, m, e) => (alignTerm neg m (e + x + y) lsb, false)
    | none => (⟨0, false, false⟩, true)
  | _, _ => (⟨0, false, false⟩, true)

/-- The zero-point term of one output (R49). -/
def zpTerm (za zw : Int) (colsum rowsum : Int) (k : Nat) (lsb : Int) : Term :=
  let v := -(za * colsum + zw * rowsum - (k : Int) * za * zw)
  alignTerm (decide (v < 0)) v.natAbs 0 lsb

/-- The array tree over four products (R51). -/
def tree4 (p : List F32) : F32 :=
  fadd (fadd (p.getD 0 0) (p.getD 1 0)) (fadd (p.getD 2 0) (p.getD 3 0))

/-- The fixed tree of a chunk (R51): 4, 8 or 16 products. -/
def chunkTree (p : List F32) : F32 :=
  if p.length ≤ 4 then tree4 p
  else if p.length ≤ 8 then fadd (tree4 (p.take 4)) (tree4 (p.drop 4))
  else fadd (fadd (tree4 (p.take 4)) (tree4 ((p.drop 4).take 4)))
    (fadd (tree4 ((p.drop 8).take 4)) (tree4 (p.drop 12)))

/-- Add one row's slice to one output's accumulator. `as`, `ws` are the codes of the slice, `sa` and `sw` the group exponents of its ends. -/
def addExact (acc : Acc) (fa fw : Fmt) (as ws : List Nat) (sa sw : Option Int) (lsb : Int) : Acc :=
  let ts := List.zipWith (fun a w => exactTerm fa fw a w sa sw lsb) as ws
  accAdd acc (ts.map Prod.fst) (ts.any Prod.snd)

/-- A chunk's sum on the ordered path (R51). -/
def chunkSum (fa fw : Fmt) (as ws : List Nat) : F32 :=
  chunkTree (List.zipWith (fun a w => fvProduct32 (fmtDec fa a) (fmtDec fw w)) as ws)

/-- The zero-point term of one output added to its Basin, for integer operands (R49, R50). -/
def addZp (acc : Acc) (fa fw : Fmt) (as ws : List Nat) (za zw lsb : Int) : Acc :=
  if fmtIsGangInt fa && fmtIsGangInt fw then
    accAdd acc [zpTerm za zw (isum (ws.map (elemInt fw))) (isum (as.map (elemInt fa))) as.length lsb] false
  else acc

/-- What the requantiser is given for an accumulator (R44, R54). -/
def accInput (a : Acc) (ordered : Bool) (grid : Int) : AccIn :=
  if ordered then .ordered a.f else .exact a.basin.toInt grid (accOvf a)

/-! ### LOADW (R70, R112) -/

/-- The descriptor of a `LOADW` breaks a rule. -/
def loadwBad (e : Env) : Bool :=
  let d := e.d
  match fmtOf (fld d 68 64) with
  | none => true
  | some w =>
    let mx := fmtIsMx w
    let form := fld d 70 69
    let E := formEngines form
    let K := blockK form w
    let N := formN form
    let rows := if bitAt d 71 then N else K
    let len := runBytes w (if bitAt d 71 then K else N)
    fld d 255 160 != 0 || fld d 79 74 != 0 || form == 3 || fld d 73 72 == 3 || (!mx && fld d 73 72 != 0)
    || !(fmtIsGangInt w || mx || fmtOrdered w || w == .e4m3 || w == .e5m2)
    || !slotsOk e.tags d [.pool, .poolOpt, if mx then .pool else .none]
    || ((slotTag d 1).isSome && !fmtIsGangInt w)
    || (List.range E).any (fun g =>
         !inBuf e 0 ((fld d 95 80 + g * fld d 127 112) * 32 + (rows - 1) * fld d 111 96) len
         || !inBuf e 0 ((fld d 95 80 + g * fld d 127 112) * 32) len)
    || ((slotTag d 1).isSome && !inBuf e 1 (fld d 143 128 * 32) (runBytes w (E * N)))
    || (mx && !inBuf e 2 (fld d 159 144 * 32) (E * N))

/-- The plan of a `LOADW`. -/
def planLoadw (e : Env) : Plan :=
  let d := e.d
  match fmtOf (fld d 68 64) with
  | none => planNone true
  | some w =>
    let form := fld d 70 69
    let E := formEngines form
    let K := blockK form w
    let N := formN form
    let rows := if bitAt d 71 then N else K
    let len := runBytes w (if bitAt d 71 then K else N)
    { planNone (loadwBad e) with
      poolR := (upto E (fun g => upto rows (fun r =>
          span e 0 ((fld d 95 80 + g * fld d 127 112) * 32 + r * fld d 111 96) len))).flatten
        ++ (if (slotTag d 1).isSome then [span e 1 (fld d 143 128 * 32) (runBytes w (E * N))] else [])
        ++ (if fmtIsMx w then [span e 2 (fld d 159 144 * 32) (E * N)] else []) }

/-- The block a `LOADW` reads (R70, R112). -/
def readBlock (s : State) (e : Env) (w : Fmt) : WBlk :=
  let d := e.d
  let form := fld d 70 69
  let E := formEngines form
  let K := blockK form w
  let N := formN form
  let code (g k n : Nat) : Nat :=
    let o := (fld d 95 80 + g * fld d 127 112) * 32
    if bitAt d 71 then bufElem s e 0 (o + n * fld d 111 96) w k else bufElem s e 0 (o + k * fld d 111 96) w n
  { form := form, fmt := w, group := fld d 73 72
    codes := (upto E (fun g => (upto K (fun k => upto N (fun n => code g k n))).flatten)).flatten
    zps := if (slotTag d 1).isSome then upto (E * N) (fun i => zpVal w (bufElem s e 1 (fld d 143 128 * 32) w i)) else []
    mxs := if fmtIsMx w then upto (E * N) (fun i => (bufByte s e 2 (fld d 159 144 * 32 + i)).toNat) else [] }

/-- Carry out a `LOADW`: the next weight register, and the spares mapped to its positions (R70, R72, R86). -/
def runLoadw (s : State) (e : Env) : State :=
  match fmtOf (fld e.d 68 64) with
  | none => s
  | some w =>
    let k := s.core e.h e.c
    let s := s.setCore e.h e.c { k with wNext := some (readBlock s e w), lastLoadw := some e.d }
    armMapping s e.h e.c

/-! ### STREAM (R77, R113, R114) -/

/-- The block a `STREAM` uses: the pending one at its swap point, else the active one (R72). -/
def streamBlock (k : CoreSt) : Option WBlk := k.wNext.or k.wActive

/-- The grid in force (R41, R43). -/
def gridOf (d : Nat) (a w : Fmt) : Int := if bitAt d 80 then sext 10 (fld d 90 81) else defaultGrid a w

/-- The row mask of a `STREAM`: its own when it loads, the tile's when it accumulates (R81, R82); `true` marks an unmasked row. -/
def streamMask (s : State) (e : Env) (k : CoreSt) (rows : Nat) : List Bool :=
  if bitAt e.d 76 then (match k.tile with | some t => t.mask | none => [])
  else if (slotTag e.d 3).isSome then upto rows (fun i => bitAt (bufByte s e 3 (i / 8)).toNat (i % 8))
  else List.replicate rows true

/-- Indices of the unmasked rows. -/
def unmasked (m : List Bool) : List Nat := (List.range m.length).filter (fun i => m.getD i false)

/-- Bytes of the rows a `STREAM` reads and writes lie in their buffers (R111, R113). -/
def streamFits (e : Env) (a : Fmt) (out : Option Fmt) (rows : List Nat) (k n : Nat) : Bool :=
  let d := e.d
  rows.all (fun i => inBuf e 0 (fld d 175 160 * 32 + i * fld d 191 176) (runBytes a k)
    && (match out with
        | some o => inBuf e 1 (fld d 207 192 * 32 + i * fld d 223 208) (runBytes o n)
        | none => true)
    && (!fmtIsMx a || inBuf e 5 (fld d 255 240 * 32 + i) 1))

/-- The group size, in elements, that a tile's total reduction is held against when this `STREAM` ends it: the largest that a `STREAM` of its chain names, 0 when none has MX operands (R36; the chain's sizes may differ, and the largest is a multiple of the others: DESIGN CHOICE, log 37). -/
def tileGroup (d : Nat) (a : Fmt) (k : CoreSt) : Nat :=
  max (if fmtIsMx a then mxGroup (fld d 79 78) else 0)
    (if bitAt d 76 then (match k.tile with
      | some t => t.group
      | none => 0) else 0)

/-- A `STREAM` breaks a rule of its descriptor, its tile or its weights. The number after `CHUNK` = 0xFFFF does not wrap to 0: the 65,537th command of a chain faults (R52; DESIGN CHOICE, log 37). -/
def streamBad (s : State) (e : Env) : Bool :=
  let d := e.d
  let k := s.core e.h e.c
  match fmtOf (fld d 68 64), streamBlock k with
  | some a, some b =>
    let mx := fmtIsMx a
    let req := bitAt d 77
    let acc := bitAt d 76
    let form := fld d 75 74
    let rows := fld d 127 108
    let E := formEngines form
    let N := formN form
    let out := fmtOf (fld d 73 69)
    let K := pairK form a b.fmt
    let red := K + (if acc then (match k.tile with | some t => t.red | none => 0) else 0)
    bitAt d 91 || form == 3 || form != b.form || !pairOk a b.fmt
    || fld d 79 78 == 3 || (mx && fld d 79 78 != b.group) || (!mx && fld d 79 78 != 0)
    || (!bitAt d 80 && fld d 90 81 != 0)
    || (!fmtIsGangInt a && fld d 135 128 != 0)
    || !slotsOk e.tags d [.pool, if req then .pool else .none, if req then .pool else .none, .poolOpt, .poolOpt,
         if mx then .pool else .none]
    || (if req then (match out with | some o => !fmtIsOutput o | none => true)
        else fld d 73 69 != 0 || fld d 143 136 != 0 || fld d 159 144 != 0 || fld d 239 224 != 0 || fld d 207 192 != 0
             || fld d 223 208 != 0)
    || (decide (rows > formRows form) && !(req && !acc))
    || (if acc then (match k.tile with
          | none => true
          | some t => t.form != form || t.rows != rows || t.ordered != fmtOrdered a || fld d 107 92 != t.chunk + 1
              || (!t.ordered && t.grid != gridOf d a b.fmt))
        else fld d 107 92 != 0)
    || (req && tileGroup d a k != 0 && red % tileGroup d a k != 0)
    || (req && !inBuf e 2 (4 * fld d 239 224) (4 * E * N))
    || (req && (slotTag d 4).isSome && !inBuf e 4 0 16)
    || (!acc && (slotTag d 3).isSome && !inBuf e 3 0 ((E * rows + 7) / 8))
    || (!acc && (slotTag d 3).isNone && !streamFits e a (if req then out else none) (List.range (E * rows)) K N)
  | _, _ => true

/-- The plan of a `STREAM`. -/
def planStream (s : State) (e : Env) : Plan :=
  let d := e.d
  let k := s.core e.h e.c
  if streamBad s e then planNone true
  else
    match fmtOf (fld d 68 64), streamBlock k with
    | some a, some b =>
      let form := fld d 75 74
      let E := formEngines form
      let K := pairK form a b.fmt
      let N := formN form
      let rows := unmasked (streamMask s e k (E * fld d 127 108))
      let out := if bitAt d 77 then fmtOf (fld d 73 69) else none
      { planNone false with
        exec := !streamFits e a out rows K N
        poolR := rows.map (fun i => span e 0 (fld d 175 160 * 32 + i * fld d 191 176) (runBytes a K))
          ++ (if fmtIsMx a then rows.map (fun i => span e 5 (fld d 255 240 * 32 + i) 1) else [])
          ++ (if !bitAt d 76 && (slotTag d 3).isSome then [span e 3 0 ((E * fld d 127 108 + 7) / 8)] else [])
          ++ (if out.isSome && !rows.isEmpty then span e 2 (4 * fld d 239 224) (4 * E * N) :: statSpan e 4 else [])
        poolW := match out with
          | some o => rows.map (fun i => span e 1 (fld d 207 192 * 32 + i * fld d 223 208) (runBytes o N))
              ++ (if rows.isEmpty then [] else statSpan e 4)
          | none => [] }
    | _, _ => planNone true

/-- One row of a `STREAM` fed to one output column (R49, R51, R113). -/
def feed (acc : Acc) (first : Bool) (a : Fmt) (b : WBlk) (K N eng n : Nat) (as : List Nat) (sa : Option Int) (za lsb : Int) :
    Acc :=
  let KB := blockK b.form b.fmt
  let ws := upto K (fun k => nth b.codes ((eng * KB + k) * N + n))
  if fmtOrdered a then
    let c := chunkSum a b.fmt as ws
    { acc with f := if first then c else fadd acc.f c }
  else
    let sw : Option Int := if fmtIsMx b.fmt then e8m0 (nth b.mxs (eng * N + n)) else some 0
    let acc := addExact (if first then accZero else acc) a b.fmt as ws sa sw lsb
    addZp acc a b.fmt as ws za (b.zps.getD (eng * N + n) 0) lsb

/-- Rows of every engine in runs of one tile's rows each (R78): run `j` holds each engine's unmasked rows `j * T` to `j * T + T - 1`. -/
def runRows (mask : List Bool) (E rows T : Nat) : List (List Nat) :=
  let per := upto E (fun g => (unmasked ((mask.drop (g * rows)).take rows)).map (fun r => g * rows + r))
  let most := (per.map List.length).foldl max 0
  upto ((most + T - 1) / T) (fun j => per.flatMap (fun l => (l.drop (j * T)).take T))

/-- Carry out a `STREAM` (R72, R77, R78, R83): the swap point, the Basins of its tile, and with `REQ` the runs the requantiser is to write. -/
def runStream (s : State) (e : Env) : State :=
  let d := e.d
  let k0 := s.core e.h e.c
  match fmtOf (fld d 68 64), streamBlock k0 with
  | some a, some b =>
    let s := if k0.wNext.isSome then swapPoint s e.h e.c else s
    let form := fld d 75 74
    let E := formEngines form
    let K := pairK form a b.fmt
    let N := formN form
    let rows := fld d 127 108
    let acc := bitAt d 76
    let mask := streamMask s e k0 (E * rows)
    let lsb := gridOf d a b.fmt
    let za := zpVal a (fld d 135 128)
    let old := match k0.tile with
      | some t => if acc then t.accs else []
      | none => []
    let accs := (upto (E * rows) (fun i =>
      if mask.getD i false then
        let as := upto K (fun j => bufElem s e 0 (fld d 175 160 * 32 + i * fld d 191 176) a j)
        let sa : Option Int := if fmtIsMx a then e8m0 (bufByte s e 5 (fld d 255 240 * 32 + i)).toNat else some 0
        upto N (fun n => feed (old.getD (i * N + n) accZero) (!acc) a b K N (i / rows) n as sa za lsb)
      else upto N (fun n => old.getD (i * N + n) accZero))).flatten
    let red := K + (match k0.tile with | some t => if acc then t.red else 0 | none => 0)
    let tile : Tile := ⟨form, rows, fmtOrdered a, lsb, fld d 107 92, mask, red, tileGroup d a k0, accs⟩
    let k := { s.core e.h e.c with wActive := some b, wNext := none }
    if bitAt d 77 then
      let rs := runRows mask E rows (formRows form)
      s.setCore e.h e.c { k with
        tile := none
        runs := k.runs ++ rs.map (fun r =>
          ⟨e.cid, d, r, r.flatMap (fun i => upto N (fun n => accs.getD (i * N + n) accZero)), lsb, fmtOrdered a⟩)
        inflight := k.inflight.map (fun f => if f.cid = e.cid then { f with runs := rs.length } else f) }
    else s.setCore e.h e.c { k with tile := some tile }
  | _, _ => s

/-- One output through the requantiser, with the figures it raises. -/
def writeOut (tgt : Fmt) (ofs : Nat) (zo : Int) (acc : Acc) (ordered : Bool) (grid : Int) (scale : F32) : Nat × Stat :=
  let r := requant tgt ofs zo (accInput acc ordered grid) scale
  (r.code, statOut statZero r acc.spill acc.nonfin)

/-- The requantiser writes one run (R54, R78, R113): its rows, its figures, and with the last run the statistics record (R58). -/
def runRequant (s : State) (e : Env) (r : Run) (f : Flight) : State :=
  let d := e.d
  match fmtOf (fld d 73 69) with
  | none => s
  | some tgt =>
    let N := formN (fld d 75 74)
    let rows := fld d 127 108
    let zo := sext 16 (fld d 159 144)
    let out := (List.zip (List.range r.rows.length) r.rows).map (fun p =>
      let os := upto N (fun n =>
        let sc := BitVec.ofNat 32 (bufNat s e 2 (4 * (fld d 239 224 + p.2 / rows * N + n)) 4)
        writeOut tgt (fld d 143 136) zo (r.accs.getD (p.1 * N + n) accZero) r.ordered r.grid sc)
      (p.2, os))
    let s := out.foldl (fun (s : State) o =>
      bufWrite s e 1 (fld d 207 192 * 32 + o.1 * fld d 223 208) (packRun tgt (o.2.map Prod.fst))) s
    let st := out.foldl (fun st o => (o.2.map Prod.snd).foldl statPlus st) statZero
    let s := addFlags s e.h e.n st
    let total := statPlus f.stat st
    let s := if f.runs = 1 then mergeStat s e 4 tgt total else s
    let k := s.core e.h e.c
    s.setCore e.h e.c { k with
      runs := k.runs.drop 1
      inflight := k.inflight.map (fun g => if g.cid = e.cid then { g with runs := g.runs - 1, stat := total } else g) }

/-! ### CONV (R115, R135 to R144) -/

/-- Output size along one axis (R135). -/
def outSize (nIn plo phi k d s : Nat) : Int :=
  Int.fdiv ((nIn : Int) + plo + phi - (d : Int) * ((k : Int) - 1) - 1) s + 1

/-- Output width of a `CONV`. -/
def convOw (d : Nat) : Nat := (outSize (fld d 287 272) (fld d 359 352) (fld d 367 360) (fld d 303 296) (fld d 335 328) (fld d 319 312)).toNat
/-- Output height of a `CONV`. -/
def convOh (d : Nat) : Nat := (outSize (fld d 271 256) (fld d 343 336) (fld d 351 344) (fld d 295 288) (fld d 327 320) (fld d 311 304)).toNat

/-- Output lines a `CONV` produces: first, and how many (R136). -/
def convLines (d : Nat) : Nat × Nat :=
  let y0 := fld d 399 384
  let n := fld d 415 400
  (y0, if n = 0 then convOh d - y0 else min n (convOh d - y0))

/-- Output pixels of a `CONV`; none when it is empty (R136). -/
def convPixels (d : Nat) : Nat := (convLines d).2 * convOw d

/-- The first input line the command's buffer begins with (R137). -/
def convY0 (d : Nat) : Int := max ((fld d 399 384 : Int) * fld d 311 304 - fld d 343 336) 0

/-- The input position of an output pixel at a tap (R137). -/
def convPos (d i ky kx : Nat) : Int × Int :=
  let oy := fld d 399 384 + i / convOw d
  let ox := i % convOw d
  ((oy : Int) * fld d 311 304 - fld d 343 336 + (ky : Int) * fld d 327 320,
   (ox : Int) * fld d 319 312 - fld d 359 352 + (kx : Int) * fld d 335 328)

/-- A position lies in the image (R137). -/
def convIn (d : Nat) (p : Int × Int) : Bool :=
  decide (0 ≤ p.1) && decide (p.1 < fld d 271 256) && decide (0 ≤ p.2) && decide (p.2 < fld d 287 272)

/-- Offset of an in-image pixel in `A_TAG` (R137). -/
def convAddr (d : Nat) (p : Int × Int) : Nat :=
  fld d 175 160 * 32 + (p.1 - convY0 d).toNat * fld d 435 416 + p.2.toNat * fld d 191 176

/-- Steps of a `CONV` (R140): taps times slices, or groups of taps. -/
def convSteps (d K : Nat) : Nat :=
  let T := fld d 295 288 * fld d 303 296
  let per := match fld d 75 74 with
    | 0 => fld d 383 368
    | _ => fld d 383 368 / 8
  if fld d 75 74 = 2 then (T + K - 1) / K else T * ((per + K - 1) / K)

/-- Element `k` of step `j` for engine `g`: its tap and channel, `none` past the last (R140). -/
def convElem (d K g j k : Nat) : Option (Nat × Nat) :=
  let T := fld d 295 288 * fld d 303 296
  if fld d 75 74 = 2 then
    (if j * K + k < T then some (j * K + k, g) else none)
  else
    let per := if fld d 75 74 = 0 then fld d 383 368 else fld d 383 368 / 8
    let S := (per + K - 1) / K
    let ch := j % S * K + k
    if ch < per then some (j / S, g * (if fld d 75 74 = 0 then 0 else per) + ch) else none

/-- Block size in bytes (*Weight block size B*): a block of a 4-bit format has its doubled rows whatever the activations are (R70, R141). -/
def convBlock (d N : Nat) (w : Fmt) : Nat :=
  let K := blockK (fld d 75 74) w
  if bitAt d 441 then N * runBytes w K else K * runBytes w N

/-- A `CONV` breaks a rule of its descriptor. -/
def convBad (e : Env) : Bool :=
  let d := e.d
  match fmtOf (fld d 68 64), fmtOf (fld d 440 436), fmtOf (fld d 73 69) with
  | some a, some w, some o =>
    let mx := fmtIsMx a
    let form := fld d 75 74
    let E := formEngines form
    let N := formN form
    let K := pairK form a w
    let cin := fld d 383 368
    let nz (hi lo : Nat) : Bool := fld d hi lo == 0
    bitAt d 91 || fld d 127 108 != 0 || bitAt d 76 || !bitAt d 77 || fld d 107 92 != 0
    || fld d 511 496 != 0 || fld d 447 442 != 0
    || nz 335 328 || nz 327 320 || nz 319 312 || nz 311 304 || nz 303 296 || nz 295 288
    || form == 3 || !pairOk a w || !fmtIsOutput o
    || (form == 1 && cin % 8 != 0) || (form == 2 && cin != 64)
    || fld d 79 78 == 3 || (!mx && fld d 79 78 != 0) || (mx && cin % mxGroup (fld d 79 78) != 0)
    || (!bitAt d 80 && fld d 90 81 != 0)
    || (!fmtIsGangInt a && fld d 135 128 != 0) || ((slotTag d 5).isSome && !fmtIsGangInt w)
    || !slotsOk e.tags d [.pool, .pool, .pool, .pool, .poolOpt, .poolOpt, if mx then .pool else .none,
         if mx then .pool else .none]
    || (decide (convPixels d > 0) &&
        (!inBuf e 2 (4 * fld d 239 224) (4 * E * N)
         || !inBuf e 3 (fld d 463 448 * 32) (convSteps d K * E * convBlock d N w)
         || ((slotTag d 4).isSome && !inBuf e 4 0 16)
         || ((slotTag d 5).isSome && !inBuf e 5 (fld d 479 464 * 32) (runBytes w (E * N)))
         || (mx && !inBuf e 7 (fld d 495 480 * 32) (convSteps d K * E * N))))
  | _, _, _ => true

/-- Offsets in `A_TAG` of the in-image pixels a `CONV` reads (R137, R138), and their scale offsets (R142). -/
def convReads (d : Nat) : List (Int × Int) :=
  ((upto (convPixels d) (fun i => (upto (fld d 295 288) (fun ky => upto (fld d 303 296) (fun kx =>
    convPos d i ky kx))).flatten)).flatten.filter (convIn d)).eraseDups

/-- Offset of the scale of group `g` of a pixel (R142). -/
def convScale (d : Nat) (p : Int × Int) (g : Nat) : Nat :=
  fld d 255 240 * 32 + ((p.1 - convY0 d).toNat * fld d 287 272 + p.2.toNat) * (fld d 383 368 / mxGroup (fld d 79 78)) + g

/-- The plan of a `CONV`. -/
def planConv (e : Env) : Plan :=
  let d := e.d
  if convBad e then planNone true
  else if convPixels d = 0 then planNone false
  else
    match fmtOf (fld d 68 64), fmtOf (fld d 440 436), fmtOf (fld d 73 69) with
    | some a, some w, some o =>
      let form := fld d 75 74
      let E := formEngines form
      let N := formN form
      let K := pairK form a w
      let px := convReads d
      let len := runBytes a (fld d 383 368)
      let groups := fld d 383 368 / mxGroup (fld d 79 78)
      let outs := upto (convPixels d) (fun i => fld d 207 192 * 32 + i * fld d 223 208)
      { planNone (px.any (fun p => !inBuf e 0 (convAddr d p) len)
          || outs.any (fun o' => !inBuf e 1 o' (runBytes o (E * N)))
          || (fmtIsMx a && px.any (fun p => !inBuf e 6 (convScale d p 0) groups))) with
        poolR := px.map (fun p => span e 0 (convAddr d p) len)
          ++ [span e 3 (fld d 463 448 * 32) (convSteps d K * E * convBlock d N w), span e 2 (4 * fld d 239 224) (4 * E * N)]
          ++ (if fmtIsMx a then px.map (fun p => span e 6 (convScale d p 0) groups)
               ++ [span e 7 (fld d 495 480 * 32) (convSteps d K * E * N)] else [])
          ++ (if (slotTag d 5).isSome then [span e 5 (fld d 479 464 * 32) (runBytes w (E * N))] else [])
          ++ statSpan e 4
        poolW := outs.map (fun o' => span e 1 o' (runBytes o (E * N))) ++ statSpan e 4 }
    | _, _, _ => planNone true

/-- The code and group exponent of one input element of a `CONV` (R137, R140, R142). -/
def convInput (s : State) (e : Env) (a : Fmt) (i : Nat) (el : Option (Nat × Nat)) : Nat × Option Int :=
  let d := e.d
  let pad : Nat × Option Int := (if fmtIsGangInt a then fld d 135 128 % 2 ^ fmtBits a else 0, some 0)
  match el with
  | none => pad
  | some (tap, ch) =>
    let p := convPos d i (tap / fld d 303 296) (tap % fld d 303 296)
    if convIn d p then
      (bufElem s e 0 (convAddr d p) a ch,
       if fmtIsMx a then e8m0 (bufByte s e 6 (convScale d p (ch / mxGroup (fld d 79 78)))).toNat else some 0)
    else pad

/-- A weight of step `j`, engine `g`: one of the first rows of its block where the pair uses half of it (R70, R141). -/
def convWeight (s : State) (e : Env) (w : Fmt) (N E j g k n : Nat) : Nat :=
  let d := e.d
  let K := blockK (fld d 75 74) w
  let o := fld d 463 448 * 32 + (j * E + g) * convBlock d N w
  if bitAt d 441 then bufElem s e 3 (o + n * runBytes w K) w k else bufElem s e 3 (o + k * runBytes w N) w n

/-- One output of a `CONV`: the whole reduction in step order, then the zero-point term (R46, R49, R51, R140). -/
def convOut (s : State) (e : Env) (a w : Fmt) (K N E i g n : Nat) (lsb : Int) : Acc :=
  let d := e.d
  let steps := upto (convSteps d K) (fun j =>
    (j, upto K (fun k => convInput s e a i (convElem d K g j k)), upto K (fun k => convWeight s e w N E j g k n)))
  if fmtOrdered a then
    let sums := steps.map (fun t => chunkSum a w (t.2.1.map Prod.fst) t.2.2)
    match sums with
    | [] => accZero
    | c :: t => { accZero with f := t.foldl fadd c }
  else
    let acc := steps.foldl (fun acc t =>
      let sw : Option Int := if fmtIsMx w then e8m0 (bufByte s e 7 (fld d 495 480 * 32 + (t.1 * E + g) * N + n)).toNat
        else some 0
      let ts := List.zipWith (fun x y => exactTerm a w x.1 y x.2 sw lsb) t.2.1 t.2.2
      accAdd acc (ts.map Prod.fst) (ts.any Prod.snd)) accZero
    let as := steps.flatMap (fun t => t.2.1.map Prod.fst)
    let ws := steps.flatMap (fun t => t.2.2)
    let zw := if (slotTag d 5).isSome then zpVal w (bufElem s e 5 (fld d 479 464 * 32) w (g * N + n)) else 0
    addZp acc a w as ws (zpVal a (fld d 135 128)) zw lsb

/-- The gang's registers after a command that uses it for tiles of its own: no active block, no open tile (R77, R108). -/
def gangClear (s : State) (h : Half) (c : Nat) : State :=
  let k := s.core h c
  s.setCore h c { k with wActive := none, wNext := none, tile := none }

/-- Carry out a `CONV` (R139 to R143). An empty one reads and writes nothing (R136). -/
def runConv (s : State) (e : Env) : State :=
  let d := e.d
  if convPixels d = 0 then markEmpty (gangClear s e.h e.c) e.h e.n
  else
    match fmtOf (fld d 68 64), fmtOf (fld d 440 436), fmtOf (fld d 73 69) with
    | some a, some w, some o =>
      let form := fld d 75 74
      let E := formEngines form
      let N := formN form
      let K := pairK form a w
      let lsb := gridOf d a w
      let out := upto (convPixels d) (fun i => (upto E (fun g => upto N (fun n =>
        let sc := BitVec.ofNat 32 (bufNat s e 2 (4 * (fld d 239 224 + g * N + n)) 4)
        writeOut o (fld d 143 136) (sext 16 (fld d 159 144)) (convOut s e a w K N E i g n lsb) (fmtOrdered a) lsb sc))).flatten)
      let s := (List.zip (List.range out.length) out).foldl (fun (s : State) p =>
        bufWrite s e 1 (fld d 207 192 * 32 + p.1 * fld d 223 208) (packRun o (p.2.map Prod.fst))) s
      let st := out.foldl (fun st p => (p.map Prod.snd).foldl statPlus st) statZero
      let s := addFlags s e.h e.n st
      gangClear (mergeStat s e 4 o st) e.h e.c
    | _, _, _ => s

end Sys2Proof.Machine
end

