-- ==== Sys2Proof/Machine/Images.lean ====
section
/-! DEFINITION. Movers, crop-and-resize and pooling (R111, R145 to R154). -/
namespace Sys2Proof.Machine

/-! ### MOVE (R111, R145 to R147) -/

/-- `MODE` (R111). -/
def moveMode (d : Nat) : Nat := fld d 67 64

/-- Regroup factor of a mode: 0 for `COPY` and `FILL`. -/
def regroupF (m : Nat) : Nat := if m = 1 ∨ m = 3 then 2 else if m = 2 ∨ m = 4 then 4 else 0

/-- Element size of a regroup (R145). -/
def elSize (d : Nat) : Nat := 2 ^ fld d 69 68

/-- Start of the source: Pool window, or device address with its argument (R111). -/
def moveSrc (e : Env) : Nat :=
  let d := e.d
  if bitAt d 71 then (buf e 0).1 + fld d 207 160
  else (fld d 207 160 + (if bitAt d 73 then nth e.args (fld d 80 75) else 0)) % 2 ^ 48

/-- Start of the destination (R111). -/
def moveDst (e : Env) : Nat :=
  let d := e.d
  if bitAt d 72 then (buf e 1).1 + fld d 255 208
  else (fld d 255 208 + (if bitAt d 74 then nth e.args (fld d 86 81) else 0)) % 2 ^ 48

/-- The fill value (R111). -/
def fillValue (e : Env) : Nat :=
  (fld e.d 191 160 + (if bitAt e.d 73 then nth e.args (fld e.d 80 75) else 0)) % 2 ^ 32

/-- An address reached from a start: modulo 2^48 outside the Pool (R111). -/
def reach (pool : Bool) (a o : Nat) : Nat := if pool then a + o else (a + o) % 2 ^ 48

/-- Offsets of the source units of a regroup with the offsets they go to (R145, R146). -/
def regroupPairs (d : Nat) : List (Nat × Nat) :=
  let f := regroupF (moveMode d)
  let el := elSize d
  let w := fld d 103 88 / el
  (upto (fld d 119 104) (fun y => upto w (fun x =>
    let src := y * fld d 139 120 + x * el
    let dst :=
      if moveMode d ≤ 2 then
        (y / f) * fld d 159 140 + ((x / f) * f * f + (y % f) * f + x % f) * el
      else
        let px := x / (f * f)
        let ch := x % (f * f)
        (y * f + ch / f) * fld d 159 140 + (px * f + ch % f) * el
    (src, dst)))).flatten

/-- What one `MOVE` copies: source range (empty length 0 for a fill), destination start and length, in order. -/
def moveRows (e : Env) : List (Nat × Nat × Nat) :=
  let d := e.d
  let src := moveSrc e
  let dst := moveDst e
  if fld d 119 104 = 0 ∨ fld d 103 88 = 0 then []
  else if regroupF (moveMode d) = 0 then
    upto (fld d 119 104) (fun r =>
      (reach (bitAt d 71) src (r * fld d 139 120), reach (bitAt d 72) dst (r * fld d 159 140), fld d 103 88))
  else
    (regroupPairs d).map (fun p => (reach (bitAt d 71) src p.1, reach (bitAt d 72) dst p.2, elSize d))

/-- First and last byte offsets of a span. -/
def spanOf (rs : List (Nat × Nat)) : Nat × Nat :=
  match rs with
  | [] => (1, 0)
  | r :: t => t.foldl (fun m x => (min m.1 x.1, max m.2 (x.1 + x.2 - 1))) (r.1, r.1 + r.2 - 1)

/-- A `MOVE` breaks a rule of its descriptor. -/
def moveBad (e : Env) : Bool :=
  let d := e.d
  let m := moveMode d
  let f := regroupF m
  let fill := m == 5
  let rows := moveRows e
  bitAt d 87 || decide (m > 5)
  || (bitAt d 74 && bitAt d 72) || (bitAt d 73 && bitAt d 71)
  || (fill && (fld d 207 192 != 0 || fld d 139 120 != 0 || bitAt d 71))
  || !slotsOk e.tags d [if bitAt d 71 then .pool else .none, if bitAt d 72 then .pool else .none, .tokenOpt]
  || (f != 0 && (fld d 69 68 == 3
       || (if m ≤ 2 then fld d 119 104 % f != 0 || fld d 103 88 % (f * elSize d) != 0
           else fld d 103 88 % (f * f * elSize d) != 0)))
  || (f != 0 && fld d 69 68 != 3 && !rows.isEmpty &&
       (let a := spanOf (rows.map (fun r => (r.1, r.2.2)))
        let b := spanOf (rows.map (fun r => (r.2.1, r.2.2)))
        decide (a.1 ≤ b.2) && decide (b.1 ≤ a.2)))
  || (bitAt d 71 && !fill && rows.any (fun r => !inBuf e 0 (r.1 - (buf e 0).1) r.2.2))
  || (bitAt d 72 && rows.any (fun r => !inBuf e 1 (r.2.1 - (buf e 1).1) r.2.2))

/-- The plan of a `MOVE`. -/
def planMove (e : Env) : Plan :=
  let d := e.d
  if moveBad e then planNone true
  else
    let rows := moveRows e
    let srcs := if moveMode d = 5 then [] else rows.map (fun r => (r.1, r.2.2))
    let dsts := rows.map (fun r => (r.2.1, r.2.2))
    { planNone false with
      reads := if bitAt d 71 then [] else srcs
      poolR := if bitAt d 71 then srcs else []
      writes := if bitAt d 72 then [] else dsts
      poolW := if bitAt d 72 then dsts else [] }

/-- The bytes of one row: fill bytes, or the source copied from its lowest byte upward, so that a destination just above its source repeats it (R111). -/
def moveBytes (s : State) (e : Env) (r : Nat × Nat × Nat) : List Byte :=
  if moveMode e.d = 5 then upto r.2.2 (fun i => BitVec.ofNat 8 (fillValue e / 2 ^ (8 * (i % 4))))
  else
    let src := r.1
    let dst := r.2.1
    let delta := if src < dst ∧ dst < src + r.2.2 then dst - src else r.2.2
    upto r.2.2 (fun i =>
      let a := src + i % delta
      if bitAt e.d 71 then s.byte a else e.rd (a % 2 ^ 48))

/-- Write one row; a request at a port may be malformed (`true`). -/
def moveRow (s : State) (e : Env) (r : Nat × Nat × Nat) : Bool × State :=
  let bs := moveBytes s e r
  if bitAt e.d 72 then (false, s.write r.2.1 bs)
  else
    match s.region r.2.1 with
    | .ctl g => ctlWrites s g e.n (r.2.1 - ctlBase g) bs
    | _ => (false, cmdWrite s e.h e.c e.cid e.n r.2.1 bs)

/-- Bytes that have come over a link, as a row written over a link leaves them for later rows (R111). -/
def moveGot (s : State) (e : Env) (got : Tab Byte) (r : Nat × Nat × Nat) : Tab Byte :=
  if bitAt e.d 72 || !isRemote s e.h r.2.1 then got
  else
    let bs := moveBytes s e r
    (List.zip (List.range bs.length) bs).foldl (fun t p => Tab.insert t (r.2.1 + p.1) p.2) got

/-- Carry out a `MOVE` row by row, reading bytes as the earlier rows left them; stops at a malformed request. -/
def runMove (s : State) (e : Env) (got : Tab Byte) : Bool × State :=
  let o := (moveRows e).foldl (fun (r : (Bool × State) × Tab Byte) row =>
    if r.1.1 then r
    else
      let e := { e with rd := cmdByte r.1.2 e.h r.2 }
      (moveRow r.1.2 e row, moveGot r.1.2 e r.2 row)) ((false, s), got)
  o.1

/-! ### CROP (R116, R148 to R151) -/

/-- The box list's address. -/
def cropList (e : Env) : Nat := (nth e.args (fld e.d 81 76) + fld e.d 252 236 * 64) % 2 ^ 48

/-- Formats `CROP` samples (R150). -/
def cropFmtOk (f : Fmt) : Bool := f == .int8 || f == .uint8 || f == .int16 || f == .bf16 || f == .fp16 || f == .fp32

/-- A box record's number (R148). -/
def cropBox (e : Env) (b : Nat) : Nat := leNat (upto 16 (fun i => e.rd (cropList e + 16 * b + i)))

/-- Position of a sample on one axis (R149): edges `lo` and `hi`, index `i` of `n`. -/
def cropPos (lo hi : Int) (i n : Nat) : Int := lo + Int.fdiv ((hi - lo) * (2 * (i : Int) + 1)) (2 * (n : Int))

/-- The two clamped neighbours of a position and its fraction (R149). -/
def cropNb (p : Int) (size : Nat) : Nat × Nat × Nat :=
  let i := Int.fdiv p 4096
  ((clampI 0 ((size : Int) - 1) i).toNat, (clampI 0 ((size : Int) - 1) (i + 1)).toNat, (Int.fmod p 4096).toNat)

/-- Offset of a source pixel from the source base (R151). -/
def cropOfs (d y x : Nat) : Nat := y * fld d 195 176 + x * fld d 175 160

/-- The source base: a device address, or an address in the Pool window (*CROP fields*). -/
def cropSrc (e : Env) : Nat :=
  if bitAt e.d 69 then (buf e 0).1 + fld e.d 235 212 * 32
  else (nth e.args (fld e.d 75 70) + fld e.d 235 212 * 32) % 2 ^ 48

/-- Samples of a `CROP`: (row, column) neighbours of every output, box by box. -/
def cropSamples (e : Env) : List ((Nat × Nat × Nat) × (Nat × Nat × Nat)) :=
  let d := e.d
  let W := fld d 110 103
  let H := fld d 102 95
  (upto (fld d 94 82) (fun b =>
    let r := cropBox e b
    let y0 := sext 32 (fld r 31 0)
    let x0 := sext 32 (fld r 63 32)
    let y1 := sext 32 (fld r 95 64)
    let x1 := sext 32 (fld r 127 96)
    (upto H (fun i => upto W (fun j =>
      (cropNb (cropPos y0 y1 i H) (fld d 143 128), cropNb (cropPos x0 x1 j W) (fld d 159 144))))).flatten)).flatten

/-- A `CROP` breaks a rule of its descriptor. -/
def cropBad (e : Env) : Bool :=
  let d := e.d
  match fmtOf (fld d 68 64) with
  | none => true
  | some f =>
    fld d 255 253 != 0 || bitAt d 127 || decide (fld d 94 82 > 4096) || fld d 110 103 == 0 || fld d 102 95 == 0
    || fld d 159 144 == 0 || fld d 143 128 == 0 || !cropFmtOk f
    || (bitAt d 69 && fld d 75 70 != 0)
    || !slotsOk e.tags d [if bitAt d 69 then .pool else .none, .pool, .tokenOpt]
    || !inBuf e 1 (fld d 211 196 * 32) (fld d 94 82 * fld d 102 95 * fld d 110 103 * fld d 126 111 * (fmtBits f / 8))

/-- Source pixels a `CROP` reads. -/
def cropPixels (e : Env) : List Nat :=
  ((cropSamples e).flatMap (fun p =>
    [cropOfs e.d p.1.1 p.2.1, cropOfs e.d p.1.1 p.2.2.1, cropOfs e.d p.1.2.1 p.2.1, cropOfs e.d p.1.2.1 p.2.2.1])).eraseDups

/-- The box list lies in a Mere (*CROP fields*). -/
def cropListOk (s : State) (e : Env) : Bool :=
  (linesOf (cropList e) (16 * fld e.d 94 82)).all (fun l => match s.region l with
    | .mere _ _ => true
    | _ => false)

/-- The plan of a `CROP`; its source addresses follow from the boxes, once these have come. -/
def planCrop (s : State) (e : Env) (boxes : Bool) : Plan :=
  let d := e.d
  if cropBad e then planNone true
  else if fld d 94 82 = 0 then planNone false
  else
    match fmtOf (fld d 68 64) with
    | none => planNone true
    | some f =>
      let len := fld d 126 111 * (fmtBits f / 8)
      let list := (cropList e, 16 * fld d 94 82)
      let px := if boxes then (cropPixels e).map (fun o => (reach (bitAt d 69) (cropSrc e) o, len)) else []
      { planNone false with
        exec := !cropListOk s e || (bitAt d 69 && px.any (fun p => !inBuf e 0 (p.1 - (buf e 0).1) len))
        reads := if bitAt d 69 then [list] else list :: px
        poolR := if bitAt d 69 then px else []
        poolW := [span e 1 (fld d 211 196 * 32)
          (fld d 94 82 * fld d 102 95 * fld d 110 103 * len)] }

/-- One interpolated channel (R150): integer formats exactly, floating ones in R60 operations. -/
def cropMix (f : Fmt) (fy fx : Nat) (p : List Nat) : Nat × Stat :=
  let c (i : Nat) : Nat := nth p i
  let gy := 4096 - fy
  let gx := 4096 - fx
  if fmtIsInt f then
    let v (i : Nat) : Int := elemInt f (c i)
    let t := (gy : Int) * ((gx : Int) * v 0 + (fx : Int) * v 1) + (fy : Int) * ((gx : Int) * v 2 + (fx : Int) * v 3)
    (twos (fmtBits f) (Int.fdiv (t + 2 ^ 23) (2 ^ 24)), statZero)
  else
    let v (i : Nat) : F32 := fvToF32 (fmtDec f (c i))
    let w (n : Nat) : F32 := roundF32 false n (-12)
    let top := fadd (fmul (v 0) (w gx)) (fmul (v 1) (w fx))
    let bot := fadd (fmul (v 2) (w gx)) (fmul (v 3) (w fx))
    vecOut f 0x80 (fadd (fmul top (w gy)) (fmul bot (w fy)))

/-- Carry out a `CROP` (R149 to R151). -/
def runCrop (s : State) (e : Env) : State :=
  let d := e.d
  match fmtOf (fld d 68 64) with
  | none => s
  | some f =>
    let C := fld d 126 111
    let byte (a : Nat) : Byte := if bitAt d 69 then s.byte a else e.rd a
    let el (y x c : Nat) : Nat := elemAt f (fun b => byte (reach (bitAt d 69) (cropSrc e) (cropOfs d y x + b))) c
    let out := (cropSamples e).flatMap (fun p => upto C (fun c =>
      cropMix f p.1.2.2 p.2.2.2 [el p.1.1 p.2.1 c, el p.1.1 p.2.2.1 c, el p.1.2.1 p.2.1 c, el p.1.2.1 p.2.2.1 c]))
    let s := bufWrite s e 1 (fld d 211 196 * 32) (packRun f (out.map Prod.fst))
    addFlags s e.h e.n ((out.map Prod.snd).foldl statPlus statZero)

/-! ### POOL (R117, R152 to R154) -/

/-- Output size of a `POOL`: width, height (R135). -/
def poolSize (d : Nat) : Nat × Nat :=
  ((outSize (fld d 159 144) (fld d 103 100) (fld d 107 104) (fld d 83 80) 1 (fld d 91 88)).toNat,
   (outSize (fld d 143 128) (fld d 95 92) (fld d 99 96) (fld d 79 76) 1 (fld d 87 84)).toNat)

/-- Formats `POOL` reads (R152). -/
def poolFmtOk (f : Fmt) : Bool := cropFmtOk f || f == .int32

/-- In-image positions of a window in raster order (R137, R153). -/
def poolWindow (d oy ox : Nat) : List (Nat × Nat) :=
  let all : List (Int × Int) := (upto (fld d 79 76) (fun ky => upto (fld d 83 80) (fun kx =>
    ((oy : Int) * fld d 87 84 - fld d 95 92 + ky, (ox : Int) * fld d 91 88 - fld d 103 100 + kx)))).flatten
  all.filterMap (fun (p : Int × Int) =>
    if 0 ≤ p.1 ∧ p.1 < fld d 143 128 ∧ 0 ≤ p.2 ∧ p.2 < fld d 159 144 then some (p.1.toNat, p.2.toNat) else none)

/-- Offset of an input pixel (R152). -/
def poolOfs (d : Nat) (p : Nat × Nat) : Nat := fld d 227 212 * 32 + p.1 * fld d 211 192 + p.2 * fld d 191 176

/-- Output pixels of a `POOL` with their windows. -/
def poolWindows (d : Nat) : List (List (Nat × Nat)) :=
  (upto (poolSize d).2 (fun oy => upto (poolSize d).1 (fun ox => poolWindow d oy ox))).flatten

/-- A `POOL` breaks a rule of its descriptor. -/
def poolBad (e : Env) : Bool :=
  let d := e.d
  match fmtOf (fld d 68 64), fmtOf (fld d 73 69) with
  | some f, some o =>
    fld d 255 244 != 0 || fld d 127 124 != 0 || fld d 91 88 == 0 || fld d 87 84 == 0 || fld d 83 80 == 0 || fld d 79 76 == 0
    || !poolFmtOk f || (if fmtIsInt f then o != f else fmtIsInt o || !fmtIsOutput o)
    || (!fmtIsInt f && fld d 123 116 != 0)
    || !slotsOk e.tags d [.pool, .pool]
    || (poolWindows d).any (fun w => w.any (fun p => !inBuf e 0 (poolOfs d p) (fld d 175 160 * (fmtBits f / 8))))
    || !inBuf e 1 (fld d 243 228 * 32) (runBytes o ((poolWindows d).length * fld d 175 160))
  | _, _ => true

/-- The plan of a `POOL`. -/
def planPool (e : Env) : Plan :=
  let d := e.d
  if poolBad e then planNone true
  else
    match fmtOf (fld d 68 64), fmtOf (fld d 73 69) with
    | some f, some o =>
      { planNone false with
        poolR := ((poolWindows d).flatten.eraseDups).map (fun p => span e 0 (poolOfs d p) (fld d 175 160 * (fmtBits f / 8)))
        poolW := if (poolWindows d).isEmpty then [] else
          [span e 1 (fld d 243 228 * 32) (runBytes o ((poolWindows d).length * fld d 175 160))] }
    | _, _ => planNone true

/-- The input zero point of a `POOL`: the field in the input's own signedness. -/
def poolZp (f : Fmt) (d : Nat) : Int := if fmtSigned f then sext 8 (fld d 123 116) else ((fld d 123 116 : Nat) : Int)

/-- The average of integers (R154). -/
def avgInt (f : Fmt) (zp : Int) (ofs n : Nat) (vs : List Int) : Int :=
  let s := isum (vs.map (fun v => v - zp))
  let q := (s.natAbs * 256 + ofs * n) / (256 * n)
  clampI (intMin f) (intMax f) ((if s < 0 then -(q : Int) else (q : Int)) + zp)

/-- One pooled channel (R153, R154). -/
def poolOut (d : Nat) (f o : Fmt) (codes : List Nat) : Nat × Stat :=
  let n := if bitAt d 75 then fld d 79 76 * fld d 83 80 else codes.length
  if fmtIsInt f then
    let zp := poolZp f d
    let vs := codes.map (elemInt f)
    let v :=
      if bitAt d 74 then (if n = 0 then zp else avgInt f zp (fld d 115 108) n vs)
      else match vs with
        | [] => zp
        | x :: t => t.foldl max x
    (twos (fmtBits f) v, statZero)
  else
    let vs := codes.map (fun c => fvToF32 (fmtDec f c))
    match vs with
    | [] => if bitAt d 74 ∧ n ≠ 0 then vecOut o (fld d 115 108) (fdiv 0 (intToF32 n)) else (0, statZero)
    | x :: t =>
      if bitAt d 74 then vecOut o (fld d 115 108) (fdiv (t.foldl fadd x) (intToF32 n))
      else vecOut o (fld d 115 108) (t.foldl fmax (fmax x x))

/-- Carry out a `POOL` (R152 to R154); an empty one only marks its ticket (R136). -/
def runPool (s : State) (e : Env) : State :=
  let d := e.d
  match fmtOf (fld d 68 64), fmtOf (fld d 73 69) with
  | some f, some o =>
    let ws := poolWindows d
    if ws.isEmpty then markEmpty s e.h e.n
    else
      let out := ws.flatMap (fun w => upto (fld d 175 160) (fun c =>
        poolOut d f o (w.map (fun p => bufElem s e 0 (poolOfs d p) f c))))
      let s := bufWrite s e 1 (fld d 243 228 * 32) (packRun o (out.map Prod.fst))
      addFlags s e.h e.n ((out.map Prod.snd).foldl statPlus statZero)
  | _, _ => s

end Sys2Proof.Machine
end

