-- ==== Sys2Proof/Machine/Attn.lean ====
section
/-! DEFINITION. Fused attention (R120, R158 to R181). -/
namespace Sys2Proof.Machine

/-- `MODE`: 0 dense, 1 paged, 2 latent (R158). -/
def atMode (d : Nat) : Nat := fld d 65 64
/-- `Q_ROWS`. -/
def atRows (d : Nat) : Nat := fld d 70 66
/-- D_qk (R158). -/
def atDqk (d : Nat) : Nat := 16 * fld d 106 101
/-- D_v (R158). -/
def atDv (d : Nat) : Nat := 16 * fld d 112 107
/-- D_r (R158). -/
def atDr (d : Nat) : Nat := 16 * fld d 118 113
/-- L (R158). -/
def atL (d : Nat) : Nat := 16 * fld d 125 119
/-- `V_ALIAS`. -/
def atAlias (d : Nat) : Bool := bitAt d 181
/-- Keys per block (R160). -/
def atBlock (d : Nat) : Nat := 64 * (fld d 135 134 + 1)

/-- The formats one `ATTN` names: query and key, value, probability, output, latent, up-projection. -/
structure AtFmt where
  qk : Fmt
  v : Fmt
  p : Fmt
  out : Fmt
  lat : Fmt
  wup : Fmt

/-- The formats, if no code is reserved. -/
def atFmts (d : Nat) : Option AtFmt :=
  match fmtOf (fld d 75 71), fmtOf (fld d 80 76), fmtOf (fld d 85 81), fmtOf (fld d 90 86), fmtOf (fld d 95 91),
    fmtOf (fld d 100 96) with
  | some a, some b, some c, some e, some f, some g => some ⟨a, b, c, e, f, g⟩
  | _, _, _, _, _, _ => none

/-- INT8, E4M3, E5M2, BF16 and FP16 (R165). -/
def atOperand (f : Fmt) : Bool := f == .int8 || f == .e4m3 || f == .e5m2 || f == .bf16 || f == .fp16

/-- `K_REC` (R160). -/
def atKRec (d : Nat) (f : AtFmt) : Nat := roundUp 32 (runBytes f.qk (atDqk d))
/-- `V_REC` (R160). -/
def atVRec (d : Nat) (f : AtFmt) : Nat := if atAlias d then 0 else roundUp 32 (runBytes f.v (atDv d))
/-- `L_REC` (R161). -/
def atLRec (d : Nat) (f : AtFmt) : Nat :=
  if atMode d = 2 then roundUp 32 (runBytes f.lat (atL d) + runBytes f.qk (atDr d)) else 0

/-- Bytes of one state row (R160). -/
def atStateRow (d : Nat) : Nat := 4 * atDv d + 32
/-- Start of the state rows. -/
def atState (d : Nat) : Nat := fld d 367 352 * 32
/-- Start and size of the staging area (R160). -/
def atStaging (d : Nat) (f : AtFmt) : Nat × Nat :=
  (atState d + 16 * atStateRow d, 2 * atBlock d * (atKRec d f + atVRec d f + atLRec d f))
/-- Bytes of one output row, rounded up (R176). -/
def atOutRow (d : Nat) (f : AtFmt) : Nat := roundUp 32 (runBytes f.out (atDv d))
/-- Bytes of one block of an up-projection (R163). -/
def atWBlock (f : AtFmt) : Nat := runBytes f.wup 256
/-- Up-projection blocks of the keys. -/
def atKBlocks (d : Nat) : Nat := (atL d / 16) * ((atDqk d - atDr d) / 16)
/-- Up-projection blocks of the values. -/
def atVBlocks (d : Nat) : Nat := (atL d / 16) * (atDv d / 16)

/-- The formats break R165 or R180. -/
def atFmtBad (d : Nat) (f : AtFmt) : Bool :=
  !atOperand f.qk
  || !((f.p == .e4m3 && (f.v == .e4m3 || f.v == .e5m2)) || (fmtOrdered f.p && fmtOrdered f.v))
  || !fmtIsOutput f.out
  || (atMode d == 2 && (!atOperand f.lat || !atOperand f.wup || !pairOk f.lat f.wup))
  || (atAlias d && f.v != f.qk)
  || (atDr d != 0 && f.qk == .int8)

/-- An `ATTN` breaks a rule of its descriptor (R106, R158, R164, R165, R180). -/
def attnBad (e : Env) : Bool :=
  let d := e.d
  match atFmts d with
  | none => true
  | some f =>
    let m := atMode d
    let R := atRows d
    fld d 511 448 != 0 || fld d 319 296 != 0 || fld d 191 182 != 0
    || m == 3 || R == 0 || decide (R > 16) || atDqk d == 0 || atDv d == 0
    || (if m = 0 then fld d 140 136 != 0
        else fld d 140 136 == 0 || decide (fld d 140 136 > 16) || fld d 172 153 != 0 || fld d 146 141 != 0
             || fld d 152 147 != 0 || fld d 275 256 != 0 || fld d 295 276 != 0)
    || (m == 0 && atAlias d && (fld d 152 147 != 0 || fld d 295 276 != 0))
    || atFmtBad d f
    || decide (atDr d > atDqk d) || (m == 2 && decide (atDr d ≥ atDqk d))
    || (m == 2) != (atL d != 0) || decide (fld d 125 119 > 64)
    || (bitAt d 130 && (!bitAt d 129 || m == 0)) || (bitAt d 129 && m == 0)
    || (atAlias d && (m == 2 || decide (atDv d > atDqk d)))
    || !slotsOk e.tags d [.pool, if bitAt d 133 then .pool else .none, .pool, if m = 2 then .pool else .none, .pool, .poolOpt,
         .poolOpt, .tokenOpt]
    || !inBuf e 0 (fld d 335 320 * 32) ((R - 1) * atKRec d f + runBytes f.qk (atDqk d))
    || (bitAt d 133 && !inBuf e 1 (fld d 351 336 * 32) ((R - 1) * atOutRow d f + runBytes f.out (atDv d)))
    || !inBuf e 2 (atStaging d f).1 (atStaging d f).2
    || !inBuf e 4 (fld d 383 368 * 32) (8 * R)
    || (m != 0 && !inBuf e 4 (fld d 415 400 * 32) (2 * fld d 140 136))
    || (atDr d != 0 && !inBuf e 4 (fld d 399 384 * 32) (2 * atDr d))
    || ((slotTag d 6).isSome && !inBuf e 6 0 16)
    || (m == 2 && !inBuf e 3 (fld d 447 432 * 32)
         ((atKBlocks d + atVBlocks d) * atWBlock f + 4 * (atDqk d - atDr d + atDv d)))

/-- A query record (R159). -/
structure QRec where
  parent : Nat
  cand : Nat
  seg : Nat
  pos : Nat
  deriving DecidableEq, Repr

/-- The query records. -/
def atQRecs (s : State) (e : Env) : List QRec :=
  upto (atRows e.d) (fun r =>
    let w := bufNat s e 4 (fld e.d 383 368 * 32 + 8 * r) 8
    ⟨fld w 63 56, fld w 55 48, fld w 47 32, fld w 31 0⟩)

/-- The listed Manifest entry numbers (R159). -/
def atSeqs (s : State) (e : Env) : List Nat :=
  if atMode e.d = 0 then [] else upto (fld e.d 140 136) (fun i => bufNat s e 4 (fld e.d 415 400 * 32 + 2 * i) 2)

/-- One key: position, segment, whether it has a page, candidate number, sequence (its place in the list), index in the key list, addresses of its key (or latent) and value records. -/
structure Key where
  pos : Nat
  seg : Nat
  paged : Bool
  cand : Option Nat
  idx : Nat
  tagAddr : Option Nat
  kAddr : Nat
  vAddr : Nat

/-- The keys of one sequence, taken from its entry (R161, R166). -/
def atSeqKeys (s : State) (e : Env) (f : AtFmt) (ent start : Nat) : List Key :=
  let m := s.mentry e.h ent
  let rec0 := if atMode e.d = 2 then atLRec e.d f else atKRec e.d f
  upto (m.length + m.cand) (fun i =>
    let page := slotPage s e.h m (i / 64)
    let p := pageAddr s e.h page
    let t := p + 8 * (i % 64)
    { pos := leNat (upto 4 (fun b => e.rd (t + b))), seg := m.seg, paged := page != noPage
      cand := if i ≥ m.length then some (i - m.length) else none, idx := start + i, tagAddr := some t
      kAddr := p + 512 + rec0 * (i % 64)
      vAddr := if atAlias e.d then p + 512 + rec0 * (i % 64) else p + 512 + 64 * rec0 + atVRec e.d f * (i % 64) })

/-- The key lists of the sequences, or of the dense range (R162, R166). -/
def atKeyLists (s : State) (e : Env) (f : AtFmt) : List (List Key) :=
  let d := e.d
  if atMode d = 0 then
    [upto (fld d 172 153) (fun k =>
      let ka := (nth e.args (fld d 146 141) + k * fld d 275 256) % 2 ^ 48
      { pos := k, seg := 0, paged := true, cand := none, idx := k, tagAddr := none, kAddr := ka
        vAddr := if atAlias d then ka else (nth e.args (fld d 152 147) + k * fld d 295 276) % 2 ^ 48 })]
  else
    ((atSeqs s e).foldl (fun (r : List (List Key) × Nat) ent =>
      let ks := atSeqKeys s e f ent r.2
      (r.1 ++ [ks], r.2 + ks.length)) ([], 0)).1

/-- Cut a list into blocks of `b` (R166). -/
def blocksOf {α : Type} (b : Nat) (l : List α) : List (List α) :=
  upto ((l.length + b - 1) / b) (fun i => (l.drop (i * b)).take b)

/-- The blocks in order, those the segment mask empties left out (R166). -/
def atBlocks (e : Env) (qs : List QRec) (ks : List (List Key)) : List (List Key) :=
  let bs := ks.flatMap (blocksOf (atBlock e.d))
  let bs := if bitAt e.d 131 then bs.reverse else bs
  if bitAt e.d 129 then bs.filter (fun b => b.any (fun k => qs.any (fun q => q.seg == k.seg))) else bs

/-- Ancestor set of candidate `c` of a segment (R172). -/
def ancestors (qs : List QRec) (seg : Nat) : Nat → Nat → List Nat
  | 0, _ => []
  | fuel + 1, c =>
    match qs.find? (fun q => q.seg == seg && q.cand == c) with
    | none => []
    | some q => if q.parent = 0xFF then [c] else c :: ancestors qs seg fuel q.parent

/-- The query records break R172. The count that bounds `CAND` is the largest of the listed entries that carry the row's segment; with none of them any candidate breaks the rule, and in `DENSE`, where a row has no sequence, there is no bound (DESIGN CHOICE, log 37). -/
def qrecBad (s : State) (e : Env) (qs : List QRec) : Bool :=
  let counts := (atSeqs s e).map (fun n => let m := s.mentry e.h n; (m.seg, m.cand))
  (List.range qs.length).any (fun i =>
    match qs[i]? with
    | none => false
    | some q =>
      (q.parent != 0xFF && (decide (q.cand ≤ q.parent) || !qs.any (fun p => p.seg == q.seg && p.cand == q.parent)))
      || (q.cand != 0xFF &&
          ((qs.take i).any (fun p => p.seg == q.seg && p.cand == q.cand)
           || (atMode e.d != 0 &&
               decide (q.cand ≥ ((counts.filter (fun c => c.1 == q.seg)).map Prod.snd).foldl max 0)))))

/-- The rotary frequencies (R159). -/
def atFreqs (s : State) (e : Env) : List F32 :=
  upto (atDr e.d / 2) (fun i => BitVec.ofNat 32 (bufNat s e 4 (fld e.d 399 384 * 32 + 4 * i) 4))

/-- Conditions found from what the command reads at its start (R172, R180, R184). A token without a page in a block that is fetched ends the context: what its index slot names then is not stated (R166; DESIGN CHOICE, log 37). -/
def attnExec (s : State) (e : Env) (f : AtFmt) : Bool :=
  let ents := atSeqs s e
  let lists := atKeyLists s e f
  let total := lists.map List.length |>.foldl (· + ·) 0
  qrecBad s e (atQRecs s e)
  || ents.any (fun n => decide (n ≥ 8192) || (s.mentry e.h n).state == .evicted)
  || (atBlocks e (atQRecs s e) lists).any (fun b => b.any (fun k => !k.paged))
  || (atFreqs s e).any (fun x => !isFinite x)
  || ((slotTag e.d 5).isSome && decide (total ≠ 0) &&
      !inBuf e 5 (fld e.d 431 416 * 32) ((atRows e.d - 1) * roundUp 32 ((total + 7) / 8) + (total + 7) / 8))

/-- Bytes one key record holds. -/
def atKeyBytes (d : Nat) (f : AtFmt) : Nat :=
  if atMode d = 2 then runBytes f.lat (atL d) + runBytes f.qk (atDr d) else runBytes f.qk (atDqk d)

/-- The plan of an `ATTN`. -/
def planAttn (s : State) (e : Env) : Plan :=
  let d := e.d
  if attnBad e then planNone true
  else
    match atFmts d with
    | none => planNone true
    | some f =>
      if (atSeqs s e).any (fun n => decide (n ≥ 8192)) then { planNone false with exec := true }
      else
        let qs := atQRecs s e
        let lists := atKeyLists s e f
        let total := (lists.map List.length).foldl (· + ·) 0
        let keys := (atBlocks e qs lists).flatten
        let index := (atSeqs s e).flatMap (fun n =>
          let m := s.mentry e.h n
          let k := pagesFor (m.length + m.cand)
          if k = 0 then [] else [(slotAddr s e.h m 0, 4 * k)])
        let R := atRows d
        { bad := false
          exec := attnExec s e f
          reads := index ++ keys.flatMap (fun k =>
            (match k.tagAddr with | some t => [(t, 8)] | none => []) ++ [(k.kAddr, atKeyBytes d f)]
            ++ (if atAlias d || atMode d == 2 then [] else [(k.vAddr, runBytes f.v (atDv d))]))
          writes := []
          poolR := [span e 0 (fld d 335 320 * 32) ((R - 1) * atKRec d f + runBytes f.qk (atDqk d)),
              span e 4 (fld d 383 368 * 32) (8 * R)]
            ++ (if atMode d != 0 then [span e 4 (fld d 415 400 * 32) (2 * fld d 140 136)] else [])
            ++ (if atDr d != 0 then [span e 4 (fld d 399 384 * 32) (2 * atDr d)] else [])
            ++ (if bitAt d 132 then [span e 2 (atState d) (R * atStateRow d)] else [])
            ++ (if atMode d == 2 then [span e 3 (fld d 447 432 * 32)
                 ((atKBlocks d + atVBlocks d) * atWBlock f + 4 * (atDqk d - atDr d + atDv d))] else [])
            ++ (if (slotTag d 5).isSome && decide (total ≠ 0) then [span e 5 (fld d 431 416 * 32)
                 ((R - 1) * roundUp 32 ((total + 7) / 8) + (total + 7) / 8)] else [])
            ++ statSpan e 6
          poolW := [span e 2 (atState d) (16 * atStateRow d + (atStaging d f).2)]
            ++ (if bitAt d 133 then [span e 1 (fld d 351 336 * 32) ((R - 1) * atOutRow d f + runBytes f.out (atDv d))] else [])
            ++ statSpan e 6 }

/-! ### Values -/

/-- Sine and cosine of the angle of a rotary pair (R168). -/
def ropeAngle (pos : Nat) (freq : F32) : F32 × F32 :=
  match f32Dec freq with
  | .fin s m e =>
    let v : Int := signedNat s (m * pos)
    let t := if 0 ≤ e then (0 : F32)
      else
        let k := (-e).toNat
        roundF32 false (Int.emod v ((2 ^ k : Nat) : Int)).toNat e
    sincos t
  | _ => sincos 0

/-- Rotate the last `Dr` channels of a vector of codes at a position (R169). -/
def rope (d : Nat) (qk : Fmt) (freqs : List F32) (pos : Nat) (codes : List Nat) : List Nat :=
  let dr := atDr d
  let b := atDqk d - dr
  let val (c : Nat) : F32 := fvToF32 (fmtDec qk (nth codes c))
  codes.take b ++ upto dr (fun j =>
    let half := if bitAt d 126 then decide (j ≥ dr / 2) else decide (j % 2 = 1)
    let i := if bitAt d 126 then j % (dr / 2) else j / 2
    let cx := if bitAt d 126 then b + i else b + 2 * i
    let cy := if bitAt d 126 then b + i + dr / 2 else b + 2 * i + 1
    let sc := ropeAngle pos (freqs.getD i 0)
    let r := if half then fadd (fmul (val cx) sc.1) (fmul (val cy) sc.2)
      else fsub (fmul (val cx) sc.2) (fmul (val cy) sc.1)
    (vecOut qk 0x80 r).1)

/-- Lists padded with zero codes to a multiple of 16. -/
def pad16 (l : List Nat) : List Nat := l ++ List.replicate (roundUp 16 l.length - l.length) 0

/-- A dot product on the gang (R173, R175), as an accumulator. -/
def gangDot (fa fb : Fmt) (as bs : List Nat) : Acc :=
  if fmtOrdered fa then
    let as := pad16 as
    let bs := pad16 bs
    let sums := upto (as.length / 16) (fun j => chunkSum fa fb ((as.drop (16 * j)).take 16) ((bs.drop (16 * j)).take 16))
    match sums with
    | [] => accZero
    | c :: t => { accZero with f := t.foldl fadd c }
  else addExact accZero fa fb as bs (some 0) (some 0) (defaultGrid fa fb)

/-- A dot product requantised to a target (R170, R173, R175). -/
def gangOut (tgt fa fb : Fmt) (as bs : List Nat) (scale : F32) : Nat × Stat :=
  writeOut tgt 0x80 0 (gangDot fa fb as bs) (fmtOrdered fa) (defaultGrid fa fb) scale

/-- One up-projected channel of a latent (R163, R170): `first` the index of its first block, `ch` the channel, `fofs` the offset of its factor. -/
def expand (s : State) (e : Env) (f : AtFmt) (tgt : Fmt) (lat : List Nat) (first ch fofs : Nat) : Nat × Stat :=
  let A := atL e.d / 16
  let w0 := fld e.d 447 432 * 32
  let ws := upto (atL e.d) (fun l =>
    bufElem s e 3 (w0 + (first + ch / 16 * A + l / 16) * atWBlock f + l % 16 * runBytes f.wup 16) f.wup (ch % 16))
  gangOut tgt f.lat f.wup lat ws (BitVec.ofNat 32 (bufNat s e 3 fofs 4))

/-- A key's codes and a value's codes as the block is scored, with the figures of their expansion (R162, R166, R170). With `V_ALIAS` the value is the key as stored, before `ROPE_K` rotates it (DESIGN CHOICE, log 37). -/
def atKeyVal (s : State) (e : Env) (f : AtFmt) (freqs : List F32) (k : Key) : List Nat × List Nat × Stat :=
  let d := e.d
  let el (g : Fmt) (a n : Nat) : List Nat := upto n (fun i => elemAt g (fun b => e.rd ((a + b) % 2 ^ 48)) i)
  let raw : List Nat × List Nat × Stat :=
    if atMode d = 2 then
      let lat := el f.lat k.kAddr (atL d)
      let rot := el f.qk (k.kAddr + runBytes f.lat (atL d)) (atDr d)
      let nk := atDqk d - atDr d
      let fac := fld d 447 432 * 32 + (atKBlocks d + atVBlocks d) * atWBlock f
      let ks := upto nk (fun c => expand s e f f.qk lat 0 c (fac + 4 * c))
      let vs := upto (atDv d) (fun c => expand s e f f.v lat (atKBlocks d) c (fac + 4 * (nk + c)))
      (ks.map Prod.fst ++ rot, vs.map Prod.fst, ((ks ++ vs).map Prod.snd).foldl statPlus statZero)
    else
      let ks := el f.qk k.kAddr (atDqk d)
      (ks, if atAlias d then ks.take (atDv d) else el f.v k.vAddr (atDv d), statZero)
  (if bitAt d 127 && atDr d != 0 then rope d f.qk freqs k.pos raw.1 else raw.1, raw.2.1, raw.2.2)

/-- A key is admitted for query row `r` (R171); `total` is the length of the key list. -/
def admitted (s : State) (e : Env) (qs : List QRec) (total r : Nat) (k : Key) : Bool :=
  let d := e.d
  match qs[r]? with
  | none => false
  | some q =>
    let seg := !bitAt d 129 || k.seg == q.seg
    let byTree := bitAt d 130 && k.cand.isSome
    let tree := !byTree ||
      (q.cand != 0xFF && (ancestors qs q.seg 16 q.cand).contains (k.cand.getD 0))
    let causal := byTree || !bitAt d 128 || decide (k.pos ≤ q.pos)
    let mask := (slotTag d 5).isNone ||
      bitAt (bufByte s e 5 (fld d 431 416 * 32 + r * roundUp 32 ((total + 7) / 8) + k.idx / 8)).toNat (k.idx % 8)
    seg && tree && causal && mask

/-- The state of one query row (R160). -/
structure ARow where
  m : F32
  l : F32
  o : List F32

/-- −inf. -/
def negInf : F32 := f32Inf true

/-- Score one key for one row: `none` when masked or NaN; the figures of its requantisation (R173). -/
def score (d : Nat) (f : AtFmt) (q k : List Nat) (adm : Bool) : Option F32 × Stat :=
  let r := gangOut .fp32 f.qk f.qk k q (BitVec.ofNat 32 (fld d 223 192))
  let x : F32 := BitVec.ofNat 32 r.1
  let st := { r.2 with amax := if adm && !isNaN x then (fabs x).toNat else 0 }
  (if adm && !isNaN x then some x else none, st)

/-- One block's update of one row (R174, R175). A row that the block leaves unchanged forms no value product, and none is counted (R177; DESIGN CHOICE, log 37). -/
def rowBlock (d : Nat) (f : AtFmt) (row : ARow) (sc : List (Option F32)) (vals : List (List Nat)) : ARow × Stat :=
  let ss := sc.map (·.getD negInf)
  let mb := rowReduce 0x21 ss
  if mb = negInf then (row, statZero)
  else
    let mn := fmax row.m mb
    let alpha := fsoftexp row.m mn
    let ps := sc.map (fun x => match x with
      | none => (vecOut f.p 0x80 0).1
      | some v => if v = negInf then (vecOut f.p 0x80 0).1 else (vecOut f.p 0x80 (fsoftexp v mn)).1)
    let lb := rowSum (ps.map (fun p => fvToF32 (fmtDec f.p p)))
    let pv := upto (atDv d) (fun c =>
      gangOut .fp32 f.v f.p (vals.map (fun v => nth v c)) ps (BitVec.ofNat 32 (fld d 255 224)))
    (⟨mn, fadd (fmul row.l alpha) lb,
      List.zipWith (fun o p => fadd (fmul o alpha) (BitVec.ofNat 32 p.1)) row.o pv⟩,
     (pv.map Prod.snd).foldl statPlus statZero |> fun st => { st with amax := 0 })

/-- The starting state of a row (R160). -/
def atRow0 (s : State) (e : Env) (r : Nat) : ARow :=
  let d := e.d
  if bitAt d 132 then
    let o := atState d + r * atStateRow d
    ⟨BitVec.ofNat 32 (bufNat s e 2 o 4), BitVec.ofNat 32 (bufNat s e 2 (o + 4) 4),
     upto (atDv d) (fun c => BitVec.ofNat 32 (bufNat s e 2 (o + 32 + 4 * c) 4))⟩
  else ⟨negInf, 0, List.replicate (atDv d) 0⟩

/-- One block (R166 steps 3 to 9): the rows after it, figures for the record, and figures of the expansion, which only the ticket counts (R177). -/
def atStep (s : State) (e : Env) (f : AtFmt) (qs : List QRec) (qcodes : List (List Nat)) (freqs : List F32) (total : Nat)
    (acc : List ARow × Stat × Stat) (blk : List Key) : List ARow × Stat × Stat :=
  let kv := blk.map (atKeyVal s e f freqs)
  let out := (List.zip (List.range acc.1.length) acc.1).map (fun p =>
    let sc := List.zipWith (fun k x => score e.d f (qcodes.getD p.1 []) x.1 (admitted s e qs total p.1 k)) blk kv
    let r := rowBlock e.d f p.2 (sc.map Prod.fst) (kv.map (fun x => x.2.1))
    (r.1, statPlus ((sc.map Prod.snd).foldl statPlus statZero) r.2))
  (out.map Prod.fst, (out.map Prod.snd).foldl statPlus acc.2.1, (kv.map (fun x => x.2.2)).foldl statPlus acc.2.2)

/-- The bytes of a state row (R160). -/
def atRowBytes (r : ARow) : List Byte :=
  natLe 4 r.m.toNat ++ natLe 4 r.l.toNat ++ List.replicate 24 0 ++ r.o.flatMap (fun x => natLe 4 x.toNat)

/-- One output row (R176). -/
def atOutCodes (d : Nat) (f : AtFmt) (r : ARow) : List (Nat × Stat) :=
  if r.l = 0 then r.o.map (fun _ => (0, statZero))
  else r.o.map (fun x => vecOut f.out (fld d 180 173) (fmul x (frecip r.l)))

/-- `n` free bytes (DESIGN CHOICE, log 9). -/
def freeBytes (s : State) (n : Nat) : List Byte × State :=
  (upto n (fun i => BitVec.ofNat 8 (Config.freeNat (s.freeCtr + i))), { s with freeCtr := s.freeCtr + n })

/-- Carry out an `ATTN`: the blocks in order, then the output or the state rows; the staging area is left undefined (R160, R166, R176, R177). -/
def runAttn (s : State) (e : Env) : State :=
  let d := e.d
  match atFmts d with
  | none => s
  | some f =>
    let qs := atQRecs s e
    let freqs := atFreqs s e
    let lists := atKeyLists s e f
    let total := (lists.map List.length).foldl (· + ·) 0
    let qcodes := upto (atRows d) (fun r =>
      let raw := upto (atDqk d) (fun c => bufElem s e 0 (fld d 335 320 * 32 + r * atKRec d f) f.qk c)
      if atDr d = 0 then raw else rope d f.qk freqs ((qs.getD r ⟨0, 0, 0, 0⟩).pos) raw)
    let fin := (atBlocks e qs lists).foldl (atStep s e f qs qcodes freqs total)
      (upto (atRows d) (atRow0 s e), statZero, statZero)
    let stage := freeBytes s (atStaging d f).2
    let s := bufWrite stage.2 e 2 (atStaging d f).1 stage.1
    let rows := List.zip (List.range fin.1.length) fin.1
    let outs := rows.map (fun p => (p.1, atOutCodes d f p.2))
    let outStat := if bitAt d 133 then
        { (outs.flatMap (fun p => p.2.map Prod.snd)).foldl statPlus statZero with amax := 0 }
      else statZero
    let s := if bitAt d 133 then
        outs.foldl (fun (s : State) p =>
          bufWrite s e 1 (fld d 351 336 * 32 + p.1 * atOutRow d f) (packRun f.out (p.2.map Prod.fst))) s
      else rows.foldl (fun (s : State) p => bufWrite s e 2 (atState d + p.1 * atStateRow d) (atRowBytes p.2)) s
    let st := statPlus fin.2.1 outStat
    let s := addFlags s e.h e.n (statPlus st fin.2.2)
    gangClear (mergeStat s e 6 f.out st) e.h e.c

end Sys2Proof.Machine
end

