-- ==== Sys2Proof/Machine/VecCmd.lean ====
section
/-! DEFINITION. The vector command (R106, R118, R119, R486). -/
namespace Sys2Proof.Machine

/-- `OP`. -/
def vecOp (d : Nat) : Nat := fld d 71 64
/-- `BCAST`. -/
def vecBcast (d : Nat) : Nat := fld d 93 92
/-- `LEN`. -/
def vecLen (d : Nat) : Nat := fld d 125 102
/-- `ROW_LEN`, taken as `LEN` when 0 (R119). -/
def vecRow (d : Nat) : Nat := if fld d 143 128 = 0 then vecLen d else fld d 143 128
/-- Rows of a reduction or of `BCAST` = 2. -/
def vecRows (d : Nat) : Nat := if vecRow d = 0 then 0 else vecLen d / vecRow d

/-- The operation reads s1. -/
def readsS1 (k : VecKind) : Bool := k == .two || k == .three || k == .int2

/-- Elements of s1 read from its buffer. -/
def vecS1Len (d : Nat) : Nat := if vecBcast d = 2 then vecRows d else vecLen d

/-- Elements written. -/
def vecOutLen (d : Nat) (k : VecKind) : Nat := if k == .reduce then vecRows d else vecLen d

/-- A `VEC` breaks a rule of its descriptor. With `BCAST` = 1 s1 is `IMM`, no buffer is read for it, and `SRC1_TAG` must be absent (R106, R118; DESIGN CHOICE, log 37). -/
def vecBad (e : Env) : Bool :=
  let d := e.d
  match vecKind (vecOp d), fmtOf (fld d 76 72), fmtOf (fld d 81 77), fmtOf (fld d 86 82), fmtOf (fld d 91 87) with
  | some k, some f0, some f1, some f2, some fd =>
    let s1 := readsS1 k && vecBcast d != 1
    fld d 255 240 != 0 || fld d 127 126 != 0 || vecBcast d == 3
    || !slotsOk e.tags d [.pool, if s1 then .pool else .none, if k == .three then .pool else .none, .pool]
    || (k == .int2 && (f0 != .int32 || fd != .int32 || (s1 && f1 != .int32)))
    || ((k == .reduce || vecBcast d == 2) && decide (vecLen d ≠ 0) && vecLen d % vecRow d != 0)
    || (decide (vecLen d ≠ 0) &&
        (!inBuf e 0 (fld d 159 144 * 32) (runBytes f0 (vecLen d))
         || (s1 && !inBuf e 1 (fld d 175 160 * 32) (runBytes f1 (vecS1Len d)))
         || (k == .three && !inBuf e 2 (fld d 191 176 * 32) (runBytes f2 (vecLen d)))
         || !inBuf e 3 (fld d 207 192 * 32) (runBytes fd (vecOutLen d k))))
  | _, _, _, _, _ => true

/-- The plan of a `VEC`; with `LEN` = 0 it touches nothing (R486). -/
def planVec (e : Env) : Plan :=
  let d := e.d
  if vecBad e then planNone true
  else if vecLen d = 0 then planNone false
  else
    match vecKind (vecOp d), fmtOf (fld d 76 72), fmtOf (fld d 81 77), fmtOf (fld d 86 82), fmtOf (fld d 91 87) with
    | some k, some f0, some f1, some f2, some fd =>
      { planNone false with
        poolR := [span e 0 (fld d 159 144 * 32) (runBytes f0 (vecLen d))]
          ++ (if readsS1 k && vecBcast d != 1 then [span e 1 (fld d 175 160 * 32) (runBytes f1 (vecS1Len d))] else [])
          ++ (if k == .three then [span e 2 (fld d 191 176 * 32) (runBytes f2 (vecLen d))] else [])
        poolW := [span e 3 (fld d 207 192 * 32) (runBytes fd (vecOutLen d k))] }
    | _, _, _, _, _ => planNone true

/-- The results of a `VEC`, as codes with their figures (R118, R119). -/
def vecResults (d : Nat) (k : VecKind) (fd : Fmt) (s0 s1 s2 : Nat → F32) : List (Nat × Stat) :=
  let op := vecOp d
  let b (i : Nat) : F32 :=
    if vecBcast d = 1 then BitVec.ofNat 32 (fld d 239 208) else s1 (if vecBcast d = 2 then i / vecRow d else i)
  match k with
  | .reduce => upto (vecRows d) (fun r => vecOut fd (fld d 101 94) (rowReduce op (upto (vecRow d) (fun i => s0 (r * vecRow d + i)))))
  | .int2 => upto (vecLen d) (fun i => ((vecInt op (s0 i) (b i)).toNat, statZero))
  | _ => upto (vecLen d) (fun i => vecOut fd (fld d 101 94) (vecLane op (s0 i) (b i) (s2 i)))

/-- Carry out a `VEC`. -/
def runVec (s : State) (e : Env) : State :=
  let d := e.d
  if vecLen d = 0 then s
  else
    match vecKind (vecOp d), fmtOf (fld d 76 72), fmtOf (fld d 81 77), fmtOf (fld d 86 82), fmtOf (fld d 91 87) with
    | some k, some f0, some f1, some f2, some fd =>
      let src (slot ofs : Nat) (f : Fmt) (i : Nat) : F32 :=
        let c := bufElem s e slot (ofs * 32) f i
        if k == .int2 then BitVec.ofNat 32 c else fvToF32 (fmtDec f c)
      let out := vecResults d k fd (src 0 (fld d 159 144) f0) (src 1 (fld d 175 160) f1) (src 2 (fld d 191 176) f2)
      let s := bufWrite s e 3 (fld d 207 192 * 32) (packRun fd (out.map Prod.fst))
      addFlags s e.h e.n ((out.map Prod.snd).foldl statPlus statZero)
    | _, _, _, _, _ => s

end Sys2Proof.Machine
end

