-- ==== Sys2Proof/Machine/Checkers.lean ====
section
/-! DEFINITION. The checkers of a core: checksums, residues, duplicates, the spare shadow (R89, R91, R373 to R375). -/
namespace Sys2Proof.Machine

/-! ### What the gang computes, array by array (R67 to R69) -/

/-- One slice of a gang command's reduction for one row of one engine: the row's elements with their group exponents, and the weight codes and group exponent of each output column. -/
structure Slice where
  a : List (Nat × Option Int)
  w : List (List Nat × Option Int)

/-- A gang command as its checkers see it: operand formats, grid, form, rows of each engine, slices of the reduction, and a slice. -/
structure GangWork where
  fa : Fmt
  fw : Fmt
  lsb : Int
  form : Nat
  rows : Nat → Nat
  steps : Nat
  slice : Nat → Nat → Nat → Slice

/-- The work of a `STREAM`: one slice, its unmasked rows packed densely (R81). -/
def streamWork (s : State) (e : Env) : Option GangWork :=
  let d := e.d
  let k := s.core e.h e.c
  match fmtOf (fld d 68 64), streamBlock k with
  | some a, some b =>
    let form := fld d 75 74
    let N := formN form
    let K := pairK form a b.fmt
    let KB := blockK form b.fmt
    let mask := streamMask s e k (formEngines form * fld d 127 108)
    let mine (g : Nat) : List Nat := (unmasked ((mask.drop (g * fld d 127 108)).take (fld d 127 108))).map (g * fld d 127 108 + ·)
    some ⟨a, b.fmt, gridOf d a b.fmt, form, fun g => (mine g).length, 1, fun _ g r =>
      let i := nth (mine g) r
      let sa : Option Int := if fmtIsMx a then e8m0 (bufByte s e 5 (fld d 255 240 * 32 + i)).toNat else some 0
      ⟨upto K (fun j => (bufElem s e 0 (fld d 175 160 * 32 + i * fld d 191 176) a j, sa)),
       upto N (fun n => (upto K (fun j => nth b.codes ((g * KB + j) * N + n)),
         if fmtIsMx b.fmt then e8m0 (nth b.mxs (g * N + n)) else some 0))⟩⟩
  | _, _ => none

/-- The work of a `CONV`: its steps, one row per output pixel (R139, R140). -/
def convWork (s : State) (e : Env) : Option GangWork :=
  let d := e.d
  match fmtOf (fld d 68 64), fmtOf (fld d 440 436) with
  | some a, some w =>
    let form := fld d 75 74
    let E := formEngines form
    let N := formN form
    let K := pairK form a w
    some ⟨a, w, gridOf d a w, form, fun _ => convPixels d, convSteps d K, fun j g i =>
      ⟨upto K (fun k => convInput s e a i (convElem d K g j k)),
       upto N (fun n => (upto K (fun k => convWeight s e w N E j g k n),
         if fmtIsMx w then e8m0 (bufByte s e 7 (fld d 495 480 * 32 + (j * E + g) * N + n)).toNat else some 0))⟩⟩
  | _, _ => none

/-- Engine, row quarter, reduction quarter and column quarter of a position in a form (R68, R69). -/
def placeOf (form q : Nat) : Nat × Nat × Nat × Nat :=
  let p := q / 16
  let k := q % 16 / 4
  let n := q % 4
  match form with
  | 0 => (0, p, k, n)
  | 1 => (4 * (p / 2) + 2 * (k / 2) + n / 2, p % 2, k % 2, n % 2)
  | _ => (q, 0, 0, 0)

/-- The part of a slice that the array at a position computes: its share of the reduction, four output columns. -/
def arraySlice (form q : Nat) (x : Slice) : Slice :=
  let o := placeOf form q
  let share := x.a.length / (formK form / 4)
  ⟨(x.a.drop (o.2.2.1 * share)).take share,
   ((x.w.drop (o.2.2.2 * 4)).take 4).map (fun c => ((c.1.drop (o.2.2.1 * share)).take share, c.2))⟩

/-- The terms of one output column over a slice (R40). -/
def columnTerms (fa fw : Fmt) (lsb : Int) (a : List (Nat × Option Int)) (c : List Nat × Option Int) : List Term :=
  List.zipWith (fun x y => (exactTerm fa fw x.1 y x.2 c.2 lsb).1) a c.1

/-! ### The exact path's checks (R374) -/

/-- The exact sum of some values ±m × 2^e, as a multiple of a power of two. -/
def exactSum (vs : List (Bool × Nat × Int)) : Int × Int :=
  let e0 := vs.foldl (fun m v => min m v.2.2) 0
  (isum (vs.map (fun v => signedNat v.1 (v.2.1 <<< (v.2.2 - e0).toNat))), e0)

/-- The checksum weight c_k of one reduction element: the exact sum of its weights, each with its own group exponent; a non-finite weight contributes nothing, as in R39 (R374). -/
def checksumWeight (fw : Fmt) (ws : List (Nat × Option Int)) : Int × Int :=
  exactSum (ws.filterMap (fun w =>
    match fmtDec fw w.1, w.2 with
    | .fin s m e, some x => some (s, m, e + x)
    | _, _ => none))

/-- The dot product of a row's elements with the checksum weights, each product on the grid of R40. -/
def checksumDot (fa fw : Fmt) (lsb : Int) (x : Slice) : Int :=
  isum ((List.range x.a.length).map (fun k =>
    let a := x.a.getD k (0, none)
    let c := checksumWeight fw (x.w.map (fun col => (nth col.1 k, col.2)))
    match fmtDec fa a.1, a.2 with
    | .fin s m e, some g => (alignTerm (s != decide (c.1 < 0)) (m * c.1.natAbs) (e + g + c.2) lsb).val
    | _, _ => 0))

/-- Two checksums agree: equal modulo 2^32, or within 19 grid units where a product of the row was truncated (R374). -/
def rowAgrees (x y : Int) (truncated : Bool) : Bool :=
  let d := Int.emod (x - y) 4294967296
  decide (min d (4294967296 - d) ≤ (if truncated then 19 else 0))

/-- The array row check of one row at one position, with an error of `delta` in one of the array's sums. -/
def rowCheck (fa fw : Fmt) (lsb : Int) (x : Slice) (delta : Int) : Bool :=
  let ts := x.w.flatMap (columnTerms fa fw lsb x.a)
  rowAgrees (isum (ts.map (·.val)) + delta) (checksumDot fa fw lsb x) (ts.any (·.spill))

/-- The column check: column-tree results against the arrays' outputs, exact modulo 2^32. -/
def columnAgrees (tree arrays : Int) : Bool := Int.emod tree 4294967296 == Int.emod arrays 4294967296

/-- The residue kept beside a Basin. -/
def basinResidue (x : Int) : Int := Int.emod x 255

/-- The Basin residue check of one add: what the Basin then holds against the residues of its parts. -/
def residueAgrees (before sum after : Int) : Bool :=
  basinResidue after == Int.emod (basinResidue before + basinResidue sum) 255

/-- The sum over one row that a column tree delivers for column `n` of engine `g`. -/
def columnSum (w : GangWork) (step g r n : Nat) : Int :=
  let x := w.slice step g r
  isum ((columnTerms w.fa w.fw w.lsb x.a (x.w.getD n ([], none))).map (·.val))

/-- The arrays' outputs for column `n` of engine `g` over a whole command. -/
def columnTotal (w : GangWork) (g n : Nat) : Int :=
  isum (((List.range w.steps).flatMap (fun j => (List.range (w.rows g)).map (fun r => columnSum w j g r n))))

/-! ### The vector engine's checks (R375) -/

/-- The exact result of `IADD`, `ISUB` and `IMUL`. -/
def intExact (op : Nat) (a b : Int) : Int := if op = 0x30 then a + b else if op = 0x31 then a - b else a * b

/-- The residue check modulo 3 of an integer result. -/
def mod3Agrees (op : Nat) (a b result : Int) : Bool :=
  Int.emod result 3 == Int.emod (intExact op (Int.emod a 3) (Int.emod b 3)) 3

/-- In vector cycle `cycle` the 129th lane repeats lane `cycle` mod 128; element `i` is in lane `i` mod 128 of the cycle after `i`/128 others. -/
def laneRepeated (phase i : Nat) : Bool := (phase + i / 128) % 128 == i % 128

/-- Two results are compared bit for bit (*Checkers*): a duplicate finds any difference. -/
def duplicateFinds (delta : Int) : Bool := decide (delta ≠ 0)

/-! ### Errors found (R373) -/

/-- What becomes of an upset in a command: it is not touched; it is, and no checker sees it; a checker does, by its row of *Checkers*. -/
inductive Found where
  | untouched
  | missed
  | row (r : Nat)
  deriving DecidableEq, Repr

/-- A command's operands are on the ordered path. -/
def isOrdered (e : Env) : Bool :=
  match fmtOf (if opcodeOf e.d = 8 then fld e.d 75 71 else fld e.d 68 64) with
  | some a => fmtOrdered a
  | none => false

/-- The test spare shadows position `q` (R89). -/
def shadows (s : State) (h : Half) (c q : Nat) : Bool :=
  let r := s.rollOf h c
  r.shadow && r.testSpare.isSome && s.num (hk8 h 0xA022) c == q

/-- An error in a sum of the array at position `q`, in row `item` of those the position computes (R89, R374). The slices of an `ATTN` hold no truncated product, and both sides of its row check differ by the error alone. -/
def positionFinds (t : State) (e : Env) (work : Option GangWork) (q item : Nat) (delta : Int) : Found :=
  let judge (agrees : Bool) : Found :=
    if isOrdered e then (if shadows t e.h e.c q && duplicateFinds delta then .row 4 else .missed)
    else if agrees then .missed else .row 1
  if opcodeOf e.d = 8 then judge (rowAgrees delta 0 false)
  else
    match work with
    | none => .untouched
    | some w =>
      let o := placeOf w.form q
      let group := formK w.form
      let quarter := item / w.steps
      let r := quarter / 4 * group + 4 * o.2.1 + quarter % 4
      if w.steps = 0 ∨ w.rows o.1 ≤ r then .untouched
      else judge (rowCheck w.fa w.fw w.lsb (arraySlice w.form q (w.slice (item % w.steps) o.1 r)) delta)

/-- An error in a column tree or Basin add of output column `n` (all engines' columns in order), in row `item` (R374); only the Spring test covers the ordered path's. -/
def columnFinds (e : Env) (work : Option GangWork) (basin : Bool) (n item : Nat) (delta : Int) : Found :=
  if isOrdered e then .missed
  else if opcodeOf e.d = 8 then (if (if basin then residueAgrees 0 0 delta else columnAgrees delta 0) then .missed else .row 2)
  else
    match work with
    | none => .untouched
    | some w =>
      let g := n / formN w.form
      let col := n % formN w.form
      if w.rows g ≤ item ∨ w.steps = 0 ∨ formEngines w.form ≤ g then .untouched
      else
        let sum := columnSum w 0 g item col
        let total := columnTotal w g col
        if (if basin then residueAgrees 0 sum (sum + delta) else columnAgrees (total + delta) total) then .missed else .row 2

/-- An error in the result of element `item` of a vector operation (R375): the residue modulo 3 of an integer operation, the 129th lane for all; `phase` is the vector cycle the command begins in. -/
def laneFinds (s : State) (e : Env) (phase item : Nat) (delta : Int) : Found :=
  let op := vecOp e.d
  let again := laneRepeated phase item && duplicateFinds delta
  if opcodeOf e.d = 7 then
    match vecKind op with
    | none => .untouched
    | some k =>
      if vecOutLen e.d k ≤ item then .untouched
      else
        let src (slot ofs i : Nat) : Int := sext 32 (bufElem s e slot (ofs * 32) .int32 i)
        let a := src 0 (fld e.d 159 144) item
        let b := if vecBcast e.d = 1 then sext 32 (fld e.d 239 208)
          else src 1 (fld e.d 175 160) (if vecBcast e.d = 2 then item / vecRow e.d else item)
        let odd := decide (0x30 ≤ op) && decide (op ≤ 0x32) && !mod3Agrees op a b (intExact op a b + delta)
        if odd || again then .row 5 else .missed
  else if opcodeOf e.d = 5 ∨ opcodeOf e.d = 6 ∨ opcodeOf e.d = 8 then (if again then .row 5 else .missed)
  else .untouched

/-- The command writes through the requantiser (R54). -/
def usesRequant (d : Nat) : Bool := opcodeOf d == 4 || opcodeOf d == 8 || (opcodeOf d == 3 && bitAt d 77)

/-- What becomes of an upset in a command that ran from state `s` to state `t` (R373). -/
def upsetFound (s t : State) (e : Env) (work : Option GangWork) (phase : Nat) (u : Upset) : Found :=
  let gang := opcodeOf e.d == 3 || opcodeOf e.d == 4 || opcodeOf e.d == 8
  match u.spot with
  | .position q => if gang then positionFinds t e work q u.item u.delta else .untouched
  | .column n => if gang then columnFinds e work false n u.item u.delta else .untouched
  | .basin n => if gang then columnFinds e work true n u.item u.delta else .untouched
  | .requant => if usesRequant e.d then (if duplicateFinds u.delta then .row 3 else .missed) else .untouched
  | .lane => laneFinds s e phase u.item u.delta
  | .fabric => .untouched

/-- The unit of a core that an upset is counted against: a position, or the core (R373, R379). -/
def upsetUnit : Spot → Nat
  | .position q => q + 1
  | _ => 0

end Sys2Proof.Machine
end

