-- ==== Sys2Proof/Machine/Issue.lean ====
section
/-! DEFINITION. The sequencer: faults at the head of the window, issue, effects, gates, semaphores, moorings, tallies, ends (R103 to R110, R121 to R134, R287). -/
namespace Sys2Proof.Machine

/-- What command `cmd` of core `c` sees, with the bytes `got` that have come over a link. -/
def envOf (s : State) (h : Half) (c : Nat) (cmd : Cmd) (cid : Nat) (got : Tab Byte) : Env :=
  let k := s.core h c
  { h := h, c := c, n := k.ctx.getD 0, d := cmd.d, cid := cid, tags := k.tags, args := k.args, rd := cmdByte s h got }

/-! ### Moorings, gates and semaphores: conditions -/

/-- The live-tag mask of a mooring. -/
def liveMask (d : Nat) : Nat := fld d 191 128

/-- `RELOAD` of a mooring: bit 64 of `MOOR`, 65 of `SEM`, 73 of `GATE`. -/
def reloadBit (d : Nat) : Bool := bitAt d (if opcodeOf d = 0x0B then 64 else if opcodeOf d = 0x09 then 65 else 73)

/-- `RELOAD` without an earlier `LOADW`, or with a tag of it outside `LIVE` (R129). -/
def reloadBad (k : CoreSt) (d : Nat) : Bool :=
  reloadBit d && (match k.lastLoadw with
    | none => true
    | some l => (allTags l).any (fun t => !bitAt (liveMask d) t))

/-- A mooring inside a tile or a hold region, or with a `RELOAD` that cannot be honoured (R124, R129, R130). -/
def mooringBad (s : State) (e : Env) : Bool :=
  let k := s.core e.h e.c
  k.tile.isSome || (s.ctx e.h e.n).sem.isSome || reloadBad k e.d

/-- The program of a context. -/
def progOf (s : State) (h : Half) (n : Nat) : Option Prog := (s.ctx h n).ticket.map (·.prog)

/-- The logical core a row counter number names: a core of this half, or 128 + a core of the other (R121, R287). -/
def ctrNamed (s : State) (h : Half) (n core : Nat) : Bool :=
  match progOf s h n with
  | none => false
  | some p => if core < 128 then (progCores h p).contains core else (progCores h.other p).contains (core - 128)

/-- A `GATE` breaks R121. -/
def gateBad (s : State) (e : Env) : Bool :=
  let d := e.d
  let kind := fld d 65 64
  let id := fld d 85 74
  fld d 127 86 != 0 || !slotsOk e.tags d [] || mooringBad s e
  || (match kind with
      | 0 => fld d 255 224 != 0 ||
          !(decide (id ≤ 0x2F) || (decide (0x400 ≤ id) && decide (id ≤ 0x7FF) && ctrNamed s e.h e.n (fld id 9 2)))
      | 1 => fld d 255 240 != 0 || id != 0
      | 2 => fld d 255 192 != 0 || fld d 72 67 != 0 || bitAt d 66
      | _ => true)

/-- A counter as a `GATE` sees it (R121, R287). -/
def gateCounter (s : State) (h : Half) (n id : Nat) : Nat :=
  if id < 0x400 then Tab.get 0 (s.half h).lineCtr id
  else
    let core := fld id 9 2
    if core < 128 then Tab.get 0 (s.ctx h n).rows (core * 4 + id % 4)
    else Tab.get 0 (s.ctx h n).mirror ((core - 128) * 4 + id % 4)

/-- The condition of a `GATE` holds (R121). -/
def gateHolds (s : State) (h : Half) (n d : Nat) (args : List Nat) : Bool :=
  let t := fld d 255 192 + (if bitAt d 66 then nth args (fld d 72 67) else 0)
  match fld d 65 64 with
  | 0 => decide (0 ≤ sext 32 (gateCounter s h n (fld d 85 74) + 2 ^ 32 - t % 2 ^ 32))
  | 1 => decide (0 ≤ Time.diff (s.now h) (BitVec.ofNat 48 t))
  | _ => (s.sem h (fld d 85 74)).holder.isNone

/-- `SEM_ID`. -/
def semId (d : Nat) : Nat := fld d 77 66

/-- A `SEM` breaks its fields or R124. -/
def semBad (s : State) (e : Env) : Bool :=
  let d := e.d
  fld d 255 192 != 0 || fld d 127 78 != 0 || !slotsOk e.tags d []
  || (if bitAt d 64 then liveMask d != 0 || bitAt d 65 || (s.ctx e.h e.n).sem != some (semId d) else mooringBad s e)

/-- A `MOOR` breaks its fields or its place. -/
def moorBad (s : State) (e : Env) : Bool :=
  fld e.d 255 192 != 0 || fld e.d 127 65 != 0 || !slotsOk e.tags e.d [] || mooringBad s e

/-- An `END` with a field set, or inside a hold region (R105, R124). -/
def endBad (s : State) (e : Env) : Bool := fld e.d 255 64 != 0 || !slotsOk e.tags e.d [] || (s.ctx e.h e.n).sem.isSome

/-- The command streams of the program a context runs, as address ranges (R98). -/
def streamRanges (s : State) (h : Half) (n : Nat) : List (Nat × Nat) :=
  match progOf s h n with
  | none => []
  | some p => p.cores.map (fun r => (r.streamBase, r.streamLen))

/-- A range of a command meets its own program's streams (R103). -/
def hitsStream (s : State) (h : Half) (n : Nat) (rs : List (Nat × Nat)) : Bool :=
  (streamRanges s h n).any (fun r => r.2 != 0 && meets rs r.1 r.2)

/-- The bitmap byte of a `TALLY` (R131). -/
def tallyAddr (e : Env) : Nat := (nth e.args (fld e.d 69 64) + fld e.d 191 160 + fld e.d 159 128 / 8) % 2 ^ 48

/-- The counter value a `TALLY` sets (R131). -/
def tallyValue (e : Env) : Nat :=
  (fld e.d 223 192 + (if bitAt e.d 73 then nth e.args (fld e.d 79 74) else 0)) % 2 ^ 32

/-- The row counter's present value. -/
def tallyOld (s : State) (e : Env) : Nat := Tab.get 0 (s.ctx e.h e.n).rows (e.c * 4 + fld e.d 72 71)

/-- A bitmap byte lies in DRAM or a Mere, of either half or of a peer (R131). -/
def tallyPlace (s : State) (a : Nat) : Bool :=
  match s.region a with
  | .dram _ => true
  | .mere _ _ => true
  | .peer _ => decide ((a - 0x600000000000) % 2 ^ 43 < 0x2010000000)
  | _ => false

/-- A `TALLY` breaks its fields or R131, or its bit lies in its own program's stream (R103). -/
def tallyBad (s : State) (e : Env) : Bool :=
  let d := e.d
  fld d 255 224 != 0 || fld d 127 81 != 0 || (allTags d).isEmpty || !slotsOk e.tags d (List.replicate 8 .anyOpt)
  || (bitAt d 80 && (!tallyPlace s (tallyAddr e) || hitsStream s e.h e.n [(tallyAddr e, 1)]))
  || (bitAt d 70 && decide (sext 32 (tallyValue e + 2 ^ 32 - tallyOld s e) < 0))

/-! ### Plans and head faults -/

/-- The box list of a `CROP` has come. -/
def boxesHere (s : State) (e : Env) (got : Tab Byte) : Bool :=
  (List.range (16 * fld e.d 94 82)).all (fun i =>
    let a := cropList e + i
    !isRemote s e.h a || (got.find a).isSome)

/-- The plan of a command that moves or computes. -/
def planOf (s : State) (e : Env) (got : Tab Byte) : Plan :=
  match opcodeOf e.d with
  | 0x01 => planMove e
  | 0x02 => planLoadw e
  | 0x03 => planStream s e
  | 0x04 => planConv e
  | 0x05 => planCrop s e (boxesHere s e got)
  | 0x06 => planPool e
  | 0x07 => planVec e
  | 0x08 => planAttn s e
  | _ => planNone false

/-- A command breaks a rule that its descriptor, its tags or the state before it decide (R134). -/
def cmdBad (s : State) (h : Half) (c : Nat) (cmd : Cmd) : Bool :=
  let e := envOf s h c cmd 0 []
  match opcodeOf cmd.d with
  | 0x09 => semBad s e
  | 0x0A => gateBad s e
  | 0x0B => moorBad s e
  | 0x0C => tallyBad s e
  | 0x0D => endBad s e
  | op => if op = 0 ∨ op > 0x0D then true else (planOf s e []).bad

/-! ### Effects -/

/-- Core `c`'s flights, changed. -/
def mapFlight (s : State) (h : Half) (c cid : Nat) (f : Flight → Flight) : State :=
  let k := s.core h c
  s.setCore h c { k with inflight := k.inflight.map (fun x => if x.cid = cid then f x else x) }

/-- `n` accumulators with free contents in place of some. -/
def spoilAccs (ctr : Nat) (accs : List Acc) : List Acc :=
  (List.zip (List.range accs.length) accs).map (fun p =>
    { p.2 with
      basin := BitVec.ofNat 136 (Config.freeNat (ctr + 2 * p.1))
      f := BitVec.ofNat 32 (Config.freeNat (ctr + 2 * p.1 + 1)) })

/-- What an uncorrected hardware error may leave: every byte of the command's output buffers, the Basins of an open tile and those that wait for the requantiser are undefined (R378). -/
def spoil (s : State) (e : Env) : State :=
  let s := (List.range 8).foldl (fun (s : State) i =>
    if ((slotRoles (opcodeOf e.d)).getD i (false, false)).2 then
      match slotTag e.d i with
      | some _ =>
        let f := freeBytes s (buf e i).2
        f.2.write (buf e i).1 f.1
      | none => s
    else s) s
  let k := s.core e.h e.c
  let mine (r : Run) : Bool := r.cid == e.cid
  let n := (match k.tile with
    | some t => t.accs.length
    | none => 0) + ((k.runs.filter mine).map (fun r => r.accs.length)).foldl (· + ·) 0
  { s.setCore e.h e.c { k with
      tile := k.tile.map (fun t => { t with accs := spoilAccs s.freeCtr t.accs })
      runs := k.runs.map (fun r => if mine r then { r with accs := spoilAccs (s.freeCtr + 2 * n) r.accs } else r) } with
    freeCtr := s.freeCtr + 4 * n }

/-- Hardware errors in a command that has run, from state `s` to state `t` (R373, R378): one that it touches leaves its outputs undefined; one that a checker sees is a disagreement of its unit, a shadow comparison is counted (R91), and the rest stay for a later command (points read in log 32). -/
def findUpsets (s t : State) (e : Env) : State :=
  let mine := t.upsets.filter (fun u => u.half == e.h && u.core == e.c)
  if mine.isEmpty then t
  else
    let work := match opcodeOf e.d with
      | 3 => streamWork s e
      | 4 => convWork s e
      | _ => none
    let o := t.free
    let hits := mine.map (fun u => (u, upsetFound s t e work o.1 u))
    let t := if hits.all (fun p => p.2 == .untouched) then t else spoil o.2 e
    hits.foldl (fun (t : State) p =>
      match p.2 with
      | .row r =>
        let t := { t with upsets := t.upsets.erase p.1 }
        let t := if r = 4 then t.setNum (hk8 e.h 0xA024) e.c (satAdd 16 (t.num (hk8 e.h 0xA024) e.c) 1) else t
        disagree t e.h e.c (upsetUnit p.1.spot) r
      | _ => t) t

/-- Rows of a `MOVE` that nothing keeps from being copied, from the first on. -/
def goodRows (s : State) (e : Env) : List (Nat × Nat × Nat) :=
  let cls := effClass s e.h e.n
  (moveRows e).takeWhile (fun r =>
    let src := [(r.1, r.2.2)]
    let dst := [(r.2.1, r.2.2)]
    (moveMode e.d == 5 || bitAt e.d 71 || rangesVerdict s e.h cls false src == .ok)
    && (bitAt e.d 72 || rangesVerdict s e.h cls true dst == .ok)
    && !hitsStream s e.h e.n dst
    && (decodeCmd s e.h e.c (if moveMode e.d = 5 then [] else src) dst).1)

/-- A `MOVE` that meets a fault while it executes has written some of its bytes, in order; how many is free (R132, R134; DESIGN CHOICE, log 9). A failed transfer is never done (R376): then not all of them. -/
def movePrefix (s : State) (e : Env) (cut : Nat) : State :=
  let rows := goodRows s e
  let total := (rows.map (fun r => r.2.2)).foldl (· + ·) 0
  let f := s.free
  let k := f.1 % max 1 (total + 1 - cut)
  (rows.foldl (fun (r : Nat × State) row =>
    if r.1 = 0 then r
    else
      let m := min r.1 row.2.2
      match r.2.region row.2.1 with
      | .ctl _ => (r.1 - m, r.2)
      | _ => (r.1 - m, (moveRow r.2 { e with rd := cmdByte r.2 e.h [] } (row.1, row.2.1, m)).2)) (k, f.2)).2

/-- The context ends with `FAULT_CONTEXT` while command `e` executes. -/
def execFault (s : State) (e : Env) : State :=
  faultCtx (if opcodeOf e.d = 1 then movePrefix s e 0 else s) e.h e.n

/-- A transfer of command `e` fails its fabric CRC: the context ends, the half's fabric is under suspicion (R376; points read in log 32). -/
def fabricFault (s : State) (e : Env) : State :=
  let s := takeFabric s e.h e.c
  faultCtx (if opcodeOf e.d = 1 then movePrefix s e 1 else s) e.h e.n

/-- Run a command's effect (R110); `true` for a malformed port request. -/
def runCmd (s : State) (e : Env) (got : Tab Byte) : Bool × State :=
  match opcodeOf e.d with
  | 0x01 => runMove s e got
  | 0x02 => (false, runLoadw s e)
  | 0x03 => (false, runStream s e)
  | 0x04 => (false, runConv s e)
  | 0x05 => (false, runCrop s e)
  | 0x06 => (false, runPool s e)
  | 0x07 => (false, runVec s e)
  | 0x08 => (false, runAttn s e)
  | _ => (false, s)

/-- Remote lines a command still has to read. -/
def missingLines (s : State) (h : Half) (reads : List (Nat × Nat)) (got : Tab Byte) : List Nat :=
  ((reads.flatMap (fun r => linesOf r.1 r.2)).eraseDups).filter (fun l => isRemote s h l && (got.find l).isNone)

/-- Take an issued command one step on: judge its accesses, request what lies across a link, or run it once everything is there (R29, R109, R134, R226). -/
def advanceCmd (s : State) (h : Half) (c cid : Nat) : State :=
  match (s.core h c).inflight.find? (fun f => f.cid == cid) with
  | none => s
  | some f =>
    if f.ran then s
    else
      let e := envOf s h c f.cmd cid f.got
      let p := planOf s e f.got
      let cls := effClass s h e.n
      let v1 := rangesVerdict s h cls false p.reads
      let v2 := rangesVerdict s h cls true p.writes
      if v1 = .fault then execFault s e
      else if v1 = .lost then endTicket s h e.n stHalfLost
      else if v2 = .fault then execFault s e
      else if v2 = .lost then endTicket s h e.n stHalfLost
      else if p.exec || hitsStream s h e.n (p.writes ++ p.poolW) then execFault s e
      else
        let miss := missingLines s h p.reads f.got
        if !miss.isEmpty then
          if (s.half h).xfers.any (fun x => x.core == c && x.cid == cid) then s else sendReads s h c cid e.n miss
        else if fabricUpset s h c && !(p.reads ++ p.writes).isEmpty then fabricFault s e
        else
          let locals := p.reads.filter (fun r => !isRemote s h r.1)
          let o := decodeCmd s h c (locals ++ p.poolR) (p.writes.filter (fun r => !isRemote s h r.1) ++ p.poolW)
          if !o.1 then execFault o.2 e
          else
            let r := runCmd (mapFlight o.2 h c cid (fun x => { x with ran := true })) { e with rd := cmdByte o.2 h f.got } f.got
            if r.1 then faultCtx r.2 h e.n else findUpsets o.2 r.2 e

/-- The Manifest entries an `ATTN` reads (R186). -/
def attnEntries (s : State) (e : Env) : List Nat := if opcodeOf e.d = 8 then atSeqs s e else []

/-- A command that moves or computes is put in flight (R107, R109). -/
def inFlight (s : State) (h : Half) (c : Nat) (cmd : Cmd) : State :=
  let cid := (s.half h).nextCid
  let s := s.modHalf h (fun x => { x with nextCid := cid + 1 })
  let e := envOf s h c cmd cid []
  let p := planOf s e []
  let k := s.core h c
  let f : Flight := ⟨cmd, cid, false, [], 0, statZero, attnEntries s e,
    (p.reads ++ p.writes).any (fun r => s.region r.1 == .host),
    (p.reads ++ p.writes).any (fun r => isRemote s h r.1)⟩
  s.setCore h c { k with inflight := k.inflight ++ [f] }

/-- Issue a command that moves or computes: it is in flight from now on. -/
def startCmd (s : State) (h : Half) (c : Nat) (cmd : Cmd) : State := advanceCmd (inFlight s h c cmd) h c (s.half h).nextCid

/-! ### Barriers, tallies and ends -/

/-- A pre-emption request or a due Spring test is pending for core `c` (R127); a yielded test waits until class 0 neither claims nor holds the core (R383). -/
def mooringDue (s : State) (h : Half) (c : Nat) : Bool :=
  let k := s.core h c
  k.preempt || preemptAsked s h c || s.num (hk8 h 0xA032) c == 1
  || (springReady s h c && (match k.ctx with
      | some n => effClass s h n != 0
      | none => true))

/-- Take a mooring: no later command issues; the save starts once every earlier command has completed (R128). -/
def takeMooring (s : State) (h : Half) (c : Nat) (cmd : Cmd) : State :=
  let k := s.core h c
  s.setCore h c { k with wait := none, moor := some ⟨cmd, k.inflight.isEmpty⟩ }

/-- Waiting moorings at which a request has come are taken (R127, R128). -/
def takeWaiting (s : State) (h : Half) : State :=
  (s.half h).cores.foldl (fun (s : State) p =>
    let k := s.core h p.1
    match k.wait with
    | some cmd => if k.moor.isNone && mooringDue s h p.1 then takeMooring s h p.1 cmd else s
    | none => s) s

/-- Let a core wait at a barrier; its context has run until now (R220). -/
def waitAt (s : State) (h : Half) (c : Nat) (cmd : Cmd) : State :=
  let k := s.core h c
  let s := s.setCore h c { k with wait := some cmd }
  match k.ctx with
  | some n => stampRan s h n
  | none => s

/-- Contexts whose acquire faults (R124). -/
def faultAll (s : State) (h : Half) (ns : List Nat) : State := ns.foldl (fun (s : State) n => faultCtx s h n) s

/-- Issue a `GATE` (R121, R127). -/
def issueGate (s : State) (h : Half) (c : Nat) (cmd : Cmd) : State :=
  let k := s.core h c
  if mooringDue s h c then takeMooring s h c cmd
  else if gateHolds s h (k.ctx.getD 0) cmd.d k.args then s
  else waitAt s h c cmd

/-- Issue a `SEM`: an acquire takes a free semaphore or waits in its class's queue; a release passes it on (R123, R127). -/
def issueSem (s : State) (h : Half) (c : Nat) (cmd : Cmd) : State :=
  let n := (s.core h c).ctx.getD 0
  let i := semId cmd.d
  if bitAt cmd.d 64 then
    let x := s.ctx h n
    let r := semRelease (s.setCtx h n { x with sem := none }) h i
    faultAll r.1 h r.2
  else if mooringDue s h c then takeMooring s h c cmd
  else
    let x := s.sem h i
    match x.holder with
    | none => (s.setSem h i { x with holder := some n }).setCtx h n { s.ctx h n with sem := some i }
    | some _ =>
      let w := ((s.ctx h n).cls, n, c)
      waitAt (s.setSem h i { x with waiters := if x.waiters.contains w then x.waiters else x.waiters ++ [w] }) h c cmd

/-- Issue a `MOOR` (R127). -/
def issueMoor (s : State) (h : Half) (c : Nat) (cmd : Cmd) : State :=
  if mooringDue s h c then takeMooring s h c cmd else s

/-- Set a bit of a tally byte (R131). -/
def orByte (s : State) (a bit : Nat) : State := s.write a [s.byte a ||| BitVec.ofNat 8 (2 ^ bit)]

/-- Send a row counter to the other half's paired context (R287). -/
def sendCounter (s : State) (e : Env) (value : Nat) : State :=
  match (s.ctx e.h e.n).ticket with
  | none => s
  | some tk =>
    sendRequest s e.h e.c e.cid e.n .counter (dramBase e.h.other)
      (fun m => { m with addr := 0, program := tk.handle, seq := tk.seq, ctr := fld e.d 72 71, data := natLe 4 value }) .counter 1

/-- A context is paired with one of the other half (R287). -/
def isPaired (s : State) (h : Half) (n : Nat) : Bool :=
  match progOf s h n with
  | some p => progNames h.other p
  | none => false

/-- Issue a `TALLY` (R131, R132, R287): the bit first, then the counter; it stays in flight while an acknowledgement is outstanding. -/
def issueTally (s : State) (h : Half) (c : Nat) (cmd : Cmd) : State :=
  let cid := (s.half h).nextCid
  let s := s.modHalf h (fun x => { x with nextCid := cid + 1 })
  let e := envOf s h c cmd cid []
  let d := cmd.d
  let n := e.n
  let a := tallyAddr e
  let bit := fld d 159 128 % 8
  let mapEn := bitAt d 80
  let far := bitAt d 70 && isPaired s h n
  let v := if mapEn then accessVerdict s h (effClass s h n) true a 1 else .ok
  if v = .fault then faultCtx s h n
  else if v = .lost ∨ (far ∧ ferryLost s h) then endTicket s h n stHalfLost
  else if mapEn && fabricUpset s h c then fabricFault s e
  else
    let o := if mapEn && !isRemote s h a then decodeCmd s h c [] [(a, 1)] else (true, s)
    if !o.1 then faultCtx o.2 h n
    else
      let k := o.2.core h c
      let s := o.2.setCore h c { k with
        inflight := k.inflight ++ [⟨cmd, cid, true, [], 0, statZero, [], false, mapEn && isRemote s h a⟩] }
      let s := if !mapEn then s
        else if isRemote s h a then
          let x := s.ctx h n
          sendRequest (s.setCtx h n { x with pend := x.pend + 1 }) h c cid n .or8 a
            (fun m => { m with addr := (routeOf s h a).2, data := [BitVec.ofNat 8 (2 ^ bit)] }) .or8 1
        else
          let x := s.ctx h n
          orByte (s.setCtx h n { x with progress := x.progress + 1 }) a bit
      if bitAt d 70 then
        let x := s.ctx h n
        let s := s.setCtx h n { x with rows := Tab.set 0 x.rows (c * 4 + fld d 72 71) (tallyValue e) }
        if far then sendCounter s e (tallyValue e) else s
      else s

/-- Issue an `END`: the core is done; the last one ends the ticket (R216, R231). -/
def issueEnd (s : State) (h : Half) (c : Nat) : State :=
  let n := (s.core h c).ctx.getD 0
  let x := s.ctx h n
  let s := (s.setCtx h n { x with ended := x.ended ++ [c] }).setCore h c coreFree
  match x.ticket with
  | none => s
  | some tk =>
    if (progCores h tk.prog).all (fun k => (x.ended ++ [c]).contains k) then endTicket s h n (endStatus x.flags) else s

/-! ### The issue window (R107, R108) -/

/-- Lists share an element. -/
def shares {α : Type} [BEq α] (a b : List α) : Bool := a.any (fun x => b.contains x)

/-- Command `i` of the window meets the conditions of R107 and R108. -/
def canIssue (k : CoreSt) (i : Nat) (cmd : Cmd) : Bool :=
  let earlier := (k.window.take i).map (·.d)
  let live := k.inflight.map (·.cmd.d)
  let d := cmd.d
  decide (k.inflight.length < 16)
  && !live.any (fun l => shares (heldUnits l) (unitsOf d))
  && !live.any (fun l => shares (writeTags l) (readTags d))
  && !live.any (fun l => shares (readTags l ++ writeTags l) (writeTags d))
  && !earlier.any (fun l => shares (unitsOf l) (unitsOf d) || shares (allTags l) (allTags d) || isBarrier l)
  && !(inGangOrder d && earlier.any inGangOrder)
  && (!isBarrier d || i == 0)
  && (!(opcodeOf d == 0x0D || (opcodeOf d == 0x09 && bitAt d 64)) || (i == 0 && k.inflight.isEmpty))

/-- Issue one command of the window. -/
def issueCmd (s : State) (h : Half) (c : Nat) (cmd : Cmd) : State :=
  match opcodeOf cmd.d with
  | 0x09 => issueSem s h c cmd
  | 0x0A => issueGate s h c cmd
  | 0x0B => issueMoor s h c cmd
  | 0x0C => issueTally s h c cmd
  | 0x0D => issueEnd s h c
  | _ => startCmd s h c cmd

/-- The oldest command of the first sixteen that may issue (R107). -/
def pickCmd (s : State) (h : Half) (c : Nat) : Option (Nat × Cmd) :=
  let k := s.core h c
  let w := k.window.take 16
  (List.zip (List.range w.length) w).find? (fun p => canIssue k p.1 p.2 && (p.1 == 0 || !cmdBad s h c p.2))

/-- The oldest command of the window breaks a rule, in the state before it: an acquire that still waits will then have been granted (R134). -/
def headBad (s : State) (h : Half) (c : Nat) (hd : Cmd) : Bool :=
  let k := s.core h c
  match k.wait with
  | some w =>
    if opcodeOf w.d = 0x09 then
      let n := k.ctx.getD 0
      cmdBad (s.setCtx h n { s.ctx h n with sem := some (semId w.d) }) h c hd
    else cmdBad s h c hd
  | none => cmdBad s h c hd

/-- One issue of core `c`: a faulty command at the head of the window ends its context, even while a barrier that has issued waits (R134); else the oldest command that may issue does. -/
def issueOne (s : State) (h : Half) (c : Nat) : State :=
  let k := s.core h c
  if k.ctx.isNone || k.restoring || k.moor.isSome then s
  else
    match k.window with
    | [] => s
    | hd :: _ =>
      if headBad s h c hd then faultCtx s h (k.ctx.getD 0)
      else if k.wait.isSome then s
      else
        match pickCmd s h c with
        | none => s
        | some p => issueCmd (s.setCore h c { k with window := k.window.eraseIdx p.1 }) h c p.2

/-- The class a core's issue is taken in: its context's effective class. -/
def coreClass (s : State) (h : Half) (k : CoreSt) : Nat :=
  match k.ctx with
  | some n => min 3 (effClass s h n)
  | none => 3

/-- The half's cores in the order in which the Manifest engine takes what they post in one cycle: by class, then by number (R191; points read in log 29). -/
def issueOrder (s : State) (h : Half) : List Nat :=
  (List.range 4).flatMap (fun cls => ((s.half h).cores.filter (fun p => coreClass s h p.2 == cls)).map Prod.fst)

/-- One round of issue over the half's cores. -/
def issueRound (s : State) (h : Half) : State := (issueOrder s h).foldl (fun (s : State) c => issueOne s h c) s

/-- Issue whatever may issue in half `h` (R107). -/
def pump (s : State) (h : Half) : State :=
  let fuel := ((s.half h).cores.map (fun p => p.2.window.length)).foldl (· + ·) 1
  (List.range fuel).foldl (fun (s : State) _ => issueRound s h) s

/-! ### Fetch (R103) -/

/-- The command stream is not fetched further: an `END` or a command past the stream waits in the window. -/
def fetchEnds (k : CoreSt) : Bool := k.window.any (fun w => opcodeOf w.d == 0x0D || opcodeOf w.d == 0)

/-- Fetch delivers a descriptor to core `c` (R103 to R105; DESIGN CHOICE, log 4); cores stand still in a thermal hold (R455). Fetch past the stream is found when every earlier command has issued (R134): it waits as opcode 0, which no command has. The stream is read through the Mere's code (R240). -/
def deliver (s : State) (h : Half) (c d : Nat) (want : Nat → Bool) : State :=
  let k := s.core h c
  match k.ctx with
  | none => s
  | some n =>
    if (s.half h).power.hold || k.restoring || fetchEnds k || k.moor.isSome then s
    else
      let op := opcodeOf d
      let known := decide (1 ≤ op) && decide (op ≤ 0x0D)
      if known && !want d then s
      else if k.fetch + cmdBytes d > k.streamLen then pump (s.setCore h c { k with window := k.window ++ [⟨0, k.fetch⟩] }) h
      else
        let o := decodeCmd s h c [(k.streamBase + k.fetch, cmdBytes d)] []
        if !o.1 then faultCtx o.2 h n
        else
          let k := o.2.core h c
          let x := o.2.ctx h n
          let s := if x.startT.isNone then o.2.setCtx h n { x with startT := some (o.2.now h) } else o.2
          pump (s.setCore h c { k with fetch := k.fetch + cmdBytes d, window := k.window ++ [⟨d % 2 ^ (8 * cmdBytes d), k.fetch⟩] }) h

/-- A command of core `c` is complete: its tags and units are free again (R109, R128). -/
def completeCmd (s : State) (h : Half) (c i : Nat) : State :=
  let k := s.core h c
  match k.inflight[i]? with
  | none => s
  | some f =>
    if (s.half h).power.hold || !f.ran || f.runs != 0 || (s.half h).xfers.any (fun x => x.core == c && x.cid == f.cid) then s
    else
      let rest := k.inflight.eraseIdx i
      let moor := k.moor.map (fun m => { m with saving := m.saving || rest.isEmpty })
      pump (takeWaiting (s.setCore h c { k with inflight := rest, moor := moor }) h) h

/-! ### Save and restore (R128, R129, R227) -/

/-- Tags whose buffers a mooring keeps: `LIVE` bits that name Pool buffers, ascending (R128, R130). -/
def liveTags (k : CoreSt) (d : Nat) : List Nat :=
  (List.range 64).filter (fun t => bitAt (liveMask d) t && !tagIsToken k.tags t)

/-- The condition of a saved mooring holds: a `GATE`'s condition, a granted or free semaphore; a `MOOR` always (R129, R219). -/
def savedReady (s : State) (h : Half) (n : Nat) (v : SavedCore) : Bool :=
  match opcodeOf v.cmd.d with
  | 0x0A => gateHolds s h n v.cmd.d v.args
  | 0x09 => (s.ctx h n).sem == some (semId v.cmd.d) || (s.sem h (semId v.cmd.d)).holder.isNone
  | _ => true

/-- The state of a context that no core holds any more (R218). -/
def restState (s : State) (h : Half) (n : Nat) : CtxState :=
  if (s.ctx h n).saved.any (savedReady s h n) then .parked else .blocked

/-- The save of core `c` at its taken mooring is done: the core goes to the dispatcher, or to a due Spring test (R128, R383). It waits for swap space (R227). A context that gives up its last core for a slot is unloaded (R220). -/
def saveDone (s : State) (h : Half) (c : Nat) : State :=
  let k := s.core h c
  match k.ctx, k.moor with
  | some n, some m =>
    if !k.inflight.isEmpty then s
    else
      let tags := liveTags k m.cmd.d
      let ranges := tags.map (fun t => (poolBase h c + tagBase k.tags t, tagLen k.tags t))
      let size := (ranges.map Prod.snd).foldl (· + ·) 0
      if swapUsed s h (c / 8) + size > swapCapacity s h then s
      else
        let o := decodeCmd s h c ranges []
        if !o.1 then faultCtx o.2 h n
        else
          let s := o.2
          let live := tags.map (fun t => (t, s.read (poolBase h c + tagBase k.tags t) (tagLen k.tags t)))
          let o := spill (s.setCore h c coreFree) (swapPlace s h (c / 8)) (swapCapacity s h) (live.flatMap Prod.snd)
          let v : SavedCore := ⟨c, m.cmd, k.args, k.lastLoadw, live, false, o.1⟩
          let s := stampRan o.2 h n
          let x := s.ctx h n
          let s := s.setCtx h n { x with saved := x.saved ++ [v] }
          let held := (s.half h).cores.any (fun p => decide (p.2.ctx = some n))
          let x := s.ctx h n
          let s := if held || x.state == .placing then s.setCtx h n { x with want := x.want ++ [c] }
            else
              let rest := restState s h n
              let s := s.setCtx h n { x with want := [], state := rest }
              if x.evict then unload s h n (rest == .parked) else s
          if springReady s h c then s.setNum (hk8 h 0xA032) c 2 else s
  | _, _ => s

/-- Where a saved live set lies: in the swap ways, or in the save area once it has been drained (R227). -/
def savedAt (s : State) (h : Half) (n : Nat) (v : SavedCore) (j : Nat) : Nat :=
  if v.drained then (s.ctx h n).saveAddr + v.place + j else swapPlace s h (v.core / 8) (v.place + j)

/-- Read a saved live set through the memory codes (R240, R241, R249). -/
def savedCheck (s : State) (h : Half) (n : Nat) (v : SavedCore) : Bool × State :=
  decodeHits s (some (h, v.core)) 0 (meets ((List.range (savedBytes v)).map (fun j => (savedAt s h n v j, 1))))

/-- Reload a drained live set into its cluster's swap ways, from which the restore takes it (R227). -/
def reloadSwap (s : State) (h : Half) (v : SavedCore) : State :=
  if v.drained then (spill s (swapPlace s h (v.core / 8)) (swapCapacity s h) (liveBytes v)).2 else s

/-- Core `c` has restored its saved state: live buffers back, all else zero, the saved `LOADW` run again under `RELOAD`, and execution restarts at the mooring (R129); an acquire granted meanwhile is passed. A drained set comes back through the swap ways, and waits for room there (R227). -/
def restoreDone (s : State) (h : Half) (c : Nat) : State :=
  let k := s.core h c
  match k.ctx with
  | none => s
  | some n =>
    let x := s.ctx h n
    match x.ticket, x.saved.find? (fun v => v.core == c) with
    | some tk, some v =>
      if !k.restoring || (v.drained && decide (swapUsed s h (c / 8) + savedBytes v > swapCapacity s h)) then s
      else
        match progCore h tk.prog c with
        | none => s
        | some r =>
          let g := savedCheck s h n v
          let o := startOnCore (reloadSwap g.2 h v) h c n tk r
          if !(g.1 && o.1) then faultCtx o.2 h n
          else
            let s := v.live.foldl (fun (s : State) p => s.write (poolBase h c + tagBase r.tags p.1) p.2) o.2
            let k := s.core h c
            let s := s.setCore h c { k with args := v.args, lastLoadw := v.lastLoadw, fetch := v.cmd.ofs + cmdBytes v.cmd.d }
            let s := match v.lastLoadw with
              | some l => if reloadBit v.cmd.d then runLoadw s (envOf s h c ⟨l, 0⟩ 0 []) else s
              | none => s
            let granted := opcodeOf v.cmd.d == 0x09 && x.sem == some (semId v.cmd.d)
            let k := s.core h c
            let s := s.setCore h c { k with window := if granted then [] else [v.cmd] }
            let x := s.ctx h n
            pump (s.setCtx h n { x with saved := x.saved.filter (fun w => decide (w.core ≠ c)) }) h
    | _, _ => s

end Sys2Proof.Machine
end

