-- ==== Sys2Proof/Machine/CoreCmds.lean ====
section
/-! DEFINITION. Meanings of the core rows: each descriptor as fetch delivers it, and the events of a core (R97 to R134). -/
namespace Sys2Proof.Machine

/-- What every meaning answers. -/
abbrev Ans := Host.Outcome State Fault Refusal

/-- A descriptor of opcode `op`. -/
def isOp (op : Nat) (d : Nat) : Bool := opcodeOf d == op

/-- A `MOVE` in a given mode. -/
def isMove (mode : Nat) (d : Nat) : Bool := opcodeOf d == 1 && moveMode d == mode

/-- `MOVE` in `COPY` mode; the reserved modes fault here too (R111). -/
def execMove (h : Half) (c : Nat) (d : BitVec 256) (s : State) : Ans :=
  .next (deliver s h c d.toNat (fun d => isMove 0 d || (opcodeOf d == 1 && decide (moveMode d > 5))))

/-- `MOVE` in `S2C2` mode (R145). -/
def execS2c2 (h : Half) (c : Nat) (d : BitVec 256) (s : State) : Ans := .next (deliver s h c d.toNat (isMove 1))

/-- `MOVE` in `S2C4` mode (R145). -/
def execS2c4 (h : Half) (c : Nat) (d : BitVec 256) (s : State) : Ans := .next (deliver s h c d.toNat (isMove 2))

/-- `MOVE` in `C2S2` mode (R146). -/
def execC2s2 (h : Half) (c : Nat) (d : BitVec 256) (s : State) : Ans := .next (deliver s h c d.toNat (isMove 3))

/-- `MOVE` in `C2S4` mode (R146). -/
def execC2s4 (h : Half) (c : Nat) (d : BitVec 256) (s : State) : Ans := .next (deliver s h c d.toNat (isMove 4))

/-- `MOVE` in `FILL` mode (R111). -/
def execFill (h : Half) (c : Nat) (d : BitVec 256) (s : State) : Ans := .next (deliver s h c d.toNat (isMove 5))

/-- `LOADW` (R70). -/
def execLoadw (h : Half) (c : Nat) (d : BitVec 256) (s : State) : Ans := .next (deliver s h c d.toNat (isOp 2))

/-- `STREAM` (R77). -/
def execStream (h : Half) (c : Nat) (d : BitVec 256) (s : State) : Ans := .next (deliver s h c d.toNat (isOp 3))

/-- The requantiser of core `c` writes its oldest waiting run (R78). -/
def requantiseFront (s : State) (h : Half) (c : Nat) : State :=
  let k := s.core h c
  match k.runs with
  | [] => s
  | r :: _ =>
    match k.inflight.find? (fun f => f.cid == r.cid) with
    | none => s
    | some f => runRequant s (envOf s h c f.cmd f.cid []) r f

/-- `REQUANTISE_TILE` (R54, R78). -/
def execRequantiseTile (h : Half) (c : Nat) (s : State) : Ans := .next (requantiseFront s h c)

/-- `CONV` (R115). -/
def execConv (h : Half) (c : Nat) (d : BitVec 512) (s : State) : Ans := .next (deliver s h c d.toNat (isOp 4))

/-- `CROP` (R116). -/
def execCrop (h : Half) (c : Nat) (d : BitVec 256) (s : State) : Ans := .next (deliver s h c d.toNat (isOp 5))

/-- `POOL` (R117). -/
def execPool (h : Half) (c : Nat) (d : BitVec 256) (s : State) : Ans := .next (deliver s h c d.toNat (isOp 6))

/-- `VEC` (R118). -/
def execVec (h : Half) (c : Nat) (d : BitVec 256) (s : State) : Ans := .next (deliver s h c d.toNat (isOp 7))

/-- `ATTN` (R166). -/
def execAttn (h : Half) (c : Nat) (d : BitVec 512) (s : State) : Ans := .next (deliver s h c d.toNat (isOp 8))

/-- `SEM` acquire (R123). -/
def execSemAcquire (h : Half) (c : Nat) (d : BitVec 256) (s : State) : Ans :=
  .next (deliver s h c d.toNat (fun d => opcodeOf d == 9 && !bitAt d 64))

/-- `SEM` release (R123). -/
def execSemRelease (h : Half) (c : Nat) (d : BitVec 256) (s : State) : Ans :=
  .next (deliver s h c d.toNat (fun d => opcodeOf d == 9 && bitAt d 64))

/-- `GATE` (R121). -/
def execGate (h : Half) (c : Nat) (d : BitVec 256) (s : State) : Ans := .next (deliver s h c d.toNat (isOp 0x0A))

/-- A waiting `GATE` whose condition has come to hold opens (R121). -/
def openGate (s : State) (h : Half) (c : Nat) : State :=
  let k := s.core h c
  match k.wait with
  | some cmd =>
    if opcodeOf cmd.d = 0x0A ∧ gateHolds s h (k.ctx.getD 0) cmd.d k.args then
      pump (s.setCore h c { k with wait := none }) h
    else s
  | none => s

/-- `GATE_OPEN` at ticket time `t` (R121). -/
def execGateOpen (h : Half) (c : Nat) (t : Time) (s : State) : Ans := .next (openGate (s.atTime h t) h c)

/-- `MOOR` (R127). -/
def execMoor (h : Half) (c : Nat) (d : BitVec 256) (s : State) : Ans := .next (deliver s h c d.toNat (isOp 0x0B))

/-- `CONTEXT_SAVE_DONE` (R128). -/
def execContextSaveDone (h : Half) (c : Nat) (s : State) : Ans := .next (takeWaiting (saveDone s h c) h)

/-- `CONTEXT_RESTORE` (R129). -/
def execContextRestore (h : Half) (c : Nat) (s : State) : Ans := .next (restoreDone s h c)

/-- `TALLY` (R131). -/
def execTally (h : Half) (c : Nat) (d : BitVec 256) (s : State) : Ans := .next (deliver s h c d.toNat (isOp 0x0C))

/-- `END` (R105, R231). -/
def execEndCmd (h : Half) (c : Nat) (d : BitVec 256) (s : State) : Ans := .next (deliver s h c d.toNat (isOp 0x0D))

/-- The `k`-th command in flight of core `c` completes (R109). -/
def execCommandComplete (h : Half) (c : Nat) (k : Nat) (s : State) : Ans := .next (completeCmd s h c k)

/-! ### The rolling test (R88 to R92) -/

/-- The core runs its rolling test: started, not retired, not in Nap (*Rolling-test states*). -/
def rollRuns (s : State) (h : Half) (c : Nat) : Bool :=
  decide (c < s.part.cores) && s.num (hk8 h 0xA021) c != 3 && !coreRetired s h c

/-- The test spare's signature differs: it is bad, and the next pass starts at the same position with the next open spare (R90). -/
def lbistFail (s : State) (h : Half) (c i : Nat) : State :=
  let s := s.setRoll h c { s.rollOf h c with testSpare := none, lbist := false }
  let s := promiseAnew (markBad s h c i (s.num (hk8 h 0xA022) c)) h c i
  if coreRetired s h c then s else startPass s h c

/-- `LBIST_END`: the signature of the test spare agrees or not (R89, R90). -/
def execLbistEnd (h : Half) (c : Nat) (pass : Bool) (s : State) : Ans :=
  let r := s.rollOf h c
  .next (match r.testSpare with
    | none => s
    | some i =>
      if !rollRuns s h c || !r.lbist then s
      else if pass then (s.setRoll h c { r with lbist := false }).setNum (hk8 h 0xA021) c 1
      else lbistFail s h c i)

/-- `ROLL_PASS_END`: the pass counter advances and the next pass starts, or none without a free spare (R88, R92). -/
def execRollPassEnd (h : Half) (c : Nat) (s : State) : Ans :=
  let r := s.rollOf h c
  .next (if !rollRuns s h c then s
    else
      match r.testSpare with
      | some _ =>
        if r.lbist then s
        else
          let s := s.setNum (hk8 h 0xA023) c ((s.num (hk8 h 0xA023) c + 1) % 2 ^ 32)
          startPass (s.setRoll h c { r with testSpare := none, shadow := false }) h c
      | none => startPass s h c)

end Sys2Proof.Machine
end

