-- ==== Sys2Proof/Machine/QueueCmds.lean ====
section
/-! DEFINITION. Meanings of the queue, context and Manifest rows (R182 to R233). -/
namespace Sys2Proof.Machine


/-- CCLK returns to an idle half (R457). -/
def wakeIdle (s : State) (h : Half) : State := if powerState s h = 1 then s.setNum (hk h 0x4D00) 8 0 else s

/-- The dispatcher takes tickets: the half is in Run or Idle and serves its objects (R265, R458). -/
def dispatcherOn (s : State) (h : Half) : Bool := decide (powerState s h ≤ 1) && decide (2 ≤ (s.half h).ready) && !(s.half h).power.dispatchOff

/-- Host software reaches half `h`: its link is up, memory space is enabled, BAR0 is served (R263, R275, R276). -/
def hostServed (s : State) (h : Half) : Bool :=
  (s.half h).host.linkUp && (s.half h).host.memEnable && decide (2 ≤ (s.half h).ready)

/-- The context on whose behalf a request is written: `none` when there is no such writer; `some none` for host software. -/
def srcCtx (s : State) (h : Half) : Src → Option (Option Nat)
  | .host => if hostServed s h then some none else none
  | .core c => (s.core h c).ctx.map some

/-- `DOORBELL`: bytes written at an offset of the doorbell page (R208, R209): one aligned 8-byte write is accepted or discarded by its word, any other is discarded; an accepted one also wakes an idle half (R457). -/
def execDoorbell (h : Half) (src : Src) (ofs : Nat) (bs : List Byte) (s : State) : Ans :=
  .next (match srcCtx s h src with
    | none => s
    | some _ =>
      if bs.isEmpty ∨ 0x100000 < ofs + bs.length then s
      else if bs.length = 8 ∧ ofs % 8 = 0 then wakeIdle (ringDoorbell s h (ofs / 8) (leNat bs)) h
      else noteDiscard s h (ofs / 8) 1)

/-- `DISPATCH_CHOICE` (R221, R222). -/
def execDispatchChoice (h : Half) (s : State) : Ans :=
  .next (if dispatcherOn s h then takeWaiting (dispatchChoice s h) h else s)

/-- `CORE_HANDOVER` (R222). -/
def execCoreHandover (h : Half) (c : Nat) (s : State) : Ans :=
  .next (if powerState s h ≤ 1 ∧ c < s.part.cores then takeWaiting (handover (wakeIdle s h) h c) h else s)

/-- A blocked context, or an unloaded one that was blocked, whose wait condition holds becomes runnable (R219). -/
def makeRunnable (s : State) (h : Half) (n : Nat) : State :=
  let x := s.ctx h n
  if !x.saved.any (savedReady s h n) then s
  else
    match x.state with
    | .blocked => wakeIdle (s.setCtx h n { x with state := .parked }) h
    | .unloaded => if x.runnable then s else wakeIdle (s.setCtx h n { x with runnable := true }) h
    | _ => s

/-- `CONTEXT_RUNNABLE` at ticket time `t` (R219). -/
def execContextRunnable (h : Half) (n : Nat) (t : Time) (s : State) : Ans := .next (makeRunnable (s.atTime h t) h n)

/-- Free swap space in a cluster is below `SWAP_RESERVE_KIB` (R227). -/
def swapShort (s : State) (h : Half) (cl : Nat) : Bool :=
  decide (swapCapacity s h < swapUsed s h cl + 1024 * s.num (hk h 0x4300) 0x0A)

/-- Parked contexts with live sets still in a cluster's swap ways. -/
def drainable (s : State) (h : Half) (cl : Nat) : List Nat :=
  ((s.half h).ctxs.filter (fun p => (p.2.state == .parked || p.2.state == .blocked)
    && p.2.saved.any (fun v => v.core / 8 == cl && !v.drained && !v.live.isEmpty))).map Prod.fst

/-- `SWAP_DRAIN`: the least recently run parked context of a cluster drains to its save area, in channel groups of its class alone (R227; points read in log 33). -/
def execSwapDrain (h : Half) (cl : Nat) (s : State) : Ans :=
  .next (if !swapShort s h cl then s
    else
      match oldestOf s h (drainable s h cl) with
      | none => s
      | some n => if saveRoom s h n = 0 then s else drainSets s h n (some cl))

/-- `COMPLETION_RECORD` of queue `q` (R214 to R217). -/
def execCompletionRecord (h : Half) (q : Nat) (s : State) : Ans := .next (writeRecord s h q)

/-- `ABORT` (R230, R231). -/
def execAbort (h : Half) (src : Src) (r : BitVec 128) (s : State) : Ans :=
  .next (match srcCtx s h src with
    | none => s
    | some ctx =>
      let o := abortRequest s h ctx r.toNat
      match ctx with
      | some n => if o.1 then faultCtx o.2 h n else o.2
      | none => o.2)

/-- Overlay bytes on an image from an offset. -/
def overlay (img : List Byte) (ofs : Nat) (bs : List Byte) : List Byte :=
  upto img.length (fun i => if ofs ≤ i ∧ i < ofs + bs.length then bs.getD (i - ofs) 0 else img.getD i 0)

/-- An aligned BAR0 access of 4 or 8 bytes (R264). -/
def bar0Aligned (o n : Nat) : Bool := (n == 4 && o % 4 == 0) || (n == 8 && o % 8 == 0)

/-- Count a discarded BAR0 access (R264, R426). -/
def discardBar0 (s : State) (h : Half) (o : Nat) : State := s.observe h 4 1 0xFF (0x80000000 + o) 0 none

/-- A host write to a Quay descriptor (R205, R206). -/
def writeQuay (s : State) (h : Half) (q ofs : Nat) (bs : List Byte) : State :=
  let y := s.quay h q
  let w := leNat (overlay (quayBytes y) ofs bs)
  let z := { y with
    tring := fld w 191 144, cring := fld w 143 96, ringLog2 := fld w 47 43, context := fld w 42 31, cls := fld w 30 29
    vector := fld w 28 18, irq := bitAt w 17 }
  let en := bitAt w 16
  if y.en then (if z = y then s.setQuay h q { y with en := en } else s)
  else if !en then s.setQuay h q z
  else if z.ringLog2 < 4 ∨ 15 < z.ringLog2 then s.setQuay h q { z with err := stState }
  else
    (s.setQuay h q { z with en := true, err := 0, head := 0, tail := 0, ctail := 0, aborts := [] }).modHalf h
      (fun x => { x with passed := x.passed.filter (fun p => decide (p.1 ≠ q)) })

/-- `QUAY_DESCRIPTOR_WRITE`: a host write of 4 or 8 aligned bytes at offset `ofs` of descriptor `q` (R206, R264). -/
def execQuayDescriptorWrite (h : Half) (q ofs : Nat) (bs : List Byte) (s : State) : Ans :=
  .next (if !hostServed s h || decide (131072 ≤ q) || decide (24 ≤ ofs) then s
    else if bar0Aligned (24 * q + ofs) bs.length then writeQuay s h q ofs bs
    else discardBar0 s h (24 * q + ofs))

/-- A host write to a context entry (R218). -/
def writeCtxEntry (s : State) (h : Half) (n ofs : Nat) (bs : List Byte) : State :=
  let x := s.ctx h n
  let w := leNat (overlay (ctxBytes s h n) ofs bs)
  let y := { x with saveAddr := fld w 255 208, saveMib := fld w 207 200, cls := fld w 1 0 }
  let en := bitAt w 4
  if x.state = .idle ∧ !x.en then s.setCtx h n { y with en := en }
  else if y = x then s.setCtx h n { x with en := en }
  else s

/-- `CONTEXT_ENTRY_WRITE`: a host write of 4 or 8 aligned bytes at offset `ofs` of entry `n` (R218, R264). -/
def execContextEntryWrite (h : Half) (n ofs : Nat) (bs : List Byte) (s : State) : Ans :=
  .next (if !hostServed s h || decide (4096 ≤ n) || decide (32 ≤ ofs) then s
    else if bar0Aligned (32 * n + ofs) bs.length then writeCtxEntry s h n ofs bs
    else discardBar0 s h (0x400000 + 32 * n + ofs))

/-! ### Manifest requests (R191) -/

/-- A request of operation `op` at the Manifest port; a malformed one ends a program's context (R191, R192). -/
def manRow (s : State) (h : Half) (src : Src) (r : Nat) (op : Nat → Bool) : State :=
  if !op (fld r 7 0) then s
  else
    match srcCtx s h src with
    | none => s
    | some ctx =>
      let o := manRequest s h ctx r
      match ctx with
      | some n => if o.1 then faultCtx o.2 h n else o.2
      | none => o.2

/-- `STEP` (R193); an operation code that is no operation is malformed here (R192). -/
def execStep (h : Half) (src : Src) (r : BitVec 256) (s : State) : Ans :=
  .next (manRow s h src r.toNat (fun op => op == 1 || op == 0 || decide (7 < op)))

/-- `PROPOSE` (R191). -/
def execPropose (h : Half) (src : Src) (r : BitVec 256) (s : State) : Ans := .next (manRow s h src r.toNat (· == 2))

/-- `ACCEPT` (R198). -/
def execAccept (h : Half) (src : Src) (r : BitVec 256) (s : State) : Ans := .next (manRow s h src r.toNat (· == 3))

/-- `APPEND` (R191). -/
def execAppend (h : Half) (src : Src) (r : BitVec 256) (s : State) : Ans := .next (manRow s h src r.toNat (· == 4))

/-- `FINISH` (R190). -/
def execFinish (h : Half) (src : Src) (r : BitVec 256) (s : State) : Ans := .next (manRow s h src r.toNat (· == 5))

/-- `RESUME` (R190). -/
def execResume (h : Half) (src : Src) (r : BitVec 256) (s : State) : Ans := .next (manRow s h src r.toNat (· == 6))

/-- `RELEASE` (R190). -/
def execRelease (h : Half) (src : Src) (r : BitVec 256) (s : State) : Ans := .next (manRow s h src r.toNat (· == 7))

/-- `PAGE_RETURN` (R186). -/
def execPageReturn (h : Half) (s : State) : Ans := .next (returnPages s h)

/-! ### Memory rows (R254 to R258) -/

/-- `PER_BANK_REFRESH`: a bank is busy for a while; no value changes (R254, R257). -/
def execPerBankRefresh (_h : Half) (_ch _bank : Nat) (s : State) : Ans := .next s

/-- `RFM`: a bank is busy for a while; no value changes (R254, R257). -/
def execRfm (_h : Half) (_ch _bank : Nat) (s : State) : Ans := .next s

/-- Scrub one line: a correctable line is written back good, an uncorrectable one poisoned (R255). -/
def scrubLine (s : State) (h : Half) (line : Nat) : State :=
  let o := s.decodeLine h none line 1
  if o.1 then { o.2 with lineErr := Tab.erase o.2.lineErr line } else o.2

/-- `PATROL_SCRUB` of channel group `g`: the 32 lines of the next data row (R255). -/
def execPatrolScrub (h : Half) (g : Nat) (t : Time) (s : State) : Ans :=
  let s := s.atTime h t
  .next (if 4 ≤ g ∨ !memOn s h then s
    else
      let d := s.num (hk h 0x4502) (4 + g)
      let base := dramBase h + g * 2 ^ 34 + d * 2048
      let s := (List.range 32).foldl (fun (s : State) i => scrubLine s h (base + 64 * i)) s
      s.setNum (hk h 0x4502) (4 + g) ((d + 1) % 2 ^ 23))

/-- `RETRAINING` of a channel: a failure is counted; three in a row on a channel whose group admits class 0 take the half out of service (R256, R393). -/
def execRetraining (h : Half) (ch : Nat) (ok : Bool) (s : State) : Ans :=
  .next (if 24 ≤ ch ∨ !memOn s h then s
    else
      let row := if ok then 0 else Tab.get 0 (s.half h).safety.retrainRow ch + 1
      let s := s.modHalf h (fun x => { x with safety := { x.safety with
        retrainRow := Tab.set 0 x.safety.retrainRow ch row } })
      if ok then s
      else
        let s := s.bump (hk h 0x4502) 8 1
        if 3 ≤ row ∧ bitAt (s.num (hk h 0x4300) (1 + ch % 4)) 0 then s.enterSafe h 5 else s)

end Sys2Proof.Machine
end

