-- ==== Sys2Proof/Machine/TimeCmds.lean ====
section
/-! DEFINITION. The time base: leader and follower, BMCA, Sync, holdover, accepted steps, and the time rows (R297 to R306). -/
namespace Sys2Proof.Machine

/-- Half `h` leads time: it is named by `TIME_LEADER`, or it survives alone or without the Ferry (R299, R300). -/
def isLeader (s : State) (h : Half) : Bool :=
  s.num 0x2800 1 == h.num || peerLost s h || (s.half h).ferry.state == .failed

/-- `TIME_STATE` (R301). -/
def timeState (s : State) (h : Half) : Nat := s.num (hk h 0x4A00) 1

/-- Set `TIME_STATE`. -/
def setTimeState (s : State) (h : Half) (v : Nat) : State := s.setNum (hk h 0x4A00) 1 v

/-- Count of Syncs in a row below 100 ns. -/
def setGood (s : State) (h : Half) (n : Nat) : State := s.modHalf h (fun x => { x with tb := { x.tb with good := n } })

/-- Port `p` of the switch is enabled (R311). -/
def portOn (s : State) (h : Half) (p : Nat) : Bool := decide (p < 7) && s.num (hk h (0x4800 + p)) 1 == 1

/-- A `TIME` record and vector 5 (R269, R303, R426). -/
def timeRecord (s : State) (h : Half) (value : Nat) (ns : Int) : State :=
  (s.observe h 11 1 0xFF (s.num 0x2800 7) value (some (clampI (-2147483648) 2147483647 ns))).msix h 5

/-- The time base enters `HOLDOVER`, its rate held (R304). -/
def enterHoldover (s : State) (h : Half) : State :=
  if timeState s h = 3 then s
  else timeRecord (setGood (setTimeState s h 3) h 0) h 0 (s.int (hk h 0x4A00) 2 64)

/-- The vector by which BMCA ranks an announcement, port last (R301). -/
def annKey (a : Announce) (port : Nat) : List Nat :=
  [a.priority1, a.clockClass, a.accuracy, a.variance, a.priority2, a.identity, a.steps, port]

/-- Lexicographic order on lists of numbers. -/
def lexLt : List Nat → List Nat → Bool
  | [], _ => false
  | _, [] => false
  | a :: as, b :: bs => decide (a < b) || (decide (a = b) && lexLt as bs)

/-- The clockIdentity of a half: its MAC as an EUI-64 (R301; PRESUMED, log 21). -/
def ownIdentity (s : State) (h : Half) : Nat := fld (dictMac s h) 47 24 * 2 ^ 40 + 0xFFFE * 2 ^ 24 + fld (dictMac s h) 23 0

/-- The half's own vector as grandmaster: its `PRIORITY1` and 802.1AS defaults (R301; PRESUMED, log 21). -/
def ownAnnounce (s : State) (h : Half) : Announce := ⟨s.num 0x2800 5, 248, 0xFE, 0xFFFF, 248, ownIdentity s h, 0⟩

/-- The best announcement on an enabled port. -/
def bestAnn (s : State) (h : Half) : Option (Nat × Announce) :=
  (((s.half h).tb.anns.filter (fun p => portOn s h p.1)).foldl (fun (m : Option (Nat × Announce)) p =>
    match m with
    | none => some p
    | some q => if lexLt (annKey p.2 p.1) (annKey q.2 q.1) then some p else m) none)

/-- `STEP_ID` rises, and an acceptance of the old value is void (R303, R305). -/
def newStepId (s : State) : State := { s.setNum 0x2800 7 ((s.num 0x2800 7 + 1) % 2 ^ 32) with stepAt := none }

/-- Take a grandmaster and the port toward it: a change is recorded, and voids a step that is pending or accepted (R303, R305). -/
def takeGm (s : State) (h : Half) (identity port : Nat) : State :=
  let old := s.num (hk h 0x4A00) 4
  let s := (s.setNum (hk h 0x4A00) 4 identity).setNum (hk h 0x4A00) 5 port
  if old = identity then s
  else
    let s := setGood s h 0
    let s := if timeState s h = 4 ∨ s.stepAt.isSome then newStepId s else s
    timeRecord s h 3 (s.int (hk h 0x4A00) 2 64)

/-- The slave port that external port configuration names: the port in slave role, and for a half that has taken the lead its `BACKUP_SLAVE_PORT` (R300, R301). -/
def externalPort (s : State) (h : Half) : Nat :=
  if (s.half h).tb.leads then s.num (hk h 0x4A00) 6
  else ((List.range 7).find? (fun p => portOn s h p && s.num (hk h (0x4800 + p)) 5 == 2)).getD 0xFF

/-- Choose the grandmaster: BMCA, or the port external configuration names (R301). -/
def chooseGm (s : State) (h : Half) : State :=
  if !isLeader s h then s
  else if s.num 0x2800 6 = 1 then
    let p := externalPort s h
    match Tab.find (s.half h).tb.anns p with
    | some a => takeGm s h a.identity p
    | none => s.setNum (hk h 0x4A00) 5 p
  else
    let own := annKey (ownAnnounce s h) 255
    let selfGm : State := takeGm s h (ownIdentity s h) 0xFF
    match bestAnn s h with
    | some p => if s.num 0x2800 4 = 1 ∧ lexLt own (annKey p.2 p.1) then selfGm else takeGm s h p.2.identity p.1
    | none => if s.num 0x2800 4 = 1 then selfGm else s

/-- A half that takes the lead as survivor; it takes no step, so its counter counts as locked (R300, R302). -/
def keepCounter (s : State) (h : Half) : State := s.modHalf h (fun x => { x with tb := { x.tb with locked := true, leads := true } })

/-- The survivor becomes leader without a step: through its own switch by BMCA or its `BACKUP_SLAVE_PORT`, else into `HOLDOVER` (R300). -/
def takeLead (s : State) (h : Half) : State :=
  if s.num 0x2800 1 = h.num ∨ (s.half h).tb.leads then s
  else
    let s := keepCounter s h
    let found := if s.num 0x2800 6 = 1 then externalPort s h != 0xFF else (bestAnn s h).isSome
    if found then chooseGm (setTimeState s h 1) h else enterHoldover s h

/-- The counters are aligned when the Ferry has trained (R286, R462): of two halves that start the follower takes the leader's, a half that starts alone takes the other's, and two running counters stay as they are (R298; points read in log 35). -/
def alignTime (s : State) : State :=
  let lead := if s.num 0x2800 1 = 1 then Half.stern else Half.bow
  let runs (g : Half) : Bool := (s.half g).ready == 3
  let copy (g : Half) : State := s.modHalf g.other (fun x => { x with tt := (s.half g).tt, phase := (s.half g).phase })
  let s := if runs .bow && runs .stern then s
    else if !runs lead && runs lead.other then copy lead.other
    else copy lead
  let quiet (x : HalfState) : HalfState := { x with tb := { x.tb with leads := false } }
  (s.modHalf .bow quiet).modHalf .stern quiet

/-- Servo rate for a measured offset, within 500 ppm (R298; DESIGN CHOICE, log 14). -/
def slew (s : State) (h : Half) (offset : Int) : State :=
  s.setNum (hk h 0x4A00) 3 (twos 32 (clampI (-500000) 500000 (Config.servoGain offset)))

/-- Both counters move by `d` at once (R302, R305). -/
def shiftTime (s : State) (d : Time) : State :=
  { s with bow := { s.bow with tt := s.bow.tt + d }, stern := { s.stern with tt := s.stern.tt + d } }

/-- A Sync taken by the leader with a measured offset (R302, R303; points read in log 35). -/
def takeSync (s : State) (h : Half) (offset : Int) : State :=
  let s := s.setNum (hk h 0x4A00) 2 (twos 64 offset)
  let small := decide (offset.natAbs < 100)
  if !(s.half h).tb.locked && timeState s h == 1 then
    let target := s.now h + BitVec.ofInt 48 offset
    let s := (s.modHalf h (fun x => { x with tt := target, tb := { x.tb with locked := true } })).modHalf h.other
      (fun x => { x with tt := target, tb := { x.tb with locked := true } })
    setGood s h (b2n small)
  else if offset.natAbs > s.num 0x2800 2 then
    let s := (setGood s h 0).setNum 0x2800 8 (twos 64 offset)
    if timeState s h = 4 then s
    else
      timeRecord (newStepId (setTimeState s h 4)) h 1 offset
  else
    let good := if small then min 8 ((s.half h).tb.good + 1) else 0
    setTimeState (slew (setGood s h good) h offset) h (if good = 8 then 2 else 1)

/-- Ingress time of a frame on a port with MAC stamp `t` (R309). -/
def ingressTime (s : State) (h : Half) (port : Nat) (t : Time) : Time := t - BitVec.ofInt 48 (s.int (hk h (0x4800 + port)) 3 32)

/-- `SYNC`: a Sync on `port` with MAC stamp `t`, bearing the grandmaster's time `gm` at its sending by the neighbour (R301 to R304, R309); the leader keeps its ingress time for the relay (R310). -/
def execSync (h : Half) (port : Nat) (gm t : Time) (s : State) : Ans :=
  let s := s.atTime h t
  .next (if !isLeader s h || !portOn s h port || s.num (hk h 0x4A00) 5 != port then s
    else
      let a := ingressTime s h port t
      let off := Time.diff (gm + BitVec.ofNat 48 (s.num (hk h (0x4800 + port)) 6)) a
      let u := takeSync s h off
      u.modHalf h (fun x => { x with tb := { x.tb with relay := some (a + (u.now h - s.now h)) } }))

/-- `SYNC_RECEIPT_TIMEOUT` (R304). -/
def execSyncReceiptTimeout (h : Half) (s : State) : Ans :=
  .next (if !isLeader s h || s.num (hk h 0x4A00) 5 == 0xFF || timeState s h == 0 then s else enterHoldover s h)

/-- `ANNOUNCE_RECEIPT_TIMEOUT`: the announcement of the slave port is forgotten (R304). -/
def execAnnounceReceiptTimeout (h : Half) (s : State) : Ans :=
  let p := s.num (hk h 0x4A00) 5
  .next (if !isLeader s h || p == 0xFF || timeState s h == 0 then s
    else
      let s := s.modHalf h (fun x => { x with tb := { x.tb with anns := Tab.erase x.tb.anns p, relay := none } })
      enterHoldover (if s.num 0x2800 6 = 1 then s else s.setNum (hk h 0x4A00) 5 0xFF) h)

/-- `ANNOUNCE` on a port (R301). -/
def execAnnounce (h : Half) (port : Nat) (a : Announce) (s : State) : Ans :=
  .next (if !portOn s h port then s
    else chooseGm (s.modHalf h (fun x => { x with tb := { x.tb with anns := Tab.insert x.tb.anns port a } })) h)

/-- `PDELAY`: a peer-delay exchange with its four time-stamps gives the mean link delay (R301). -/
def execPdelay (h : Half) (port : Nat) (t1 t2 t3 t4 : Time) (s : State) : Ans :=
  .next (if !portOn s h port || decide (5 ≤ port) then s
    else s.setNum (hk h (0x4800 + port)) 6 (((Time.diff t4 t1 - Time.diff t3 t2) / 2).toNat % 2 ^ 32))

/-- The half that leads time for half `h`: itself or the other (R299). -/
def leaderOf (s : State) (h : Half) : Half := if isLeader s h then h else h.other

/-- The Tiril itself is grandmaster (R301). -/
def selfGm (s : State) (h : Half) : Bool :=
  s.num (hk (leaderOf s h) 0x4A00) 4 == ownIdentity s (leaderOf s h) && s.num (hk (leaderOf s h) 0x4A00) 5 == 0xFF

/-- The vector that a half's master ports would announce: its own as grandmaster, else the best it hears, one step further (R301). -/
def sentAnnounce (s : State) (h : Half) : Announce :=
  let l := leaderOf s h
  if selfGm s h then ownAnnounce s l
  else match bestAnn s l with
    | some p => { p.2 with steps := p.2.steps + 1 }
    | none => ownAnnounce s l

/-- A port is in master role: an enabled external port, not in slave role; by external configuration a master, by BMCA one that hears no better announcement than it would send, else it is passive (R301; PRESUMED, log 21). -/
def masterPort (s : State) (h : Half) (port : Nat) : Bool :=
  portOn s h port && decide (port < 5) && s.num (hk h 0x4A00) 5 != port
  && (if s.num 0x2800 6 = 1 then s.num (hk h (0x4800 + port)) 5 == 1
      else match Tab.find (s.half h).tb.anns port with
        | some a => !lexLt (annKey a 0) (annKey (sentAnnounce s h) 0)
        | none => true)

/-- What a relayed Sync's correctionField rises by when it leaves a port at `t`, in 2^-16 ns: residence time and the ingress port's link delay, scaled by the rate ratio, which is 1 plus the rate adjustment; its last place is free (R309, R310; DESIGN CHOICE, log 14). -/
def syncCorrection (s : State) (h : Half) (port : Nat) (ingress t : Time) : Int :=
  let l := leaderOf s h
  let ns := Time.diff (t + BitVec.ofInt 48 (s.int (hk h (0x4800 + port)) 4 32)) ingress
    + s.num (hk l (0x4800 + s.num (hk l 0x4A00) 5)) 6
  let x := ns * 65536 * (1000000000 + s.rate l)
  x / 1000000000 + (if Config.rateRounds x then 1 else 0)

/-- `SYNC_SEND`: a master port's one-step Sync at ticket time `t`: as grandmaster the half's own, else the slave port's last one, relayed (R301, R310). -/
def execSyncSend (h : Half) (port : Nat) (t : Time) (s : State) : Ans :=
  let s := s.atTime h t
  .next (if !masterPort s h port then s
    else if selfGm s h then s.emit (.syncOut h port t none)
    else match (s.half (leaderOf s h)).tb.relay with
      | some a => s.emit (.syncOut h port t (some (syncCorrection s h port a t)))
      | none => s)

/-- Judge a write of `STEP_ACCEPT` (R305): status and state (points read in log 35). -/
def acceptStep (s : State) (h : Half) (v : Nat) : Nat × State :=
  let lead := leaderOf s h
  let at_ := BitVec.ofNat 48 (s.num 0x2800 9)
  if timeState s lead ≠ 4 ∨ v ≠ s.num 0x2800 7 ∨ (at_ ≠ 0 ∧ Time.diff at_ (s.now lead) > 1000000000) then (stState, s)
  else (stOK, { s with stepAt := some (if at_ = 0 ∨ Time.diff at_ (s.now lead) < 0 then s.now lead else at_) })

/-- Index of loop `n` (R330). -/
def loopIdx (h : Half) (n : Nat) : Nat := hk8 h (0x8000 + 0x100 * n)

/-- Loop `n`. -/
def State.loop (s : State) (h : Half) (n : Nat) : Loop := Tab.get loopReset (s.half h).loops n

/-- Put loop `n`. -/
def State.setLoop (s : State) (h : Half) (n : Nat) (l : Loop) : State :=
  s.modHalf h (fun x => { x with loops := Tab.set loopReset x.loops n l })

/-- Sample instants of loop `n` that a forward step from `t` by `d` leaves more than 2,000 ns in the past: skipped, counted, never run (R332). -/
def skipSamples (s : State) (h : Half) (t : Time) (d : Int) (n : Nat) : State :=
  let period : Int := s.num (loopIdx h n) 5
  if s.num (loopIdx h n) 2 = 0 ∨ d ≤ 2000 ∨ period = 0 then s
  else
    let start := (s.loop h n).origin
    let a := Time.diff t start
    let first := max 0 (a / period + 1)
    let past := (a + d - 2001) / period
    if past < first then s
    else
      let l := s.loop h n
      let s := s.bump (loopIdx h n) 0x1F (past - first + 1).toNat
      s.setLoop h n { l with last := some (start + BitVec.ofInt 48 (past * period)), lastAt := s.clock, origin := start + BitVec.ofInt 48 (past * period) }

/-- The half whose time base is stepped: the leader, and of two that lead the one that is not lost (R300, R305). -/
def stepLead (s : State) : Half := if isLeader s .bow && !peerLost s .stern then .bow else .stern

/-- Apply the accepted step in both halves (R305, R306). -/
def applyStep (s : State) : State :=
  let lead := stepLead s
  let d := s.int 0x2800 8 64
  let t := s.now lead
  let s := (List.range 8).foldl (fun (s : State) n => skipSamples (skipSamples s .bow t d n) .stern t d n) s
  let s := shiftTime s (BitVec.ofInt 48 d)
  let s := (s.setNum 0x2800 0x0B (twos 64 d)).setNum 0x2800 0x0C t.toNat
  let s := { s with stepAt := none, steps := (s.steps.filter (fun p => decide (s.clock < p.clock + 2 ^ 47))) ++ [⟨s.clock, t, d⟩] }
  let s := setGood (setTimeState s lead 1) lead 0
  s.observe lead 11 1 0xFF (s.num 0x2800 7) 2 (some (clampI (-2147483648) 2147483647 d))

/-- `STEP_APPLY` at ticket time `t` (R305). -/
def execStepApply (t : Time) (s : State) : Ans :=
  .next (match s.stepAt with
    | none => s
    | some a => if 0 ≤ Time.diff t a then applyStep (s.atTime .bow t) else s)

/-- `TIME_SEND`: a `TIME` flit leaves, numbered and kept for a replay (R279, R283, R286). -/
def execTimeSend (h : Half) (t : Time) (s : State) : Ans :=
  let s := s.atTime h t
  let l := (s.half h).ferry
  .next (if l.state ≠ .active ∨ replaySize ≤ l.replay.length then s
    else s.modHalf h (fun x => { x with
      timeTx := some (t, l.txSeq)
      ferry := { l with replay := l.replay ++ [numbered l l.txSeq 6 (natLe 6 t.toNat)], txSeq := (l.txSeq + 1) % 1024 } }))

/-- `TIME`: a `TIME` flit of the other half arrives at ticket time `t`; the follower measures its offset to the leader less the Ferry's delay and adjusts its rate (R286, R299). -/
def execTime (h : Half) (t : Time) (s : State) : Ans :=
  let s := s.atTime h t
  .next (match (s.half h.other).timeTx with
    | none => s
    | some (sent, n) =>
      let l := (s.half h).ferry
      let o := (s.half h.other).ferry
      let held := o.replay.any (fun f => f.seq == n)
      if l.discard && held then s
      else
        let s := s.modHalf h.other (fun x => { x with timeTx := none, ferry := acknowledge o n })
        let s := if held then s.setLink h .ferry { l with rxSeq := (n + 1) % 1024 } else s
        if l.state ≠ .active ∨ isLeader s h then s
        else
          let off := Time.diff (sent + BitVec.ofNat 48 (s.num (hk h 0x4620) 4 / 1000)) t
          setTimeState (slew (s.setNum (hk h 0x4A00) 2 (twos 64 off)) h off) h 5)

end Sys2Proof.Machine
end

