-- ==== Sys2Proof/Machine/HalfOps.lean ====
section
/-! DEFINITION. What befalls a whole half: judging the peer lost, forced and planned Nap, the lifeboat switch, reset, entering service (R23 to R29, R232, R389 to R401, R456 to R464). -/
namespace Sys2Proof.Machine

/-- Set `PEER`; a change signals vector 1 (R265, R269). -/
def setPeer (s : State) (h : Half) (v : Nat) : State :=
  if (s.half h).peer = v then s else (s.modHalf h (fun x => { x with peer := v })).msix h 1

/-- Set `LOOP_STATE` of every loop of a half to `OPEN` (R342, R458). -/
def openLoops (s : State) (h : Half) : State := (List.range 8).foldl (fun (s : State) n => (s.setNum (loopIdx h n) 2 0).setNum (loopIdx h n) 0x1E 0) s

/-- Every loop of a half is `OPEN`. -/
def loopsOpen (s : State) (h : Half) : Bool := (List.range 8).all (fun n => s.num (loopIdx h n) 2 == 0)

/-- Set `POWER_STATE`. -/
def setPower (s : State) (h : Half) (v : Nat) : State := showDevicePower (s.setNum (hk h 0x4D00) 8 v)

/-- A forced Nap: domains off at once; every context, Pool, Mere, queue, record, stream and posted frame of the half is gone (R232, R397, R459). -/
def forcedNap (s : State) (h : Half) : State :=
  let s := s.modHalf h (fun x => { x with
    cores := [], sems := [], done := [], xfers := [], deferred := [], pendCtrs := [], queues := [], ctxs := [], passed := []
    manifest := [], pages := [], tsn := { x.tsn with txq := [] }, cans := x.cans.map (fun p => (p.1, { p.2 with queue := [] }))
    safety := { x.safety with gateClosed := true }
    power := { x.power with nap := 0, clamp := s.num (hk h 0x4D00) 0x0A == 1 } })
  setPower (stopPasses (clearClusters s h) h) h 3

/-- The tags of tally ORs that the other half has carried out and whose acknowledgement has not come (R132). -/
def appliedOrs (s : State) (h : Half) : List Nat :=
  let l := (s.half h.other).ferry
  ((l.sent ++ l.waiting).filter (fun m => m.kind == .orAck && m.status == stOK)).map (·.tag)

/-- End every context with an access outstanding over a port that a test picks (R29, R285, R291); a tally OR among them counts as progress if it has reached memory (R132). -/
def endOutstanding (s : State) (h : Half) (status : Nat) (hit : Xfer → Bool) : State :=
  let xs := (s.half h).xfers.filter hit
  let ors := appliedOrs s h
  let s := s.modHalf h (fun x => { x with xfers := x.xfers.filter (fun f => !hit f) })
  xs.foldl (fun (s : State) f =>
    let s := if f.kind = .or8 then
        let x := s.ctx h f.ctx
        s.setCtx h f.ctx { x with pend := x.pend - 1, progress := if f.tag ∈ ors then x.progress + 1 else x.progress }
      else s
    endTicket s h f.ctx status) s

/-- Free bytes for whatever effect messages lost in flight had on their targets (R285). -/
def spoilSent (s : State) (ms : List LinkMsg) : State :=
  ms.foldl (fun (s : State) m =>
    let n := match m.kind with
      | .wr => 64 * m.lines
      | .or8 => 1
      | _ => 0
    (List.range n).foldl (fun (s : State) i =>
      let r := s.free
      { r.2 with mem := memSet r.2.mem (m.addr + i) (BitVec.ofNat 8 r.1) }) s) s

/-- End every running context whose program names the other half (R232). -/
def endNaming (s : State) (h : Half) : State :=
  (s.half h).ctxs.foldl (fun (s : State) p =>
    match p.2.ticket with
    | some tk => if progNames h.other tk.prog then endTicket s h p.1 stHalfLost else s
    | none => s) s

/-! ### The lifeboat switch (R396) -/

/-- The half's `LIFEBOAT` descriptor. -/
def lifeboat (s : State) (h : Half) : List Byte := s.bytes (hk h 0x4B00) 0x0A

/-- The little-endian number in `n` bytes of a byte string from `o`. -/
def bytesNat (bs : List Byte) (o n : Nat) : Nat := leNat ((bs.drop o).take n)

/-- Step 6 of the switch: the lifeboat schedule is in force (R396); a handover reads `SOLO` (R398). -/
def lifeboatInForce (s : State) (h : Half) : State :=
  let planned := (s.half h).safety.handover
  let s := s.setNum (hk h 0x4B00) 1 (if planned then 3 else 2)
  let s := s.setNum (hk h 0x4B00) 0x0D (s.now h).toNat
  s.modHalf h (fun x => { x with lifeboat := true, safety := { x.safety with digesting := false, handover := false } })

/-- Steps 4 and 5: the stop list is disabled, the start list's doorbells are written (R396). -/
def lifeboatQueues (s : State) (h : Half) : State :=
  let d := lifeboat s h
  let s := (List.range (min 64 (bytesNat d 60 2))).foldl (fun (s : State) i =>
    let q := bytesNat d (64 + 4 * i) 4
    s.setQuay h q { s.quay h q with en := false }) s
  (List.range (min 16 (bytesNat d 62 2))).foldl (fun (s : State) i =>
    let q := bytesNat d (320 + 8 * i) 4
    wakeIdle (ringDoorbell s h q (bytesNat d (324 + 8 * i) 2 + 2 ^ 16 * (q % 65536))) h) s

/-- A half goes into planned Nap: step 1 of R458 holds the dispatcher, step 2 requests every held core (R458). -/
def startNap (s : State) (h : Half) (kind : Nat) : State :=
  let s := s.modHalf h (fun x => { x with power := { x.power with nap := kind, dispatchOff := true } })
  s.modHalf h (fun x => { x with cores := x.cores.map (fun p => (p.1, { p.2 with preempt := true })) })

/-- Steps 4 to 6 of the switch, and for a handover the peer's planned Nap (R396, R398; points read in log 30). -/
def lifeboatRun (s : State) (h : Half) : State :=
  let planned := (s.half h).safety.handover
  let s := lifeboatInForce (if (lifeboat s h).isEmpty then s else lifeboatQueues s h) h
  if planned then takeWaiting (startNap (wakeIdle s h.other) h.other 2) h.other else s

/-- Steps 1 to 3: contexts that name the other half end, the proxy message leaves for a lost half, the digest begins (R396). -/
def lifeboatStart (s : State) (h : Half) (planned : Bool) (cause : Nat) : State :=
  let s := endNaming s h
  let s := if planned then s else s.safetyMessage h h.other true cause (s.now h)
  let s := s.modHalf h (fun x => { x with safety := { x.safety with digesting := true, handover := planned } })
  if (lifeboat s h).isEmpty then lifeboatRun s h else s

/-- Step 3: the lifeboat image reads as good, and its digest agrees (R258, R396). -/
def lifeboatDigestOk (s : State) (h : Half) : Bool × State :=
  let d := lifeboat s h
  let o := s.readCheck (bytesNat d 48 8) (bytesNat d 56 4)
  (o.1 && sha384 (o.2.read (bytesNat d 48 8) (bytesNat d 56 4)) == d.take 48, o.2)

/-! ### Losing the peer (R394, R395) -/

/-- Half `h` judges the other half lost (R394): `PEER`, vector 1, `PEER_LOST`, the forced Nap, outstanding accesses (R29), time (R300), the lifeboat switch of a half in `NORMAL` (R396). `cause` is the lost half's, where known. -/
def judgeLost (s : State) (h : Half) (cause : Nat) : State :=
  if peerLost s h then s
  else
    let s := (setPeer s h 1).emit (.sideband h 3 (s.now h).toNat)
    let s := s.modHalf h (fun x => { x with safety := { x.safety with peerCause := cause } })
    let s := forcedNap s h.other
    let s := endOutstanding s h stHalfLost (fun f => f.port == .ferry)
    let s := takeLead s h
    if s.halfState h = 1 then lifeboatStart s h false cause else endNaming s h

/-- Half `g`'s end of the Ferry becomes `FAILED`: messages in flight are lost (R284, R285). -/
def ferryEndFails (s : State) (g : Half) : State :=
  let l := (s.half g).ferry
  if l.state = .failed then s
  else
    let s := spoilSent (s.setLink g .ferry { l with state := .failed, waiting := [], sent := [], replay := [], discard := false, nakTx := none }) l.sent
    let s := s.modHalf g (fun x => { x with beatTx := none, timeTx := none })
    takeLead ((s.observe g 15 1 0xFF 0 (linBin 2 0) none).msix g 2) g

/-- The Ferry fails (R285, R395): accesses across it end, messages in flight are lost, the safety managers apply R395 unless a `FAULT_N` is asserted. -/
def ferryFailed (s : State) (h : Half) : State :=
  let calm := !(s.half .bow).faultN && !(s.half .stern).faultN
  let stop (s : State) (g : Half) : State := endOutstanding s g stHalfLost (fun f => f.port == .ferry)
  let s := ferryEndFails (ferryEndFails (stop (stop s h) h.other) h) h.other
  if !calm then s
  else
    let primary := if s.num 0x2900 1 = 0 then Half.bow else Half.stern
    judgeLost (s.enterSafe primary.other 6) primary 6

/-! ### Service (R24, R398, R462) -/

/-- Half `h` has reached `READY` = 3 and enters service: `NORMAL`, seen by its peer (R24, R398, R462). A half that entered safe state in its start-up stays there, its `FAULT_N` asserted (R389). -/
def enterService (s : State) (h : Half) : State :=
  if s.halfState h = 4 ∨ s.halfState h = 5 then s.modHalf h (fun x => { x with ready := 3 })
  else
  let s := setPower (s.setNum (hk h 0x4B00) 1 1) h 0
  let s := s.modHalf h (fun x => { x with ready := 3, faultN := false, springS := x.tt, springClock := s.clock, springs := [] })
  let s := if (s.half h.other).ready = 3 ∧ (s.half h.other).faultN = false then setPeer s h 0 else s
  setPeer s h.other 0

/-- The peer is out of service as R458 asks: in `SOLO`, in Nap, or lost. -/
def peerOut (s : State) (h : Half) : Bool :=
  s.halfState h.other == 3 || powerState s h.other == 2 || powerState s h.other == 3 || peerLost s h

end Sys2Proof.Machine
end

