-- ==== Sys2Proof/Machine/LinkCmds.lean ====
section
/-! DEFINITION. Meanings of the host-link, Ferry and Causeway rows (R261 to R296). -/
namespace Sys2Proof.Machine

/-! ### BAR4 (R263, R266 to R268) -/

/-- A BAR4 write to the program store is discarded and counted (R445; PRESUMED, log 15). -/
def storeDiscard (s : State) (h : Half) : State :=
  s.modHalf h (fun x => { x with host := { x.host with storeWrites := x.host.storeWrites + 1 } })

/-- Merge one piece of a BAR4 write into DRAM: a partial write of a poisoned line leaves it (R251, R258, R268); the program store takes none (R445). -/
def bar4Piece (s : State) (h : Half) (a : Nat) (bs : List Byte) : State :=
  if inStore s h a then storeDiscard s h
  else if a % 64 = 0 ∧ bs.length = 64 then s.write a bs
  else
    let o := s.decodeLine h none (a / 64 * 64) 2
    if o.1 then o.2.write a bs else o.2

/-- `BAR4_WRITE` of bytes at a half-local DRAM offset (R266). -/
def execBar4Write (h : Half) (ofs : Nat) (bs : List Byte) (s : State) : Ans :=
  .next (if !hostServed s h || !memOn s h || decide (2 ^ 36 < ofs + bs.length) then s
    else
      let base := dramBase h + ofs
      (pieces base bs.length).foldl (fun (s : State) p =>
        bar4Piece s h p.1 ((bs.drop (p.1 - base)).take p.2)) s)

/-- `BAR4_READ` of `n` bytes: a poisoned completion of 0xFF bytes where a line is poisoned or found uncorrectable (R268); past the BAR it is an Unsupported Request (R264). -/
def execBar4Read (h : Half) (ofs n : Nat) (s : State) : Ans :=
  .next (if !hostServed s h || !memOn s h then s
    else if 2 ^ 36 < ofs + n then s.emit (.unsupported h)
    else
      let base := dramBase h + ofs
      let o := (linesOf base n).foldl (fun (r : Bool × State) l =>
        let d := r.2.decodeLine h none l 2
        (r.1 && d.1, d.2)) (true, s)
      if o.1 then o.2.emit (.completion h false (o.2.read base n))
      else o.2.emit (.completion h true (List.replicate n 0xFF#8)))

/-! ### BAR0 (R263 to R265, R269) -/

/-- Send the message of a vector whose pending bit is set and which is no longer masked (R269). -/
def sendPending (s : State) (h : Half) (v : Nat) : State :=
  let x := (s.half h).host
  let masked := x.msixMaskAll || (msixByte x.msixTable (v * 16 + 12)).toNat % 2 == 1
  if v ∈ x.msixPending ∧ !masked then
    (s.modHalf h (fun y => { y with host := { y.host with msixPending := y.host.msixPending.filter (fun w => decide (w ≠ v)) } })).msix h v
  else s

/-- A host write to the MSI-X table (R269). -/
def writeMsix (s : State) (h : Half) (o : Nat) (bs : List Byte) : State :=
  let s := s.modHalf h (fun y => { y with host := { y.host with
    msixTable := (List.zip (List.range bs.length) bs).foldl (fun t p => Tab.insert t (o + p.1) p.2) y.host.msixTable } })
  sendPending s h (o / 16)

/-- A host write to a mailbox's request area or, with `GO` clear and no request under way, to the `TAG` of its `MB_CTRL` (R413). -/
def writeMailbox (s : State) (h : Half) (o : Nat) (bs : List Byte) : State :=
  let m := o % 0x40000
  let put (t : Tab Byte) (ps : List (Nat × Byte)) : Tab Byte := ps.foldl (fun t p => Tab.set 0 t (o + p.1) p.2) t
  let ps := List.zip (List.range bs.length) bs
  if 0x100 ≤ m ∧ m + bs.length ≤ 0x20000 then
    s.modHalf h (fun y => { y with host := { y.host with mailboxIn := put y.host.mailboxIn ps } })
  else if 8 < m + bs.length ∨ (m = 0 ∧ leNat bs % 2 = 1) ∨ (Tab.get 0 (s.half h).host.mailboxOut (o - m)).toNat % 2 = 1 then s
  else
    s.modHalf h (fun y => { y with host := { y.host with
      mailboxOut := put y.host.mailboxOut (ps.filter (fun p => decide (4 ≤ m + p.1))) } })

/-- A host write to BAR0 (R263, R264). -/
def writeBar0 (s : State) (h : Half) (o : Nat) (bs : List Byte) : State :=
  if 0x500000 ≤ o ∧ o < 0x502000 then
    (if o = 0x500000 ∧ bs.length = 32 then (manRequest s h none (leNat bs)).2
     else if o = 0x501000 ∧ bs.length = 16 then (abortRequest s h none (leNat bs)).2
     else discardBar0 s h o)
  else if !bar0Aligned o bs.length then discardBar0 s h o
  else if o < 0x300000 then writeQuay s h (o / 24) (o % 24) bs
  else if 0x400000 ≤ o ∧ o < 0x420000 then writeCtxEntry s h ((o - 0x400000) / 32) (o % 32) bs
  else if 0x700000 ≤ o ∧ o < 0x708000 then writeMsix s h (o - 0x700000) bs
  else if 0x1000000 ≤ o ∧ o < 0x2000000 then writeMailbox s h (o - 0x1000000) bs
  else s

/-- A byte of BAR0 as host software reads it: control space, MSI-X table and pending bits, status block, mailboxes; reserved offsets and the two ports read zero (R245, R264, R265, R269, R413). -/
def bar0Byte (s : State) (h : Half) (o : Nat) : Byte :=
  let x := (s.half h).host
  if o < 0x600000 then ctlByte s h o
  else if 0x700000 ≤ o ∧ o < 0x708000 then msixByte x.msixTable (o - 0x700000)
  else if 0x708000 ≤ o ∧ o < 0x708100 then
    BitVec.ofNat 8 ((List.range 8).foldl (fun n i => n + 2 ^ i * b2n (x.msixPending.contains ((o - 0x708000) * 8 + i))) 0)
  else if 0x800000 ≤ o ∧ o < 0x800018 then
    (natLe 8 (s.halfStatus h) ++ natLe 8 (s.now h).toNat ++ natLe 8 (s.half h).beatsRx).getD (o - 0x800000) 0
  else if 0x1000000 ≤ o ∧ o < 0x2000000 then
    let m := (o - 0x1000000) % 0x40000
    if 0x100 ≤ m ∧ m < 0x20000 then Tab.get 0 x.mailboxIn (o - 0x1000000) else Tab.get 0 x.mailboxOut (o - 0x1000000)
  else 0

/-- What a host read of BAR0 returns, and the state after it: one that is not 4 or 8 aligned bytes returns zeros, and outside the ports is counted (R264). The table has no row for it. -/
def bar0Read (s : State) (h : Half) (o n : Nat) : List Byte × State :=
  if bar0Aligned o n then (upto n (fun i => bar0Byte s h (o + i)), s)
  else (List.replicate n 0, if 0x500000 ≤ o ∧ o < 0x502000 then s else discardBar0 s h o)

/-- `BAR0_WRITE` (R264): reserved and read-only offsets take nothing. -/
def execBar0Write (h : Half) (ofs : Nat) (bs : List Byte) (s : State) : Ans :=
  .next (if hostServed s h then writeBar0 s h ofs bs else s)

/-- `MSI_X_UNMASK`: the vector-control word of vector `v` is written with its mask bit clear (R269). -/
def execMsixUnmask (h : Half) (v : Nat) (s : State) : Ans :=
  .next (if hostServed s h && decide (v < 2048) then writeMsix s h (v * 16 + 12) (natLe 4 0) else s)

/-! ### The link to the host die (R261, R262, R270 to R277) -/

/-- Contexts with a host-memory read outstanding end (R270, R296). -/
def endHostReads (s : State) (h : Half) : State :=
  let hit := (s.half h).cores.filterMap (fun p => if p.2.inflight.any (·.host) then p.2.ctx else none)
  hit.foldl (fun (s : State) n => faultCtx s h n) s

/-- The link of a half goes down: PCIe configuration and the MSI-X table reset; the half computes and drives on (R275). -/
def linkLost (s : State) (h : Half) (perst : Bool) : State :=
  let was := (s.half h).host.linkUp
  let s := if was then endHostReads s h else s
  let s := s.modHalf h (fun x => { x with host := { hostReset with
    perst := perst, hostAlive := x.host.hostAlive, mailboxIn := x.host.mailboxIn, mailboxOut := x.host.mailboxOut
    lostWrites := x.host.lostWrites, storeWrites := x.host.storeWrites } })
  if was then (s.bump (hk h 0x4600) 4 1).observe h 15 1 0xFF 3 (linBin 3 0) none else s

/-- `HD_PERST_N` is asserted (R275). -/
def execHdPerstN (h : Half) (s : State) : Ans := .next (linkLost s h true)

/-- `LINK_DOWN` (R275). -/
def execLinkDown (h : Half) (s : State) : Ans := .next (linkLost s h (s.half h).host.perst)

/-- `HD_PERST_N_RELEASE`: the module may train from now on (R276). -/
def execHdPerstNRelease (h : Half) (s : State) : Ans :=
  .next (s.modHalf h (fun x => { x with host := { x.host with perst := false } }))

/-- `LINK_UP`: a half out of reset, its `x_HD_PERST_N` released, trains its module (R261, R276). -/
def execLinkUp (h : Half) (s : State) : Ans :=
  let x := s.half h
  .next (if x.host.perst || x.host.linkUp || x.power.resetN || x.boot.stage == 0 then s
    else s.modHalf h (fun x => { x with host := { x.host with linkUp := true } }))

/-- `HALF_STATE` on the sideband: message 1, bits [21:0] of `HALF_STATUS` (R277). -/
def execHalfState (h : Half) (s : State) : Ans := .next (s.emit (.sideband h 1 (s.halfStatus h)))

/-- `HOST_ALIVE` with the host die's own counter (R277). -/
def execHostAlive (h : Half) (count : Nat) (s : State) : Ans :=
  .next (s.modHalf h (fun x => { x with host := { x.host with hostAlive := count % 2 ^ 32 } }))

/-- `HOST_HEARTBEAT_MISS` (R277). -/
def execHostHeartbeatMiss (h : Half) (s : State) : Ans := .next (s.bump (hk h 0x4600) 6 1)

/-- `HOST_CPL_TIMEOUT` of the `k`-th command in flight of core `c`: no completion comes in time, or one that reports an error or poisoned data; the context ends and the error is reported against the core (R18, R271, R272). -/
def execHostCplTimeout (h : Half) (c k : Nat) (_how : CplError) (s : State) : Ans :=
  let y := s.core h c
  .next (match y.ctx, y.inflight[k]? with
    | some n, some f =>
      if f.host then
        let s := s.modHalf h (fun x => { x with safety := { x.safety with
          hostErrs := Tab.set 0 x.safety.hostErrs c (Tab.get 0 x.safety.hostErrs c + 1) } })
        faultCtx s h n
      else s
    | _, _ => s)

/-- `ADAPTER_RETRY` (R261, R270). -/
def execAdapterRetry (h : Half) (s : State) : Ans := .next (s.bump (hk h 0x4600) 5 1)

/-- Offset of the MSI-X message control word in configuration space (PRESUMED, log 15). -/
def msixControl : Nat := 0xB2

/-- Words of configuration space that are not zero after reset or can be written: offset, value after reset, bits that software can write (R261 to R263; PRESUMED, log 15). Status with a capability list; the three 64-bit base address registers; the capabilities Power Management at 0x40, PCI Express at 0x70, MSI-X at 0xB0, and the extended Advanced Error Reporting at 0x100 and Data Link Feature at 0x150. -/
def cfgWords : List (Nat × Nat × Nat) :=
  [(0x04, 0x00100000, 0x0540), (0x0C, 0, 0xFF), (0x3C, 0, 0xFF), (0x34, 0x40, 0),
   (0x10, 0x00000004, 0xFC000000), (0x14, 0, 0xFFFFFFFF), (0x18, 0x00000004, 0xFFF00000), (0x1C, 0, 0xFFFFFFFF),
   (0x20, 0x0000000C, 0), (0x24, 0, 0xFFFFFFF0),
   (0x40, 0x00037001, 0), (0x44, 0x00000008, 0x3),
   (0x70, 0x0002B010, 0), (0x74, 0x00008021, 0), (0x78, 0x00002810, 0x7FFF), (0x80, 0, 0x0FFB), (0x98, 0, 0xFFFF),
   (0xB0, 0x07FF0011, 0), (0xB4, 0x00700000, 0), (0xB8, 0x00708000, 0),
   (0x100, 0x15020001, 0), (0x108, 0, 0x07FFF010), (0x10C, 0x00462030, 0x07FFF030), (0x114, 0x00002000, 0xF1C1), (0x118, 0, 0x140),
   (0x150, 0x00010025, 0), (0x154, 0x80000001, 0)]

/-- The word of configuration space that holds byte `o`: its value after reset and its writable bits. -/
def cfgWord (o : Nat) : Nat × Nat := ((cfgWords.find? (fun w => w.1 == o / 4 * 4)).map Prod.snd).getD (0, 0)

/-- A byte of configuration space: identity, command and MSI-X control as R262 gives them, the vendor ID free, the rest from `cfgWords`, its writable bits as last written (R262, R263; PRESUMED, log 15). -/
def cfgByte (s : State) (h : Half) (o : Nat) : Byte :=
  let x := (s.half h).host
  if o < 2 then (natLe 2 Config.vendorId.toNat).getD o 0
  else if o < 4 then (natLe 2 (0x7410 + h.num)).getD (o - 2) 0
  else if o = 4 then BitVec.ofNat 8 (2 * b2n x.memEnable + 4 * b2n x.busMaster) ||| Tab.get 0 x.config o
  else if 9 ≤ o ∧ o < 12 then (natLe 3 0x120000).getD (o - 9) 0
  else if o = msixControl then 0xFF#8
  else if o = msixControl + 1 then BitVec.ofNat 8 (7 + 64 * b2n x.msixMaskAll + 128 * b2n x.msixEnable)
  else (natLe 4 (cfgWord o).1).getD (o % 4) 0 ^^^ Tab.get 0 x.config o

/-- Write one byte of configuration space; `config` keeps how the writable bits differ from their reset values. -/
def cfgWrite (s : State) (h : Half) (o : Nat) (b : Byte) : State :=
  let w := cfgWord o
  let kept := (b ^^^ (natLe 4 w.1).getD (o % 4) 0) &&& (natLe 4 w.2).getD (o % 4) 0
  s.modHalf h (fun x =>
    let y := { x.host with config := Tab.set 0 x.host.config o kept }
    { x with host :=
      if o = 4 then { y with memEnable := b.toNat.testBit 1, busMaster := b.toNat.testBit 2 }
      else if o = msixControl + 1 then { y with msixMaskAll := b.toNat.testBit 6, msixEnable := b.toNat.testBit 7 }
      else y })

/-- `CONFIGURATION_REQUEST`: retried until `READY` reads 2; then it reads or writes configuration space (R276). -/
def execConfigurationRequest (h : Half) (wr : Bool) (ofs : Nat) (bs : List Byte) (s : State) : Ans :=
  .next (if !(s.half h).host.linkUp then s
    else if (s.half h).ready < 2 then s.emit (.cfgCompletion h true [])
    else
      let s := s.modHalf h (fun x => { x with host := { x.host with cfgDone := true } })
      if wr then
        let s := (List.zip (List.range bs.length) bs).foldl (fun (s : State) p => cfgWrite s h (ofs + p.1) p.2) s
        let s := (s.half h).host.msixPending.foldl (fun (s : State) v => sendPending s h v) s
        s.emit (.cfgCompletion h false [])
      else s.emit (.cfgCompletion h false (upto bs.length (fun i => cfgByte s h (ofs + i)))))

/-! ### Ferry and Causeway: receiving messages -/

/-- Message `m` is what comes next by port `p` of half `h`: over the Ferry the oldest message of its class that the other half has sent, whose flits have come without a failure; over Causeway whatever the partner sends while the port carries traffic (R281, R283, R284). -/
def arrives (s : State) (h : Half) (p : Port) (m : LinkMsg) : Bool :=
  let l := s.link h p
  let o := (s.half h.other).ferry
  l.state == .active && (match p with
    | .ferry => o.sent.find? (fun x => x.cls == m.cls) == some m && !(l.discard && o.replay.any (fun f => f.seq == lastFlit m))
    | _ => true)

/-- Take a message that has arrived: its flits are acknowledged, the receiver's sequence number moves on, credits return (R279, R282, R283). -/
def takeMsg (s : State) (h : Half) (p : Port) (m : LinkMsg) : State :=
  let l := s.link h p
  match p with
  | .ferry =>
    let o := (s.half h.other).ferry
    let s := if o.replay.any (fun f => f.seq == lastFlit m) then s.setLink h .ferry { l with rxSeq := (lastFlit m + 1) % 1024 } else s
    returnCredit s h.other .ferry m
  | _ => freeBuffers (hearPartner (s.setLink h p { l with rxSeq := (l.rxSeq + 1 + msgFlits m) % 1024 }) h p) h p m

/-- The oldest message of its class that the other half has sent over the Ferry and that is of one kind; the most urgent class first. -/
def nextCargo (s : State) (h : Half) (kind : MsgKind) : Option LinkMsg :=
  (List.range 4).findSome? (fun c => match (s.half h.other).ferry.sent.find? (fun m => m.cls == c) with
    | some m => if m.kind = kind ∧ arrives s h .ferry m then some m else none
    | none => none)

/-- A refusal, or the half whose memory the address lies in (R226, R280, R292, R293). -/
def targetHalf (s : State) (m : LinkMsg) (a : Nat) (wr : Bool) : Nat × Option Half :=
  match s.region a with
  | .dram g => if classOk s g m.cls a then (if wr && inStore s g a then (stFault, none) else (stOK, some g)) else (stRight, none)
  | .mere g _ => if classOk s g m.cls a then (stOK, some g) else (stRight, none)
  | _ => (stRight, none)

/-- The first refusal over the lines of a message. -/
def targetStatus (s : State) (m : LinkMsg) (wr : Bool) : Nat :=
  let st := (List.range m.lines).map (fun i => (targetHalf s m (m.addr + 64 * i) wr).1)
  (st.find? (fun v => v != stOK)).getD stOK

/-- The response to a request, sent back by the port it came by (R280, R281). -/
def respond (s : State) (h : Half) (p : Port) (m : LinkMsg) (kind : MsgKind) (status : Nat) (poison : Bool) (data : List Byte) : State :=
  sendMsg s h p { m with kind := kind, status := status, half := h, dev := s.num 0x2600 1, poison := poison, masked := false
                         mask := [], data := data, lines := if data.isEmpty then 1 else m.lines }

/-- The response to a request kind (R280). -/
def responseKind : MsgKind → MsgKind
  | .rdReq => .rdData
  | .wr => .wrAck
  | .or8 => .orAck
  | k => k

/-- A request that came over the Ferry for a device that this half's own port reaches goes on there; where none does it is refused with `FAULT_CONTEXT` (R28, R291). -/
def forwardRequest (s : State) (h : Half) (m : LinkMsg) (d : Nat) : State :=
  match ownPort s h d m.addr with
  | some q => sendMsg s h q { m with addr := (m.addr - 0x600000000000) % 2 ^ 43 }
  | none => respond s h .ferry m (responseKind m.kind) stFault false []

/-- The device a request from the Ferry is to be sent on to, if any. -/
def onward (s : State) (p : Port) (m : LinkMsg) : Option Nat :=
  match p, s.region m.addr with
  | .ferry, .peer d => some d
  | _, _ => none

/-- `RD_REQ` arrives: its lines are read through their codes and sent back, or it is refused, or sent on to another device; a transfer that fails its fabric CRC is refused with `FAULT_CONTEXT` (R258, R280, R281, R291, R293, R376). -/
def execRdReq (h : Half) (p : Port) (m : LinkMsg) (s : State) : Ans :=
  .next (if m.kind ≠ .rdReq ∨ !arrives s h p m then s
    else
      let s := takeMsg s h p m
      match onward s p m with
      | some d => forwardRequest s h m d
      | none =>
        let st := targetStatus s m false
        if st ≠ stOK then respond s h p m .rdData st false []
        else if fabricUpset s h linkUnit then respond (takeFabric s h linkUnit) h p m .rdData stFault false []
        else
          let o := decodeHits s none 0 (meets [(m.addr, 64 * m.lines)])
          respond o.2 h p m .rdData stOK (!o.1) (o.2.read m.addr (64 * m.lines)))

/-- The bytes of one line of a `WR` message with the places they go to. -/
def lineBytes (m : LinkMsg) (j : Nat) : List (Nat × Byte) :=
  ((List.range 64).filter (fun i => !m.masked || bitAt (m.mask.getD j 0) i)).map
    (fun i => (m.addr + 64 * j + i, m.data.getD (64 * j + i) 0))

/-- Bytes in order with their places, as runs of neighbours. -/
def byteRuns (ps : List (Nat × Byte)) : List (Nat × List Byte) :=
  ps.foldr (fun p rs => match rs with
    | (a, bs) :: t => if a = p.1 + 1 then (p.1, p.2 :: bs) :: t else (p.1, [p.2]) :: (a, bs) :: t
    | [] => [(p.1, [p.2])]) []

/-- Write one line of a `WR`: poisoned data poisons it; a line or word that it covers in part is read first, and one that does not read as good is left and refused (R240, R251, R258, R280). -/
def writeLine (s : State) (m : LinkMsg) (j : Nat) : Nat × State :=
  let l := m.addr + 64 * j
  let rs := byteRuns (lineBytes m j)
  let o := decodeHits s none 0 (cutsInto (rs.map (fun r => (r.1, r.2.length))))
  if !o.1 then (stFault, o.2)
  else
    let s := rs.foldl (fun (s : State) r => s.write r.1 r.2) o.2
    (stOK, if m.poison then s.poisonWrite l else s)

/-- A doorbell written over Causeway: the half and queue offset (R292, R293). -/
def doorbellTarget (s : State) (p : Port) (m : LinkMsg) : Option (Half × Nat) :=
  match p, s.region m.addr with
  | .ferry, _ => none
  | _, .ctl g => if 0x600000 ≤ m.addr - ctlBase g ∧ m.addr - ctlBase g < 0x700000 then some (g, m.addr - ctlBase g - 0x600000) else none
  | _, _ => none

/-- A doorbell write of a message: one run of eight aligned bytes is judged under R209, anything else is discarded. -/
def linkDoorbell (s : State) (g : Half) (o : Nat) (m : LinkMsg) : State :=
  match (List.range m.lines).flatMap (fun j => byteRuns (lineBytes m j)) with
  | [(a, bs)] =>
    let x := a - m.addr + o
    if bs.length = 8 ∧ x % 8 = 0 then wakeIdle (ringDoorbell s g (x / 8) (leNat bs)) g else noteDiscard s g (x / 8) 1
  | (a, _) :: _ => noteDiscard s g ((a - m.addr + o) / 8) 1
  | [] => s

/-- `WR` arrives: its lines are written and acknowledged, or it is refused, or sent on to another device (R109, R280, R291, R293). -/
def execWr (h : Half) (p : Port) (m : LinkMsg) (s : State) : Ans :=
  .next (if m.kind ≠ .wr ∨ !arrives s h p m then s
    else
      let s := takeMsg s h p m
      match onward s p m, doorbellTarget s p m with
      | some d, _ => forwardRequest s h m d
      | none, some (g, o) => respond (linkDoorbell s g o m) h p m .wrAck stOK false []
      | none, none =>
        let st := targetStatus s m true
        if st ≠ stOK then respond s h p m .wrAck st false []
        else if fabricUpset s h linkUnit then respond (takeFabric s h linkUnit) h p m .wrAck stFault false []
        else
          let r := (List.range m.lines).foldl (fun (r : Nat × State) j =>
            let o := writeLine r.2 m j
            (if r.1 = stOK then o.1 else r.1, o.2)) (stOK, s)
          respond r.2 h p m .wrAck r.1 false [])

/-- `OR8` arrives: byte 0 of its data is ORed into the byte at `ADDR`, or it is sent on to another device (R131, R280, R291, R376). -/
def execOr8 (h : Half) (p : Port) (m : LinkMsg) (s : State) : Ans :=
  .next (if m.kind ≠ .or8 ∨ !arrives s h p m then s
    else
      let s := takeMsg s h p m
      match onward s p m with
      | some d => forwardRequest s h m d
      | none =>
        let st := (targetHalf s m m.addr true).1
        if st ≠ stOK then respond s h p m .orAck st false []
        else if fabricUpset s h linkUnit then respond (takeFabric s h linkUnit) h p m .orAck stFault false []
        else
          let o := decodeHits s none 0 (cutsInto [(m.addr, 1)])
          if !o.1 then respond o.2 h p m .orAck stFault false []
          else respond (o.2.write m.addr [o.2.byte m.addr ||| m.data.headD 0]) h p m .orAck stOK false [])

/-! ### Responses at the requester -/

/-- The half that sent a request, from its tag (DESIGN CHOICE, log 10). -/
def tagHalf (tag : Nat) : Half := if tag % 2 = 0 then .bow else .stern

/-- The access of half `h` that a response answers, by its tag (R280, R281). -/
def answered (s : State) (h : Half) (p : Port) (m : LinkMsg) : Option Xfer :=
  (s.half h).xfers.find? (fun x => x.tag == m.tag && x.port == p)

/-- Take a response: it leaves the sender's books; over Causeway the request's credits return with it. -/
def takeResponse (s : State) (h : Half) (p : Port) (m : LinkMsg) : State :=
  let s := takeMsg s h p m
  match p with
  | .ferry => s
  | _ => match (s.link h p).sent.find? (fun x => x.tag == m.tag) with
    | some r => returnCredit s h p r
    | none => s

/-- What a response does at the half it arrives at: one that answers the other half's request goes on over the Ferry (R28, R291); else `f` handles the access it answers, which leaves the books. -/
def takeAnswer (s : State) (h : Half) (p : Port) (m : LinkMsg) (f : State → Xfer → State) : State :=
  let o := answered s h p m
  let s := takeResponse s h p m
  if tagHalf m.tag ≠ h then sendFerry s h [m]
  else
    match o with
    | none => s
    | some x => f (s.modHalf h (fun y => { y with xfers := y.xfers.erase x })) x

/-- Store the bytes of a read response with the command they are for, and go on when all have come (R281). -/
def fillRead (s : State) (g : Half) (f : Xfer) (data : List Byte) : State :=
  match f.kind with
  | .rd a n =>
    let s := mapFlight s g f.core f.cid (fun x => { x with
      got := (List.range (64 * n)).foldl (fun t i => Tab.insert t (a + i) (data.getD i 0)) x.got })
    if (s.half g).xfers.any (fun x => x.core == f.core && x.cid == f.cid) then s else advanceCmd s g f.core f.cid
  | _ => s

/-- `RD_DATA` arrives (R258, R281): a refusal or poisoned data ends the context, poisoned data is reported against its core. -/
def execRdData (h : Half) (p : Port) (m : LinkMsg) (s : State) : Ans :=
  .next (if m.kind ≠ .rdData ∨ !arrives s h p m then s
    else takeAnswer s h p m (fun s f =>
      if m.poison then faultCtx (s.tellPoison h (some f.core)) h f.ctx
      else if m.status ≠ stOK then faultCtx s h f.ctx
      else fillRead s h f m.data))

/-- `WR_ACK` arrives (R109, R281). -/
def execWrAck (h : Half) (p : Port) (m : LinkMsg) (s : State) : Ans :=
  .next (if m.kind ≠ .wrAck ∨ !arrives s h p m then s
    else takeAnswer s h p m (fun s f => if m.status ≠ stOK then faultCtx s h f.ctx else s))

/-- `OR_ACK` arrives: the bit is in memory and counts as progress (R131, R132, R281). -/
def execOrAck (h : Half) (p : Port) (m : LinkMsg) (s : State) : Ans :=
  .next (if m.kind ≠ .orAck ∨ !arrives s h p m then s
    else takeAnswer s h p m (fun s f =>
      let x := s.ctx h f.ctx
      let s := s.setCtx h f.ctx { x with
        pend := x.pend - 1, progress := if m.status = stOK then x.progress + 1 else x.progress }
      if m.status ≠ stOK then faultCtx s h f.ctx else s))

/-- The context of half `h` a `COUNTER` message is for: paired, and started (R287). -/
def pairedCtx (s : State) (h : Half) (m : LinkMsg) : Option Nat :=
  ((s.half h).ctxs.find? (fun p => match p.2.ticket with
    | some tk => tk.handle == m.program && tk.seq == m.seq && progNames h.other tk.prog && p.2.state != .ending
        && (p.2.startT.isSome || (s.half h).cores.any (fun k => k.2.ctx == some p.1))
    | none => false)).map Prod.fst

/-- `COUNTER` arrives at half `h`: the mirror takes the value, or the pending-counter store keeps it; a full store holds it back (R287). -/
def execCounter (h : Half) (m : LinkMsg) (s : State) : Ans :=
  .next (if m.kind ≠ .counter ∨ !arrives s h .ferry m then s
    else
      let v := leNat (m.data.take 4)
      match pairedCtx s h m with
      | some n =>
        let s := takeMsg s h .ferry m
        let x := s.ctx h n
        respond (s.setCtx h n { x with mirror := Tab.set 0 x.mirror (m.unit * 4 + m.ctr) v }) h .ferry m .counterAck stOK false []
      | none =>
        let rest := (s.half h).pendCtrs.filter (fun c =>
          !(c.program == m.program && c.seq == m.seq && c.core == m.unit && c.ctr == m.ctr))
        if rest.length ≥ 1024 then s
        else
          let s := takeMsg s h .ferry m
          let s := s.modHalf h (fun x => { x with pendCtrs := rest ++ [⟨m.program, m.seq, m.unit, m.ctr, v⟩] })
          respond s h .ferry m .counterAck stOK false [])

/-- `COUNTER_ACK` arrives (R287). -/
def execCounterAck (h : Half) (m : LinkMsg) (s : State) : Ans :=
  .next (if m.kind ≠ .counterAck ∨ !arrives s h .ferry m then s
    else takeAnswer s h .ferry m (fun s _ => s))

/-! ### Link state (R283 to R286, R289, R294) -/

/-- The recorder key of a port (R426). -/
def portKey : Port → Nat
  | .ferry => 0 | .cw0 => 1 | .cw1 => 2

/-- Sub-indices of the replay and retrain counters. -/
def portSubs : Port → Nat × Nat
  | .ferry => (2, 3) | _ => (3, 4)

/-- Change the state of one end of a link: waiting messages go once it carries traffic; vector 2 (R269, R284). -/
def setLinkState (s : State) (h : Half) (p : Port) (f : Link → Link) : State :=
  let l := s.link h p
  let s := putLink s h p (f l)
  if (s.link h p).state = l.state then s else showSignatures (s.msix h 2)

/-- Both ends of the Ferry, or the one end of a Causeway link. -/
def bothEnds (s : State) (h : Half) (p : Port) (f : State → Half → State) : State :=
  match p with
  | .ferry => f (f s h) h.other
  | _ => f s h

/-- A Causeway port fails: accesses outstanding over it end with `FAULT_CONTEXT`, those of the other half by a refusal over the Ferry (R285, R291, R296). -/
def causewayFailed (s : State) (h : Half) (p : Port) : State :=
  let l := s.link h p
  let theirs := (l.sent ++ l.waiting).filter (fun m => !isResponse m && tagHalf m.tag != h)
  let s := setLinkState s h p (fun l => { l with state := .failed, waiting := [], sent := [], replay := [], discard := false, nakTx := none })
  let s := s.observe h 15 1 0xFF (portKey p) (linBin 2 0) none
  let s := endOutstanding s h stFault (fun f => f.port == p)
  sendFerry s h (theirs.map (fun m => { m with
    kind := responseKind m.kind, status := stFault, masked := false, mask := [], data := [], lines := 1 }))

/-- A link becomes `FAILED` (R285). -/
def linkFailed (s : State) (h : Half) (p : Port) : State :=
  match p with
  | .ferry => ferryFailed s h
  | _ => causewayFailed s h p

/-- A link enters `RETRAIN` (R283, R284). -/
def enterRetrain (s : State) (h : Half) (p : Port) : State :=
  bothEnds s h p (fun s g =>
    if (s.link g p).state ≠ .active then s
    else
      let s := setLinkState s g p (fun l => { l with state := .retrain, nakCount := 0 })
      (s.bump (portIdx g p) (portSubs p).2 1).observe g 15 1 0xFF (portKey p) (linBin 1 0) none)

/-- `NAK` naming `seq` arrives: every flit up to it is acknowledged, the sender resends the others unchanged; the eighth for one number retrains the link (R283). -/
def execNak (h : Half) (p : Port) (seq : Nat) (s : State) : Ans :=
  let l := s.link h p
  let due := match p with
    | .ferry => (s.half h.other).ferry.nakTx == some seq
    | _ => true
  .next (if l.state ≠ .active ∨ !due then s
    else
      let s := match p with
        | .ferry => s.setLink h.other .ferry { (s.half h.other).ferry with nakTx := none, discard := false }
        | _ => s
      let n := if l.nakSeq = seq then l.nakCount + 1 else 1
      let s := s.setLink h p { acknowledge l seq with nakSeq := seq, nakCount := n }
      let s := (s.bump (portIdx h p) (portSubs p).1 1).observe h 15 1 0xFF (portKey p) (linBin 0 0) none
      if 8 ≤ n then enterRetrain s h p else s)

/-- A flit `seq` that fails at port `p` is one the sender has in its replay buffer, or is about to send. -/
def flitSent (s : State) (h : Half) (p : Port) (seq : Nat) : Bool :=
  match p with
  | .ferry =>
    let o := (s.half h.other).ferry
    o.replay.any (fun f => f.seq == seq) || o.txSeq == seq
  | _ => true

/-- `FLIT_CRC_FAILURE` of flit `seq`, which fails its CRC, is of a reserved type, or comes out of order: it and all later ones are discarded, a `NAK` names the last good number (R279, R283). -/
def execFlitCrcFailure (h : Half) (p : Port) (seq : Nat) (s : State) : Ans :=
  let l := s.link h p
  .next (if l.state ≠ .active ∨ l.discard ∨ 1024 ≤ seq ∨ !flitSent s h p seq then s
    else
      match p with
      | .ferry =>
        let good := (seq + 1023) % 1024
        let s := s.setLink h .ferry { l with nakTx := some good, rxSeq := seq, discard := true }
        s.setLink h.other .ferry (acknowledge (s.half h.other).ferry good)
      | _ =>
        let good := (l.rxSeq + 1023) % 1024
        (s.setLink h p { l with nakTx := some good, discard := true }).emit (.flit h p (nakFlit good)))

/-- `RETRAIN`: 1 µs without a good flit (R284). -/
def execRetrain (h : Half) (p : Port) (s : State) : Ans := .next (enterRetrain s h p)

/-- `RETRAIN_DONE` (R284, R285): back to `ACTIVE`, or one more failure; the third in a row fails the link. -/
def execRetrainDone (h : Half) (p : Port) (ok : Bool) (s : State) : Ans :=
  .next (if (s.link h p).state ≠ .retrain then s
    else if ok then
      bothEnds s h p (fun s g => if (s.link g p).state = .retrain then
        setLinkState s g p (fun l => { l with state := .active, failedRetrains := 0, discard := false, nakTx := none }) else s)
    else
      let s := bothEnds s h p (fun s g => s.setLink g p { s.link g p with failedRetrains := (s.link g p).failedRetrains + 1 })
      if 3 ≤ (s.link h p).failedRetrains then linkFailed s h p else s)

/-- The partner R289 wires to a port of this device, if the system has one. -/
def wiredPartner (s : State) (h : Half) (p : Port) : Option Nat :=
  let d := s.num 0x2600 1
  let p1 := decide (p = .cw1)
  match s.num 0x2600 2 with
  | 2 => some (d ^^^ 1)
  | 3 => some ((d + (if p1 then 2 else 1)) % 3)
  | 4 => some (d ^^^ (match h, p1 with
      | .bow, false => 1
      | .stern, false => 3
      | _, true => 2))
  | _ => none

/-- At training a half measures and stores the Ferry's fixed delay, which is also the link delay of switch port 6; what it measures is not stated, and free (R286, R301; DESIGN CHOICE, log 9). -/
def measureDelay (s : State) (h : Half) : State :=
  let ps := s.free.1 % 2 ^ 32
  (s.free.2.setNum (hk h 0x4620) 4 ps).setNum (hk h 0x4806) 6 (ps / 1000)

/-- The Ferry has trained: both ends carry traffic, the follower's counter is aligned to the leader's (R284, R286, R462). -/
def ferryTrained (s : State) : State :=
  let up (s : State) (g : Half) : State :=
    setLinkState s g .ferry (fun l => { linkDown with state := .active, waiting := l.waiting })
  measureDelay (measureDelay (alignTime (up (up s .bow) .stern)) .bow) .stern

/-- `TRAINING_DONE`: the Ferry, or a Causeway port whose partner reports `dev` and its signature; one with another number goes `DOWN` (R284, R289, R294, R462). -/
def execTrainingDone (h : Half) (p : Port) (dev : Nat) (sig : BitVec 32) (s : State) : Ans :=
  let st := (s.link h p).state
  .next (if st = .active ∨ st = .retrain ∨ (s.half h).boot.stage < 3 then s
    else
      match p with
      | .ferry => if (s.half h.other).boot.stage < 3 then s else ferryTrained s
      | _ =>
        let s := (s.setNum (portIdx h p) 2 (dev % 256)).setNum (portIdx h p) 8 sig.toNat
        if wiredPartner s h p = some dev then
          setLinkState s h p (fun l => { linkDown with state := .active, waiting := l.waiting })
        else setLinkState (s.bump (portIdx h p) 6 1) h p (fun l => { l with state := .down }))

/-- `HEARTBEAT_SEND` by port `p` at ticket time `t`; over Causeway it leaves the device (R280, R285, R288). -/
def execHeartbeatSend (h : Half) (p : Port) (t : Time) (s : State) : Ans :=
  let s := s.atTime h t
  let l := s.link h p
  .next (if l.state ≠ .active then s
    else
      match p with
      | .ferry =>
        let n := (s.half h).beats + 1
        s.modHalf h (fun x => { x with beats := n % 2 ^ 32, beatTx := some ⟨t, s.halfStatus h, n % 2 ^ 32⟩ })
      | _ =>
        let n := (l.beats + 1) % 2 ^ 32
        (s.setLink h p { l with beats := n }).emit (.beat h p ⟨t, s.halfStatus h, n⟩))

/-- The lost half's cause where the survivor can know it, else `PEER_LOST` (R393, R396). -/
def knownCause (s : State) (h : Half) : Nat :=
  let c := s.num (hk h.other 0x4B00) 2
  if (s.half h).ferry.state = .active ∧ c ≠ 0 then c
  else if s.halfState h.other = 5 then 4 else 9

/-- A heartbeat of the other half arrives over the Ferry (R265, R285, R394): a half whose heartbeat shows it out of service is judged lost. -/
def ferryBeat (h : Half) (s : State) : State :=
  match (s.half h.other).beatTx with
  | none => s
  | some b =>
    let s := s.modHalf h.other (fun x => { x with beatTx := none })
    if (s.half h).ferry.state ≠ .active then s
    else
      let s := s.modHalf h (fun x => { x with
        beatsRx := (x.beatsRx + 1) % 2 ^ 64, ferry := { x.ferry with missed := 0 }
        safety := { x.safety with peerStat := some b.status } })
      if bitAt b.status 11 ∧ b.status % 256 = 3 ∧ (s.half h).ready = 3 then judgeLost s h (knownCause s h) else s

/-- A heartbeat arrives over Causeway: no period is missed, the partner has been heard; the codewords that the FEC has corrected by then are counted, and how many is free (R285, R288, R290; DESIGN CHOICE, log 9). -/
def causewayBeat (s : State) (h : Half) (p : Port) : State :=
  let s := hearPartner (s.setLink h p { s.link h p with missed := 0 }) h p
  let o := s.free
  o.2.bump (portIdx h p) 5 (o.1 % 2 ^ 32)

/-- `HEARTBEAT` arrives by port `p` of half `h` (R285, R288): no period is missed. -/
def execHeartbeat (h : Half) (p : Port) (s : State) : Ans :=
  let l := s.link h p
  .next (match p with
    | .ferry => ferryBeat h s
    | _ => if l.state = .active then causewayBeat s h p else s)

/-- `HEARTBEAT_MISS` of a port: counted; the third in a row fails the link (R285). -/
def execHeartbeatMiss (h : Half) (p : Port) (s : State) : Ans :=
  let l := s.link h p
  .next (if l.state ≠ .active ∧ l.state ≠ .retrain then s
    else
      let s := s.setLink h p { l with missed := l.missed + 1 }
      let s := if p = .ferry then s.bump (hk h 0x4620) 5 1 else s
      if 3 ≤ l.missed + 1 then linkFailed s h p else s)

end Sys2Proof.Machine
end

