-- ==== Sys2Proof/Machine/OutOps.lean ====
section
/-! DEFINITION. What every frame meets at its launch, and what a received frame feeds: ages, budgets, invalid marks, output gate, signal maps (R306, R313, R314, R333, R345, R378, R387 to R390). -/
namespace Sys2Proof.Machine

/-- The sum of the steps, newest first, that lie between a source time-stamp and the ticket time `cur`: a stamp that was taken after a step lies from where the step led to, and not in the range that a backward step leaves to come again (R306; points read in log 36). -/
def stepsBack (srcT : Time) : List TimeStep → Time → Int
  | [], _ => 0
  | p :: ps, cur =>
    if 0 ≤ Time.diff srcT (p.t + BitVec.ofInt 48 p.d) ∧ (0 ≤ Time.diff cur srcT ∨ 0 < Time.diff srcT p.t) then 0
    else p.d + stepsBack srcT ps p.t

/-- Accepted steps between a source time-stamp and the instant `leave`; one more than 2^47 ns old lies before any stamp that can be compared (R297, R306). -/
def stepsSince (s : State) (leave srcT : Time) : Int :=
  stepsBack srcT (s.steps.filter (fun p => decide (s.clock < p.clock + 2 ^ 47))).reverse leave

/-- The age of a frame that leaves at `leave` (R314). -/
def frameAge (s : State) (leave srcT : Time) : Int := Time.diff leave srcT - stepsSince s leave srcT

/-- A frame derives from data the invalid mark covers (R378); no mark has been made while `INVALID_SRC_T` is 0. -/
def isMarked (s : State) (h : Half) (srcT : Time) (budget : Nat) : Bool :=
  let m := s.num (hk h 0x4B00) 0x0B
  budget != 0 && m != 0 && decide (Time.diff srcT (BitVec.ofNat 48 m) ≤ 0)

/-- A frame is over its budget (R387). -/
def overBudget (s : State) (leave srcT : Time) (budget : Nat) : Bool :=
  budget != 0 && decide (frameAge s leave srcT > budget * 1000)

/-- The half's output gate is closed (R390, R399). -/
def gateClosed (s : State) (h : Half) : Bool := (s.half h).safety.gateClosed

/-- Count a frame of ring, controller or loop `key` within or over its budget (R388): at `DL_MISS_LIMIT` in a row the half enters safe state. -/
def noteBudget (s : State) (h : Half) (key : Nat) (missed : Bool) : State :=
  let n := if missed then Tab.get 0 (s.half h).safety.overBudget key + 1 else 0
  let s := s.modHalf h (fun x => { x with safety := { x.safety with overBudget := Tab.set 0 x.safety.overBudget key n } })
  if missed ∧ s.num 0x2900 3 ≤ n then s.enterSafe h 7 else s

/-- Record a frame's age (R426). -/
def noteAge (s : State) (h : Half) (key : Nat) (age : Int) : State :=
  s.observe h 3 1 0xFF key (logBin (age / 1000000)) (some (clampI (-2147483648) 2147483647 (age / 1000)))

/-- The deadline monitor's check of a frame at its launch (R387, R388). -/
def checkDeadline (s : State) (h : Half) (key : Nat) (leave srcT : Time) (budget : Nat) : State :=
  if budget = 0 then s
  else noteBudget (noteAge s h key (frameAge s leave srcT)) h key (overBudget s leave srcT budget)

/-- What becomes of a frame at an instant at which it could start. -/
inductive Launch where
  | wait | send | drop (status : Nat) (late : Bool)
  deriving DecidableEq, Repr

/-- Judge a frame at `t` (R313, R378, R387, R390, R402), which would count as leaving at `leave` (R314): before its launch time it waits; a frame of a loop is sent with `VALID` = 0 where a ring's frame is dropped. -/
def judgeLaunch (s : State) (h : Half) (own isLoop : Bool) (launch : Option Time) (srcT t leave : Time) (budget : Nat) : Launch :=
  let ahead := match launch with
    | some l => decide (Time.diff t l < -16)
    | none => false
  let late := match launch with
    | some l => decide (Time.diff t l > 2000)
    | none => false
  if ahead then .wait
  else if own && gateClosed s h then .drop stState late
  else if !isLoop && isMarked s h srcT budget then .drop stCheck late
  else if late then .drop stDeadline true
  else if !isLoop && overBudget s leave srcT budget then .drop stDeadline false
  else .send

/-- Replace byte `i` of a byte list. -/
def putByte (bs : List Byte) (i : Nat) (b : Byte) : List Byte := upto bs.length (fun j => if j = i then b else bs.getD j 0)

/-- Set the CRC-8 of a loop's frame over every byte but its own (R345). -/
def sealFrame (bs : List Byte) (crcOfs : Nat) : List Byte :=
  if crcOfs = 0xFFFF then bs
  else putByte bs crcOfs (crc8 ((List.range bs.length).filterMap (fun i => if i = crcOfs then none else bs[i]?)))

/-- The bytes of a loop's frame as it is sent: the alive counter of this frame, `VALID` cleared where the monitor says so, the CRC (R345, R378, R387). -/
def loopFrameBytes (bs : List Byte) (statusOfs crcOfs alive : Nat) (bad : Bool) : List Byte :=
  let b := (bs.getD statusOfs 0).toNat
  let b := b / 16 * 16 + alive % 16
  let b := if bad then b % 128 else b
  sealFrame (putByte bs statusOfs (BitVec.ofNat 8 b)) crcOfs

/-- A loop's alive counter rises with each frame sent (R345). -/
def riseAlive (s : State) (h : Half) (n : Nat) : State :=
  let l := s.loop h n
  s.setLoop h n { l with alive := (l.alive + 1) % 16 }

/-! ### Signal maps (R333, R334) -/

/-- Index of signal map `m`. -/
def mapIdx (h : Half) (m : Nat) : Nat := hkc h (0x9200 + m)

/-- The raw field of a map in a payload (R333). -/
def rawField (s : State) (i : Nat) (bs : List Byte) : Int :=
  let w := s.num i 5
  let f := (bs.drop (s.num i 4)).take (w / 8)
  let n := if s.num i 7 = 1 then leNat f.reverse else leNat f
  if s.num i 6 = 1 then sext w n else (n : Int)

/-- One map takes a matching frame (R333). -/
def takeSignal (s : State) (i : Nat) (bs : List Byte) (t : Time) : State :=
  if bs.length < s.num i 4 + s.num i 5 / 8 then s.bump i 0x0C 1
  else
    let a := fmul (intToF32 (rawField s i bs)) (BitVec.ofNat 32 (s.num i 8))
    (s.setNum i 0x0A (fadd a (BitVec.ofNat 32 (s.num i 9))).toNat).setNum i 0x0B t.toNat

/-- Every map of half `h` that a test picks takes the frame. -/
def takeSignals (s : State) (h : Half) (hit : Nat → Bool) (bs : List Byte) (t : Time) : State :=
  (List.range 64).foldl (fun (s : State) m => if hit (mapIdx h m) then takeSignal s (mapIdx h m) bs t else s) s

/-- An address range lies in half `h`'s own DRAM or Meres (R312, R320, R328, R348). -/
def inOwnMemory (s : State) (h : Half) (a n : Nat) : Bool :=
  decide (0 < n) && (linesOf a n).all (fun l => match s.region l with
    | .dram g => g == h
    | .mere g _ => g == h
    | _ => false)

end Sys2Proof.Machine
end

