-- ==== Sys2Proof/Machine/SwitchCmds.lean ====
section
/-! DEFINITION. Meanings of the TSN switch rows: ingress, forwarding, receive rings, transmit rings, launch, gates, replication (R307 to R316). -/
namespace Sys2Proof.Machine

/-! ### Frame fields -/

/-- The VLAN tag of a frame: (PCP, VLAN ID), zeros for an untagged frame (R308). -/
def vlanOf (bs : List Byte) : Nat × Nat :=
  if beNat ((bs.drop 12).take 2) = 0x8100 then
    let t := beNat ((bs.drop 14).take 2)
    (t / 8192, t % 4096)
  else (0, 0)

/-- Offset of the EtherType after any VLAN tag. -/
def typeOfs (bs : List Byte) : Nat := if beNat ((bs.drop 12).take 2) = 0x8100 then 16 else 12

/-- The EtherType after any VLAN tag. -/
def etherType (bs : List Byte) : Nat := beNat ((bs.drop (typeOfs bs)).take 2)

/-- The destination MAC. -/
def dstMac (bs : List Byte) : Nat := beNat (bs.take 6)

/-- The UDP destination port of an unfragmented IPv4 or IPv6 frame (R316). -/
def udpPort (bs : List Byte) : Option Nat :=
  let o := typeOfs bs + 2
  let b (i : Nat) : Nat := (bs.getD (o + i) 0).toNat
  if etherType bs = 0x0800 ∧ b 0 / 16 = 4 ∧ b 9 = 17 ∧ (b 6 * 256 + b 7) % 0x4000 = 0 then
    (let l := 4 * (b 0 % 16); some (b (l + 2) * 256 + b (l + 3)))
  else if etherType bs = 0x86DD ∧ b 0 / 16 = 6 ∧ b 6 = 17 then some (b 42 * 256 + b 43)
  else none

/-- The class of a `FRAME` message from the frame's priority (R281). -/
def frameClass (bs : List Byte) : Nat := 3 - (vlanOf bs).1 / 2

/-- The R-TAG sequence number of a frame, where it has one (R315). -/
def rTag (bs : List Byte) : Option Nat :=
  if etherType bs = 0xF1C1 then some (beNat ((bs.drop (typeOfs bs + 4)).take 2)) else none

/-- Put an R-TAG into a frame (R315). -/
def putRTag (bs : List Byte) (seq : Nat) : List Byte :=
  bs.take (typeOfs bs) ++ natBe 2 0xF1C1 ++ natBe 2 0 ++ natBe 2 seq ++ bs.drop (typeOfs bs)

/-! ### FRER on receive (R315) -/

/-- The enabled entry of `FRER_RX` that matches a frame, in the layout of a receive rule (PRESUMED, log 22). -/
def frerEntry (s : State) (h : Half) (bs : List Byte) : Option Nat :=
  let t := s.bytes (hk h 0x4813) 2
  (List.range (t.length / 16)).find? (fun i =>
    let w := bytesNat t (16 * i) 16
    bitAt w 127 && fld w 47 0 == dstMac bs && fld w 75 64 == (vlanOf bs).2)

/-- Vector recovery with a history of 32: whether the frame passes, and the state after it. -/
def frerStep (r : Option Frer) (seq : Nat) : Bool × Frer :=
  match r with
  | none => (true, ⟨seq, 1⟩)
  | some v =>
    let d := sext 16 (seq + 65536 - v.seq)
    if d ≥ 32 ∨ d ≤ -32 then (false, v)
    else if d ≤ 0 then
      if bitAt v.hist d.natAbs then (false, v) else (true, { v with hist := v.hist + 2 ^ d.natAbs })
    else (true, ⟨seq, (v.hist * 2 ^ d.toNat + 1) % 2 ^ 32⟩)

/-- Eliminate duplicates: `true` when the frame passes. -/
def frerPass (s : State) (h : Half) (bs : List Byte) : Bool × State :=
  match rTag bs, frerEntry s h bs with
  | some seq, some e =>
    let o := frerStep ((s.half h).tsn.frerRx.find e) seq
    (o.1, s.modHalf h (fun x => { x with tsn := { x.tsn with
      frerRx := Tab.insert x.tsn.frerRx e o.2, frerDups := x.tsn.frerDups + (if o.1 then 0 else 1) } }))
  | _, _ => (true, s)

/-- `FRER_RESET`: recovery of an entry takes any next frame (R315). -/
def execFrerReset (h : Half) (e : Nat) (s : State) : Ans :=
  .next (s.modHalf h (fun x => { x with tsn := { x.tsn with frerRx := Tab.erase x.tsn.frerRx e } }))

/-! ### Receive rings (R316) -/

/-- A receive rule matches a frame (*Receive rule*). -/
def ruleHits (w : Nat) (bs : List Byte) : Bool :=
  let m := fld w 126 123
  bitAt w 127
  && (!bitAt m 3 || fld w 47 0 == dstMac bs)
  && (!bitAt m 2 || fld w 75 64 == (vlanOf bs).2)
  && (!bitAt m 1 || fld w 95 80 == etherType bs)
  && (!bitAt m 0 || udpPort bs == some (fld w 111 96))

/-- The first enabled rule that matches, and its ring; ring 0 for none (R316). -/
def steer (s : State) (h : Half) (bs : List Byte) : Option Nat × Nat :=
  let t := s.bytes (hk h 0x4812) 1
  match (List.range (min 64 (t.length / 16))).find? (fun i => ruleHits (bytesNat t (16 * i) 16) bs) with
  | some i => (some i, fld (bytesNat t (16 * i) 16) 119 116)
  | none => (none, 0)

/-- Deliver a frame to a receive ring: its bytes, then the header (R316). -/
def deliverFrame (s : State) (h : Half) (port : Nat) (bs : List Byte) (t : Time) : State :=
  let r := steer s h bs
  let slotBytes := s.num (hk h 0x4811) (0x21 + r.2)
  let k := Tab.get 0 (s.half h).tsn.rxCount r.2
  let a := s.num (hk h 0x4811) (1 + r.2) + (k % 2 ^ s.num (hk h 0x4811) (0x11 + r.2)) * slotBytes
  let room := slotBytes - 32
  let header := natLe 32 ((k + 1) % 2 ^ 32 + 2 ^ 175 * b2n (decide (room < bs.length)) + 2 ^ 176 * r.1.getD 0xFF + 2 ^ 184 * port
    + 2 ^ 192 * bs.length + 2 ^ 208 * t.toNat)
  let s := s.modHalf h (fun x => { x with tsn := { x.tsn with rxCount := Tab.set 0 x.tsn.rxCount r.2 ((k + 1) % 2 ^ 32) } })
  let s := if inOwnMemory s h a slotBytes && memOn s h then (s.mergeWrite (a + 32) (bs.take room)).mergeWrite a header else s
  match r.1 with
  | some i => takeSignals s h (fun m => s.num m 1 == 5 && s.num m 3 == i) bs t
  | none => s

/-! ### Forwarding (R308) -/

/-- Egress ports of a frame by the filtering database, without its ingress port: none for an unknown destination (DESIGN CHOICE, log 12). -/
def egressOf (h : Half) (port : Nat) (bs : List Byte) : Option (List Nat) :=
  let m := Config.filterPorts h.num (vlanOf bs).2 (dstMac bs) % 128
  if m = 0 then none else some ((List.range 7).filter (fun p => bitAt m p && p != port))

/-- Hand a frame to the Ferry's port, if it is enabled (R281, R307): it waits while the Ferry retrains (R284), and is lost while the Ferry is down (R315). -/
def crossFerry (s : State) (h : Half) (f : FrameMsg) : State := if portOn s h 6 then sendFrameMsg s h f else s

/-! ### Gates and egress (R308, R311) -/

/-- The segments of one cycle of a gate list: (end, gates); entries are cut at the cycle, the last state holds to its end (R311). -/
def gateSegs (cycle : Nat) : List (Nat × Nat) → Nat → Nat → List (Nat × Nat)
  | [], from_, last => if from_ < cycle then [(cycle, last)] else []
  | (g, n) :: t, from_, _ =>
    if cycle ≤ from_ then []
    else (min cycle (from_ + n), g) :: gateSegs cycle t (from_ + n) g

/-- How long the gate of class `tc` stays open from `phase`, over segments in order: 0 when closed. -/
def openFor (tc phase : Nat) : List (Nat × Nat) → Nat
  | [] => 0
  | (e, g) :: t =>
    if e ≤ phase then openFor tc phase t
    else if bitAt g tc then (e - phase) + openFor tc e t
    else 0

/-- The rate of a port in Mb/s: `SPEED_MBPS` of ports 0 to 4, 25 Gb/s of the endpoint, the Ferry's bodies (R278, R307, R311). -/
def portSpeed (s : State) (h : Half) (p : Nat) : Nat :=
  if p = 5 then 25000 else if p = 6 then 2048000 else max 1 (s.num (hk h (0x4800 + p)) 2)

/-- A frame of `len` bytes may start at `t` on port `p`: its gate is open and stays open until it has finished (R311). -/
def gateAllows (s : State) (h : Half) (p tc len : Nat) (t : Time) : Bool :=
  match (s.half h).tsn.gcls.find p with
  | none => true
  | some g =>
    if g.entries.isEmpty ∨ g.cycle = 0 then true
    else
      let segs := gateSegs g.cycle g.entries 0 0xFF
      if segs.all (fun x => bitAt x.2 tc) then true
      else
        let phase := (Time.diff t g.base % (g.cycle : Int)).toNat
        let dur := ((len + 12) * 8 * 1000 + portSpeed s h p - 1) / portSpeed s h p
        decide (dur ≤ openFor tc phase (segs ++ segs.map (fun x => (x.1 + g.cycle, x.2)))) && decide (0 < openFor tc phase segs)

/-- Frames that wait for class `tc` of egress port `p`. -/
def waitingAt (s : State) (h : Half) (p tc : Nat) : List Egress := Tab.get [] (s.half h).tsn.egress (p * 8 + tc)

/-- Put the frames that wait for a class of an egress port. -/
def setWaiting (s : State) (h : Half) (p tc : Nat) (es : List Egress) : State :=
  s.modHalf h (fun x => { x with tsn := { x.tsn with egress := Tab.set [] x.tsn.egress (p * 8 + tc) es } })

/-- The port a frame of the endpoint's queues enters the switch by (R307, R315). -/
def entryPort (f : TxFrame) : Nat := if f.src = .peer then 6 else 5

/-- The instant a frame counts as leaving at: its launch time, else its egress time on its first port (R309, R314). -/
def leaveTime (s : State) (h : Half) (f : TxFrame) (ports : List Nat) (t : Time) : Time :=
  let p := ports.headD 5
  f.launch.getD (t + BitVec.ofInt 48 (if p < 5 then s.int (hk h (0x4800 + p)) 4 32 else 0))

/-- Judge a frame of the endpoint's queues at `t`. -/
def judgeTx (s : State) (h : Half) (f : TxFrame) (t : Time) : Launch :=
  judgeLaunch s h (decide (f.src ≠ .peer)) f.loop.isSome f.launch f.srcT t
    (leaveTime s h f ((egressOf h (entryPort f) f.data).getD []) t) f.budget

/-- A frame is first of its queue and class (R312). -/
def headOfQueue (s : State) (h : Half) (f : TxFrame) : Bool :=
  (s.half h).tsn.txq.find? (fun g => g.src == f.src && g.cls == f.cls) == some f

/-- A frame of a class above `tc` could start on port `p` at `t`: strict priority holds a lower one back (R308). -/
def readyAbove (s : State) (h : Half) (p tc : Nat) (t : Time) : Bool :=
  (List.range 8).any (fun c => decide (tc < c) && (match waitingAt s h p c with
    | e :: _ => gateAllows s h p c e.data.length t
    | [] => false))
  || (s.half h).tsn.txq.any (fun f => decide (tc < f.cls) && headOfQueue s h f && judgeTx s h f t == .send
    && (match egressOf h (entryPort f) f.data with
      | some ports => ports.contains p && ports.all (fun q => gateAllows s h q f.cls f.data.length t)
      | none => false))

/-- A frame leaves by a port: to the wire, the endpoint's rings, the Ferry. -/
def putOut (s : State) (h : Half) (p : Nat) (e : Egress) (t : Time) : State :=
  if p = 5 then deliverFrame s h e.port e.data e.ingress
  else if p = 6 then crossFerry s h ⟨e.data, frameClass e.data, false, none, 0, 0⟩
  else s.emit (.frameOut h p e.data (t + BitVec.ofInt 48 (s.int (hk h (0x4800 + p)) 4 32)))

/-- Bridge a frame to a port: it leaves at once where its gate lets it and no frame of its class or above goes first, else it waits in its class (R308, R311). -/
def bridge (s : State) (h : Half) (p : Nat) (e : Egress) (t : Time) : State :=
  let tc := (vlanOf e.data).1
  if !portOn s h p then s
  else if (waitingAt s h p tc).isEmpty && gateAllows s h p tc e.data.length t && !readyAbove s h p tc t then putOut s h p e t
  else setWaiting s h p tc (waitingAt s h p tc ++ [e])

/-- Bridge a frame to the ports of a list. -/
def forward (s : State) (h : Half) (inPort : Nat) (ports : List Nat) (bs : List Byte) (ingress t : Time) : State :=
  ports.foldl (fun (s : State) p => bridge s h p ⟨inPort, bs, ingress⟩ t) s

/-- Send the next frame that waits for class `tc` of port `p`, where it may start at `t`. -/
def releaseAt (s : State) (h : Half) (tc : Nat) (t : Time) (p : Nat) : State :=
  match waitingAt s h p tc with
  | [] => s
  | e :: rest =>
    if gateAllows s h p tc e.data.length t && !readyAbove s h p tc t then putOut (setWaiting s h p tc rest) h p e t else s

/-- A domain-0 gPTP message, which the time rows take (R301). -/
def isGptp (bs : List Byte) : Bool := etherType bs == 0x88F7 && (bs.getD (typeOfs bs + 6) 0) == 0

/-- A good frame enters the switch at a port (R308, R315). -/
def admitFrame (s : State) (h : Half) (port : Nat) (bs : List Byte) (ingress t : Time) : State :=
  if isGptp bs then s
  else
    match egressOf h port bs with
    | none => s.bump (hk h (0x4800 + port)) 0x0C 1
    | some ports =>
      let o := frerPass s h bs
      if o.1 then forward o.2 h port ports bs ingress t else o.2

/-- An ARP request at port 4 for the address at which the half serves its dictionary (R412, RFC 826; DEDUCED, log 27). -/
def arpAsks (s : State) (h : Half) (port : Nat) (bs : List Byte) : Bool :=
  let o := typeOfs bs + 2
  let v := s.num (hkc h 0x9000) 5
  port == 4 && (s.half h).boot.stage == 3 && decide (2 ≤ (s.half h).ready) && v != 0 && etherType bs == 0x0806
    && beNat ((bs.drop o).take 8) == 0x0001080006040001 && beNat ((bs.drop (o + 24)).take 4) == v

/-- The answer: the half's `DICT_MAC` for its `DICT_IPV4_ADDR`, to the asker, padded to 60 bytes (R412). -/
def arpReply (s : State) (h : Half) (bs : List Byte) : List Byte :=
  let o := typeOfs bs + 2
  let own := natBe 6 (dictMac s h)
  let f := (bs.drop 6).take 6 ++ own ++ (bs.drop 12).take (o - 12) ++ natBe 8 0x0001080006040002 ++ own
    ++ natBe 4 (s.num (hkc h 0x9000) 5) ++ (bs.drop (o + 8)).take 10
  f ++ List.replicate (60 - f.length) 0

/-- Answer an ARP request for the dictionary's address that came in state `s`, once the switch has taken the frame (R412); the answer enters at port 5, so a closed output gate holds it back (R390). -/
def answerArp (s w : State) (h : Half) (port : Nat) (bs : List Byte) (t : Time) : State :=
  if arpAsks s h port bs && !gateClosed w h then bridge w h port ⟨5, arpReply s h bs, t⟩ t else w

/-- `FRAME_INGRESS` at port 0 to 4 with its MAC stamp `t` (R308, R309). -/
def execFrameIngress (h : Half) (port : Nat) (bs : List Byte) (fcs : Bool) (t : Time) (s : State) : Ans :=
  let s := s.atTime h t
  .next (if 5 ≤ port ∨ !portOn s h port then s
    else if !fcs || decide (9212 < bs.length) then s.bump (hk h (0x4800 + port)) 0x0C 1
    else if bs.length < 60 then s
    else answerArp s (admitFrame s h port bs (t - BitVec.ofInt 48 (s.int (hk h (0x4800 + port)) 3 32)) t) h port bs t)

/-- Put a frame in the endpoint's queues. -/
def queueFrame (s : State) (h : Half) (f : TxFrame) : State :=
  s.modHalf h (fun x => { x with tsn := { x.tsn with txq := x.tsn.txq ++ [f] } })

/-- `FRAME`: the next `FRAME` message of the other half's switch arrives at port 6; a replica waits in a queue of its own (R281, R307, R315). -/
def execFrame (h : Half) (t : Time) (s : State) : Ans :=
  let s := s.atTime h t
  .next (match nextCargo s h .frame with
    | none => s
    | some m =>
      let s := takeMsg s h .ferry m
      match m.cargo with
      | .frame f =>
        if !portOn s h 6 then s
        else if f.replica then queueFrame s h ⟨.peer, none, (vlanOf f.data).1, f.data, f.launch, f.srcT, f.budget, none, 0, 0xFFFF⟩
        else admitFrame s h 6 f.data t t
      | _ => s)

/-! ### Transmit rings (R312, R315) -/

/-- Write back a transmit descriptor (R312). -/
def txWriteBack (s : State) (a : Nat) (doneT : Time) (status : Nat) : State :=
  let d := s.readNat a 32
  s.mergeWrite a (natLe 32 (d / 2 ^ 64 * 2 ^ 64 + doneT.toNat * 2 ^ 16 + status % 256 * 2 ^ 8 + d % 2 ^ 7))

/-- The memory a descriptor's frame may lie in: DRAM, Meres and host memory that answer (R312; points read in log 36). -/
def bufferReach (s : State) (h : Half) (a n : Nat) : Bool :=
  decide (0 < n) && engineReach s a n && (linesOf a n).all (fun l => match s.region l with
    | .host => (s.half h).host.linkUp && (s.half h).host.busMaster
    | .dram g => g == h || !ferryLost s h
    | .mere g _ => g == h || !ferryLost s h
    | _ => false)

/-- A descriptor is refused: a field breaks its rule, or its launch time is more than 1 s ahead (R312, R313). -/
def txRefused (s : State) (h : Half) (tc d : Nat) (t : Time) : Bool :=
  fld d 2 0 != tc || fld d 4 3 != 0 || fld d 79 70 != 0 || decide (fld d 95 80 < 60) || decide (9212 < fld d 95 80)
  || !bufferReach s h (fld d 255 208) (fld d 95 80)
  || (bitAt d 5 && decide (Time.diff (BitVec.ofNat 48 (fld d 207 160)) t > 1000000000))

/-- Take a posted descriptor: replicated frames get the stream's next number and a copy over the Ferry, unless the output gate is closed (R315, R389). -/
def takeTx (s : State) (h : Half) (tc a d : Nat) : State :=
  let bs := upto (fld d 95 80) (fun i => engineByte s h (fld d 255 208 + i))
  let launch := if bitAt d 5 then some (BitVec.ofNat 48 (fld d 207 160)) else none
  let srcT := BitVec.ofNat 48 (fld d 159 112)
  let f (x : List Byte) : TxFrame := ⟨.ring, some a, tc, x, launch, srcT, fld d 111 96, none, 0, 0xFFFF⟩
  if bitAt d 6 then
    let q := fld d 69 64
    let n := Tab.get 0 (s.half h).tsn.frerSeq q
    let s := s.modHalf h (fun x => { x with tsn := { x.tsn with frerSeq := Tab.set 0 x.tsn.frerSeq q ((n + 1) % 65536) } })
    let tagged := putRTag bs n
    let s := if gateClosed s h then s else crossFerry s h ⟨tagged, frameClass tagged, true, launch, srcT, fld d 111 96⟩
    queueFrame s h (f tagged)
  else queueFrame s h (f bs)

/-- `TX_DESCRIPTOR_TAKE` of ring `tc` at ticket time `t` (R312, R313): a descriptor that does not read as good is not taken, a frame that does not is refused (R258; DESIGN CHOICE, log 38). -/
def execTxDescriptorTake (h : Half) (tc : Nat) (t : Time) (s : State) : Ans :=
  let s := s.atTime h t
  let i := Tab.get 0 (s.half h).tsn.txNext tc
  let a := s.num (hk h 0x4810) (1 + tc) + 32 * (i % 2 ^ s.num (hk h 0x4810) (9 + tc))
  .next (if 8 ≤ tc ∨ !memOn s h ∨ !inOwnMemory s h a 32 then s
    else
      let g := s.readCheck a 32
      let s := g.2
      let d := s.readNat a 32
      if !g.1 || !bitAt d 7 then s
      else
        let s := s.modHalf h (fun x => { x with tsn := { x.tsn with txNext := Tab.set 0 x.tsn.txNext tc ((i + 1) % 4096) } })
        if txRefused s h tc d t then txWriteBack s a 0 stState
        else
          let b := s.readCheck (fld d 255 208) (fld d 95 80)
          if !b.1 then txWriteBack b.2 a 0 stState else takeTx b.2 h tc a d)

/-! ### Gate lists and launch (R311, R313) -/

/-- A cycle start of port `p` that has come, or its `GCL_BASE`: cycles are reckoned from it, so that they go on when ticket time wraps (R297, R311). -/
def gclRef (s : State) (h : Half) (p : Nat) : Time :=
  let base := BitVec.ofNat 48 (s.num (hk h (0x4800 + p)) 9)
  match (s.half h).tsn.gcls.find p with
  | some g => if g.origin = base ∧ g.cycle = s.num (hk h (0x4800 + p)) 0x0A then g.base else base
  | none => base

/-- `GCL_CYCLE_START`: the committed list of a port comes into force at a cycle start (R311). -/
def execGclCycleStart (h : Half) (port : Nat) (t : Time) (s : State) : Ans :=
  let s := s.atTime h t
  let i := hk h (0x4800 + port)
  let cycle := s.num i 0x0A
  let d := Time.diff t (gclRef s h port)
  .next (if 7 ≤ port ∨ cycle = 0 ∨ d < 0 ∨ d % (cycle : Int) ≠ 0 then s
    else
      let bs := s.bytes i 7
      let es := upto (s.num i 8) (fun k =>
        let w := bytesNat bs (8 * k) 8
        if 8 * k < bs.length then (fld w 7 0, fld w 39 8) else (0xFF, 0))
      s.modHalf h (fun x => { x with tsn := { x.tsn with gcls := Tab.insert x.tsn.gcls port ⟨es, t, cycle, BitVec.ofNat 48 (s.num i 9)⟩ } }))

/-- Take a frame out of the endpoint's queue. -/
def dropTx (s : State) (h : Half) (f : TxFrame) : State :=
  s.modHalf h (fun x => { x with tsn := { x.tsn with txq := x.tsn.txq.erase f } })

/-- Write back a frame's descriptor where it has one. -/
def doneTx (s : State) (f : TxFrame) (doneT : Time) (status : Nat) : State :=
  match f.slot with
  | some a => txWriteBack s a doneT status
  | none => s

/-- The key of a frame's count of over-budget frames (R388, R426). -/
def txKey (f : TxFrame) : Nat := match f.loop with
  | some n => 16 + n
  | none => f.cls

/-- Send a frame at `t` (R313 to R315, R345). -/
def sendFrame (s : State) (h : Half) (f : TxFrame) (ports : List Nat) (t : Time) : State :=
  let leave := leaveTime s h f ports t
  let bad := isMarked s h f.srcT f.budget || overBudget s leave f.srcT f.budget
  let bs := match f.loop with
    | some n => loopFrameBytes f.data f.statusOfs f.crcOfs ((s.loop h n).alive + 1) bad
    | none => f.data
  let doneT := leaveTime s h { f with launch := none } ports t
  let s := dropTx s h f
  let s := match f.loop with
    | some n => riseAlive s h n
    | none => s
  let s := (ports.filter (portOn s h)).foldl (fun (s : State) p => putOut s h p ⟨entryPort f, bs, t⟩ t) s
  let s := doneTx s f doneT stOK
  if f.src = .peer then s else checkDeadline s h (txKey f) leave f.srcT f.budget

/-- A frame is dropped at its launch (R313, R387 to R390). -/
def dropFrame (s : State) (h : Half) (f : TxFrame) (t : Time) (status : Nat) (late : Bool) : State :=
  let ports := (egressOf h (entryPort f) f.data).getD []
  let leave := leaveTime s h f ports t
  let missed := late || overBudget s leave f.srcT f.budget
  let s := doneTx (dropTx s h f) f 0 status
  let s := if status = stDeadline ∧ late then s.bump (hk h (0x4800 + ports.headD 5)) 0x0B 1 else s
  if f.src = .peer then s
  else
    let s := if f.budget = 0 then s else noteAge s h (txKey f) (frameAge s leave f.srcT)
    if missed then noteBudget s h (txKey f) true
    else if f.budget ≠ 0 then noteBudget s h (txKey f) false else s

/-- A frame of the endpoint's queues meets an instant `t` at which its ports are idle: it waits, leaves, or is dropped (R308, R311, R313). -/
def launchFrame (s : State) (h : Half) (f : TxFrame) (t : Time) : State :=
  match judgeTx s h f t with
  | .wait => s
  | .drop st late => dropFrame s h f t st late
  | .send =>
    match egressOf h (entryPort f) f.data with
    | none =>
      let r := s.free
      (doneTx (dropTx r.2 h f) f 0 r.1).bump (hk h (0x4800 + entryPort f)) 0x0C 1
    | some ports =>
      if ports.all (fun p => gateAllows s h p f.cls f.data.length t && !readyAbove s h p f.cls t) then sendFrame s h f ports t else s

/-- `LAUNCH` of class `tc` at `t`, an instant at which its ports are idle: bridged frames that wait at a port, then the first frames of the endpoint's queues, oldest first (R308, R312, R313). -/
def execLaunch (h : Half) (tc : Nat) (t : Time) (s : State) : Ans :=
  let s := s.atTime h t
  let s := (List.range 7).foldl (fun (s : State) p => releaseAt s h tc t p) s
  let heads := ((s.half h).tsn.txq.filter (fun f => f.cls == tc && headOfQueue s h f)).eraseDups
  .next (heads.foldl (fun (s : State) f => launchFrame s h f t) s)

end Sys2Proof.Machine
end

