-- ==== Sys2Proof/Machine/SensorCmds.lean ====
section
/-! DEFINITION. Meanings of the camera, trigger and capture rows (R317 to R328). -/
namespace Sys2Proof.Machine

/-! ### Camera channels -/

/-- Index of a CSI-2 port's entries (R317). -/
def camIdx (h : Half) (port : Nat) : Nat := hk h (0x4700 + port)

/-- Sub-index `k` of channel `v` (R317). -/
def camSub (v k : Nat) : Nat := 16 * (v + 1) + k

/-- The channel of a port that is enabled and bound to a virtual channel (R317). -/
def camChannel (s : State) (h : Half) (port vc : Nat) : Option Nat :=
  (List.range 4).find? (fun v => s.num (camIdx h port) (camSub v 0) == 1 && s.num (camIdx h port) (camSub v 1) == vc)

/-- The settings of a channel now in the dictionary (R325). -/
def camSettings (s : State) (h : Half) (port v : Nat) : CamSet :=
  let g (k : Nat) : Nat := s.num (camIdx h port) (camSub v k)
  { dt := g 2, width := g 3, lines := g 4, shift := g 5, f := g 6, unit := g 7, base := g 8, slotBytes := g 9, slots := g 10
    pitch := g 11, mereBase := g 12, mereLines := g 13 }

/-- Bits of a pixel by image data type (R317). -/
def pixelBits (dt : Nat) : Nat :=
  match dt with
  | 0x2A => 8 | 0x2B => 10 | 0x2C => 12 | 0x2D => 14 | 0x2E => 16 | _ => 20

/-- Bytes of a stored element (R319). -/
def elemBytes (c : CamSet) : Nat := if c.shift ≠ 0xFF ∨ c.dt = 0x2A then 1 else if c.dt = 0x2F then 4 else 2

/-- Bytes of a camera row as it is sent (R319; PRESUMED, log 23). -/
def rowBytes (c : CamSet) : Nat := (c.width * pixelBits c.dt + 7) / 8

/-- Pixel `x` of a row's payload as CSI-2 packs it (R319; PRESUMED, log 23). -/
def pixelAt (dt : Nat) (bs : List Byte) (x : Nat) : Nat :=
  let b (i : Nat) : Nat := (bs.getD i 0).toNat
  match dt with
  | 0x2A => b x
  | 0x2B => b (5 * (x / 4) + x % 4) * 4 + fld (b (5 * (x / 4) + 4)) (2 * (x % 4) + 1) (2 * (x % 4))
  | 0x2C => b (3 * (x / 2) + x % 2) * 16 + fld (b (3 * (x / 2) + 2)) (4 * (x % 2) + 3) (4 * (x % 2))
  | 0x2D =>
    let o := 7 * (x / 4)
    b (o + x % 4) * 64 + fld (b (o + 4) + 256 * b (o + 5) + 65536 * b (o + 6)) (6 * (x % 4) + 5) (6 * (x % 4))
  | 0x2E => b (2 * x) * 256 + b (2 * x + 1)
  | _ =>
    let o := 5 * (x / 2)
    let part (k : Nat) : Nat := b (o + k) * 4 + fld (b (o + 4)) (2 * k + 1) (2 * k)
    part (2 * (x % 2)) * 1024 + part (2 * (x % 2) + 1)

/-- The stored value of a pixel (R319). -/
def storedPixel (c : CamSet) (bs : List Byte) (x : Nat) : Nat :=
  let p := pixelAt c.dt bs x
  if c.shift = 0xFF then p else min (p >>> c.shift) 255

/-- The bytes of a stored line from its `f` camera rows, in the layout of R145 (R319). -/
def storedLine (c : CamSet) (rows : List (List Byte)) : List Byte :=
  let f := max 1 c.f
  (List.range (c.width * f)).flatMap (fun i =>
    let ch := i % (f * f)
    natLe (elemBytes c) (storedPixel c (rows.getD (ch / f) []) (i / (f * f) * f + ch % f)))

/-- The slot of a frame (R320). -/
def camSlot (c : CamSet) (n : Nat) : Nat := c.base + (n % max 1 c.slots) * c.slotBytes

/-- The frame record (R320). -/
def camRecord (k : CamFrame) (done : Bool) (short : Bool) (tFe : Time) : List Byte :=
  natLe 64 (if done then
    2 ^ 3 * b2n k.embTrunc + 2 ^ 4 * b2n k.lenErr + 2 ^ 5 * b2n k.long + 2 ^ 6 * b2n short + 2 ^ 7 + 2 ^ 320 * k.tFs.toNat
      + 2 ^ 368 * tFe.toNat + 2 ^ 416 * k.emb + 2 ^ 432 * k.crcRows + 2 ^ 448 * k.rows + 2 ^ 464 * k.csiNo + 2 ^ 480 * k.n
    else 2 ^ 320 * k.tFs.toNat + 2 ^ 480 * k.n)

/-- The open frame of a channel. -/
def State.cam (s : State) (h : Half) (port v : Nat) : Option CamFrame := (s.half h).cams.find (port * 4 + v)

/-- Put or take out the open frame of a channel. -/
def State.setCam (s : State) (h : Half) (port v : Nat) (k : Option CamFrame) : State :=
  s.modHalf h (fun x => { x with cams := match k with
    | some f => Tab.insert x.cams (port * 4 + v) f
    | none => Tab.erase x.cams (port * 4 + v) })

/-- Set a line counter (R322, R323). -/
def setLine (s : State) (h : Half) (port v n : Nat) : State :=
  s.modHalf h (fun x => { x with lineCtr := Tab.set 0 x.lineCtr (port * 4 + v) (n % 2 ^ 32) })

/-- The counter's value with a low half (R322). -/
def lineValue (n low : Nat) : Nat := (n % 65536) * 65536 + low

/-- Write to the half's own memory where the whole range lies there (R318, R320). -/
def camWrite (s : State) (h : Half) (a : Nat) (bs : List Byte) : State :=
  if inOwnMemory s h a bs.length && memOn s h then s.mergeWrite a bs else s

/-- End the open frame of a channel (R321, R324). -/
def endFrame (s : State) (h : Half) (port v : Nat) (tFe : Time) (force : Bool) : State :=
  match s.cam h port v with
  | none => s
  | some k =>
    let short := force || decide (k.rows < k.set.lines)
    let final := if k.set.unit = 0 then k.set.lines else k.set.lines / max 1 k.set.f
    let s := if short then setLine s h port v (lineValue k.n final) else s
    camWrite (s.setCam h port v none) h (camSlot k.set k.n) (camRecord k true short tFe)

/-- A frame start that a frame-mode commit waits for fixes its boundary, and tells the other half (R419). -/
def fixBoundary (s : State) (h : Half) (ctr : Nat) (tFs : Time) : State :=
  if s.num 0x1F00 1 = 2 ∧ s.num 0x1F00 5 = 0 ∧ s.txn.boundary = none ∧ isLeader s h ∧ s.num 0x1F00 7 = ctr
      ∧ Time.diff tFs s.txn.commitT ≥ 500000 then
    let tb := tFs + 100000#48
    let s := { s with txn := { s.txn with boundary := some tb } }
    sendDict s h (.boundary tb)
  else s

/-- Count a discarded packet (R317). -/
def camDiscard (s : State) (h : Half) (port : Nat) : State := s.bump (camIdx h port) 9 1

/-- A port receives: it exists and its PHY is on (R317). -/
def camOn (s : State) (h : Half) (port : Nat) : Bool := decide (port < 12) && s.num (camIdx h port) 1 != 0

/-- What a packet's header ECC makes of it (R317): one that it cannot correct is discarded and counted, the others go on. -/
def camHeader (s : State) (h : Half) (port : Nat) (ecc : Ecc) (go : State → State) : State :=
  if !camOn s h port then s
  else match ecc with
    | .good => go s
    | .corrected => go (s.bump (camIdx h port) 7 1)
    | .bad => camDiscard s h port

/-- Packet time less the port's delay (R326). -/
def camTime (s : State) (h : Half) (port : Nat) (t : Time) : Time := t - BitVec.ofNat 48 (s.num (camIdx h port) 5)

/-- A frame start on virtual channel `vc` (R320 to R322, R324 to R326). -/
def startFrame (h : Half) (port vc no : Nat) (t : Time) (s : State) : State :=
  let tFs := camTime s h port t
  match camChannel s h port vc with
  | none => camDiscard s h port
  | some v =>
    let s := endFrame s h port v tFs false
    let n := (s.num (camIdx h port) (camSub v 15) + 1) % 2 ^ 32
    let k : CamFrame := ⟨camSettings s h port v, vc, n, no % 65536, tFs, t, 0, 0, 0, false, false, false, []⟩
    let s := (s.setNum (camIdx h port) (camSub v 15) n).setCam h port v (some k)
    let s := setLine s h port v (lineValue n 0)
    let s := camWrite s h (camSlot k.set n) (camRecord k false false 0)
    fixBoundary s h (port * 4 + v) tFs

/-- `FRAME_START` (R317, R320 to R322, R324 to R326). -/
def execFrameStart (h : Half) (port vc no : Nat) (ecc : Ecc) (t : Time) (s : State) : Ans :=
  .next (camHeader (s.atTime h t) h port ecc (startFrame h port vc no t))

/-- The channel with an open frame on a virtual channel. -/
def openChannel (s : State) (h : Half) (port vc : Nat) : Option (Nat × CamFrame) :=
  (List.range 4).findSome? (fun v => match s.cam h port v with
    | some k => if k.vc = vc then some (v, k) else none
    | none => none)

/-- Store a line whose rows have all come, and advance the counter (R319, R320, R323). -/
def storeLine (s : State) (h : Half) (port v : Nat) (k : CamFrame) : State :=
  let c := k.set
  let f := max 1 c.f
  let l := k.rows / f - 1
  let bs := storedLine c k.part
  let s := camWrite s h (camSlot c k.n + 4096 + l * c.pitch) bs
  let s := if c.mereBase = 0 then s else camWrite s h (c.mereBase + (l % max 1 c.mereLines) * c.pitch) bs
  setLine s h port v (lineValue k.n (if c.unit = 0 then f * l + f else l + 1))

/-- A row of image data of an open frame (R319, R323, R324). -/
def takeRow (h : Half) (port vc dt : Nat) (bs : List Byte) (crc : Bool) (t : Time) (s : State) : State :=
  match openChannel s h port vc with
  | none => camDiscard s h port
  | some (v, k) =>
    let k := { k with tLast := t }
    if dt ≠ k.set.dt then camDiscard (s.setCam h port v (some k)) h port
    else if k.set.lines ≤ k.rows then s.setCam h port v (some { k with long := true })
    else
      let want := rowBytes k.set
      let row := bs.take want ++ List.replicate (want - bs.length) 0
      let s := if crc then s else s.bump (camIdx h port) 8 1
      let k := { k with
        rows := k.rows + 1, crcRows := k.crcRows + (if crc then 0 else 1)
        lenErr := k.lenErr || decide (bs.length ≠ want), part := k.part ++ [row] }
      if k.part.length = max 1 k.set.f then
        (storeLine s h port v k).setCam h port v (some { k with part := [] })
      else s.setCam h port v (some k)

/-- `LINE`: a row of image data (R317, R319, R323, R324). -/
def execLine (h : Half) (port vc dt : Nat) (bs : List Byte) (crc : Bool) (ecc : Ecc) (t : Time) (s : State) : Ans :=
  .next (camHeader (s.atTime h t) h port ecc (takeRow h port vc dt bs crc t))

/-- Embedded data of an open frame (R320). -/
def takeEmbedded (h : Half) (port vc : Nat) (bs : List Byte) (t : Time) (s : State) : State :=
  match openChannel s h port vc with
  | none => camDiscard s h port
  | some (v, k) =>
    let keep := bs.take (4032 - k.emb)
    let s := camWrite s h (camSlot k.set k.n + 64 + k.emb) keep
    s.setCam h port v (some { k with
      tLast := t, emb := k.emb + keep.length, embTrunc := k.embTrunc || decide (keep.length < bs.length) })

/-- `EMBEDDED_DATA` (R317, R320). -/
def execEmbeddedData (h : Half) (port vc : Nat) (bs : List Byte) (ecc : Ecc) (t : Time) (s : State) : Ans :=
  .next (camHeader (s.atTime h t) h port ecc (takeEmbedded h port vc bs t))

/-- A frame end (R321, R324, R326). -/
def takeEnd (h : Half) (port vc : Nat) (t : Time) (s : State) : State :=
  match openChannel s h port vc with
  | none => camDiscard s h port
  | some (v, _) => endFrame s h port v (camTime s h port t) false

/-- `FRAME_END` (R317, R321, R324, R326). -/
def execFrameEnd (h : Half) (port vc : Nat) (ecc : Ecc) (t : Time) (s : State) : Ans :=
  .next (camHeader (s.atTime h t) h port ecc (takeEnd h port vc t))

/-- End an open frame for which no frame-end packet came: its `T_FE` is not stated (R324, R325; DESIGN CHOICE, log 9). -/
def endFrameFree (s : State) (h : Half) (port v : Nat) (force : Bool) : State :=
  let r := s.free
  endFrame r.2 h port v (BitVec.ofNat 48 r.1) force

/-- `FRAME_TIMEOUT` of channel `v` (R324). -/
def execFrameTimeout (h : Half) (port v : Nat) (t : Time) (s : State) : Ans :=
  let s := s.atTime h t
  .next (match s.cam h port v with
    | none => s
    | some k =>
      if Time.diff t k.tLast < s.num (camIdx h port) 6 * 1000 then s else endFrameFree s h port v false)

/-! ### Triggers (R327) -/

/-- Index of a trigger output's entries. -/
def trigIdx (h : Half) (k : Nat) : Nat := hk h (0x4900 + k)

/-- The level of an output: `on` for its active level. -/
def trigLevel (s : State) (h : Half) (k : Nat) (on : Bool) : Bool := xor on (s.num (trigIdx h k) 5 == 1)

/-- Trigger output `k`. -/
def State.trig (s : State) (h : Half) (k : Nat) : Trig := Tab.get trigReset (s.half h).trigs k

/-- Put trigger output `k`. -/
def State.setTrig (s : State) (h : Half) (k : Nat) (x : Trig) : State :=
  s.modHalf h (fun y => { y with trigs := Tab.set trigReset y.trigs k x })

/-- `TRIGGER_INSTANT` at ticket time `t` (R306, R327): the next instant drives its edge, or is skipped when more than 2,000 ns past. -/
def execTriggerInstant (h : Half) (k : Nat) (t : Time) (s : State) : Ans :=
  let s := s.atTime h t
  let i := trigIdx h k
  let nx := BitVec.ofNat 48 (s.num i 7)
  let late := Time.diff t nx
  let x := s.trig h k
  .next (if 16 ≤ k ∨ s.num i 1 = 0 ∨ late < 0 ∨ (s.num i 1 = 2 ∧ x.last = some nx) then s
    else
      let next := if s.num i 1 = 1 then nx + BitVec.ofNat 48 (s.num i 3) else nx
      let s := s.setNum i 7 next.toNat
      if late > 2000 then (s.setTrig h k { x with last := some nx }).bump i 6 1
      else (s.setTrig h k ⟨true, some nx, t, s.num i 4⟩).emit (.trigger h k (trigLevel s h k true) t))

/-- `TRIGGER_PULSE_END` at ticket time `t`: a pulse lasts its width from its edge (R327). -/
def execTriggerPulseEnd (h : Half) (k : Nat) (t : Time) (s : State) : Ans :=
  let s := s.atTime h t
  let x := s.trig h k
  .next (if !x.active || decide (Time.diff t x.edge < x.width) then s
    else (s.setTrig h k { x with active := false }).emit (.trigger h k (trigLevel s h k false) t))

/-! ### Captures (R328) -/

/-- Index of a capture input's entries. -/
def capIdx (h : Half) (k : Nat) : Nat := hk h (0x4910 + k)

/-- `CAP_EDGE` selects an edge. -/
def edgeSelected (mode : Nat) (rising : Bool) : Bool := mode == 3 || (mode == 1 && rising) || (mode == 2 && !rising)

/-- `CAPTURE_EDGE` at the ball at ticket time `t` (R328; points read in log 36). -/
def execCaptureEdge (h : Half) (k : Nat) (rising : Bool) (t : Time) (s : State) : Ans :=
  let s := s.atTime h t
  let i := capIdx h k
  .next (if 16 ≤ k ∨ !edgeSelected (s.num i 1) rising then s
    else
      let near := match (s.half h).caps.find k with
        | some p => decide ((Time.diff t p).natAbs ≤ 20)
        | none => false
      let s := s.modHalf h (fun x => { x with caps := Tab.insert x.caps k t })
      if near then s.bump i 6 1
      else
        let n := s.num i 5
        let a := s.num i 3 + 8 * (n % 2 ^ s.num i 4)
        let stamp := t - BitVec.ofInt 48 (s.int i 2 32)
        let s := s.setNum i 5 ((n + 1) % 2 ^ 32)
        camWrite s h a (natLe 8 (stamp.toNat + 2 ^ 48 * ((n + 1) % 2 ^ 15) + 2 ^ 63 * b2n rising)))

end Sys2Proof.Machine
end

