-- ==== Sys2Proof/Machine/LoopCmds.lean ====
section
/-! DEFINITION. The control engine: samples, laws, loop states, trips and output frames (R330 to R345). -/
namespace Sys2Proof.Machine

/-! ### Setpoints (R336 to R338) -/

/-- Bytes the control engine reads from a Mere of its half; what lies elsewhere, or does not read as good, is not stated, and free (R240, R336; DEDUCED, log 24, 38). -/
def engineRead (s : State) (h : Half) (a n : Nat) : List Byte × State :=
  if (linesOf a n).all (fun l => match s.region l with
      | .mere g _ => g == h
      | _ => false) then
    let g := s.readCheck a n
    if g.1 then (s.read a n, g.2) else freeBytes g.2 n
  else freeBytes s n

/-- Four FP32 channels of a point. -/
def pointOf (bs : List Byte) : List F32 := upto 4 (fun k => BitVec.ofNat 32 (bytesNat bs (4 * k) 4))

/-- A setpoint read: the four channels, the source time, whether the trajectory has expired. -/
structure Setpoint where
  ch : List F32
  src : Time
  expired : Bool
  deriving DecidableEq, Repr

/-- Interpolate between points `a` and `b` (R338). -/
def interpolate (a b : List F32) (r dt : Nat) : List F32 :=
  let w := fdiv (intToF32 r) (intToF32 dt)
  upto 4 (fun k =>
    let x := a.getD k 0
    fadd x (fmul w (fsub (b.getD k 0) x)))

/-- One consistent read of the setpoint of loop `n` at sample instant `t` (R337, R338). A trajectory without points, or with points 0 ns apart, states no setpoint (log 24). -/
def readPoints (s : State) (h : Half) (n : Nat) (t : Time) : Setpoint × State :=
  let base := s.num (loopIdx h n) 7
  let p := engineRead s h base 64
  let slot := base + 64 + 4160 * (leNat p.1 % 2)
  let q := engineRead p.2 h slot 64
  let hd := leNat q.1
  let t0 := BitVec.ofNat 48 (fld hd 159 112)
  let src := BitVec.ofNat 48 (fld hd 111 64)
  let dt := fld hd 63 32
  let np := fld hd 15 0
  let d := Time.diff t t0
  let expired := decide (d > ((np : Int) - 1) * dt + 1000 * s.num (loopIdx h n) 8)
  let point (s : State) (i : Nat) : List F32 × State :=
    let r := engineRead s h (slot + 64 + 16 * i) 16
    (pointOf r.1, r.2)
  if np = 0 ∨ (0 ≤ d ∧ dt = 0 ∧ 1 < np) then
    let r := freeBytes q.2 16
    (⟨pointOf r.1, src, expired⟩, r.2)
  else if d < 0 then
    let r := point q.2 0
    (⟨r.1, src, expired⟩, r.2)
  else
    let i := if dt = 0 then 0 else d.toNat / dt
    if np - 1 ≤ i then
      let r := point q.2 (np - 1)
      (⟨r.1, src, expired⟩, r.2)
    else
      let a := point q.2 i
      let b := point a.2 (i + 1)
      (⟨interpolate a.1 b.1 (d.toNat - i * dt) dt, src, expired⟩, b.2)

/-- Read the setpoint of loop `n` at sample instant `t` (R337): `hits` gives the attempts, 0 and 1, at which a publication changes `SEQ` between the two reads of the publish line. A second attempt finds the trajectory that is in force; after two, the setpoint of the previous sample and its source time are held, and none has expired (DESIGN CHOICE, log 24). -/
def readSetpoint (s : State) (h : Half) (n : Nat) (hits : List (Nat × Nat)) (t : Time) : Setpoint × State :=
  if hits.contains (n, 0) && hits.contains (n, 1) then
    (⟨(s.loop h n).sp, (s.loop h n).spSrc, false⟩, s.bump (loopIdx h n) 0x20 1)
  else readPoints s h n t

/-! ### Laws (R339 to R341) -/

/-- Coefficient `k` of a loop's block (R341). -/
def coeff (s : State) (h : Half) (n k : Nat) : F32 := BitVec.ofNat 32 (bytesNat (s.bytes (loopIdx h n) 0x1C) (4 * k) 4)

/-- Hold `v` between two bounds, as the laws write it. -/
def fclamp (v lo hi : F32) : F32 := fmin (fmax v lo) hi

/-- A running sum of products, from +0, in order (R340). -/
def fdot (ps : List (F32 × F32)) (start : F32) : F32 := ps.foldl (fun a p => fadd a (fmul p.1 p.2)) start

/-- One PID sample: the new state and output (R339). -/
def pidSample (s : State) (h : Half) (n : Nat) (l : Loop) (sp y ff : F32) : Loop × List F32 :=
  let c := coeff s h n
  let e := fsub sp y
  let p := fmul (c 0) e
  let i := fclamp (fadd l.i (fmul (c 1) e)) (c 5) (c 6)
  let dm := fsub (if l.first then y else l.yPrev) y
  let d := fadd (fmul (c 2) l.d) (fmul (c 3) dm)
  let u := fadd (fadd (fadd p i) d) (fmul (c 4) ff)
  ({ l with i := i, d := d, yPrev := y, first := false }, [fclamp u (c 7) (c 8)])

/-- Offsets of the parts of a state-space block: `B`, `C`, `D`, `X_MIN`, `X_MAX`, `U_MIN`, `U_MAX`, `X_INIT` (R341). -/
def ssOfs (st inp out : Nat) : List Nat :=
  let b := st * st
  let c := b + st * inp
  let d := c + out * st
  let x := d + out * inp
  [b, c, d, x, x + st, x + 2 * st, x + 2 * st + out, x + 2 * st + 2 * out]

/-- One state-space sample (R340). -/
def ssSample (s : State) (h : Half) (n : Nat) (l : Loop) (v : List F32) (st inp out : Nat) : Loop × List F32 :=
  let c := coeff s h n
  let o (k : Nat) : Nat := nth (ssOfs st inp out) k
  let x (k : Nat) : F32 := l.x.getD k 0
  let row (mx mi r : Nat) : F32 :=
    fdot (upto inp (fun j => (c (mi + r * inp + j), v.getD j 0))) (fdot (upto st (fun k => (c (mx + r * st + k), x k))) 0)
  let u := upto out (fun k => fclamp (row (o 1) (o 2) k) (c (o 5 + k)) (c (o 6 + k)))
  let xn := upto st (fun k => fclamp (row 0 (o 0) k) (c (o 3 + k)) (c (o 4 + k)))
  ({ l with x := xn, first := false }, u)

/-! ### Loop states (R342, R343) -/

/-- `LOOP_STATE`. -/
def loopState (s : State) (h : Half) (n : Nat) : Nat := s.num (loopIdx h n) 2

/-- A loop trips with a cause, and the safety manager counts the trip (R342, R393). -/
def tripLoop (s : State) (h : Half) (n cause : Nat) : State :=
  ((s.setNum (loopIdx h n) 2 3).setNum (loopIdx h n) 0x1E cause).modSafety h (fun x =>
    { x with trips := Tab.set 0 x.trips n (Tab.get 0 x.trips n + 1) })

/-- `CLOSE`: from `OPEN` to `CLOSING`, the state initialised (R342). -/
def closeLoop (s : State) (h : Half) (n : Nat) : State :=
  let st := min 12 (s.num (loopIdx h n) 0x12)
  let inp := min 4 (s.num (loopIdx h n) 0x10)
  let out := min 4 (s.num (loopIdx h n) 0x11)
  let o := nth (ssOfs st inp out) 7
  let l := s.loop h n
  let s := s.setLoop h n { l with
    i := coeff s h n 9, d := 0, yPrev := 0, x := upto st (fun k => coeff s h n (o + k)), first := true, good := 0, fe := 0
    closeT := s.now h, origin := BitVec.ofNat 48 (s.num (loopIdx h n) 4) }
  s.setNum (loopIdx h n) 2 1

/-- `OPEN`: from any state (R342). -/
def openLoopNow (s : State) (h : Half) (n : Nat) : State := (s.setNum (loopIdx h n) 2 0).setNum (loopIdx h n) 0x1E 0

/-- The counted samples reach the following-error time (R343). -/
def followingReached (s : State) (h : Half) (n fe : Nat) : Bool :=
  decide (1000 * s.num (loopIdx h n) 0x0E ≤ fe * s.num (loopIdx h n) 5)

/-- Decide the loop's state in a sample: trips of R335, R338 and R343, and `CLOSING` to `CLOSED` (R342; points read in log 24). -/
def superviseLoop (s : State) (h : Half) (n : Nat) (stale expired : Bool) (v : List F32) : State :=
  let i := loopIdx h n
  let st := loopState s h n
  let l := s.loop h n
  if st ≠ 1 ∧ st ≠ 2 then s
  else if stale then tripLoop s h n 2
  else if expired then tripLoop s h n 3
  else
    let lim (j : Nat) : F32 := BitVec.ofNat 32 (s.num i (0x0A + j))
    let beyond := (List.range v.length).any (fun j => fgt (fabs (v.getD j 0)) (lim j))
    let within := (List.range v.length).all (fun j => !isNaN (v.getD j 0) && !isNaN (lim j) && !fgt (fabs (v.getD j 0)) (lim j))
    if st = 1 then
      let good := if within then l.good + 1 else 0
      let s := s.setLoop h n { l with good := good, fe := 0 }
      if s.num i 0x0F ≤ good then s.setNum i 2 2 else s
    else
      let fe := if beyond then l.fe + 1 else if within then 0 else l.fe
      let s := s.setLoop h n { l with fe := fe }
      if beyond && followingReached s h n fe then tripLoop s h n 1 else s

/-! ### Output frames (R345) -/

/-- Encode a value into a field of `w` bits; a value that is no number states none (R345; points read in log 24). -/
def encodeField (s : State) (u scale ofs : F32) (w : Nat) (signed : Bool) : Nat × State :=
  let b := frint (fadd (fmul u scale) ofs)
  let lo : Int := if signed then -(2 ^ (w - 1) : Nat) else 0
  let hi : Int := if signed then (2 ^ (w - 1) : Nat) - 1 else (2 ^ w : Nat) - 1
  match f32Dec b with
  | .nan =>
    let r := s.free
    (r.1 % 2 ^ w, r.2)
  | .inf neg => (twos w (if neg then lo else hi), s)
  | .fin neg m e => (twos w (clampI lo hi (rneScaled neg m e)), s)

/-- Put the bytes `v` into `bs` from `o`. -/
def putBytes (bs : List Byte) (o : Nat) (v : List Byte) : List Byte :=
  upto bs.length (fun j => if o ≤ j ∧ j < o + v.length then v.getD (j - o) 0 else bs.getD j 0)

/-- Write output `k` into a frame. -/
def putOutput (tpl : List Byte) (u : List F32) (tripped : Bool) (r : List Byte × State) (k : Nat) : List Byte × State :=
  let o := 16 + 16 * k
  let w := bytesNat tpl (o + 2) 1
  let flags := bytesNat tpl (o + 3) 1
  let f (x : Nat) : F32 := BitVec.ofNat 32 (bytesNat tpl (o + x) 4)
  let e := encodeField r.2 (if tripped then f 12 else u.getD k 0) (f 4) (f 8) w (bitAt flags 0)
  let v := natLe (w / 8) e.1
  (putBytes r.1 (bytesNat tpl o 2) (if bitAt flags 1 then v.reverse else v), e.2)

/-- The length code of a payload length on CAN (ISO 11898-1; PRESUMED, log 16). -/
def dlcOf (n : Nat) : Nat :=
  if n ≤ 8 then n else if n = 12 then 9 else if n = 16 then 10 else if n = 20 then 11 else if n = 24 then 12
  else if n = 32 then 13 else if n = 48 then 14 else 15

/-- Append a frame to a controller's queue of 32; none beyond (R349; PRESUMED, log 16). -/
def queueCan (s : State) (h : Half) (c : Nat) (f : CanTx) : State :=
  let k := s.can h c
  if 32 ≤ k.queue.length then s else s.setCan h c { k with queue := k.queue ++ [f] }

/-- Post a loop's frame for launch at its instant and `OUT_DELAY_NS` (R331, R345); one more than 1 s ahead is refused (R313). What the template does not give of a CAN frame is free (PRESUMED, log 16). -/
def postLoopFrame (s : State) (h : Half) (n : Nat) (bs : List Byte) (launch src : Time) : State :=
  let tpl := s.bytes (loopIdx h n) 0x1D
  let port := bytesNat tpl 1 1
  let id := bytesNat tpl 4 4
  let so := bytesNat tpl 8 2
  let co := bytesNat tpl 10 2
  let budget := bytesNat tpl 12 2
  if Time.diff launch (s.now h) > 1000000000 then s
  else if bytesNat tpl 0 1 = 2 then
    queueFrame s h ⟨.engine, none, port % 8, bs, some launch, src, budget, some n, so, co⟩
  else if (s.can h port).owner ≠ 1 then s
  else
    let r := s.free
    let fmt := fld id 31 30
    let f : CanFrame := {
      format := fmt, ide := bitAt id 29, rtr := false, brs := fmt == 1 && bitAt r.1 0, esi := false, sec := fmt == 2 && bitAt r.1 1
      id := fld id 28 0, dlc := if fmt = 2 then 0 else dlcOf bs.length, sdt := if fmt = 2 then fld r.1 15 8 else 0
      vcid := if fmt = 2 then fld r.1 23 16 else 0, af := if fmt = 2 then fld r.1 63 32 else 0, data := bs }
    queueCan r.2 h port ⟨none, f, some launch, src, budget, 0, some n, so, co, false⟩

/-- Build and post the output frame of a sample (R345). -/
def outputFrame (s : State) (h : Half) (n : Nat) (u : List F32) (instant : Time) : State :=
  let tpl := s.bytes (loopIdx h n) 0x1D
  if tpl.length < 16 then s
  else
    let st := loopState s h n
    let len := bytesNat tpl 2 2
    let base := upto len (fun j => tpl.getD (80 + j) 0)
    let out := if s.num (loopIdx h n) 1 = 0 then 1 else min 4 (s.num (loopIdx h n) 0x11)
    let r := (List.range out).foldl (putOutput tpl u (st == 3)) (base, s)
    let status := 16 * b2n (st == 1) + 32 * b2n (st == 3) + 128 * b2n (st == 2)
    let bs := putByte r.1 (bytesNat tpl 8 2) (BitVec.ofNat 8 status)
    postLoopFrame r.2 h n bs (instant + BitVec.ofNat 48 (s.num (loopIdx h n) 6)) (s.loop h n).spSrc

/-! ### Samples (R331 to R335) -/

/-- The instant of loop `n` that time `t` stands at, not yet run: at most 2,000 ns past (R331, R332). Instants are reckoned from `origin`, an instant of the loop that has come already, so that they go on when ticket time wraps (R297). -/
def dueInstant (s : State) (h : Half) (n : Nat) (t : Time) : Option Time :=
  let period := s.num (loopIdx h n) 5
  let d := Time.diff t (s.loop h n).origin
  if loopState s h n = 0 ∨ period = 0 ∨ d < 0 then none
  else
    let past := d % (period : Int)
    let instant := t - BitVec.ofInt 48 past
    let ran : Bool := match (s.loop h n).last with
      | some l => decide (s.clock < (s.loop h n).lastAt + 2 ^ 47 ∧ Time.diff instant l ≤ 0)
      | none => false
    if ran ∨ past > 2000 then none else some instant

/-- Input `j`: the value of its map and whether it is stale (R335). -/
def measure (s : State) (h : Half) (n j : Nat) (instant : Time) : F32 × Bool :=
  let m := mapIdx h (s.num (loopIdx h n) (0x13 + j))
  let vt := BitVec.ofNat 48 (s.num m 0x0B)
  (BitVec.ofNat 32 (s.num m 0x0A), vt == 0 || decide (frameAge s instant vt > 1000 * s.num (loopIdx h n) 9))

/-- One sample of loop `n` at its instant (R331, R335 to R345). -/
def runSample (s : State) (h : Half) (n : Nat) (hits : List (Nat × Nat)) (instant : Time) : State :=
  let i := loopIdx h n
  let pid := s.num i 1 == 0
  let inp := if pid then 1 else min 4 (s.num i 0x10)
  let r := readSetpoint s h n hits instant
  let sp := r.1
  let s := r.2
  let ys := upto inp (fun j => measure s h n j instant)
  let sps := upto inp (fun j => sp.ch.getD (s.num i (0x17 + j)) 0)
  let v := upto inp (fun j => fsub (sps.getD j 0) (ys.getD j (0, true)).1)
  let l := { s.loop h n with sp := sp.ch, spSrc := sp.src, last := some instant, lastAt := s.clock, origin := instant }
  let o := if pid then pidSample s h n l (sps.getD 0 0) (ys.getD 0 (0, true)).1 (sp.ch.getD (s.num i 0x1B) 0)
    else ssSample s h n l v (min 12 (s.num i 0x12)) inp (min 4 (s.num i 0x11))
  let s := s.setLoop h n o.1
  let s := superviseLoop s h n (ys.any Prod.snd) sp.expired v
  outputFrame s h n o.2 instant

/-- `SAMPLE` at ticket time `t`: the due loops run in ascending number (R331); `hits` says which of their setpoint reads a publication disturbs (R337). -/
def execSample (h : Half) (hits : List (Nat × Nat)) (t : Time) (s : State) : Ans :=
  .next ((List.range 8).foldl (fun (s : State) n => match dueInstant s h n t with
    | some i => runSample s h n hits i
    | none => s) (s.atTime h t))

/-- `CLOSE_FAIL` at ticket time `t` (R342). -/
def execCloseFail (h : Half) (n : Nat) (t : Time) (s : State) : Ans :=
  let s := s.atTime h t
  .next (if 8 ≤ n ∨ loopState s h n ≠ 1 ∨ frameAge s t (s.loop h n).closeT < 1000 * s.num (loopIdx h n) 0x0E then s
    else tripLoop s h n 4)

/-- `FOLLOWING`: the counted samples have reached `FE_TIME_US` (R343). -/
def execFollowing (h : Half) (n : Nat) (s : State) : Ans :=
  .next (if n < 8 ∧ loopState s h n = 2 ∧ 0 < (s.loop h n).fe ∧ followingReached s h n (s.loop h n).fe = true then tripLoop s h n 1
    else s)

end Sys2Proof.Machine
end

