-- ==== Sys2Proof/Machine/CanCmds.lean ====
section
/-! DEFINITION. Meanings of the CAN controller rows (R346 to R353). -/
namespace Sys2Proof.Machine

/-- Index of a controller's entries (R346). -/
def canIdx (h : Half) (c : Nat) : Nat := hkc h (0x9100 + c)

/-- A controller exists, in a half out of reset. -/
def canOn (s : State) (h : Half) (c : Nat) : Bool := decide (c < 4) && (s.half h).boot.stage != 0

/-! ### Error counters (R352; ISO 11898-1; PRESUMED, log 16) -/

/-- Show `TEC`, `REC` and `ERR_STATE`. -/
def showErrors (s : State) (h : Half) (c : Nat) : State :=
  let k := s.can h c
  let st := if k.busOff then 2 else if 127 < k.tec ∨ 127 < k.recv then 1 else 0
  ((s.setNum (canIdx h c) 0x0D (min 255 k.tec)).setNum (canIdx h c) 0x0E (min 255 k.recv)).setNum (canIdx h c) 0x0F st

/-- A frame has been sent without error. -/
def sentGood (s : State) (h : Half) (c : Nat) : State :=
  let k := s.can h c
  showErrors (s.setCan h c { k with tec := k.tec - 1 }) h c

/-- A frame has been received without error in `NORMAL`: above 127 the counter falls to a value from 119 to 127. -/
def receivedGood (s : State) (h : Half) (c : Nat) : State :=
  let k := s.can h c
  if k.mode ≠ 1 then s
  else if 127 < k.recv then
    let r := s.free
    showErrors (r.2.setCan h c { k with recv := 119 + r.1 % 9 }) h c
  else showErrors (s.setCan h c { k with recv := k.recv - 1 }) h c

/-- A frame being sent has met an error: 8 more, bus-off above 255; an error-passive sender that lacks only the acknowledgement counts none. -/
def sentBad (s : State) (h : Half) (c cause : Nat) : State :=
  let k := s.can h c
  let tec := if cause = 5 ∧ 127 < k.tec then k.tec else k.tec + 8
  showErrors (s.setCan h c { k with tec := tec, busOff := decide (255 < tec), recover := false }) h c

/-! ### Receive ring (R348) -/

/-- The header of a receive record. -/
def canHeader (f : CanFrame) (t : Time) (seq : Nat) (self : Bool) : Nat :=
  let units := 1 + (f.data.length + 31) / 32
  2 ^ 56 * units + 2 ^ 75 * (f.dlc % 16) + 2 ^ 79 * (f.format % 4) + 2 ^ 81 * b2n self + 2 ^ 82 * b2n f.sec + 2 ^ 83 * b2n f.esi
    + 2 ^ 84 * b2n f.brs + 2 ^ 85 * b2n f.rtr + 2 ^ 86 * b2n f.ide + 2 ^ 87 * (f.id % 2 ^ 29) + 2 ^ 116 * (f.data.length % 4096)
    + 2 ^ 128 * (f.vcid % 256) + 2 ^ 136 * (f.sdt % 256) + 2 ^ 144 * (f.af % 2 ^ 32) + 2 ^ 176 * (seq % 2 ^ 32) + 2 ^ 208 * t.toNat

/-- A `PAD` record fills the ring to its end; what it says of a frame is not stated (R348; PRESUMED, log 16). -/
def canPad (s : State) (h : Half) (c ofs : Nat) : State :=
  let k := s.can h c
  let r := s.free
  let d := 2 ^ 56 * ((65536 - ofs) / 32 % 256) + 2 ^ 79 * 3 + 2 ^ 176 * ((k.recNo + 1) % 2 ^ 32) + 2 ^ 208 * (r.1 % 2 ^ 48)
  let s := r.2.setCan h c { k with recNo := (k.recNo + 1) % 2 ^ 32 }
  camWrite s h (k.rxRing + ofs) (natLe 32 d)

/-- Write a record: the payload, then the header (R348). -/
def canRecord (s : State) (h : Half) (c : Nat) (f : CanFrame) (sof : Time) (self : Bool) : State :=
  let t := sof - BitVec.ofInt 48 (s.can h c).rxDelay
  let len := 32 + roundUp 32 f.data.length
  let w := s.num (canIdx h c) 0x0A
  let s := if 65536 < w + len then canPad s h c w else s
  let w := if 65536 < w + len then 0 else w
  let k := s.can h c
  let s := s.setCan h c { k with recNo := (k.recNo + 1) % 2 ^ 32 }
  let a := k.rxRing + w
  let s := camWrite s h (a + 32) (f.data ++ List.replicate (roundUp 32 f.data.length - f.data.length) 0)
  let s := camWrite s h a (natLe 32 (canHeader f t (k.recNo + 1) self))
  let s := s.setNum (canIdx h c) 0x0A ((w + len) % 65536)
  takeSignals s h (fun m => s.num m 1 == c + 1 && s.num m 2 % 2 ^ 30 == f.id % 2 ^ 29 + 2 ^ 29 * b2n f.ide) f.data t

/-- `FORMATS` allows a frame's format. -/
def formatOn (k : Can) (fmt : Nat) : Bool := fmt == 0 || (fmt == 1 && bitAt k.formats 0) || (fmt == 2 && bitAt k.formats 1)

/-! ### Bit-rate detection (R353) -/

/-- Entries of a detection table, at most 8. -/
def abdCount (table : List Byte) : Nat := min 8 (table.length / 12)

/-- A candidate is accepted: its words come into force, the controller listens, the frames received under it are written. -/
def abdAccept (s : State) (h : Half) (c i : Nat) : State :=
  let k := s.can h c
  let w (j : Nat) : Nat := bytesNat k.abd (12 * i + 4 * j) 4
  let s := (List.range 3).foldl (fun (s : State) j => s.setNum (canIdx h c) (5 + j) (w j)) s
  let s := (s.setNum (canIdx h c) 0x14 i).setNum (canIdx h c) 1 3
  let s := s.setCan h c { k with mode := 3, nbt := w 0, dbtFd := w 1, dbtXl := w 2, cand := none, goodFrames := 0, rounds := 0, held := [] }
  k.held.foldl (fun (s : State) p => canRecord s h c p.1 p.2 false) s

/-- An error-free frame under a candidate. -/
def abdFrame (s : State) (h : Half) (c : Nat) (f : CanFrame) (t : Time) : State :=
  let k := s.can h c
  match k.cand with
  | none => s
  | some i =>
    let s := s.setCan h c { k with
      goodFrames := k.goodFrames + 1, fdOk := k.fdOk || (f.format == 1 && f.brs), xlOk := k.xlOk || f.format == 2
      held := k.held ++ [(f, t)] }
    if 2 ≤ k.goodFrames + 1 then abdAccept s h c i else s

/-- The dwell time of a candidate expires (R353). -/
def abdNext (s : State) (h : Half) (c : Nat) : State :=
  let k := s.can h c
  match k.cand with
  | none => s
  | some i =>
    let fresh : Can := { k with goodFrames := 0, fdOk := false, xlOk := false, held := [] }
    if i + 1 < abdCount k.abd then s.setCan h c { fresh with cand := some (i + 1) }
    else if k.abdRounds ≤ k.rounds + 1 then
      (s.setCan h c { fresh with cand := none, rounds := k.rounds + 1 }).setNum (canIdx h c) 0x14 0xFF
    else s.setCan h c { fresh with cand := some 0, rounds := k.rounds + 1 }

/-- `ABD_DWELL` of controller `c` (R353). -/
def execAbdDwell (h : Half) (c : Nat) (s : State) : Ans :=
  .next (if canOn s h c ∧ (s.can h c).mode = 4 then abdNext s h c else s)

/-- `CAN_RECEIVE`: an error-free frame of another node, its start-of-frame edge at ticket time `t` (R346, R348, R352, R353). -/
def execCanReceive (h : Half) (c : Nat) (f : CanFrame) (t : Time) (s : State) : Ans :=
  let s := s.atTime h t
  let k := s.can h c
  .next (if !canOn s h c || k.mode == 0 || k.busOff then s
    else if !formatOn k f.format then
      let s := s.bump (canIdx h c) 0x15 1
      if k.mode = 1 then showErrors (s.setCan h c { k with recv := k.recv + 1 }) h c
      else if k.mode = 4 then s.setCan h c { k with goodFrames := 0 }
      else s
    else if k.mode = 4 then abdFrame s h c f t
    else receivedGood (canRecord s h c f t false) h c)

/-! ### Transmitting (R349 to R351) -/

/-- Lengths a format carries (R349). -/
def lenOk (fmt len : Nat) : Bool :=
  match fmt with
  | 0 => decide (len ≤ 8)
  | 1 => decide (len ≤ 8) || (len ∈ [12, 16, 20, 24, 32, 48, 64])
  | 2 => decide (1 ≤ len) && decide (len ≤ 2048)
  | _ => false

/-- A descriptor is refused: length, format, flags, buffer, or a launch time over 1 s ahead (R313, R349). -/
def canRefused (s : State) (h : Half) (k : Can) (d : Nat) (t : Time) : Bool :=
  let fmt := fld d 1 0
  let len := fld d 47 36
  !formatOn k fmt || !lenOk fmt len || (bitAt d 5 && fmt != 0) || (bitAt d 4 && fmt != 1) || (bitAt d 3 && fmt != 2)
  || (bitAt d 6 && fmt == 2) || (!bitAt d 6 && decide (2048 ≤ fld d 35 7))
  || (if len = 0 then fld d 255 208 != 0 else !inOwnMemory s h (fld d 255 208) len)
  || (bitAt d 2 && decide (Time.diff (BitVec.ofNat 48 (fld d 207 160)) t > 1000000000))

/-- Write back a descriptor (R349). -/
def canWriteBack (s : State) (slot : Option Nat) (doneT : Time) (status cause : Nat) : State :=
  match slot with
  | none => s
  | some a =>
    s.mergeWrite a (natLe 64 (s.readNat a 64 % 2 ^ 448 + 2 ^ 452 * (cause % 16) + 2 ^ 456 * (status % 256) + 2 ^ 464 * doneT.toNat))

/-- The frame of a descriptor. -/
def canFrameOf (s : State) (d : Nat) : CanFrame :=
  let fmt := fld d 1 0
  let len := fld d 47 36
  { format := fmt, ide := bitAt d 6, rtr := bitAt d 5, brs := bitAt d 4, esi := false, sec := bitAt d 3, id := fld d 35 7
    dlc := if fmt = 2 then 0 else dlcOf len, sdt := if fmt = 2 then fld d 63 56 else 0
    vcid := if fmt = 2 then fld d 55 48 else 0, af := if fmt = 2 then fld d 95 64 else 0
    data := if bitAt d 5 then [] else s.read (fld d 255 208) len }

/-- Take a frame out of the queue. -/
def popCan (s : State) (h : Half) (c : Nat) (f : CanTx) : State :=
  let k := s.can h c
  s.setCan h c { k with queue := k.queue.erase f }

/-- Refused descriptors at the head of the queue complete (R349). -/
def dropRefused (s : State) (h : Half) (c : Nat) : State :=
  ((s.can h c).queue.takeWhile (fun f => f.refused)).foldl (fun (s : State) f => canWriteBack (popCan s h c f) f.slot 0 stState 0) s

/-- Take a posted descriptor into the queue; one that is refused completes at the head, and so does one whose payload does not read as good (R240, R349; DESIGN CHOICE, log 38). -/
def takeCan (s : State) (h : Half) (c a d : Nat) (t : Time) : State :=
  let k := s.can h c
  let s := s.setCan h c { k with next := (k.next + 1) % 32 }
  let refused := canRefused s h k d t
  let g := if refused || fld d 47 36 == 0 then (true, s) else s.readCheck (fld d 255 208) (fld d 47 36)
  dropRefused (queueCan g.2 h c ⟨some a, canFrameOf s d, if bitAt d 2 then some (BitVec.ofNat 48 (fld d 207 160)) else none
    , BitVec.ofNat 48 (fld d 159 112), fld d 111 96, 0, none, 0, 0xFFFF, refused || !g.1⟩) h c

/-- `CAN_TX_TAKE`: the next slot of the transmit ring (R349); a descriptor that does not read as good is not taken (DESIGN CHOICE, log 38). -/
def execCanTxTake (h : Half) (c : Nat) (t : Time) (s : State) : Ans :=
  let s := s.atTime h t
  let k := s.can h c
  let a := k.txRing + 64 * (k.next % 32)
  .next (if !canOn s h c || k.owner != 0 || !(k.mode == 1 || k.mode == 2) || decide (32 ≤ k.queue.length) || !memOn s h
      || !inOwnMemory s h a 64 then s
    else
      let g := s.readCheck a 64
      let d := g.2.readNat a 64
      if !g.1 || !bitAt d 448 then g.2 else takeCan g.2 h c a d t)

/-- The key of a frame's over-budget count (R388, R426). -/
def canKey (c : Nat) (f : CanTx) : Nat := match f.loop with
  | some n => 16 + n
  | none => 8 + c

/-- A frame of the queue is dropped (R350, R352, R378, R387, R390). -/
def dropCan (s : State) (h : Half) (c : Nat) (f : CanTx) (t : Time) (status cause : Nat) (late : Bool) : State :=
  let s := canWriteBack (popCan s h c f) f.slot 0 status cause
  let s := if late then s.bump (canIdx h c) 0x17 1 else s
  let missed := late || overBudget s (f.launch.getD t) f.srcT f.budget
  let s := if f.budget = 0 then s else noteAge s h (canKey c f) (frameAge s (f.launch.getD t) f.srcT)
  if missed then noteBudget s h (canKey c f) true
  else if f.budget ≠ 0 then noteBudget s h (canKey c f) false else s

/-- Judge a frame of the queue at `t`. -/
def judgeCan (s : State) (h : Half) (f : CanTx) (t : Time) : Launch :=
  judgeLaunch s h true f.loop.isSome f.launch f.srcT t (f.launch.getD t) f.budget

/-- Drop a frame where it is judged so at `t`, a late one with `CAUSE` (R349, R350, R352). -/
def dropCanAs (s : State) (h : Half) (c : Nat) (f : CanTx) (t : Time) (cause : Nat) : State :=
  match judgeCan s h f t with
  | .drop st late => dropCan s h c f t st (if st = stDeadline ∧ late = true then cause else 0) (st == stDeadline && late)
  | _ => s

/-- In bus-off, every launched frame of the queue that is past its 2,000 ns at `t` is dropped with `CAUSE` 7 (R352, R354). -/
def dropPassed (s : State) (h : Half) (c : Nat) (t : Time) : State :=
  ((s.can h c).queue.filter (fun f => match f.launch with
    | some l => !f.refused && decide (2000 < Time.diff t l)
    | none => false)).foldl (fun (s : State) f => dropCanAs s h c f t 7) s

/-- The head frame is sent, its start of frame at `t` (R345, R348, R349). -/
def sendCan (s : State) (h : Half) (c : Nat) (f : CanTx) (t : Time) : State :=
  let leave := f.launch.getD t
  let bad := isMarked s h f.srcT f.budget || overBudget s leave f.srcT f.budget
  let fr := match f.loop with
    | some n => { f.f with data := loopFrameBytes f.f.data f.statusOfs f.crcOfs ((s.loop h n).alive + 1) bad }
    | none => f.f
  let fr := { fr with esi := decide (127 < (s.can h c).tec ∨ 127 < (s.can h c).recv) && fr.format == 1 }
  let s := popCan s h c f
  let s := match f.loop with
    | some n => riseAlive s h n
    | none => s
  let s := (sentGood s h c).emit (.canOut h c fr t)
  let s := canRecord s h c fr t true
  checkDeadline (canWriteBack s f.slot t stOK 0) h (canKey c f) leave f.srcT f.budget

/-- A safety message leaves, its start of frame at `t`, and is recorded as the controller's own (R348, R391). -/
def sendSafeCan (s : State) (h : Half) (c i : Nat) (f : CanFrame) (t : Time) : State :=
  let k := s.can h c
  let s := (sentGood (s.setCan h c { k with safe := Tab.erase k.safe i }) h c).emit (.canOut h c f t)
  canRecord s h c f t true

/-- `CAN_TRANSMIT` at `t`, an instant at which the bus is idle: a waiting safety message goes first (R391), then the head frame is sent, dropped, or waits (R313, R350, R352). -/
def execCanTransmit (h : Half) (c : Nat) (t : Time) (s : State) : Ans :=
  let s := s.atTime h t
  .next (if !canOn s h c || (s.can h c).mode != 1 then s
    else if (s.can h c).busOff then dropPassed s h c t
    else
      match (s.can h c).safe with
      | (i, f) :: _ => sendSafeCan s h c i f t
      | [] =>
        let s := dropRefused s h c
        match (s.can h c).queue with
        | [] => s
        | f :: _ => if judgeCan s h f t = .send then sendCan s h c f t else dropCanAs s h c f t (if f.cause ≠ 0 then f.cause else 8))

/-- An attempt has failed with a cause: the counters move (R350, R352). -/
def failAttempt (s : State) (h : Half) (c cause : Nat) : State :=
  if cause = 1 then s.bump (canIdx h c) 0x16 1 else sentBad (s.bump (canIdx h c) 0x15 1) h c cause

/-- `ARBITRATION_LOST`: the attempt at `t` of the safety message or the head frame loses arbitration (`cause` 1) or meets an error (2 to 6): a one-shot completes with `ABORTED`, another is left for a new attempt (R350, R351). -/
def execArbitrationLost (h : Half) (c cause : Nat) (t : Time) (s : State) : Ans :=
  let s := s.atTime h t
  .next (if !canOn s h c || (s.can h c).mode != 1 || (s.can h c).busOff || cause == 0 || decide (6 < cause) then s
    else
      match (s.can h c).safe with
      | (i, _) :: _ =>
        let s := failAttempt s h c cause
        let k := s.can h c
        if k.oneShot then s.setCan h c { k with safe := Tab.erase k.safe i } else s
      | [] =>
        let s := dropRefused s h c
        match (s.can h c).queue with
        | [] => s
        | f :: rest =>
          if judgeCan s h f t ≠ .send then s
          else
            let s := failAttempt s h c cause
            let k := s.can h c
            if k.oneShot then canWriteBack (popCan s h c f) f.slot 0 stAborted cause
            else s.setCan h c { k with queue := { f with cause := cause } :: rest })

/-! ### Bus-off and settings (R346, R352) -/

/-- `BUS_OFF_RECOVERY`: by itself, or after `MODE` was written; frames whose time passed in bus-off are dropped (R352). -/
def execBusOffRecovery (h : Half) (c : Nat) (s : State) : Ans :=
  let k := s.can h c
  .next (if canOn s h c ∧ k.busOff = true ∧ (k.busoffAuto = true ∨ k.recover = true) then
      let s := dropPassed s h c (s.now h)
      showErrors (s.setCan h c { s.can h c with busOff := false, recover := false, tec := 0, recv := 0 }) h c
    else s)

/-- The dictionary's settings come into force in a controller; a new `MODE` or `ABD_TABLE` starts detection anew (R346, R353; points read in log 16). -/
def takeSettings (s : State) (h : Half) (c : Nat) : State :=
  let g (k : Nat) : Nat := s.num (canIdx h c) k
  let k := s.can h c
  let table := s.bytes (canIdx h c) 0x11
  let k := if g 1 = k.mode ∧ table = k.abd then k
    else { k with goodFrames := 0, fdOk := false, xlOk := false, rounds := 0, held := []
                  cand := if g 1 = 4 ∧ 0 < abdCount table then some 0 else none }
  s.setCan h c { k with
    mode := g 1, formats := g 2, oneShot := g 3 == 1, owner := g 4, nbt := g 5, dbtFd := g 6, dbtXl := g 7
    rxRing := g 9, rxDelay := s.int (canIdx h c) 0x0B 32, txRing := g 0x0C, busoffAuto := g 0x10 == 1
    abd := table, abdRounds := g 0x13 }

/-- `CONTROLLER_CHANGE`: the bus is idle (R346). -/
def execControllerChange (h : Half) (c : Nat) (s : State) : Ans := .next (if canOn s h c then takeSettings s h c else s)

end Sys2Proof.Machine
end

