-- ==== Sys2Proof/Machine/SafetyCmds.lean ====
section
/-! DEFINITION. Meanings of the safety rows: safety frames, Spring tests, lockstep, clocks, safety messages, the peer's loss, half commands (R372 to R401). -/
namespace Sys2Proof.Machine

/-! ### Safety frames (R380) -/

/-- `SAFETY_FRAME_SRC` (R380). -/
def frameSrc (s : State) (h : Half) : Nat := s.num (hk h 0x4B00) 4

/-- Frames of the camera channel that `SAFETY_FRAME_SRC` names. -/
def srcFrames (s : State) (h : Half) : Nat := s.num (camIdx h (frameSrc s h / 4)) (camSub (frameSrc s h % 4) 15)

/-- The source is a camera channel that cannot give frame starts: disabled, or its port off. -/
def srcOff (s : State) (h : Half) : Bool :=
  !camOn s h (frameSrc s h / 4) || s.num (camIdx h (frameSrc s h / 4)) (camSub (frameSrc s h % 4) 0) != 1

/-- Count one safety frame and age suspect units (R379, R380). -/
def countFrame (s : State) (h : Half) (f : Safety → Safety) : State :=
  ageSuspects (s.modSafety h (fun x => { f x with frameNo := x.frameNo + 1 })) h

/-- `SAFETY_FRAME` at ticket time `t`: a new frame of the camera channel named, or the next period of ticket time (R380). -/
def execSafetyFrame (h : Half) (t : Time) (s : State) : Ans :=
  let s := s.atTime h t
  let x := (s.half h).safety
  let ns := s.num (hk h 0x4B00) 5
  .next (if frameSrc s h ≠ 0xFFFF ∧ srcFrames s h ≠ x.camSeen then
      countFrame s h (fun y => { y with byTime := false, frameT := t, camSeen := srcFrames s h })
    else if (frameSrc s h = 0xFFFF ∨ x.byTime = true) ∧ Time.diff t x.frameT ≥ ns then
      countFrame s h (fun y => { y with frameT := y.frameT + BitVec.ofNat 48 ns })
    else s)

/-- `SAFETY_FRAME_FALLBACK` at ticket time `t` (R380). -/
def execSafetyFrameFallback (h : Half) (t : Time) (s : State) : Ans :=
  let s := s.atTime h t
  let x := (s.half h).safety
  .next (if frameSrc s h ≠ 0xFFFF ∧ x.byTime = false
      ∧ (srcOff s h = true ∨ Time.diff t x.frameT ≥ 2 * s.num (hk h 0x4B00) 5) then
      (s.modSafety h (fun y => { y with byTime := true })).bump (hk h 0x4B00) 0x0E 1
    else s)

/-! ### Spring tests (R382 to R386) -/

/-- The Spring test of core `c`. -/
def State.spring (s : State) (h : Half) (c : Nat) : Spring := Tab.get springIdle (s.half h).springs c

/-- Put the Spring test of core `c`. -/
def State.setSpring (s : State) (h : Half) (c : Nat) (x : Spring) : State :=
  s.modHalf h (fun y => { y with springs := Tab.set springIdle y.springs c x })

/-- `SPRING_STATE` of core `c`: 0 waiting, 1 due, 2 running, 3 yielded. -/
def springState (s : State) (h : Half) (c : Nat) : Nat := s.num (hk8 h 0xA032) c

/-- Ticket time gone by since `S`, which may be more than the 2^47 ns that a difference shows: the one that agrees with the model's clock (R297, R382). -/
def sinceS (s : State) (h : Half) (t : Time) : Int :=
  let a := s.clock - (s.half h).springClock
  (a : Int) + Time.diff (t - (s.half h).springS) (BitVec.ofNat 48 a)

/-- The last due time of core `c` at or before `t` (R382). -/
def springDueTime (s : State) (h : Half) (c : Nat) (t : Time) : Option Time :=
  let p : Nat := s.num 0x2900 2 * 1000000
  let ofs : Nat := c * (p / s.part.cores)
  let d := sinceS s h t - ofs
  if p = 0 ∨ d < (p : Int) then none else some ((s.half h).springS + BitVec.ofInt 48 (ofs + d / (p : Int) * (p : Int)))

/-- A due time has come already: it is not later than the one that came last (R306). -/
def springDone (s : State) (h : Half) (c : Nat) (due : Time) : Bool :=
  let x := s.spring h c
  match x.mark with
  | some k => decide (s.clock < k + 2 ^ 47 ∧ Time.diff due x.due ≤ 0)
  | none => false

/-- Record a test's completion less its due time (R384, R426; points read in log 30). -/
def springRecord (s : State) (h : Half) (c : Nat) (bin : Option Nat) (elapsed : Int) : State :=
  s.observe h 12 2 c 0 (bin.getD (logBin (elapsed / 100000))) (some (clampI (-2147483648) 2147483647 (elapsed / 1000)))

/-- A due test starts at once on a core that nothing holds or claims with class 0, else waits for a mooring (R383). -/
def startSpring (s : State) (h : Half) (c : Nat) (due : Time) : State :=
  let s := wakeIdle ((s.setNum (hk8 h 0xA032) c 1).setSpring h c ⟨0, due, false, some s.clock⟩) h
  if (s.core h c).ctx.isNone && springReady s h c then s.setNum (hk8 h 0xA032) c 2 else takeWaiting s h

/-- A test still incomplete at the next due time is missed; the third in a row retires the core (R384). -/
def missSpring (s : State) (h : Half) (c : Nat) (t : Time) : State :=
  let n := s.num (hk8 h 0xA034) c + 1
  let s := springRecord s h c (some 11) (Time.diff t (s.spring h c).due)
  let s := s.setNum (hk8 h 0xA034) c n
  if 3 ≤ n then retireCore s h c else s

/-- `SPRING_DUE` of core `c` at ticket time `t` (R382 to R384). -/
def execSpringDue (h : Half) (c : Nat) (t : Time) (s : State) : Ans :=
  let s := s.atTime h t
  .next (if s.part.cores ≤ c ∨ coreRetired s h c = true ∨ 2 ≤ powerState s h ∨ (s.half h).ready ≠ 3 then s
    else
      match springDueTime s h c t with
      | none => s
      | some due =>
        if springDone s h c due then s
        else
          let s := if springState s h c = 0 then s else missSpring s h c t
          if coreRetired s h c then s else startSpring s h c due)

/-- All eight segments have passed: the test is complete, the core goes back to the dispatcher (R383, R384). -/
def completeSpring (s : State) (h : Half) (c : Nat) (t : Time) : State :=
  let x := s.spring h c
  let s := ((s.setNum (hk8 h 0xA032) c 0).setNum (hk8 h 0xA034) c 0).setNum (hk8 h 0xA035) c t.toNat
  springRecord (s.setSpring h c ⟨0, x.due, false, x.mark⟩) h c none (Time.diff t x.due)

/-- A segment has passed: the next one, completion, or a yield to class 0 (R383). -/
def passSegment (s : State) (h : Half) (c : Nat) (t : Time) : State :=
  let x := s.spring h c
  let s := s.setSpring h c { x with seg := x.seg + 1 }
  if 8 ≤ x.seg + 1 then completeSpring s h c t
  else if class0Claim s h c then s.setNum (hk8 h 0xA032) c 3 else s

/-- `SPRING_SEGMENT_DONE` of core `c`: the segment's signature agrees, or its second run does, or neither (R385). -/
def execSpringSegmentDone (h : Half) (c : Nat) (pass rerun : Bool) (t : Time) (s : State) : Ans :=
  let s := s.atTime h t
  .next (if springState s h c ≠ 2 then s
    else if pass then passSegment s h c t
    else if rerun then
      let s := disagree s h c 0 9
      if coreRetired s h c then s else passSegment s h c t
    else retireCore (s.observe h 13 2 c 9 (linBin 2 0) none) h c)

/-- `SPRING_LATE` of core `c` at ticket time `t` (R384). -/
def execSpringLate (h : Half) (c : Nat) (t : Time) (s : State) : Ans :=
  let s := s.atTime h t
  let x := s.spring h c
  .next (if springState s h c = 0 ∨ x.late = true ∨ Time.diff t x.due < 2000000 then s
    else
      let s := (s.setSpring h c { x with late := true }).bump (hk8 h 0xA033) c 1
      let s := springRecord s h c none (Time.diff t x.due)
      match (s.core h c).ctx with
      | some n => markLate s h c n
      | none => s)

/-! ### Lockstep, clocks, messages (R372, R377, R389 to R391, R399) -/

/-- A lockstep unit has no suspect stage: the record of its first disagreement (R377, R426). -/
def lockstepRecord (s : State) (h : Half) : State := s.observe h 13 1 0xFF 8 (linBin 2 0) none

/-- `LOCKSTEP_CE` (R377, R393). -/
def execLockstepCe (h : Half) (t : Time) (s : State) : Ans := .next ((lockstepRecord (s.atTime h t) h).enterSafe h 3)

/-- A safety manager has failed: the comparator closes the gate without exception, asserts `FAULT_N` and holds the manager in reset (R399; points read in log 30). -/
def gateHalf (s : State) (h : Half) : State :=
  let s := s.modSafety h (fun x => { x with gateClosed := true, gated := true, digesting := false, handover := false })
  let s := ((s.setNum (hk h 0x4B00) 1 5).setNum (hk h 0x4B00) 2 4).setNum (hk h 0x4B00) 3 (s.now h).toNat
  (s.observe h 14 1 0xFF 4 (linBin 5 0) none).assertFaultN h

/-- `LOCKSTEP_SM` (R399). -/
def execLockstepSm (h : Half) (t : Time) (s : State) : Ans := .next (gateHalf (lockstepRecord (s.atTime h t) h) h)

/-- `CLOCK_DRIFT` (R372). -/
def execClockDrift (h : Half) (t : Time) (s : State) : Ans := .next ((s.atTime h t).enterSafe h 10)

/-- `SAFETY_MESSAGE_REPEAT`: every 10 ms in safe state (R389, R391, R392). -/
def execSafetyMessageRepeat (h : Half) (t : Time) (s : State) : Ans :=
  let s := s.atTime h t
  .next (if s.halfState h = 4 then
      s.safetyMessage h h false (s.num (hk h 0x4B00) 2) (BitVec.ofNat 48 (s.num (hk h 0x4B00) 3))
    else s)

/-! ### Losing a half (R394, R396, R398) -/

/-- `PEER_FAULT_N` at ticket time `t`: a half in service senses the `FAULT_N` of a peer that had started, or that has stopped at a start-up step or in a supply fault (R394, R448, R463, R477; points read in log 30). -/
def execPeerFaultN (h : Half) (t : Time) (s : State) : Ans :=
  let s := s.atTime h t
  .next (if (s.half h).ready = 3 ∧ (s.half h.other).faultN = true
      ∧ ((s.half h).peer ≠ 3 ∨ (s.half h.other).ready = 3 ∨ (s.half h.other).power.stuck = true ∨ (s.half h.other).power.supplyFault = true) then judgeLost s h (knownCause s h) else s)

/-- `LIFEBOAT_DIGEST_DONE` at ticket time `t` (R396). -/
def execLifeboatDigestDone (h : Half) (t : Time) (s : State) : Ans :=
  let s := s.atTime h t
  .next (if (s.half h).safety.digesting = false then s
    else
      let d := lifeboatDigestOk s h
      if d.1 then lifeboatRun d.2 h
      else (d.2.modSafety h (fun x => { x with digesting := false, handover := false })).enterSafe h 8)

/-- `REJOIN` of a half (R398, R461): status and state. -/
def rejoinHalf (s : State) (target : Half) : Nat × State :=
  if s.halfState target = 4 ∨ s.halfState target = 5 ∨ powerState s target = 3 then (stOK, (resetHalf s target).setNum (hk target 0x4D00) 0x0B 5) else (stState, s)

/-- `HANDOVER` to a half (R398; points read in log 30). -/
def handoverHalf (s : State) (target : Half) : Nat × State :=
  if s.halfState .bow = 1 ∧ s.halfState .stern = 1 then (stOK, lifeboatStart s target true 0) else (stState, s)

/-- `RESUME` of a half (R398). -/
def resumeHalf (s : State) (target : Half) : Nat × State :=
  if (s.halfState target = 2 ∨ s.halfState target = 3) ∧ s.halfState target.other = 1 then
    (stOK, (s.setNum (hk target 0x4B00) 1 1).modHalf target (fun x => { x with lifeboat := false }))
  else (stState, s)

end Sys2Proof.Machine
end

