-- ==== Sys2Proof/Machine/DictView.lean ====
section
/-! DEFINITION. Flash slots, and what every dictionary entry reads as: kept values, computed views, byte strings (R403, R427, R429, R430, R435). -/
namespace Sys2Proof.Machine

/-! ### Firmware slots (R430) -/

/-- Slot `i` of a half's flash: 0 A, 1 B. -/
def slotOf (s : State) (h : Half) (i : Nat) : Slot := if i = 0 then (s.half h).flash.slotA else (s.half h).flash.slotB

/-- Put a slot. -/
def setSlot (s : State) (h : Half) (i : Nat) (x : Slot) : State :=
  s.modHalf h (fun y => { y with flash := if i = 0 then { y.flash with slotA := x } else { y.flash with slotB := x } })

/-- A byte of a slot: as written, else 0xFF once erased, else what the part came with (DESIGN CHOICE, log 19). -/
def slotByte (s : State) (h : Half) (i o : Nat) : Byte :=
  match (slotOf s h i).cells.find o with
  | some b => b
  | none => if (slotOf s h i).erased then 0xFF else Config.slotByte h.num i o

/-- `n` bytes of a slot from offset `o`. -/
def slotRead (s : State) (h : Half) (i o n : Nat) : List Byte := upto n (fun k => slotByte s h i (o + k))

/-- Bytes of a firmware slot (R430). -/
def slotBytes : Nat := 0x2000000

/-- `COUNTER` of a slot's first-stage record, 0 for an empty slot (*Firmware entries*). -/
def slotSvn (s : State) (h : Half) (i : Nat) : Nat :=
  if leNat (slotRead s h i 0 4) = 0x574C5248 then leNat (slotRead s h i 12 4) else 0

/-! ### Owner keys (R440) -/

/-- A byte of a byte string, 0 beyond its end. -/
def byteAt (bs : List Byte) (o : Nat) : Nat := (bs.getD o 0).toNat

/-- The digest of an owner key block, or 48 zero bytes (R440). -/
def ownerDigest (owner : List Byte) : List Byte :=
  if owner.isEmpty || byteAt owner 513 == 1 then List.replicate 48 0 else sha384 ((owner.drop 64).take 436)

/-- Policy of an owner key record (R440). -/
def ownerPolicy (owner : List Byte) : Nat := if owner.isEmpty || byteAt owner 513 == 1 then 0 else byteAt owner 512

/-! ### Number entries -/

/-- The half an address's half range belongs to. -/
def halfOf (stern : Bool) : Half := if stern then .stern else .bow

/-- The recorder of half `g` as half `h` serves it: its own, or the mirror it holds of the other's (R429). -/
def servedRecorder (s : State) (h g : Half) : Recorder := if h = g then (s.half g).recorder else (s.half h).recMirror

/-- `CLASS0_RESERVED` (R226). -/
def class0Reserved (s : State) (h : Half) : Bool :=
  let ways (c : Nat) : Nat := s.num (hk h 0x4300) (5 + c)
  (List.range 4).any (fun g => s.num (hk h 0x4300) (1 + g) == 1)
  && (ways 0 &&& (ways 1 ||| ways 2 ||| ways 3)) == 0

/-- What a number entry reads as in half `h`: the computed views, else the value kept. -/
def viewNum (s : State) (h : Half) (idx sub : Nat) : Nat :=
  let kept := s.num idx sub
  match splitIndex idx with
  | none => 0
  | some (none, base, _) =>
    match base, sub with
    | 0x1000, 3 => 2 * s.part.cores
    | 0x1000, 4 => s.part.hostDie
    | 0x1100, 3 => s.part.cores / 8
    | 0x1100, 4 => s.part.cores
    | 0x1F00, 8 => s.txn.staged.length
    | 0x2A00, 3 => ownerPolicy (s.half h).settings.owner
    | 0x2A00, 4 => (s.half h).flash.cnt1
    | 0x2A00, 6 => (s.half h).flash.cnt3
    | _, _ => kept
  | some (some st, base, rep) =>
    let g := halfOf st
    let x := s.half g
    match base, sub with
    | 0x3000, 1 => (servedRecorder s h g).head % 2 ^ 32
    | 0x3000, 2 => (servedRecorder s h g).tail % 2 ^ 32
    | 0x3000, 3 => (servedRecorder s h g).seq % 2 ^ 32
    | 0x4300, 0x0B => b2n (class0Reserved s g)
    | 0x4400, 4 => pageCount s g - x.pages.length
    | 0x4400, 5 => x.deferred.length
    | 0x4502, 3 => (s.poison.filter (fun l => s.region l == .dram g)).length
    | 0x4600, 3 => b2n x.host.linkUp
    | 0x4610, 1 => linkStateCode (s.link g (if rep = 0 then .cw0 else .cw1)).state
    | 0x4620, 1 => linkStateCode x.ferry.state
    | 0x4C10, 1 => x.boot.slot
    | 0x4C10, 2 => b2n x.flash.trial
    | 0x4C10, 3 => slotSvn s g 0
    | 0x4C10, 4 => slotSvn s g 1
    | 0x4C10, 5 => x.flash.cnt0
    | 0x4C20, 5 => b2n x.loading.isSome
    | 0x4C20, 0x0A => x.progs.length
    | 0x9000, 7 => dictMac s g
    | 0xA020, c => (s.rollOf g c).word
    | 0x4400, k => if 0x0A ≤ k then pagesUsed s g (k - 0x0A) else kept
    | 0x4401, k =>
      if 5 ≤ k then (x.manifest.filter (fun p => p.2.state != .evicted && p.2.cls == k - 5)).length else kept
    | _, _ => kept

/-! ### Byte-string entries -/

/-- The bytes of a text. -/
def textBytes (t : String) : List Byte := t.toList.map (fun c => BitVec.ofNat 8 c.toNat)

/-- A number of `w` decimal digits. -/
def digits (w n : Nat) : List Byte := (List.range w).map (fun i => BitVec.ofNat 8 (48 + n / 10 ^ (w - 1 - i) % 10))

/-- `PART_NUMBER` (R1). -/
def partNumber (s : State) : List Byte :=
  textBytes "TL-4" ++ digits 3 (2 * s.part.cores) ++ textBytes "-H" ++ digits 2 s.part.hostDie ++ textBytes "-A2"

/-- A record as it is read: 64 bytes (R425). -/
def recordOf (r : RRec) : List Byte :=
  let a := r.acc
  let ext (e : Option Int) : Nat := twos 32 (e.getD 0)
  natLe 64 (1 + 2 ^ 30 * (a.scope % 4) + 2 ^ 32 * (a.unit % 256) + 2 ^ 40 * (a.kind % 256) + 2 ^ 48 * (r.rep % 65536)
    + 2 ^ 64 * (r.wseq % 2 ^ 32) + 2 ^ 96 * (a.key % 2 ^ 32) + 2 ^ 128 * (a.count % 2 ^ 32) + 2 ^ 160 * a.tFirst.toNat
    + 2 ^ 208 * a.tLast.toNat + ((List.range 12).map (fun b => 2 ^ (256 + 16 * b) * (nth a.bins b % 65536))).foldl (· + ·) 0
    + 2 ^ 448 * ext a.low + 2 ^ 480 * ext a.high)

/-- Slot `i` of a recorder's ring: the newest record there, even one since cleared (R427, R428). -/
def recordSlot (r : Recorder) (i : Nat) : List Byte :=
  match r.recs.reverse.find? (fun x => x.num % 256 == i) with
  | some x => recordOf x
  | none => List.replicate 64 0

/-- What a STR or DOMAIN entry reads as in half `h`. -/
def viewBytes (s : State) (h : Half) (idx sub : Nat) : List Byte :=
  let kept := s.bytes idx sub
  match splitIndex idx with
  | none => []
  | some (none, base, _) =>
    match base, sub with
    | 0x1000, 1 => partNumber s
    | 0x1000, 7 => natLe 16 s.part.serial
    | 0x2A00, 2 => ownerDigest (s.half h).settings.owner
    | _, _ => kept
  | some (some st, base, rep) =>
    match base, sub with
    | 0x3100, 1 => recordSlot (servedRecorder s h (halfOf st)) rep
    | 0x4C00, 1 => Config.identityCert (halfOf st).num 0
    | 0x4C00, 2 => Config.identityCert (halfOf st).num 1
    | _, _ => kept

/-! ### Taking values -/

/-- A value without its reserved bits, which are ignored (R13, R404; points read in log 27). -/
def maskReserved (base sub : Nat) (typ : DType) (v : Nat) : Nat :=
  match typ with
  | .time48 => v % 2 ^ 48
  | _ =>
    match base, sub with
    | 0x4300, n => if 1 ≤ n ∧ n ≤ 4 then v % 16 else v
    | 0x9100, 2 => v % 8
    | 0x9200, 2 => v % 2 ^ 30
    | 0x4B00, 8 => v % 2 ^ 48
    | _, _ => v

/-- The bits of byte `i` of a byte string that are not reserved: gate entries, receive rules, output frames, lifeboat descriptors (R13, R311, R316, R345, R396). -/
def byteMask (base sub i : Nat) : Nat :=
  match base, sub with
  | 0x4800, 7 => if i % 8 < 5 then 0xFF else 0
  | 0x4812, 1 => match i % 16 with
    | 6 | 7 => 0
    | 9 => 0x0F
    | 14 => 0xF0
    | 15 => 0xF8
    | _ => 0xFF
  | 0x4B00, 0x0A => if 320 ≤ i ∧ i < 448 ∧ 6 ≤ i % 8 then 0 else 0xFF
  | 0x8000, 0x1D => if i = 14 ∨ i = 15 then 0 else 0xFF
  | _, _ => 0xFF

/-- A byte string without its reserved bits (R13). -/
def maskBytes (base sub : Nat) (bs : List Byte) : List Byte :=
  upto bs.length (fun i => bs.getD i 0 &&& BitVec.ofNat 8 (byteMask base sub i))

/-- Put a value into an entry. -/
def putValue (s : State) (idx sub : Nat) (bs : List Byte) : State :=
  match entryOf idx sub with
  | none => s
  | some (a, e, _) =>
    if dtypeBytes e.typ = 0 then s.setBytes idx sub (maskBytes a.base sub bs) else s.setNum idx sub (maskReserved a.base sub e.typ (leNat bs))

/-! ### What a new value sets in motion (R301, R325, R327, R334, R352) -/

/-- A trigger's schedule starts with its first instant at or after `t` (R327). -/
def armTrigger (s : State) (h : Half) (k : Nat) (t : Time) : State :=
  let i := trigIdx h k
  let start := BitVec.ofNat 48 (s.num i 2)
  let period := s.num i 3
  let d := Time.diff t start
  let x := s.trig h k
  if s.num i 1 = 2 then
    (s.setNum i 7 start.toNat).setTrig h k { x with last := if 0 < d then some start else none }
  else
    let j : Int := if d ≤ 0 ∨ period = 0 then 0 else (d + (period - 1 : Nat)) / (period : Int)
    s.setNum i 7 (start + BitVec.ofInt 48 (j * (period : Int))).toNat

/-- `TIME_STATE` is `FREE` while the leader has no enabled external port, and leaves it for `UNLOCKED` with one (R301; PRESUMED, log 21). -/
def freeTime (s : State) (h : Half) : State :=
  let some_ := (List.range 5).any (fun p => portOn s h p)
  if timeState s h = 0 ∧ some_ then setTimeState s h 1
  else if timeState s h ≠ 5 ∧ some_ = false then setTimeState s h 0
  else s

/-- What the new value of one entry does at ticket time `t`. `changed` says that it differs from the old one. -/
def afterValue (s : State) (idx sub : Nat) (changed : Bool) (t : Time) : State :=
  match splitIndex idx with
  | none => s
  | some (none, base, _) =>
    match base, sub with
    | 0x2800, 1 => if changed then takeLead s (if s.num 0x2800 1 = 0 then .bow else .stern) else s
    | 0x2800, 4 => chooseGm (chooseGm s .bow) .stern
    | 0x2800, 5 => chooseGm (chooseGm s .bow) .stern
    | 0x2800, 6 => chooseGm (chooseGm s .bow) .stern
    | _, _ => s
  | some (some st, base, rep) =>
    let h := halfOf st
    match base with
    | 0x4900 =>
      let s := if sub = 5 ∧ changed = true ∧ (s.trig h rep).active = false then s.emit (.trigger h rep (trigLevel s h rep false) t) else s
      if 1 ≤ sub ∧ sub ≤ 5 then armTrigger s h rep t else s
    | 0x9200 => if changed ∧ sub ≤ 9 then (s.setNum idx 0x0A 0).setNum idx 0x0B 0 else s
    | 0x9100 =>
      if sub = 1 ∧ (s.can h rep).busOff = true then s.setCan h rep { s.can h rep with recover := true } else s
    | 0x4700 =>
      if 0x10 ≤ sub ∧ sub % 16 = 0 ∧ s.num idx sub = 0 then endFrameFree s h rep (sub / 16 - 1) true else s
    | 0x4B00 => if sub = 4 ∧ changed = true then s.modSafety h (fun x => { x with camSeen := srcFrames s h }) else s
    | 0x4800 => if sub = 1 ∨ sub = 5 then chooseGm (freeTime s h) h else s
    | 0x4A00 => if sub = 6 then chooseGm s h else s
    | _ => s

/-- Values take effect together at ticket time `t`, then what each sets in motion follows. -/
def applyValues (s : State) (vs : List (Nat × Nat × List Byte)) (t : Time) : State :=
  let s' := vs.foldl (fun (s : State) p => putValue s p.1 p.2.1 p.2.2) s
  vs.foldl (fun (r : State) p =>
    afterValue r p.1 p.2.1 (match entryOf p.1 p.2.1 with
      | some (_, e, _) => if dtypeBytes e.typ = 0 then s.bytes p.1 p.2.1 != s'.bytes p.1 p.2.1 else s.num p.1 p.2.1 != s'.num p.1 p.2.1
      | none => false) t) s'

end Sys2Proof.Machine
end

