-- ==== Sys2Proof/Machine/BootCmds.lean ====
section
/-! DEFINITION. Boot, owner records, attestation and firmware update (R430 to R444). -/
namespace Sys2Proof.Machine

/-! ### Signed records (R432) -/

/-- Length of a record: its padded body and both signatures. -/
def recordLen (bs : List Byte) : Nat := 512 + roundUp 64 (bytesNat bs 8 4) + 16608

/-- A signed record of a type is accepted (R432): form, serial, root or owner keys, both signatures. -/
def recordOk (s : State) (digest : List Byte) (typ : Nat) (bs : List Byte) : Bool :=
  let body := bytesNat bs 8 4
  let signer := byteAt bs 6
  let serial := bytesNat bs 16 16
  bytesNat bs 0 4 == 0x574C5248 && byteAt bs 4 == typ && byteAt bs 5 == 1 && byteAt bs 7 == 0
  && decide (recordLen bs ≤ bs.length)
  && (bs.drop 32).take 32 == List.replicate 32 0 && (bs.drop 500).take 12 == List.replicate 12 0
  && (serial == 0 || serial == s.part.serial)
  && sha384 ((bs.drop 64).take 436) == (if signer = 0 then Config.rootDigest else digest) && decide (signer < 2)
  && Config.signaturesVerify (bs.take (512 + body)) ((bs.drop 64).take 436) ((bs.drop (512 + roundUp 64 body)).take 16608)

/-- The body of a record. -/
def recordBody (bs : List Byte) : List Byte := (bs.drop 512).take (bytesNat bs 8 4)

/-- Read a record at an offset of a slot, within the bytes left there. -/
def slotRecord (s : State) (h : Half) (i o room : Nat) : List Byte := slotRead s h i o (min room (recordLen (slotRead s h i o 16)))

/-- The owner key record that a half's checks go by: the one in force, or at its start the one in its flash (R432, R440; points read in log 34). -/
def ownerNow (s : State) (h : Half) : List Byte :=
  if (s.half h).boot.stage = 3 then (s.half h).settings.owner else (s.half h).flash.owner

/-- The first-stage record of a slot verifies and reaches the floor (R433 step 3). -/
def firstStageOk (s : State) (h : Half) (i : Nat) : Bool :=
  let r := slotRecord s h i 0 0x100000
  recordOk s (ownerDigest (ownerNow s h)) 1 r && decide ((s.half h).flash.cnt0 ≤ bytesNat r 12 4)

/-- The main record of a slot verifies, is approved where the owner asks for it, and reaches the floor (R433 step 6, R440). -/
def mainOk (s : State) (h : Half) (i : Nat) : Bool :=
  let o := ownerNow s h
  let r := slotRecord s h i 0x100000 0x1E00000
  let ap := slotRecord s h i 0x1F00000 0x100000
  recordOk s (ownerDigest o) 2 r && decide ((s.half h).flash.cnt0 ≤ bytesNat r 12 4)
  && (!bitAt (ownerPolicy o) 0
    || (recordOk s (ownerDigest o) 8 ap && byteAt ap 6 == 1 && (recordBody ap).take 48 == sha384 (r.take (recordLen r))))

/-! ### Boot (R433, R434, R462) -/

/-- Set `READY`. -/
def setReady (s : State) (h : Half) (v : Nat) : State := s.modHalf h (fun x => { x with ready := v })

/-- The half stops where it is until its reset is asserted (R437, R463). -/
def stopStart (s : State) (h : Half) : State := s.modHalf h (fun x => { x with power := { x.power with stuck := true } })

/-- The slot the mask ROM boots, and the boot control block after its choice (R434). -/
def chooseSlot (x : HalfState) : Nat × Flash :=
  let f := x.flash
  let p : Nat × Flash := if !f.trial then (f.preferred, f)
    else if 0 < f.tries then (f.preferred, { f with tries := f.tries - 1 })
    else (f.lastGood, { f with trial := false })
  if p.1 ∈ x.boot.failed then (1 - p.1, p.2) else p

/-- `RESET_RELEASE`: the mask ROM chooses a slot and starts its first stage, confined; `READY` reads 1 (R433, R434, R462). The device number is sampled while both halves are in reset (R289, R484). -/
def execResetRelease (h : Half) (s : State) : Ans :=
  let x := s.half h
  .next (if x.boot.stage ≠ 0 ∨ s.standby = true ∨ x.power.supplied = false ∨ x.power.supplyFault = true then s
    else
      let s := s.modHalf h (fun x => { x with power := { x.power with resetN := false, clamp := false } })
      let s := if (s.half h.other).boot.stage = 0 then s.setNum 0x2600 1 (s.devPins % 4) else s
      if x.power.stuck ∨ (0 ∈ x.boot.failed ∧ 1 ∈ x.boot.failed) then s
      else
        let c := chooseSlot x
        s.modHalf h (fun x => { x with
          ready := 1, flash := c.2
          boot := { x.boot with
            failed := if x.flash.trial ∧ x.flash.tries = 0 ∧ x.flash.preferred ∉ x.boot.failed then x.boot.failed ++ [x.flash.preferred]
              else x.boot.failed
            stage := 1, slot := c.1, trialT := if c.2.trial ∧ c.1 = c.2.preferred then some x.tt else none } }))

/-- A slot fails a check: it is marked and the half resets (R433, R434). -/
def failSlot (s : State) (h : Half) : State :=
  resetHalf (s.modHalf h (fun x => { x with boot := { x.boot with
    failed := if x.boot.slot ∈ x.boot.failed then x.boot.failed else x.boot.failed ++ [x.boot.slot] } })) h

/-- `FIRST_STAGE_VERIFIED` (R433 steps 3 and 4). -/
def execFirstStageVerified (h : Half) (s : State) : Ans :=
  .next (if (s.half h).boot.stage ≠ 1 ∨ (s.half h).power.stuck = true then s
    else if firstStageOk s h (s.half h).boot.slot then s.modHalf h (fun x => { x with boot := { x.boot with stage := 2 } })
    else failSlot s h)

/-- The masks of a permission record: (key, mask) (R441). -/
def permEntries : Nat → List Byte → Tab Nat
  | 0, _ => []
  | n + 1, bs => if bs.length < 4 then [] else
    Tab.insert (permEntries n (bs.drop 4)) (dkey (bytesNat bs 0 2) (byteAt bs 2)) (byteAt bs 3 % 8)

/-- The values of a defaults record: index (2 bytes), sub-index (1), length (2), value (R441; DESIGN CHOICE, log 19). -/
def dfltEntries : Nat → List Byte → List (Nat × List Byte)
  | 0, _ => []
  | n + 1, bs =>
    if bs.length < 5 then []
    else
      let l := bytesNat bs 3 2
      (dkey (bytesNat bs 0 2) (byteAt bs 2), (bs.drop 5).take l) :: dfltEntries n (bs.drop (5 + l))

/-- A stored settings record in force: it verifies by the owner's keys and reaches the settings epoch (R441). -/
def settingOk (s : State) (f : Flash) (typ : Nat) (bs : List Byte) : Bool :=
  !bs.isEmpty && byteAt bs 6 == 1 && recordOk s (ownerDigest f.owner) typ bs && decide (f.cnt3 ≤ bytesNat bs 12 4)

/-- The settings that a half's flash puts in force at its start (R441). -/
def flashSettings (s : State) (f : Flash) : Settings :=
  { perms := if settingOk s f 5 f.perm then permEntries (recordBody f.perm).length (recordBody f.perm) else []
    dflts := if settingOk s f 6 f.dflt then dfltEntries (recordBody f.dflt).length (recordBody f.dflt) else []
    owner := f.owner }

/-- A defaults entry that half `h` takes: its own ranges, and device-wide ones while the other half does not hold them (R27, R407). -/
def takesDefault (s : State) (h : Half) (k : Nat) : Bool :=
  isHalfKey h k || (decide ((s.half h.other).boot.stage < 3) && decide (k / 256 < 0x3000))

/-- A half that rejoins with a lower epoch takes the owner record from its peer (R440). -/
def peerOwner (s : State) (h : Half) : State :=
  let p := (s.half h.other).flash
  if (s.half h.other).boot.stage = 3 ∧ (s.half h).flash.cnt1 < p.cnt1 then
    s.modHalf h (fun x => { x with flash := { x.flash with owner := p.owner, cnt1 := p.cnt1 } })
  else s

/-- A half that rejoins with a lower settings epoch takes the settings records from its peer, so that `SETTINGS_EPOCH` reads the same in both (R27, R441; DEDUCED, log 34). -/
def peerSettings (s : State) (h : Half) : State :=
  let p := (s.half h.other).flash
  if (s.half h.other).boot.stage = 3 ∧ (s.half h).flash.cnt3 < p.cnt3 then
    s.modHalf h (fun x => { x with flash := { x.flash with perm := p.perm, dflt := p.dflt, cnt3 := p.cnt3 } })
  else s

/-- Links that can train begin their initial training when firmware starts: the half's own Causeway ports, and the Ferry once both halves run it (R284, R289, R462). -/
def startTraining (s : State) (h : Half) : State :=
  let train (s : State) (g : Half) (p : Port) : State :=
    if (s.link g p).state = .down then setLinkState s g p (fun l => { l with state := .training }) else s
  let s := [Port.cw0, Port.cw1].foldl (fun (s : State) p => if (wiredPartner s h p).isSome then train s h p else s) s
  if (s.half h.other).boot.stage = 3 then train (train s h .ferry) h.other .ferry else s

/-- The service record's chain: valid entries from the newest complete snapshot onward are all there (R436). -/
def serviceChainOk (x : HalfState) : Bool :=
  let last := (x.service.filter (fun e => e.valid)).foldl (fun m e => max m e.seq) 0
  last == x.serviceCtr || last == x.serviceCtr + 1

/-- Settings, defaults and owner entries come into force in a half whose firmware starts (R403, R440, R441). -/
def takeFlash (s : State) (h : Half) : State :=
  let f := (s.half h).flash
  let set := flashSettings s f
  let s := s.modHalf h (fun x => { x with settings := set, serviceCtr := (x.service.foldl (fun m e => if e.valid then max m e.seq else m) x.serviceCtr) })
  let vs := (set.dflts.filter (fun p => takesDefault s h p.1)).filterMap (fun p => match entryOf (p.1 / 256) (p.1 % 256) with
    | some (_, e, _) => if e.acc = .rw ∨ e.acc = .rwt then some (p.1 / 256, p.1 % 256, p.2) else none
    | none => none)
  let s := applyValues s vs (s.now h)
  (List.range 4).foldl (fun (s : State) c => takeSettings s h c) s

/-- Dictionary and host objects are served: `READY` reads 2 (R462). After Off it follows the zero write of DRAM. -/
def serveObjects (s : State) (h : Half) : State :=
  let x := s.half h
  if x.boot.stage = 3 ∧ x.ready = 1 ∧ x.power.cold = false ∧ x.power.stuck = false then setReady s h 2 else s

/-- `MAIN_FIRMWARE_START` (R433 steps 5 and 6, R435 to R437): a half whose part record disagrees with its peer's stays in `STARTING` and says so. -/
def execMainFirmwareStart (h : Half) (s : State) : Ans :=
  .next (if (s.half h).boot.stage ≠ 2 ∨ (s.half h).power.stuck = true then s
    else if !Config.pufGood h.num then stopStart (resetHalf s h) h
    else
      let s := peerSettings (peerOwner s h) h
      if !mainOk s h (s.half h).boot.slot then failSlot s h
      else
        let old := decide (1 - (s.half h).boot.slot ∈ (s.half h).boot.failed)
        let s := s.modHalf h (fun x => { x with boot := { x.boot with stage := 3 } })
        let ok := serviceChainOk (s.half h)
        let s := startTraining (takeFlash s h) h
        let s := if old then s.setNum (hk h 0x4C10) 9 stState else s
        if !(s.half h).flash.partOk then stopStart (s.observe h 14 1 0xFF 0 (linBin 0 0) none) h
        else if ok then serveObjects s h else stopStart s h)

/-! ### The trial of a new slot (R443) -/

/-- `FW_TRIAL_TIMEOUT`: a half in trial that is not in `NORMAL` within `FW_TRIAL_MS`, or has entered safe state (R443). -/
def execFwTrialTimeout (h : Half) (s : State) : Ans :=
  .next (if !inTrial s h || s.halfState h == 1 then s else endTrial s h)

/-- A half in trial that reaches `NORMAL` clears `TRIAL` (R443). -/
def passTrial (s : State) (h : Half) : State :=
  if inTrial s h then
    (s.modHalf h (fun x => { x with flash := { x.flash with trial := false }, boot := { x.boot with trialT := none } })).setNum
      (hk h 0x4C10) 9 stOK
  else s

/-! ### Attestation (R439) -/

/-- A nonce is taken: 32 bytes, none being served (R439). -/
def takeNonce (s : State) (h : Half) (nonce : List Byte) : Nat × State :=
  if nonce.length ≠ 32 ∨ (s.half h).attNonce.isSome = true then (stState, s)
  else (stOK, (s.modHalf h (fun x => { x with attNonce := some nonce })).setBytes (hk h 0x4C00) 4 [])

/-- The digests of the installed programs in handle order (R439). -/
def progDigests (ps : List Prog) : List Byte :=
  let sorted := ps.foldl (fun (t : Tab (List Byte)) p => Tab.insert t p.handle p.digest) []
  sorted.flatMap Prod.snd

/-- A service record entry without its MAC (R436). -/
def serviceBytes (e : ServEntry) : List Byte :=
  natLe 4 e.seq ++ [BitVec.ofNat 8 e.kind, BitVec.ofNat 8 e.core, BitVec.ofNat 8 e.spare, BitVec.ofNat 8 e.pos] ++ natLe 8 e.t.toNat

/-- Service entries in force: valid ones from the newest snapshot onward (R436). -/
def serviceInForce (x : HalfState) : List ServEntry := x.service.filter (fun e => e.valid)

/-- SHA-384 of a slot's main firmware record, zeros for an empty slot (R439). -/
def mainDigest (s : State) (h : Half) (i : Nat) : List Byte :=
  let r := slotRecord s h i 0x100000 0x1E00000
  if bytesNat r 0 4 = 0x574C5248 then sha384 r else List.replicate 48 0

/-- The report's body (*Attestation report body*). -/
def reportBody (s : State) (h : Half) (nonce : List Byte) (t : Time) : List Byte :=
  let x := s.half h
  let f := x.flash
  nonce ++ natLe 8 t.toNat ++ natLe 16 s.part.serial
  ++ [BitVec.ofNat 8 h.num, BitVec.ofNat 8 (s.halfState h), BitVec.ofNat 8 (x.boot.slot + 2 * b2n f.trial), 0]
  ++ natLe 4 (arithSignature s) ++ natLe 4 f.cnt0 ++ natLe 4 f.cnt1 ++ natLe 4 x.serviceCtr ++ natLe 4 f.cnt3
  ++ (Config.recordDigest h.num []).take 48 ++ ownerDigest x.settings.owner ++ mainDigest s h x.boot.slot ++ mainDigest s h (1 - x.boot.slot)
  ++ sha384 (progDigests x.progs)
  ++ (Config.recordDigest h.num ((serviceInForce x).flatMap serviceBytes)).take 48

/-- The report: header with `TYPE` 0, body, padding and two signatures (R432, R439). -/
def attestReport (s : State) (h : Half) (nonce : List Byte) (t : Time) : List Byte :=
  let body := reportBody s h nonce t
  let head := natLe 4 0x574C5248 ++ [0, 1, 0, 0] ++ natLe 4 body.length ++ natLe 4 0 ++ natLe 16 s.part.serial
    ++ List.replicate 32 0 ++ Config.identityKeys h.num ++ List.replicate 12 0
  head ++ body ++ List.replicate (roundUp 64 body.length - body.length) 0 ++ Config.signReport h.num (head ++ body)

/-- `ATTEST_REPORT` at ticket time `t` (R439). -/
def execAttestReport (h : Half) (t : Time) (s : State) : Ans :=
  let s := s.atTime h t
  .next (match (s.half h).attNonce with
    | none => s
    | some n =>
      let s := s.setBytes (hk h 0x4C00) 4 (attestReport s h n t)
      (s.modHalf h (fun x => { x with attNonce := none })).bump (hk h 0x4C00) 5 1)

/-! ### Owner and settings records (R440, R441) -/

/-- Halves that check and store an owner or settings record: those with firmware running. -/
def keepers (s : State) : List Half := [Half.bow, Half.stern].filter (fun g => (s.half g).boot.stage == 3)

/-- Judge an owner record and its authorisation in a half (R440): a signature that fails first, then the counter. The current owner is the one whose digest `OWNER_KEY_DIGEST` reads. -/
def judgeOwner (s : State) (x : HalfState) (bs : List Byte) : Nat :=
  let o := x.settings.owner
  let auth := bs.drop (recordLen bs)
  let digest := sha384 ((bs.drop 64).take 436)
  let owned := !(o.isEmpty || byteAt o 513 == 1)
  let release := byteAt bs 513 == 1
  let signedBy := if release then ownerDigest o else digest
  if !(recordOk s signedBy 4 bs && byteAt bs 6 == 1 && bytesNat bs 16 16 == s.part.serial)
    || !(recordOk s (ownerDigest o) 7 auth && byteAt auth 6 == b2n owned
      && (recordBody auth).take 64 == digest ++ natLe 16 s.part.serial)
    || (release && !owned) then stRight
  else if bytesNat bs 12 4 ≠ x.flash.cnt1 + 1 then stState
  else stOK

/-- Write an owner record: checked by each half in service, stored, the owner epoch raised (R440). -/
def putOwner (s : State) (bs : List Byte) : Nat × State :=
  match ((keepers s).map (fun g => judgeOwner s (s.half g) bs)).find? (· != stOK) with
  | some st => (st, s)
  | none => (stOK, (keepers s).foldl (fun (s : State) g => s.modHalf g (fun x => { x with
      flash := { x.flash with owner := bs, cnt1 := bytesNat bs 12 4 } })) s)

/-- Judge a permission or defaults record (R441). -/
def judgeSettings (s : State) (x : HalfState) (bs : List Byte) : Nat :=
  let o := ownerDigest x.settings.owner
  if !((recordOk s o 5 bs || recordOk s o 6 bs) && byteAt bs 6 == 1) then stRight
  else if bytesNat bs 12 4 < x.flash.cnt3 then stState
  else stOK

/-- Write a permission or defaults record: stored, the settings epoch raised (R441). -/
def putSettings (s : State) (bs : List Byte) : Nat × State :=
  match ((keepers s).map (fun g => judgeSettings s (s.half g) bs)).find? (· != stOK) with
  | some st => (st, s)
  | none =>
    let store (f : Flash) : Flash := if byteAt bs 4 = 5 then { f with perm := bs, cnt3 := bytesNat bs 12 4 }
      else { f with dflt := bs, cnt3 := bytesNat bs 12 4 }
    (stOK, (keepers s).foldl (fun (s : State) g => s.modHalf g (fun x => { x with flash := store x.flash })) s)

/-! ### Firmware commands (R442 to R444) -/

/-- The slot a half is not running. -/
def inactiveSlot (s : State) (h : Half) : Nat := 1 - (s.half h).boot.slot

/-- `FW_STATE` reads busy. -/
def fwBusy (s : State) (h : Half) : Bool := s.num (hk h 0x4C10) 8 == 1

/-- Report a firmware command's outcome (points read in log 34). -/
def fwResult (s : State) (h : Half) (st : Nat) : State := s.setNum (hk h 0x4C10) 9 st

/-- `FW_WRITE` at an offset of the inactive slot: flash cells only go from 1 to 0, so the slot is erased first (R442; DESIGN CHOICE, log 19). -/
def fwWrite (s : State) (h : Half) (ofs : Nat) (bs : List Byte) : Nat × State :=
  let i := inactiveSlot s h
  let x := slotOf s h i
  if fwBusy s h || decide (slotBytes < ofs + bs.length) then (stState, s)
  else
    let cells := (List.zip (List.range bs.length) bs).foldl (fun t p => Tab.insert t (ofs + p.1) (p.2 &&& slotByte s h i (ofs + p.1))) x.cells
    (stOK, (setSlot s h i { x with cells := cells }).setNum (hk h 0x4C10) 8 0)

/-- `ERASE` of the inactive slot (R442). -/
def fwErase (s : State) (h : Half) : Nat × State :=
  if fwBusy s h then (stState, s)
  else
    let i := inactiveSlot s h
    let s := setSlot s h i ⟨true, []⟩
    let s := s.modHalf h (fun x => { x with boot := { x.boot with failed := x.boot.failed.filter (fun k => decide (k ≠ i)) } })
    (stOK, fwResult (s.setNum (hk h 0x4C10) 8 0) h stOK)

/-- The running firmware version of the other half is in the image's `PEER_COMPAT` list. Where the list stands in the main record's body is not stated: free (R442; DESIGN CHOICE, log 19). -/
def peerCompat (s : State) : Bool × State :=
  let r := s.free
  (bitAt r.1 0, r.2)

/-- `VERIFY` of the inactive slot (R442). -/
def fwVerify (s : State) (h : Half) : Nat × State :=
  if fwBusy s h then (stState, s)
  else
    let i := inactiveSlot s h
    let p := peerCompat s
    let s := p.2
    if !(firstStageOk s h i && mainOk s h i) then (stOK, fwResult (s.setNum (hk h 0x4C10) 8 0) h stRight)
    else if !p.1 then (stOK, fwResult (s.setNum (hk h 0x4C10) 8 0) h stState)
    else (stOK, fwResult (s.setNum (hk h 0x4C10) 8 2) h stOK)

/-- `ACTIVATE`: a trial of the new slot begins with a reset (R443). -/
def fwActivate (s : State) (h : Half) : Nat × State :=
  if fwBusy s h || s.num (hk h 0x4C10) 8 != 2 || powerState s h != 2 || s.halfState h.other != 3 then (stState, s)
  else
    let i := inactiveSlot s h
    (stOK, resetHalf (s.modHalf h (fun x => { x with flash := { x.flash with
      preferred := i, trial := true, tries := 3, lastGood := 1 - i } })) h)

/-- `COMMIT_SVN`: the floor rises to the active slot's `COUNTER` (R444). -/
def fwCommit (s : State) (h : Half) : Nat × State :=
  if fwBusy s h || (s.half h).flash.trial then (stState, s)
  else
    let v := slotSvn s h (s.half h).boot.slot
    (stOK, fwResult (s.modHalf h (fun x => { x with flash := { x.flash with cnt0 := max x.flash.cnt0 v } })) h stOK)

end Sys2Proof.Machine
end

