-- ==== Sys2Proof/Machine/LoaderCmds.lean ====
section
/-! DEFINITION. The program loader: `LOAD`, its checks, `UNLOAD` (R22 to R24, R98 to R100, R359, R445). -/
namespace Sys2Proof.Machine

/-! ### Image form (R98 to R100) -/

/-- The core records of an image. -/
def imageCores (img : List Byte) : List Nat := upto (bytesNat img 6 2) (fun i => bytesNat img 32 8 + 576 * i)

/-- Shape record entries: (sub-index, figure). -/
def imageShape (img : List Byte) : List (Nat × Nat) :=
  upto (bytesNat img 12 2) (fun i => (bytesNat img (bytesNat img 24 8 + 8 * i) 1, bytesNat img (bytesNat img 24 8 + 8 * i + 4) 4))

/-- The bytes from `o` are zero. -/
def zeroAt (img : List Byte) (o n : Nat) : Bool := bytesNat img o n == 0

/-- A tag entry is well formed (R100). -/
def tagOk (t : Nat) : Bool :=
  fld t 62 32 == 0 && (if bitAt t 63 then fld t 31 0 == 0 else decide (32 * (fld t 15 0 + fld t 31 16 + 1) ≤ 0x200000))

/-- A stream lies in the named core's Pool window or its cluster's Mere window (R98, R99). -/
def streamPlace (h : Half) (core base len : Nat) : Bool :=
  let p := poolBase h core
  let m := mereBase h (core / 8)
  (decide (p ≤ base) && decide (base + len ≤ p + 0x200000)) || (decide (m ≤ base) && decide (base + len ≤ m + 0x800000))

/-- A per-core record at `o` is well formed (R98, R99). -/
def coreRecordOk (img : List Byte) (o : Nat) : Bool :=
  let half := bytesNat img (o + 2) 1
  let base := bytesNat img (o + 8) 8
  let len := bytesNat img (o + 16) 4
  let ofs := bytesNat img (o + 24) 8
  decide (half ≤ 1) && zeroAt img (o + 3) 5 && zeroAt img (o + 20) 4 && zeroAt img (o + 32) 32
  && base % 32 == 0 && len % 32 == 0 && ofs % 32 == 0
  && streamPlace (halfOf (half == 1)) (bytesNat img o 2) base len
  && decide (bytesNat img 40 8 + ofs + len ≤ bytesNat img 8 4)
  && (List.range 64).all (fun i => tagOk (bytesNat img (o + 64 + 8 * i) 8))

/-- The image keeps every rule of R99 and R100; `room` is the bytes there are. -/
def imageOk (img : List Byte) (room : Nat) : Bool :=
  let n := bytesNat img 6 2
  let size := bytesNat img 8 4
  let shapeN := bytesNat img 12 2
  let shape := bytesNat img 24 8
  let core := bytesNat img 32 8
  let body := bytesNat img 40 8
  bytesNat img 0 4 == 0x50524731 && bytesNat img 4 2 == 1 && decide (64 ≤ size) && decide (size ≤ room)
  && decide (1 ≤ n) && decide (n ≤ 192) && decide (shapeN ≤ 64)
  && zeroAt img 14 2 && zeroAt img 20 4 && zeroAt img 48 16
  && shape % 8 == 0 && core % 64 == 0 && body % 64 == 0
  && decide (shape + 8 * shapeN ≤ size) && decide (core + 576 * n ≤ size) && decide (body ≤ size)
  && (List.range shapeN).all (fun i => zeroAt img (shape + 8 * i + 1) 3)
  && decide ((imageShape img).map Prod.fst).Nodup
  && (imageCores img).all (coreRecordOk img)
  && decide ((imageCores img).map (fun o => (bytesNat img o 2, bytesNat img (o + 2) 1))).Nodup

/-- The per-core records of an image. -/
def perCores (img : List Byte) : List PerCore :=
  (imageCores img).map (fun o => {
    stern := bytesNat img (o + 2) 1 == 1, lcore := bytesNat img o 2, streamBase := bytesNat img (o + 8) 8
    streamLen := bytesNat img (o + 16) 4, imgOfs := bytesNat img (o + 24) 8
    tags := upto 64 (fun i => bytesNat img (o + 64 + 8 * i) 8) })

/-! ### Shape, halves, signature (R22, R24, R294, R359) -/

/-- Every figure listed is met, and every core named exists (R22). -/
def shapeOk (s : State) (h : Half) (img : List Byte) : Bool :=
  (imageShape img).all (fun p => (rowOf 0x1100 p.1).isSome && decide (p.2 ≤ viewNum s h 0x1100 p.1))
  && (perCores img).all (fun r => decide (r.lcore < s.part.cores))

/-- The halves a program names. -/
def namedHalves (cs : List PerCore) : List Half :=
  [Half.bow, Half.stern].filter (fun g => cs.any (fun r => r.stern == decide (g = .stern)))

/-- The required signature fits, and no multi-device program loads into a mesh whose signatures differ (R294, R359). -/
def signatureFits (s : State) (img : List Byte) : Bool :=
  (bytesNat img 16 4 == 0 || bytesNat img 16 4 == arithSignature s)
  && !(s.num 0x2600 3 == 1 && (imageShape img).any (fun p => p.1 == 0x11 && decide (1 < p.2)))

/-! ### Store and handles (R445) -/

/-- A range of the store is free in half `h`. -/
def storeFree (s : State) (h : Half) (a n : Nat) : Bool :=
  (s.half h).progs.all (fun p => decide (a + n ≤ p.base) || decide (p.base + p.bytes ≤ a))

/-- The lowest 2 KiB-aligned place in the store where `n` bytes fit (R445). -/
def storePlace (s : State) (h : Half) (n : Nat) : Option Nat :=
  let base := s.num (hk h 0x4C20) 7
  let size := s.num (hk h 0x4C20) 8
  let places := roundUp 2048 base :: (s.half h).progs.map (fun p => roundUp 2048 (p.base + p.bytes))
  (places.filter (fun a => decide (base ≤ a) && decide (a + n ≤ base + size) && storeFree s h a n)).foldl
    (fun (m : Option Nat) a => match m with
      | none => some a
      | some b => some (min a b)) none

/-- Slot `k` is free in half `h`. -/
def handleFree (s : State) (h : Half) (k : Nat) : Bool := (s.half h).progs.all (fun p => decide (p.handle % 65536 ≠ k))

/-- The lowest slot free in every half of a list (R445). -/
def freeHandle (s : State) (hs : List Half) : Option Nat := (List.range 1024).find? (fun k => hs.all (fun g => handleFree s g k))

/-- The next generation of a slot: one above the higher of the halves', from 1 to 32,767 (R445). -/
def nextGen (s : State) (hs : List Half) (k : Nat) : Nat :=
  let g := (hs.map (fun g => Tab.get 0 (s.half g).gens k)).foldl max 0
  if 32767 ≤ g then 1 else g + 1

/-- Install an image in one half's store. -/
def installIn (s : State) (h : Half) (a handle k gen : Nat) (bs : List Byte) (inner : Nat) (cs : List PerCore) : State :=
  let s := s.mergeWrite a bs
  s.modHalf h (fun x => { x with
    gens := Tab.insert x.gens k gen
    progs := x.progs ++ [⟨handle, a, bs.length, a + inner, sha384 bs, cs⟩] })

/-! ### `LOAD` (R445) -/

/-- `LOAD` begins: the source is noted, `PROG_BUSY` reads 1. -/
def startLoad (s : State) (h : Half) : Nat × State :=
  if (s.half h).loading.isSome then (stState, s)
  else (stOK, s.modHalf h (fun x => { x with loading := some ⟨s.num (hk h 0x4C20) 2, s.num (hk h 0x4C20) 3⟩ }))

/-- The source lies within the half's own DRAM. -/
def loadInDram (h : Half) (l : Loading) : Bool := decide (dramBase h ≤ l.src) && decide (l.src + l.bytes ≤ dramBase h + 0x1000000000)

/-- The owner's signature where it is asked for or given (R99, R445): whether it holds, and where the image starts. -/
def imageWrap (s : State) (h : Half) (bs : List Byte) : Bool × Nat :=
  let o := (s.half h).settings.owner
  let wrapped := bytesNat bs 0 4 == 0x574C5248
  let need := bitAt (ownerPolicy o) 1
  if wrapped then (byteAt bs 6 == 1 && recordOk s (ownerDigest o) 9 bs, 512) else (!need, 0)

/-- The checks of a `LOAD` in order and the installation: the status, the handle, the state after (R445). -/
def finishLoad (s : State) (h : Half) (l : Loading) : Nat × Nat × State :=
  if !loadInDram h l then (stState, 0, s)
  else
    match storePlace s h l.bytes, freeHandle s [h] with
    | some a, some _ =>
      let r := s.readCheck l.src l.bytes
      let s := r.2
      let bs := s.read l.src l.bytes
      let w := imageWrap s h bs
      let img := bs.drop w.2
      if !r.1 then (stFault, 0, s)
      else if !w.1 then (stRight, 0, s)
      else if !imageOk img (if w.2 = 0 then bs.length else bytesNat bs 8 4) then (stFault, 0, s)
      else if !shapeOk s h img then (stShape, 0, s)
      else
        let cs := perCores img
        let named := namedHalves cs
        if !(s.inService h && named.all (fun g => s.inService g)) then (stHalfLost, 0, s)
        else if !signatureFits s img then (stState, 0, s)
        else
          let hs := if named.length = 2 then [h, h.other] else [h]
          let inner := w.2 + bytesNat img 40 8
          match freeHandle s hs, (if named.length = 2 then storePlace s h.other l.bytes else some a) with
          | some k, some b =>
            let gen := nextGen s hs k
            let handle := gen * 65536 + k
            let s := installIn s h a handle k gen bs inner cs
            (stOK, handle, if named.length = 2 then installIn s h.other b handle k gen bs inner cs else s)
          | _, _ => (stState, 0, s)
    | _, _ => (stState, 0, s)

/-- `LOAD_DONE` (R445). -/
def execLoadDone (h : Half) (s : State) : Ans :=
  .next (match (s.half h).loading with
    | none => s
    | some l =>
      let r := finishLoad (s.modHalf h (fun x => { x with loading := none })) h l
      let s := r.2.2.setNum (hk h 0x4C20) 6 r.1
      if r.1 = stOK then s.setNum (hk h 0x4C20) 4 r.2.1 else s)

/-! ### `UNLOAD` (R445) -/

/-- A handle is named by an alias of half `h`. -/
def aliased (s : State) (h : Half) (handle : Nat) : Bool :=
  (List.range 256).any (fun a => bytesNat (s.bytes (hk h 0x4C20) 9) (4 * a) 4 == handle)

/-- A context of half `h` runs a program. -/
def progRuns (s : State) (h : Half) (handle : Nat) : Bool :=
  (s.half h).ctxs.any (fun p => match p.2.ticket with
    | some tk => tk.prog.handle == handle
    | none => false)

/-- Take a program out of a half. -/
def removeProg (s : State) (h : Half) (handle : Nat) : State :=
  s.modHalf h (fun x => { x with progs := x.progs.filter (fun p => decide (p.handle ≠ handle)) })

/-- Judge and carry out an `UNLOAD`: its `PROG_RESULT` (R445). -/
def unloadProg (s : State) (h : Half) (handle : Nat) : Nat × State :=
  match (s.half h).progs.find? (fun p => p.handle == handle) with
  | none => (stState, s)
  | some p =>
    let hs := if (namedHalves p.cores).length = 2 then [h, h.other] else [h]
    if handle ≥ 0x80000000 ∨ hs.any (fun g => aliased s g handle || progRuns s g handle) = true then (stState, s)
    else (stOK, hs.foldl (fun (s : State) g => removeProg s g handle) s)

/-- `UNLOAD`: the answer to the write; the outcome is in `PROG_RESULT`. -/
def doUnload (s : State) (h : Half) : Nat × State :=
  if (s.half h).loading.isSome then (stState, s)
  else
    let r := unloadProg s h (s.num (hk h 0x4C20) 4)
    (stOK, r.2.setNum (hk h 0x4C20) 6 r.1)

end Sys2Proof.Machine
end

