-- ==== Sys2Proof/Machine/PowerCmds.lean ====
section
/-! DEFINITION. Meanings of the power, clock, start-up and board rows (R449 to R482). -/
namespace Sys2Proof.Machine

/-- Change a half's power data. -/
def State.modPower (s : State) (h : Half) (f : Power → Power) : State := s.modHalf h (fun x => { x with power := f x.power })

/-! ### Operating points (R451 to R453) -/

/-- `VDD_CORE` of a point in millivolts (R451). -/
def pointVolt (p : Nat) : Nat := if p = 0 then 750 else if p = 1 then 680 else 600

/-- The slower of `OP_REQUEST` and `OP_LIMIT` (R452). -/
def wantedPoint (s : State) (h : Half) : Nat := max (s.num (hk h 0x4D00) 1) (s.num (hk h 0x4D00) 3)

/-- Command the regulator to a point's voltage (R453). -/
def commandVolt (s : State) (h : Half) (p : Nat) : State :=
  (s.modPower h (fun x => { x with vcmd := some p })).emit (.regulator h (pointVolt p))

/-- A millisecond has passed since the last change (R453). -/
def paced (s : State) (h : Half) (t : Time) : Bool :=
  match (s.half h).power.lastChange with
  | none => true
  | some l => decide (Time.diff t l ≥ 1000000)

/-- Take a decision: a raise whose divider has not switched ends at once when a slower point is wanted; a lowering switches CCLK, then commands the voltage; a raise commands the voltage first; an unanswered command is repeated (R453, R466). -/
def changePoint (s : State) (h : Half) (t : Time) : State :=
  let cur := s.num (hk h 0x4D00) 2
  let want := wantedPoint s h
  let x := (s.half h).power
  if x.raise.isSome && decide (cur ≤ want) then
    commandVolt (s.modPower h (fun y => { y with raise := none })) h cur
  else if !paced s h t then s
  else if cur < want then
    commandVolt ((s.setNum (hk h 0x4D00) 2 want).modPower h (fun y => { y with lastChange := some t, raise := none })) h want
  else if want < cur then
    if x.raise = some want then s
    else commandVolt (s.modPower h (fun y => { y with lastChange := some t, raise := some want })) h want
  else
    match x.vcmd with
    | some p => commandVolt (s.modPower h (fun y => { y with lastChange := some t })) h p
    | none => s

/-- `OP_CHANGE` at ticket time `t` (R453). -/
def execOpChange (h : Half) (t : Time) (s : State) : Ans :=
  let s := s.atTime h t
  .next (if 2 ≤ powerState s h then s else changePoint s h t)

/-- `VR_ACK`: the regulator reports the target; a raise switches CCLK (R453). -/
def execVrAck (h : Half) (t : Time) (s : State) : Ans :=
  let s := s.atTime h t
  let x := (s.half h).power
  .next (if x.vcmd.isNone then s
    else
      let s := s.modPower h (fun y => { y with vcmd := none, raise := none })
      match x.raise with
      | some w => s.setNum (hk h 0x4D00) 2 w
      | none => s)

/-- `VR_TIMEOUT`: the half keeps the lower frequency, counts the failure and tries again after a millisecond (R453). -/
def execVrTimeout (h : Half) (t : Time) (s : State) : Ans :=
  let s := s.atTime h t
  let x := (s.half h).power
  .next (if x.vcmd.isNone then s
    else
      let s := s.bump (hk h 0x4D00) 0x0C 1
      s.modPower h (fun y => { y with lastChange := some t, raise := none, vcmd := if x.raise.isSome then none else y.vcmd }))

/-! ### Thermal throttling (R454, R455) -/

/-- Set `OP_LIMIT`; a change is counted (R455). -/
def setLimit (s : State) (h : Half) (v : Nat) : State :=
  if s.num (hk h 0x4D00) 3 = v then s else (s.setNum (hk h 0x4D00) 3 v).bump (hk h 0x4D00) 6 1

/-- `T_HOT` in sixteenths of a degree. -/
def tHot (s : State) (h : Half) : Int := 16 * s.int (hk h 0x4D00) 5 8

/-- `THERMAL_SAMPLE`: the readings in 1/16 °C; the highest is the half's temperature (R454, R455). -/
def execThermalSample (h : Half) (temps : List Int) (t : Time) (s : State) : Ans :=
  let s := s.atTime h t
  .next (match temps with
    | [] => s
    | a :: rest =>
      let tj := clampI (-32768) 32767 (rest.foldl max a)
      let s := s.setNum (hk h 0x4D00) 4 (twos 16 tj)
      let hot := decide (tHot s h ≤ tj)
      let cool := decide (tj < tHot s h - 160)
      let s := s.modPower h (fun x => { x with
        hotSince := if hot then some (x.hotSince.getD t) else none, coolSince := if cool then some (x.coolSince.getD t) else none })
      let s := if 122 * 16 ≤ tj then setLimit s h 2 else s
      let held := (s.half h).power.hold
      if 127 * 16 ≤ tj ∧ held = false then (s.modPower h (fun x => { x with hold := true })).bump (hk h 0x4D00) 7 1
      else if tj < 120 * 16 ∧ held = true then pump (s.modPower h (fun x => { x with hold := false })) h
      else s)

/-- `THROTTLE` at ticket time `t`: a hot condition of 1 ms or a cool one of 100 ms moves `OP_LIMIT` one point (R455). -/
def execThrottle (h : Half) (t : Time) (s : State) : Ans :=
  let s := s.atTime h t
  let x := (s.half h).power
  let lim := s.num (hk h 0x4D00) 3
  .next (match x.hotSince, x.coolSince with
    | some a, _ =>
      if Time.diff t a < 1000000 ∨ 2 ≤ lim then s
      else setLimit (s.modPower h (fun y => { y with hotSince := some (a + 1000000#48) })) h (lim + 1)
    | none, some a =>
      if Time.diff t a < 100000000 ∨ lim = 0 then s
      else setLimit (s.modPower h (fun y => { y with coolSince := some (a + 100000000#48) })) h (lim - 1)
    | none, none => s)

/-! ### Idle and Nap (R457 to R461) -/

/-- `IDLE_ENTRY` (R457; points read in log 36). -/
def execIdleEntry (h : Half) (t : Time) (s : State) : Ans :=
  let s := s.atTime h t
  .next (if (s.half h).power.req = 1 ∧ powerState s h = 0 ∧ (s.half h).power.nap = 0 ∧ (s.half h).ready = 3
      ∧ (s.half h).cores.all (fun p => p.2.ctx.isNone) = true ∧ (List.range s.part.cores).all (fun c => springState s h c != 2) = true then
      setPower s h 1
    else s)

/-- A half in planned Nap begins to wake (R461). -/
def beginWake (s : State) (h : Half) (cause : Nat) : State :=
  (s.setNum (hk h 0x4D00) 0x0B cause).modPower h (fun x => { x with nap := 3 })

/-- `POWER_REQ` = Run (R457, R459, R461). -/
def requestRun (s : State) (h : Half) : Nat × State :=
  match powerState s h with
  | 1 => (stOK, ((setPower s h 0).setNum (hk h 0x4D00) 0x0B 4).modPower h (fun x => { x with req := 0 }))
  | 2 => (stOK, beginWake (s.modPower h (fun x => { x with req := 0 })) h 4)
  | 3 => (stState, s)
  | _ => (stOK, s.modPower h (fun x => { x with req := 0 }))

/-- `POWER_REQ` = Idle (R457). -/
def requestIdle (s : State) (h : Half) : Nat × State := (stOK, s.modPower h (fun x => { x with req := 1 }))

/-- `POWER_REQ` = Nap (R458). -/
def requestNap (s : State) (h : Half) : Nat × State :=
  if 2 ≤ powerState s h ∨ !loopsOpen s h ∨ !peerOut s h then (stState, s)
  else if (s.half h).power.nap ≠ 0 then (stOK, s)
  else (stOK, takeWaiting (startNap (wakeIdle (s.modPower h (fun x => { x with req := 2 })) h) h 1) h)

/-- Unload every context that still has its place (R458 step 2). -/
def unloadAll (s : State) (h : Half) : State :=
  (s.half h).ctxs.foldl (fun (s : State) p =>
    if isResident p.2 then unload s h p.1 (p.2.state != .blocked) else s) s

/-- No Spring test runs or waits in a half. -/
def clearSprings (s : State) (h : Half) : State :=
  (List.range s.part.cores).foldl (fun (s : State) c => s.setNum (hk8 h 0xA032) c 0) (s.modHalf h (fun x => { x with springs := [] }))

/-- `NAP_ENTRY_DONE`: no core is held any more; the gate closes, the loops of a handover open, DRAM refreshes itself, the clusters are off (R458). -/
def execNapEntryDone (h : Half) (t : Time) (s : State) : Ans :=
  let s := s.atTime h t
  let x := (s.half h).power
  .next (if (x.nap ≠ 1 ∧ x.nap ≠ 2) ∨ 2 ≤ powerState s h ∨ (s.half h).cores.any (fun p => p.2.ctx.isSome) = true then s
    else
      let s := clearSprings (clearClusters (unloadAll s h) h) h
      let s := if x.nap = 2 then openLoops s h else s
      let s := s.modSafety h (fun y => { y with gateClosed := true })
      let s := s.modPower h (fun y => { y with nap := 0, clamp := s.num (hk h 0x4D00) 0x0A == 1 })
      setPeer (setPower (stopPasses s h) h 2) h.other 2)

/-- `NAP_WAKE_DONE`: Pools and Meres are clear, the channels trained, the Spring schedule restarts, the dispatcher takes up its contexts (R461); the gate of a half in safe state stays closed (R389). -/
def execNapWakeDone (h : Half) (t : Time) (s : State) : Ans :=
  let s := s.atTime h t
  .next (if powerState s h ≠ 2 ∨ (s.half h).power.nap ≠ 3 then s
    else
      let s := clearClusters s h
      let s := s.modPower h (fun y => { y with nap := 0, clamp := false, dispatchOff := false, req := 0 })
      let s := s.modHalf h (fun x => { x with springS := t, springClock := s.clock, springs := [], safety := { x.safety with gateClosed := s.halfState h == 4 || s.halfState h == 5 } })
      let s := setPower s h 0
      startPasses (if (s.half h.other).peer = 2 then setPeer s h.other 0 else s) h)

/-! ### Standby (R460, R461) -/

/-- Every ticket of a half ends `ABORTED`, and the records due are written (R231, R460). -/
def abortAll (s : State) (h : Half) : State :=
  let s := (s.half h).ctxs.foldl (fun (s : State) p => if p.2.ticket.isSome then endTicket s h p.1 stAborted else s) s
  (s.half h).done.foldl (fun (s : State) d => writeRecord s h d.queue) s

/-- Everything but the always-on domain powers down, DRAM keeps its contents, balls are clamped where asked (R456, R460, R465). -/
def enterStandby (s : State) : State :=
  let s := abortAll (abortAll ((s.enterSafe .bow 11).enterSafe .stern 11) .bow) .stern
  let clamp (h : Half) (k : State) : State := k.modPower h (fun x => { x with
    clamp := s.num (hk h 0x4D00) 0x0A == 1, clampLow := ((List.range 16).map (fun i => 2 ^ i * s.num (trigIdx h i) 5)).foldl (· + ·) 0 })
  { clamp .stern (clamp .bow (resetHalf (resetHalf s .bow) .stern)) with standby := true }

/-- Judge and carry out `STANDBY_REQ` (R460). -/
def requestStandby (s : State) (r : Req) : Nat × State :=
  match r with
  | .can _ _ => if loopsOpen s .bow && loopsOpen s .stern then (stOK, enterStandby s) else (stState, s)
  | _ => (stRight, s)

/-- The device leaves Standby: both halves start (R461). -/
def leaveStandby (s : State) (cause : Nat) : State :=
  { (s.setNum (hk .bow 0x4D00) 0x0B cause).setNum (hk .stern 0x4D00) 0x0B cause with standby := false }

/-- `D_WAKE` held high for 10 µs (R461). -/
def execDWake (s : State) : Ans :=
  .next (if s.standby then leaveStandby s 3
    else
      let wake (s : State) (h : Half) : State := if powerState s h = 2 then beginWake s h 3 else s
      wake (wake s .bow) .stern)

/-- `CAN_WAKE` on a half's CAN0 (R461). -/
def execCanWake (h : Half) (s : State) : Ans := .next (if s.standby then leaveStandby s (1 + h.num) else s)

/-! ### Supplies and reset (R462, R463, R476, R477) -/

/-- `SUPPLIES_APPLIED`: a cold start with `x_RESET_N` low (R461, R476). -/
def execSuppliesApplied (h : Half) (s : State) : Ans :=
  .next (if (s.half h).power.resetN = false then s
    else
      let s := resetHalf s h
      let s := s.modHalf h (fun x => { x with
        power := { x.power with supplied := true, supplyFault := false, cold := true }, boot := { x.boot with failed := [], trialT := none } })
      { s.setNum (hk h 0x4D00) 0x0B 0 with standby := false })

/-- `SUPPLY_FAULT` of a monitored rail (0 `VDD_CORE`, 1 `VDD_SRAM`, 2 `VDDIO18`, 3 `VDD2H`): the half resets and stays so until `x_RESET_N` has been low (R477). -/
def execSupplyFault (h : Half) (rail : Nat) (s : State) : Ans :=
  .next (if 4 ≤ rail then s else (resetHalf s h).modPower h (fun x => { x with supplyFault := true }))

/-- `RESET_N_ASSERT` (R477). -/
def execResetNAssert (h : Half) (s : State) : Ans :=
  .next ((resetHalf s h).modPower h (fun x => { x with resetN := true, supplyFault := false }))

/-- `DRAM_ZERO_WRITE`: after Off, every line is written with zeros and valid code; then the half's objects are served (R462). -/
def execDramZeroWrite (h : Half) (s : State) : Ans :=
  let x := s.half h
  .next (if x.boot.stage ≠ 3 ∨ x.ready ≠ 1 ∨ x.power.cold = false ∨ x.power.stuck = true then s
    else
      let b := dramBase h
      let out (l : Nat) : Bool := !(decide (b ≤ l) && decide (l < b + 0x1000000000))
      let s := { s with mem := memClear s.mem b 0x1000000000, poison := s.poison.filter out, lineErr := s.lineErr.filter (fun p => out p.1) }
      serveObjects (s.modPower h (fun y => { y with cold := false })) h)

/-- The part record's spare map word of a core (R93). -/
def partSpare (s : State) (h : Half) (c : Nat) : Nat :=
  Tab.get 0 (match h with
    | .bow => s.part.spareBow
    | .stern => s.part.spareStern) c

/-- The service record's entries of a core applied to its spare word: the word, whether the core is retired, positions ever mapped (R95, R436). -/
def serviceApply (es : List ServEntry) (c word : Nat) : Nat × Bool × List Nat :=
  (es.filter (fun e => e.valid && e.core == c)).foldl (fun (r : Nat × Bool × List Nat) e =>
    match e.kind with
    | 1 => (if spareIdle r.1 e.spare then spareMap r.1 e.spare e.pos else r.1, r.2.1, r.2.2 ++ [e.pos])
    | 2 => (spareMarkBad r.1 e.spare, r.2.1, r.2.2)
    | 3 => (r.1, true, r.2.2)
    | _ => (e.t.toNat % 2 ^ 32, e.spare % 2 == 1, r.2.2)) (word, false, [])

/-- Every part record word is valid (R94). -/
def partValid (s : State) (h : Half) : Bool := (List.range s.part.cores).all (fun c => !spareInvalid (partSpare s h c))

/-- The spare map of a core at reset: a position that has lost its spare takes a free one, or the core starts retired (R95). -/
def startCore (s : State) (h : Half) (c : Nat) : State :=
  let r := serviceApply (s.half h).service c (partSpare s h c)
  let s := s.setRoll h c { rollFree with word := r.1 }
  let mapped := (List.range 4).filterMap (fun i => if spareValid (partSpare s h c) i then some (sparePos (partSpare s h c) i) else none)
  let lost := ((mapped ++ r.2.2).eraseDups).filter (fun q => (spareOf r.1 q).isNone)
  let idle := (List.range 4).filter (spareIdle r.1)
  if r.2.1 ∨ idle.length < lost.length then (s.setNum (hk8 h 0xA030) c 2).setNum (hk8 h 0xA021) c 3
  else (List.zip idle lost).foldl (fun (s : State) p => mapNow (recordMapping s h c p.1 p.2) h c p.1 p.2) s

/-- `READY_3` at ticket time `t`: spare maps applied, Pools and Meres cleared, each core's start-up Spring test passed (R95, R462, R398, R443). -/
def execReady3 (h : Half) (t : Time) (s : State) : Ans :=
  let s := s.atTime h t
  let x := s.half h
  .next (if x.boot.stage ≠ 3 ∨ x.ready ≠ 2 ∨ x.power.stuck = true ∨ partValid s h = false then s
    else
      let s := (List.range s.part.cores).foldl (fun (s : State) c => startCore s h c) (clearClusters s h)
      passTrial (enterService (startPasses s h) h) h)

/-- `STARTUP_BOUND_MISS`: the half stops at the step it has reached (R463). -/
def execStartupBoundMiss (h : Half) (s : State) : Ans :=
  let x := s.half h
  .next (if x.boot.stage = 0 ∨ x.ready = 3 then s else stopStart s h)

/-! ### Boundary scan (R482) -/

/-- The next state of the test access port: 0 Test-Logic-Reset, 1 Run-Test/Idle, 2 to 8 Select-DR, Capture-DR, Shift-DR, Exit1-DR, Pause-DR, Exit2-DR, Update-DR, 9 to 15 the same for IR (IEEE 1149.1). -/
def tapNext (st : Nat) (tms : Bool) : Nat :=
  match st, tms with
  | 0, true => 0 | 0, false => 1
  | 1, true => 2 | 1, false => 1
  | 2, true => 9 | 2, false => 3
  | 3, true => 5 | 3, false => 4
  | 4, true => 5 | 4, false => 4
  | 5, true => 8 | 5, false => 6
  | 6, true => 7 | 6, false => 6
  | 7, true => 8 | 7, false => 4
  | 8, true => 2 | 8, false => 1
  | 9, true => 0 | 9, false => 10
  | 10, true => 12 | 10, false => 11
  | 11, true => 12 | 11, false => 11
  | 12, true => 15 | 12, false => 13
  | 13, true => 14 | 13, false => 13
  | 14, true => 15 | 14, false => 11
  | _, true => 2
  | _, false => 1

/-- Instruction codes (IEEE 1149.1; DESIGN CHOICE, log 25): `EXTEST`. -/
def irExtest : Nat := 0
/-- `SAMPLE/PRELOAD`. -/
def irSample : Nat := 1
/-- `BYPASS`. -/
def irBypass : Nat := 3

/-- The boundary register is selected. -/
def scansBoundary (x : Scan) : Bool := x.ir == irExtest || x.ir == irSample

/-- What a rising edge of `D_TCK` does in the present state, before the state moves: capture and shift. The levels captured at the balls are free (DESIGN CHOICE, log 25). -/
def tapRise (s : State) (tdi : Bool) : State :=
  let x := s.scan
  match x.tap with
  | 3 =>
    if scansBoundary x then
      let n := Config.boundaryCells
      { s with freeCtr := s.freeCtr + n, scan := { x with cells := upto n (fun i => bitAt (Config.freeNat (s.freeCtr + i)) 0) } }
    else { s with scan := { x with bypass := false } }
  | 4 =>
    if scansBoundary x then { s with scan := { x with cells := x.cells.drop 1 ++ [tdi] } }
    else { s with scan := { x with bypass := tdi } }
  | 10 => { s with scan := { x with irShift := 1 } }
  | 11 => { s with scan := { x with irShift := x.irShift / 2 + 2 * b2n tdi } }
  | _ => s

/-- What a falling edge does: updates, the reset instruction, and `D_TDO`. -/
def tapFall (s : State) : State :=
  let x := s.scan
  match x.tap with
  | 0 => { s with scan := { x with ir := irBypass } }
  | 4 => s.emit (.tdo (if scansBoundary x then x.cells.headD false else x.bypass))
  | 8 => if scansBoundary x then { s with scan := { x with out := x.cells } } else s
  | 11 => s.emit (.tdo (bitAt x.irShift 0))
  | 15 => { s with scan := { x with ir := if x.irShift = 2 then irBypass else x.irShift } }
  | _ => s

/-- `BOUNDARY_SCAN`: an edge of `D_TCK`, which works only while both resets are low (R482). -/
def execBoundaryScan (rising tms tdi : Bool) (s : State) : Ans :=
  .next (if s.bow.power.resetN = false ∨ s.stern.power.resetN = false then s
    else if rising then
      let s := tapRise s tdi
      { s with scan := { s.scan with tap := tapNext s.scan.tap tms } }
    else tapFall s)

end Sys2Proof.Machine
end

