-- ==== Sys2Proof/Machine/DictOps.lean ====
section
/-! DEFINITION. Dictionary messages, the checks of a written value, and the rules judged at staging and at the commit boundary (R403 to R420). -/
namespace Sys2Proof.Machine

/-! ### Messages (R410) -/

/-- A request: operation, sub-index, index, offset and data (R410). -/
structure Msg where
  op : Nat
  sub : Nat
  idx : Nat
  ofs : Nat
  data : List Byte
  deriving DecidableEq, Repr

/-- A request as it is sent (R410). -/
def msgBytes (m : Msg) : List Byte :=
  natLe 1 m.op ++ natLe 1 m.sub ++ natLe 2 m.idx ++ natLe 2 0 ++ natLe 2 m.data.length ++ natLe 4 m.ofs ++ m.data

/-- Read a request; none where the bytes hold no whole message (DEDUCED, log 26). Bytes after its data are padding. -/
def parseMsg (bs : List Byte) : Option Msg :=
  let n := bytesNat bs 6 2
  if bs.length < 12 + n then none
  else some ⟨bytesNat bs 0 1, bytesNat bs 1 1, bytesNat bs 2 2, bytesNat bs 8 4, (bs.drop 12).take n⟩

/-- An answer: status, type code, data, and whether `OFFSET` is returned. -/
structure Reply where
  status : Nat
  typ : Nat
  echo : Bool
  data : List Byte
  deriving DecidableEq, Repr

/-- An answer that carries a status alone. -/
def plain (status : Nat) : Reply := ⟨status, 0, false, []⟩

/-- A response message (R410). -/
def replyBytes (m : Msg) (r : Reply) : List Byte :=
  natLe 1 (m.op + 0x80) ++ natLe 1 m.sub ++ natLe 2 m.idx ++ natLe 1 r.status ++ natLe 1 r.typ ++ natLe 2 r.data.length
  ++ natLe 4 (if r.echo then m.ofs else 0) ++ r.data

/-- A `WRITE` of `data` at `OFFSET` `ofs` of an entry. -/
def writeMsg (idx sub ofs : Nat) (data : List Byte) : List Byte := msgBytes ⟨2, sub, idx, ofs, data⟩

/-! ### Entries (R403, R407) -/

/-- The half that holds an index: none for what both halves hold (R407). -/
def holderOf (idx : Nat) : Option Half :=
  if idx < 0x4000 then none else (splitIndex idx).bind (fun p => p.1.map halfOf)

/-- The sub-index 0 entry of an index: the highest sub-index present (R403). -/
def topEntry (base : Nat) : Entry := ⟨0, 1, "HIGHEST_SUB", .u8, .const, .num (topSub base), none, 0⟩

/-- The entry at an index and sub-index of this part; per-core records end at the last logical core (R20, R403). -/
def entryAt (s : State) (idx sub : Nat) : Option (DAddr × Entry) :=
  match splitIndex idx with
  | none => none
  | some (st, base, rep) =>
    if 0xA000 ≤ base then
      (if sub < s.part.cores then (entryOf idx sub).map (fun p => (p.1, p.2.1)) else none)
    else if sub = 0 then some (⟨st, base, rep, 0⟩, topEntry base)
    else (entryOf idx sub).map (fun p => (p.1, p.2.1))

/-- What an entry reads as in half `h`, as bytes (R404). -/
def valueBytes (s : State) (h : Half) (idx sub : Nat) (a : DAddr) (e : Entry) : List Byte :=
  if dtypeBytes e.typ = 0 then viewBytes s h idx sub
  else natLe (dtypeBytes e.typ) (if a.sub = 0 ∧ a.base < 0xA000 then topSub a.base else viewNum s h idx sub)

/-- The write-permission mask of an entry in half `h` (R406). -/
def permMask (s : State) (h : Half) (idx sub : Nat) : Nat := Tab.get 7 (s.half h).settings.perms (dkey idx sub)

/-- The mask bit of a requester's transport (R406). -/
def transportBit : Req → Nat
  | .can _ _ => 0
  | .udp _ _ _ => 1
  | .bar0 _ => 2

/-- `TXN_OWNER` of a requester at half `h` (R415). -/
def ownerWord (h : Half) (r : Req) : Nat :=
  let head (t : Nat) : Nat := t * 2 ^ 56 + h.num * 2 ^ 55
  match r with
  | .can client _ => head 1 + client % 8
  | .udp addr port _ => head 2 + (addr % 2 ^ 32) * 2 ^ 16 + port % 2 ^ 16
  | .bar0 _ => head 3

/-! ### The value written (R405) -/

/-- A bit-timing word within the ranges of R347. -/
def timingOk (v : Nat) : Bool :=
  decide (1 ≤ fld v 31 24) && decide (1 ≤ fld v 23 14) && decide (1 ≤ fld v 13 7) && decide (1 ≤ fld v 6 0)
  && decide (fld v 6 0 ≤ fld v 13 7)

/-- Values that an entry's table gives as a list and not as a range (R307, R317, R319, R334, R347, R378, R415). -/
def listOk (base rep sub v : Nat) : Bool :=
  match base with
  | 0x4700 =>
    if sub < 16 then true
    else if sub % 16 = 6 then v ∈ [1, 2, 4]
    else if sub % 16 = 5 then decide (v < 20) || v == 0xFF
    else true
  | 0x4800 =>
    if sub ≠ 2 then true
    else if rep ≤ 3 then v ∈ [10000, 5000, 2500, 1000, 100]
    else if rep = 4 then v ∈ [1000, 100, 10]
    else true
  | 0x4B00 => if sub = 4 then decide (v ≤ 0x2F) || v == 0xFFFF else true
  | 0x9000 => if sub = 1 then decide (v ≤ 3) || v == 0xFF else true
  | 0x9100 => if 5 ≤ sub ∧ sub ≤ 7 then timingOk v else true
  | 0x9200 =>
    if sub = 5 then v ∈ [8, 16, 32] else if sub = 8 ∨ sub = 9 then isFinite (BitVec.ofNat 32 v) else true
  | _ => true

/-- Bytes a `WRITE` may reach to in an entry of no fixed size: 255 in a STR, 65,535 in a DOMAIN; a firmware slot takes its own length (R404, R442). -/
def roomOf (base sub : Nat) (typ : DType) : Nat :=
  if base = 0x4C10 ∧ sub = 6 then slotBytes else if typ = .str then 255 else 65535

/-- The written bytes suit the entry (R405). -/
def valueOk (a : DAddr) (e : Entry) (ofs : Nat) (bs : List Byte) : Bool :=
  let n := dtypeBytes e.typ
  if n = 0 then decide (ofs + bs.length ≤ roomOf a.base a.sub e.typ)
  else
    let v := maskReserved a.base a.sub e.typ (leNat bs)
    let i : Int := if dtypeSigned e.typ then sext (8 * n) v else (v : Int)
    ofs == 0 && bs.length == n && (e.typ != .bool || decide (v ≤ 1))
    && (match e.range with
      | some (lo, hi) => decide (lo ≤ i) && decide (i ≤ hi)
      | none => true)
    && (e.step == 0 || v % e.step == 0) && listOk a.base a.rep a.sub v

/-! ### Rules judged when a write is staged (R334, R341, R344) -/

/-- The 32-bit words of a byte string of which every byte is there. -/
def wholeWords (bs : List (Option Byte)) : List F32 :=
  (List.range (bs.length / 4)).filterMap (fun k =>
    match (bs.drop (4 * k)).take 4 with
    | [some a, some b, some c, some d] => some (BitVec.ofNat 32 (leNat [a, b, c, d]))
    | _ => none)

/-- Every loop of half `h` whose inputs name map `m` is `OPEN` (R334). -/
def mapFree (s : State) (h : Half) (m : Nat) : Bool :=
  (List.range 8).all (fun n => loopState s h n == 0
    || (List.range 4).all (fun j => s.num (loopIdx h n) (0x13 + j) != m))

/-- The entry's present state allows the staged bytes (R334, R341, R344, R417; points read in log 27). -/
def stageOk (s : State) (a : DAddr) (bs : List (Option Byte)) : Bool :=
  match a.stern with
  | none => true
  | some st =>
    let h := halfOf st
    match a.base with
    | 0x8000 => loopState s h a.rep == 0 && (a.sub != 0x1C || (wholeWords bs).all isFinite)
    | 0x9200 => mapFree s h a.rep
    | _ => true

/-! ### Rules judged at the commit boundary (R420) -/

/-- The addresses `[a, a + n)` lie in half `h`'s DRAM. -/
def inDram (h : Half) (a n : Nat) : Bool := decide (dramBase h ≤ a) && decide (a + n ≤ dramBase h + 0x1000000000)

/-- The addresses `[a, a + n)` lie in one Mere window of half `h`. -/
def inMere (s : State) (h : Half) (a n : Nat) : Bool :=
  (List.range (s.part.cores / 8)).any (fun c => decide (mereBase h c ≤ a) && decide (a + n ≤ mereBase h c + 0x800000))

/-- Every class has a channel group (R226). -/
def groupsOk (s : State) (h : Half) : Bool :=
  (List.range 4).all (fun c => (List.range 4).any (fun g => bitAt (s.num (hk h 0x4300) (1 + g)) c))

/-- At least two swap ways, none of them a class's (R226). -/
def waysOk (s : State) (h : Half) : Bool :=
  decide (2 ≤ (swapWays s h).length)
  && (List.range 4).all (fun c => s.num (hk h 0x4300) (5 + c) &&& s.num (hk h 0x4300) 9 == 0)

/-- The reserve leaves one swap way's room (R226). -/
def reserveOk (s : State) (h : Half) : Bool := decide (s.num (hk h 0x4300) 10 + 512 ≤ 512 * (swapWays s h).length)

/-- No Manifest entry of the half is in use (R183). -/
def manifestEmpty (s : State) (h : Half) : Bool := (s.half h).manifest.all (fun p => p.2.state == .evicted)

/-- The page pool lies in one region (R182, R183). -/
def poolOk (s : State) (h : Half) : Bool :=
  let n := s.num (hk h 0x4400) 3 * s.num (hk h 0x4400) 2
  let a := s.num (hk h 0x4400) 1
  n == 0 || inDram h a n || inMere s h a n

/-- The sum of four numbers from a sub-index on. -/
def sum4 (s : State) (idx sub : Nat) : Nat := s.num idx sub + s.num idx (sub + 1) + s.num idx (sub + 2) + s.num idx (sub + 3)

/-- Model `m`'s record sizes (R187). -/
def modelOk (s : State) (h : Half) (m : Nat) : Bool :=
  let i := hk h (0x4440 + m)
  s.num i 2 % 32 == 0 && s.num i 3 % 32 == 0
  && decide (512 + 64 * (s.num i 2 + s.num i 3) ≤ s.num (hk h 0x4400) 2)

/-- No Manifest entry of a model is in use (R187). -/
def modelFree (s : State) (h : Half) (m : Nat) : Bool :=
  (s.half h).manifest.all (fun p => p.2.state == .evicted || p.2.model != m)

/-- Channel `v` of a port keeps R318 and the depth of R319. -/
def channelOk (s : State) (h : Half) (port v : Nat) : Bool :=
  let c := camSettings s h port v
  let f := max 1 c.f
  s.num (camIdx h port) (camSub v 0) == 0
  || (c.width % f == 0 && c.lines % f == 0 && decide (c.width * f * elemBytes c ≤ c.pitch)
    && decide (4096 + c.lines / f * c.pitch ≤ c.slotBytes)
    && inDram h c.base (c.slots * c.slotBytes)
    && (c.mereBase == 0 || inMere s h c.mereBase (c.mereLines * c.pitch))
    && (c.shift == 0xFF || decide (c.shift < pixelBits c.dt))
    && (List.range 4).all (fun w => w == v || s.num (camIdx h port) (camSub w 0) == 0
      || s.num (camIdx h port) (camSub w 1) != s.num (camIdx h port) (camSub v 1)))

/-- `a` does not exceed `b` in FP32. -/
def fle (a b : F32) : Bool := isFinite a && isFinite b && !fgt a b

/-- Values a coefficient block holds (R341). -/
def coeffCount (law st inp out : Nat) : Nat := if law = 0 then 10 else nth (ssOfs st inp out) 7 + st

/-- The coefficient block of loop `n` keeps R341, with the law and the sizes in force; an empty one that is not written has nothing to keep. -/
def coeffOk (s : State) (h : Half) (n : Nat) : Bool :=
  let i := loopIdx h n
  let bs := s.bytes i 0x1C
  let st := s.num i 0x12
  let inp := s.num i 0x10
  let out := s.num i 0x11
  let c := coeff s h n
  let o (k : Nat) : Nat := nth (ssOfs st inp out) k
  bs.length == 4 * coeffCount (s.num i 1) st inp out
  && (List.range (bs.length / 4)).all (fun k => isFinite (c k))
  && (if s.num i 1 = 0 then fle (c 5) (c 6) && fle (c 7) (c 8) && fle 0 (c 2) && fgt f32One (c 2)
    else (List.range st).all (fun k => fle (c (o 3 + k)) (c (o 4 + k)))
      && (List.range out).all (fun k => fle (c (o 5 + k)) (c (o 6 + k))))

/-- The output template of loop `n` keeps R345: kind, field widths, nothing in the fields of absent outputs. -/
def outFrameOk (s : State) (h : Half) (n : Nat) : Bool :=
  let bs := s.bytes (loopIdx h n) 0x1D
  let out := s.num (loopIdx h n) 0x11
  bs.length == 144 && (bytesNat bs 0 1 == 1 || bytesNat bs 0 1 == 2)
  && (List.range 4).all (fun o =>
    if o < out then bytesNat bs (18 + 16 * o) 1 ∈ [8, 16, 32] else bytesNat bs (16 + 16 * o) 16 == 0)

/-- The lifeboat descriptor keeps R396; an empty one asks for nothing. -/
def lifeboatOk (s : State) (h : Half) : Bool :=
  let d := lifeboat s h
  let class0 (q : Nat) : Bool := (s.quay h q).cls == 0
  d.isEmpty
  || (d.length == 448 && decide (1 ≤ bytesNat d 56 4) && decide (bytesNat d 56 4 ≤ 268435456)
    && inDram h (bytesNat d 48 8) (bytesNat d 56 4) && decide (bytesNat d 60 2 ≤ 64) && decide (bytesNat d 62 2 ≤ 16)
    && (List.range (bytesNat d 60 2)).all (fun i => class0 (bytesNat d (64 + 4 * i) 4))
    && (List.range (bytesNat d 62 2)).all (fun i => class0 (bytesNat d (320 + 8 * i) 4)))

/-- The controller that carries the dictionary is not the loops' (R411). -/
def dictCanOk (s : State) (h : Half) : Bool :=
  let c := s.num (hkc h 0x9000) 1
  decide (3 < c) || s.num (canIdx h c) 4 != 1

/-- The rule of one staged entry against the state `s` at the boundary and the state `w` that the commit would make (R183, R187, R226, R318, R319, R327, R331, R334, R341, R344, R345, R396, R411, R418, R445; points read in log 27). -/
def commitOk (s w : State) (idx sub : Nat) (a : DAddr) : Bool :=
  match a.stern with
  | none => true
  | some st =>
    let h := halfOf st
    let kept := s.num idx sub == w.num idx sub
    match a.base with
    | 0x4300 =>
      if sub ≤ 4 then groupsOk w h
      else if sub = 9 then waysOk w h && reserveOk w h
      else if sub = 10 then reserveOk w h
      else waysOk w h
    | 0x4400 =>
      if sub ≤ 3 then
        (kept || manifestEmpty s h) && poolOk w h && decide (sum4 w idx 6 ≤ w.num idx 3)
        && (sub != 2 || (List.range 64).all (fun m => modelOk w h m))
      else decide (sum4 w idx 6 ≤ w.num idx 3)
    | 0x4401 => decide (sum4 w idx 1 ≤ 8192)
    | 0x4440 => modelOk w h a.rep && (sub == 4 || kept || modelFree s h a.rep)
    | 0x4700 => if sub < 16 then true else channelOk w h a.rep (sub / 16 - 1)
    | 0x4812 => (w.bytes idx sub).length == 1024
    | 0x4900 => if sub = 3 ∨ sub = 4 then decide (w.num idx 4 < w.num idx 3) else true
    | 0x4B00 =>
      if sub = 9 then (w.bytes idx sub).length == 12
      else if sub = 10 then lifeboatOk w h && (s.bytes idx sub == w.bytes idx sub || s.halfState h != 2)
      else true
    | 0x4C20 =>
      if sub = 9 then (w.bytes idx sub).length == 1024
      else (kept || (s.half h).progs.isEmpty) && (w.num idx 8 == 0 || inDram h (w.num idx 7) (w.num idx 8))
    | 0x8000 =>
      loopState s h a.rep == 0 && decide (w.num idx 6 ≤ w.num idx 5)
      && (!(sub == 1 || (0x10 ≤ sub && sub ≤ 0x12) || sub == 0x1C) || (sub != 0x1C && (w.bytes idx 0x1C).isEmpty) || coeffOk w h a.rep)
      && (!(sub == 0x11 || sub == 0x1D) || (sub != 0x1D && (w.bytes idx 0x1D).isEmpty) || outFrameOk w h a.rep)
    | 0x9000 => if sub = 1 then dictCanOk w h else true
    | 0x9100 => if sub = 4 then dictCanOk w h else true
    | 0x9200 => mapFree s h a.rep
    | _ => true

/-! ### Staged entries (R417, R418) -/

/-- The staged form of a write: the bytes at their places, none where nothing was written; a later part keeps the earlier ones (R418). -/
def placeBytes (old : List (Option Byte)) (ofs : Nat) (bs : List Byte) : List (Option Byte) :=
  upto (max old.length (ofs + bs.length)) (fun i =>
    if ofs ≤ i ∧ i < ofs + bs.length then some (bs.getD (i - ofs) 0) else (old.getD i none))

/-- The bytes of a staged value, where each has been written (R418). -/
def stagedWhole (x : Staged) : Option (List Byte) :=
  if x.bytes.all (fun b => b.isSome) then some (x.bytes.map (fun b => b.getD 0)) else none

/-- The staged form of an entry. -/
def stagedOf (xs : List Staged) (idx sub : Nat) : Option Staged := xs.find? (fun x => x.idx == idx && x.sub == sub)

/-- Put a staged entry, in ascending index and sub-index order. -/
def putStaged : List Staged → Staged → List Staged
  | [], y => [y]
  | x :: xs, y =>
    if dkey y.idx y.sub < dkey x.idx x.sub then y :: x :: xs
    else if x.idx = y.idx ∧ x.sub = y.sub then y :: xs
    else x :: putStaged xs y

/-- Bytes staged. -/
def stagedBytes (xs : List Staged) : Nat := xs.foldl (fun n x => n + x.bytes.length) 0

end Sys2Proof.Machine
end

