-- ==== Sys2Proof/Machine/TxnOps.lean ====
section
/-! DEFINITION. Transactions, the recorder's clear and emission, and what serving one dictionary request does (R403 to R429). -/
namespace Sys2Proof.Machine

/-! ### The event recorder (R424, R428) -/

/-- Clear a recorder below record `n`, given modulo 2^32 (R428). -/
def clearBelow (r : Recorder) (n : Nat) : Option Recorder :=
  let k := (n + (2 ^ 32 - r.tail % 2 ^ 32)) % 2 ^ 32
  if r.tail + k ≤ r.head then some { r with tail := r.tail + k, seq := r.seq + 1 } else none

/-- `REC_CLEAR` of half `g`'s recorder, served by half `h`: the survivor clears what it serves of a lost half's (R428, R429). -/
def clearRecorder (s : State) (h g : Half) (n : Nat) : Nat × State :=
  if h = g ∨ (s.half h).ferry.state = .active then
    match clearBelow (s.half g).recorder n with
    | none => (stState, s)
    | some r => (stOK, (s.modHalf g (fun x => { x with recorder := r })).recMirrored g)
  else
    match clearBelow (s.half h).recMirror n with
    | none => (stState, s)
    | some r => (stOK, s.modHalf h (fun x => { x with recMirror := r }))

/-- Emit accumulator `i` of half `h` (R424). -/
def emitAcc (s : State) (h : Half) (i : Nat) : State :=
  match (s.half h).recorder.accs[i]? with
  | none => s
  | some a =>
    (s.modHalf h (fun x => { x with recorder := { x.recorder with accs := x.recorder.accs.eraseIdx i } })).recWrite h a

/-! ### Transactions (R415 to R421) -/

/-- `TXN_STATE`. -/
def txnState (s : State) : Nat := s.num 0x1F00 1

/-- The open transaction is this requester's (R415, R416). -/
def ownsTxn (s : State) (h : Half) (r : Req) : Bool := txnState s != 0 && s.num 0x1F00 4 == ownerWord h r

/-- The key of an entry in `TXN_FAIL_ENTRY` (R415). -/
def failKey (idx sub : Nat) : Nat := dkey idx sub

/-- Vector 3 and the `TXN` record of a half whose dictionary serves (R421, R426). -/
def tellTxn (s : State) (h : Half) (result staged : Nat) : State :=
  if (s.half h).ready < 2 then s
  else (s.observe h 16 0 0xFF (s.num 0x1F00 3) (linBin result 0) (some staged)).msix h 3

/-- A transaction ends: staged writes discarded, `IDLE`, result and failing entry, vector 3, the recorder told (R420, R421). -/
def endTxn (s : State) (result fail : Nat) : State :=
  let n := s.txn.staged.length
  let s := { s with txn := txnIdle }
  let s := ((s.setNum 0x1F00 1 0).setNum 0x1F00 9 result).setNum 0x1F00 0x0A fail
  tellTxn (tellTxn s .bow result n) .stern result n

/-- `BEGIN` (R416). -/
def beginTxn (s : State) (h : Half) (r : Req) : Nat × State :=
  if txnState s ≠ 0 then (stState, s)
  else
    let s := ((s.setNum 0x1F00 1 1).setNum 0x1F00 3 ((s.num 0x1F00 3 + 1) % 2 ^ 32)).setNum 0x1F00 4 (ownerWord h r)
    (stOK, { s with txn := { txnIdle with owner := some (h, r), beginT := s.now h } })

/-- `COMMIT` taken from the owner (R416, R419). -/
def commitTxn (s : State) (h : Half) (r : Req) : Nat × State :=
  if txnState s = 0 then (stState, s)
  else if !ownsTxn s h r then (stRight, s)
  else if txnState s ≠ 1 then (stState, s)
  else
    let now := s.now h
    let at_ := BitVec.ofNat 48 (s.num 0x1F00 6)
    let soon := now + 100000#48
    if s.num 0x1F00 5 = 1 then
      if Time.diff at_ now > 1000000000 then (stState, s)
      else
        let tb := if Time.diff at_ soon > 0 then at_ else soon
        (stOK, { s.setNum 0x1F00 1 2 with txn := { s.txn with commitT := now, boundary := some tb } })
    else (stOK, { s.setNum 0x1F00 1 2 with txn := { s.txn with commitT := now, boundary := none } })

/-- `ROLLBACK` from the owner (R416, R421; DEDUCED, log 28). -/
def rollbackTxn (s : State) (h : Half) (r : Req) : Nat × State :=
  if txnState s = 0 then (stState, s)
  else if !ownsTxn s h r then (stRight, s)
  else (stOK, endTxn s stAborted 0)

/-- Stage a write (R404, R416 to R418). -/
def stageWrite (s : State) (h : Half) (r : Req) (idx sub : Nat) (a : DAddr) (e : Entry) (ofs : Nat) (bs : List Byte) : Nat × State :=
  if txnState s = 0 then (stState, s)
  else if !ownsTxn s h r then (stRight, s)
  else if txnState s ≠ 1 then (stState, s)
  else
    let old : List (Option Byte) := if dtypeBytes e.typ = 0 then
        (match stagedOf s.txn.staged idx sub with
        | some x => x.bytes
        | none => [])
      else []
    let x : Staged := ⟨idx, sub, placeBytes old ofs bs⟩
    let xs := putStaged s.txn.staged x
    if !stageOk s a x.bytes || decide (1024 < xs.length) || decide (262144 < stagedBytes xs) then (stState, s)
    else (stOK, { s with txn := { s.txn with staged := xs } })

/-- A half is lost as the other judges it. -/
def isLost (s : State) (g : Half) : Bool := peerLost s g.other

/-- The staged values as entries and bytes, holes read as zero. -/
def stagedValues (xs : List Staged) : List (Nat × Nat × List Byte) :=
  xs.map (fun x => (x.idx, x.sub, x.bytes.map (fun b => b.getD 0)))

/-- The entry that refuses the commit, and its status (R418, R420): an entry of a lost half decides first (points read in log 28). -/
def commitFailure (s : State) : Option (Nat × Nat) :=
  let xs := s.txn.staged
  let w := (stagedValues xs).foldl (fun (s : State) p => putValue s p.1 p.2.1 p.2.2) s
  let lost (x : Staged) : Bool := match holderOf x.idx with
    | some g => isLost s g
    | none => false
  let bad (x : Staged) : Bool := (stagedWhole x).isNone || (match entryOf x.idx x.sub with
    | some (a, _, _) => !commitOk s w x.idx x.sub a
    | none => false)
  match xs.find? lost with
  | some x => some (stHalfLost, failKey x.idx x.sub)
  | none => (xs.find? bad).map (fun x => (stState, failKey x.idx x.sub))

/-- The boundary: every rule is judged, then every staged value takes effect or none does (R420). -/
def commitNow (s : State) (tb : Time) : State :=
  let s := s.setNum 0x1F00 0x0B tb.toNat
  match commitFailure s with
  | some (st, key) => endTxn s st key
  | none => endTxn (applyValues s (stagedValues s.txn.staged) tb) stOK 0

/-! ### Serving a request (R404 to R411) -/

/-- The dictionary of a half is served (R399, R462). -/
def dictOn (s : State) (h : Half) : Bool := decide (2 ≤ (s.half h).ready) && (s.half h).boot.stage == 3

/-- A request for the other half can be forwarded (R408; DEDUCED, log 26). -/
def canForward (s : State) (h : Half) : Bool :=
  !isLost s h.other && decide (powerState s h.other ≤ 1 ∨ powerState s h.other = 4) && dictOn s h.other
  && decide ((s.half h).ferry.state = .active ∨ (s.half h).ferry.state = .retrain)

/-- `READ` (R404, R410, R439). -/
def serveRead (s : State) (h : Half) (m : Msg) (a : DAddr) (e : Entry) : Reply :=
  if e.acc = .wo then plain stRight
  else if a.base = 0x4C00 ∧ a.sub = 4 ∧ ((s.half (halfOf (a.stern == some true))).attNonce.isSome = true ∨ s.bytes m.idx 4 = []) then plain stState
  else
    let bs := valueBytes s h m.idx m.sub a e
    if dtypeBytes e.typ ≠ 0 then
      if m.ofs ≠ 0 ∨ m.data ≠ [] then plain stState else ⟨stOK, dtypeCode e.typ, false, bs⟩
    else if m.data.length = 0 then ⟨stOK, dtypeCode e.typ, true, (bs.drop m.ofs).take 65535⟩
    else if m.data.length = 2 then ⟨stOK, dtypeCode e.typ, true, (bs.drop m.ofs).take (leNat m.data)⟩
    else plain stState

/-- `DESCRIBE` (R406, R410). -/
def serveDescribe (s : State) (h : Half) (m : Msg) (a : DAddr) (e : Entry) : Reply :=
  let len := if dtypeBytes e.typ = 0 then (viewBytes s h m.idx m.sub).length else dtypeBytes e.typ
  ⟨stOK, 0, false, natLe 1 (dtypeCode e.typ) ++ natLe 1 (daccCode e.acc)
    ++ natLe 1 (permMask s ((holderOf m.idx).getD h) m.idx a.sub) ++ [0] ++ natLe 4 len⟩

/-- An open transaction holds staged writes to loop `n` or to a map that its inputs name (R334, R344). -/
def loopStaged (s : State) (h : Half) (n : Nat) : Bool :=
  s.txn.staged.any (fun x => x.idx == loopIdx h n || (List.range 4).any (fun j => x.idx == mapIdx h (s.num (loopIdx h n) (0x13 + j))))

/-- `LOOP_CMD` (R334, R342, R344). -/
def loopCmd (s : State) (h : Half) (n v : Nat) : Nat × State :=
  if v = 1 then
    if loopState s h n ≠ 0 ∨ loopStaged s h n = true then (stState, s)
    else (stOK, closeLoop s h n)
  else (stOK, openLoopNow s h n)

/-- `HALF_CMD` (R398). -/
def halfCmd (s : State) (v : Nat) : Nat × State :=
  let target := halfOf (bitAt v 0)
  match fld v 7 4 with
  | 1 => rejoinHalf s target
  | 2 => handoverHalf s target
  | 3 => resumeHalf s target
  | _ => (stState, s)

/-- `TXN_CMD` (R416, R419, R421). -/
def txnCmd (s : State) (h : Half) (r : Req) (v : Nat) : Nat × State :=
  match v with
  | 1 => beginTxn s h r
  | 2 => commitTxn s h r
  | _ => rollbackTxn s h r

/-- `FW_CMD` (R442 to R444). -/
def fwCmd (s : State) (h : Half) (v : Nat) : Nat × State :=
  match v with
  | 1 => fwErase s h
  | 2 => fwVerify s h
  | 3 => fwActivate s h
  | _ => fwCommit s h

/-- `POWER_REQ` (R457 to R461). -/
def powerReq (s : State) (h : Half) (v : Nat) : Nat × State :=
  match v with
  | 0 => requestRun s h
  | 1 => requestIdle s h
  | _ => requestNap s h

/-- A write of a WO entry acts at once (R404). `h` is the half that took the request. -/
def writeWO (s : State) (h : Half) (r : Req) (a : DAddr) (ofs : Nat) (bs : List Byte) : Nat × State :=
  let g := match a.stern with
    | some st => halfOf st
    | none => h
  let v := leNat bs
  match a.base, a.sub with
  | 0x1F00, _ => txnCmd s h r v
  | 0x2800, _ => acceptStep s h v
  | 0x2900, _ => halfCmd s v
  | 0x2A00, 1 => putOwner s bs
  | 0x2A00, _ => putSettings s bs
  | 0x2B00, _ => requestStandby s r
  | 0x3000, _ => clearRecorder s h g v
  | 0x4C00, _ => takeNonce s g bs
  | 0x4C10, 6 => fwWrite s g ofs bs
  | 0x4C10, _ => fwCmd s g v
  | 0x4C20, _ => if v = 1 then startLoad s g else doUnload s g
  | 0x4D00, _ => powerReq s g v
  | 0x8000, _ => loopCmd s g a.rep v
  | _, _ => (stRight, s)

/-- A write of a device-wide RW entry outside a transaction waits for its mirror (R409). -/
def takeMirror (s : State) (h : Half) (r : Req) (idx sub : Nat) (bs : List Byte) : State :=
  sendDict { s with mirrors := s.mirrors ++ [⟨h, r, idx, sub, bs, s.now h + 10000#48, false⟩] } h (.mirror idx sub bs)

/-- `WRITE` (R404 to R406, R409, R416, R428): no reply yet where it waits for its mirror. -/
def serveWrite (s : State) (h : Half) (r : Req) (m : Msg) (a : DAddr) (e : Entry) : Option Reply × State :=
  let echo := dtypeBytes e.typ == 0
  let say (p : Nat × State) : Option Reply × State := (some ⟨p.1, 0, echo, []⟩, p.2)
  let g := (holderOf m.idx).getD h
  let isClear := a.base = 0x3000 ∧ a.sub = 4
  if e.acc = .const ∨ e.acc = .ro then say (stRight, s)
  else if ¬isClear ∧ !bitAt (permMask s g m.idx m.sub) (transportBit r) then say (stRight, s)
  else if a.base = 0x2B00 ∧ transportBit r ≠ 0 then say (stRight, s)
  else if !valueOk a e m.ofs m.data then say (stState, s)
  else
    match e.acc with
    | .rwt => say (stageWrite s h r m.idx m.sub a e m.ofs m.data)
    | .wo => say (writeWO s h r a m.ofs m.data)
    | _ =>
      if a.base = 0x1F00 ∧ (a.sub = 5 ∨ a.sub = 6) ∧ txnState s ≠ 0 ∧ !ownsTxn s h r then say (stRight, s)
      else if (holderOf m.idx).isNone ∧ !ownsTxn s h r then (none, takeMirror s h r m.idx m.sub m.data)
      else say (stOK, applyValues s [(m.idx, m.sub, m.data)] (s.now g))

/-- Carry out a request in the half that holds the entry; `h` took it (R404, R410). -/
def serveHere (s : State) (h : Half) (r : Req) (m : Msg) (a : DAddr) (e : Entry) : Option Reply × State :=
  match m.op with
  | 1 => (some (serveRead s h m a e), s)
  | 2 => serveWrite s h r m a e
  | _ => (some (serveDescribe s h m a e), s)

end Sys2Proof.Machine
end

