-- ==== Sys2Proof/Machine/DictCmds.lean ====
section
/-! DEFINITION. Meanings of the dictionary, transaction and recorder rows, and of every row that a dictionary write starts (R403 to R429). -/
namespace Sys2Proof.Machine

/-! ### Responses (R411 to R414) -/

/-- Pad a last CAN FD segment to the next CAN FD length (R411). -/
def fdPad (bs : List Byte) : List Byte :=
  let n := ([0, 1, 2, 3, 4, 5, 6, 7, 8, 12, 16, 20, 24, 32, 48, 64].find? (fun k => decide (bs.length ≤ k))).getD 64
  bs ++ List.replicate (n - bs.length) 0

/-- The segments of a message: prefix and as many bytes as the frame carries (R411). -/
def segmentsOf (room : Nat) (tr : Nat) (bs : List Byte) : List (List Byte) :=
  let n := max 1 ((bs.length + (room - 1)) / room)
  upto n (fun i =>
    let head := (i % 64) + 128 * b2n (i == 0) + 64 * b2n (i + 1 == n)
    [BitVec.ofNat 8 head, BitVec.ofNat 8 tr] ++ (bs.drop (room * i)).take room)

/-- Queue a response in the controller's transmit queue (R411). What R411 does not say of the frames is free (PRESUMED, log 16). -/
def respondCan (s : State) (h : Half) (client tr : Nat) (bs : List Byte) : State :=
  let i := hkc h 0x9000
  let c := s.num i 1
  if 3 < c then s
  else
    let xl := s.num i 4 == 2
    (segmentsOf (if xl then 2046 else 62) tr bs).foldl (fun (s : State) seg =>
      let data := if xl then seg else fdPad seg
      let r := s.free
      let f : CanFrame := {
        format := if xl then 2 else 1, ide := false, rtr := false, brs := !xl && bitAt r.1 0, esi := false
        sec := xl && bitAt r.1 1, id := s.num i 3 + client, dlc := if xl then 0 else dlcOf data.length
        sdt := if xl then fld r.1 15 8 else 0, vcid := if xl then fld r.1 23 16 else 0
        af := if xl then fld r.1 63 32 else 0, data := data }
      let k := r.2.can h c
      r.2.setCan h c { k with queue := k.queue ++ [⟨none, f, none, 0, 0, 0, none, 0, 0xFFFF, false⟩] }) s

/-- Offset of mailbox `mb` in the mailbox window (R413). -/
def mailboxAt (mb : Nat) : Nat := mb % 64 * 0x40000

/-- `MB_CTRL` of a mailbox (R413). -/
def mbCtrl (s : State) (h : Half) (mb : Nat) : Nat :=
  leNat (upto 8 (fun i => Tab.get 0 (s.half h).host.mailboxOut (mailboxAt mb + i)))

/-- Write the Tiril's side of a mailbox from an offset. -/
def putMailbox (s : State) (h : Half) (o : Nat) (bs : List Byte) : State :=
  s.modHalf h (fun x => { x with host := { x.host with
    mailboxOut := (List.zip (List.range bs.length) bs).foldl (fun t p => Tab.set 0 t (o + p.1) p.2) x.host.mailboxOut } })

/-- The response is written, then `DONE` set and `GO` cleared, `TAG` kept, in one write (R413). -/
def respondMailbox (s : State) (h : Half) (mb : Nat) (bs : List Byte) : State :=
  let tag := fld (mbCtrl s h mb) 63 32
  putMailbox (putMailbox s h (mailboxAt mb + 0x20000) bs) h (mailboxAt mb) (natLe 8 (tag * 2 ^ 32 + 2))

/-- Send a response back by the transport its request came by (R411 to R413); the UDP service enters the switch at port 5, where a closed output gate lets nothing through (R307, R390). -/
def sendBack (s : State) (h : Half) (r : Req) (bs : List Byte) : State :=
  match r with
  | .can client tr => respondCan s h client tr bs
  | .udp addr port tr => if gateClosed s h then s else s.emit (.udp h addr port (natLe 4 tr ++ bs))
  | .bar0 mb => respondMailbox s h mb bs

/-- CAN and UDP endpoints keep the last 16 responses (R414). -/
def keepResponse (s : State) (h : Half) (r : Req) (bs : List Byte) : State :=
  match r with
  | .bar0 _ => s
  | _ =>
    let k : Kept := ⟨r, bs⟩
    s.modHalf h (fun x => { x with kept := (x.kept ++ [k]).drop (x.kept.length - 15) })

/-- A response of UDP carries at most 8,192 data bytes (R412). -/
def fitReply (r : Req) (p : Reply) : Reply :=
  match r with
  | .udp _ _ _ => { p with data := p.data.take 8192 }
  | _ => p

/-- A request is answered: counted, kept, sent (R410 to R414). -/
def answer (s : State) (h : Half) (r : Req) (m : Msg) (p : Reply) : State :=
  let i := hkc h 0x9000
  let bs := replyBytes m (fitReply r p)
  let s := s.bump i 8 1
  let s := if p.status = stOK then s else s.bump i 9 1
  sendBack (keepResponse s h r bs) h r bs

/-- Answer a request where its reply is ready. -/
def answerNow (h : Half) (r : Req) (m : Msg) (p : Option Reply × State) : State :=
  match p.1 with
  | some q => answer p.2 h r m q
  | none => p.2

/-! ### Requests (R408, R410, R414) -/

/-- Serve a request that half `h` took (R403, R408, R410): an entry the other half holds goes over the Ferry. -/
def serveMsg (s : State) (h : Half) (r : Req) (m : Msg) : State :=
  if m.op < 1 ∨ 3 < m.op then answer s h r m (plain stRight)
  else
    match entryAt s m.idx m.sub with
    | none => answer s h r m (plain stRight)
    | some (a, e) =>
      match holderOf m.idx with
      | none => answerNow h r m (serveHere s h r m a e)
      | some g =>
        if g = h then answerNow h r m (serveHere s h r m a e)
        else if canForward s h then sendDict s h (.request r (msgBytes m))
        else answer s h r m (plain stHalfLost)

/-- Take a request: one repeated from the CAN or UDP endpoint is answered from its store (R414); bytes that hold no message get no response (DEDUCED, log 26). -/
def takeRequest (s : State) (h : Half) (r : Req) (bs : List Byte) : State :=
  if !dictOn s h then s
  else
    match parseMsg bs with
    | none => s
    | some m =>
      match (s.half h).kept.find? (fun k => k.req == r) with
      | some k => sendBack s h r k.bytes
      | none => serveMsg s h r m

/-- A request of one operation. -/
def takeOp (s : State) (h : Half) (r : Req) (bs : List Byte) (op : Nat) : State :=
  if bytesNat bs 0 1 = op then takeRequest s h r bs else s

/-- `READ` (R410). -/
def execRead (h : Half) (r : Req) (msg : List Byte) (s : State) : Ans := .next (takeOp s h r msg 1)

/-- `WRITE` (R404, R405, R409, R417). -/
def execWrite (h : Half) (r : Req) (msg : List Byte) (s : State) : Ans := .next (takeOp s h r msg 2)

/-- `DESCRIBE` (R410). -/
def execDescribe (h : Half) (r : Req) (msg : List Byte) (s : State) : Ans := .next (takeOp s h r msg 3)

/-- `CAN_SEGMENT`: a request frame of a client on the controller `DICT_CAN_CTRL` (R411). -/
def execCanSegment (h : Half) (client : Nat) (bs : List Byte) (s : State) : Ans :=
  let head := byteAt bs 0
  let tr := byteAt bs 1
  let body := bs.drop 2
  let drop : State := s.modHalf h (fun x => { x with canSeg := Tab.erase x.canSeg client })
  .next (if !dictOn s h || decide (7 < client) || decide (3 < s.num (hkc h 0x9000) 1) || decide (bs.length < 2) then s
    else
      let old : Option (List Byte) :=
        if bitAt head 7 then (if head % 64 = 0 then some [] else none)
        else
          match (s.half h).canSeg.find client with
          | some g => if g.trans = tr ∧ g.next = head % 64 then some g.bytes else none
          | none => none
      match old with
      | none => drop
      | some got =>
        if bitAt head 6 then takeRequest drop h (.can client tr) (got ++ body)
        else s.modHalf h (fun x => { x with canSeg := Tab.insert x.canSeg client ⟨tr, (head % 64 + 1) % 64, got ++ body⟩ }))

/-- `UDP_DATAGRAM` to the half's address and port (R412). -/
def execUdpDatagram (h : Half) (addr port : Nat) (bs : List Byte) (s : State) : Ans :=
  let n := bytesNat bs 10 2
  .next (if !dictOn s h || s.num (hkc h 0x9000) 5 == 0 || !portOn s h 4 then s
    else if bs.length ≠ 16 + n ∨ 8192 < n then s.bump (hkc h 0x9000) 9 1
    else takeRequest s h (.udp addr port (leNat (bs.take 4))) (bs.drop 4))

/-- The request message in a mailbox (R413). -/
def mailboxMsg (s : State) (h : Half) (mb : Nat) : List Byte :=
  let at_ (i : Nat) : Byte := Tab.get 0 (s.half h).host.mailboxIn (mailboxAt mb + 0x100 + i)
  upto (12 + leNat [at_ 6, at_ 7]) at_

/-- `MAILBOX_GO`: a host write of `MB_CTRL`; one to a busy mailbox is discarded (R413). -/
def execMailboxGo (h : Half) (mb : Nat) (w : BitVec 64) (s : State) : Ans :=
  let old := mbCtrl s h mb
  let tag := fld w.toNat 63 32 * 2 ^ 32
  .next (if !hostServed s h || decide (64 ≤ mb) || bitAt old 0 then s
    else if !bitAt w.toNat 0 then putMailbox s h (mailboxAt mb) (natLe 8 (tag + 2 * b2n (bitAt old 1)))
    else takeRequest (putMailbox s h (mailboxAt mb) (natLe 8 (tag + 1))) h (.bar0 mb) (mailboxMsg s h mb))

/-! ### Mirrors and `DICT` messages (R27, R378, R408, R409, R419) -/

/-- The oldest waiting mirror of a half with this value is acknowledged (R409). -/
def ackMirror : List MirrorWrite → Half → Nat → Nat → List Byte → List MirrorWrite
  | [], _, _, _, _ => []
  | x :: xs, h, idx, sub, bs =>
    if x.half = h ∧ x.idx = idx ∧ x.sub = sub ∧ x.bytes = bs ∧ x.acked = false then { x with acked := true } :: xs
    else x :: ackMirror xs h idx sub bs

/-- A forwarded request is served where the entry lies, and its answer goes back (R408; DEDUCED, log 26). -/
def serveForwarded (s : State) (h : Half) (r : Req) (bs : List Byte) : State :=
  match parseMsg bs with
  | none => s
  | some m =>
    if !dictOn s h then answer s h.other r m (plain stHalfLost)
    else
    match entryAt s m.idx m.sub with
    | none => answer s h.other r m (plain stRight)
    | some (a, e) =>
      let p := if m.op = 1 then (some (serveRead s h m a e), s) else serveHere s h.other r m a e
      answerNow h.other r m p

/-- What a `DICT` message does where it arrives (R378, R408, R409, R419). -/
def takeDict (s : State) (h : Half) (d : DictMsg) : State :=
  match d with
  | .mirror idx sub bs => { s with mirrors := ackMirror s.mirrors h.other idx sub bs }
  | .invalid t => s.setNum (hk h 0x4B00) 0x0B t.toNat
  | .boundary _ => s
  | .request r bs => serveForwarded s h r bs

/-- `DICT`: the next `DICT` message of the other half arrives (R280, R281). -/
def execDict (h : Half) (s : State) : Ans :=
  .next (match nextCargo s h .dict with
    | none => s
    | some m =>
      let s := takeMsg s h .ferry m
      match m.cargo with
      | .dict d => takeDict s h d
      | _ => s)

/-- A waiting write falls due (R409): applied where it is acknowledged or the other half is lost or in planned Nap. -/
def applyMirror (s : State) (x : MirrorWrite) : State :=
  let m : Msg := ⟨2, x.sub, x.idx, 0, x.bytes⟩
  let s := { s with mirrors := s.mirrors.erase x }
  if x.acked || isLost s x.half.other || powerState s x.half.other == 2 then
    answer (applyValues s [(x.idx, x.sub, x.bytes)] x.at_) x.half x.req m (plain stOK)
  else answer s x.half x.req m (plain stState)

/-- `MIRROR_APPLY` at ticket time `t` (R409). -/
def execMirrorApply (t : Time) (s : State) : Ans :=
  let s := s.atTime .bow t
  .next ((s.mirrors.filter (fun x => decide (0 ≤ Time.diff t x.at_))).foldl applyMirror s)

/-! ### Transactions (R415 to R421) -/

/-- A request that writes one entry. -/
def writeReq (s : State) (h : Half) (r : Req) (idx sub ofs : Nat) (data : List Byte) : State :=
  takeRequest s h r (writeMsg idx sub ofs data)

/-- `BEGIN` (R416). -/
def execBegin (h : Half) (r : Req) (s : State) : Ans := .next (writeReq s h r 0x1F00 2 0 [1])

/-- `COMMIT` at ticket time `t` (R419). -/
def execCommit (h : Half) (r : Req) (t : Time) (s : State) : Ans := .next (writeReq (s.atTime h t) h r 0x1F00 2 0 [2])

/-- `ROLLBACK` (R421). -/
def execRollback (h : Half) (r : Req) (s : State) : Ans := .next (writeReq s h r 0x1F00 2 0 [3])

/-- `COMMIT_BOUNDARY` at ticket time `t` (R420). -/
def execCommitBoundary (t : Time) (s : State) : Ans :=
  let s := s.atTime .bow t
  .next (match s.txn.boundary with
    | none => s
    | some tb => if txnState s ≠ 2 ∨ Time.diff t tb < 0 then s else commitNow s tb)

/-- `COMMIT_FRAME_TIMEOUT` at ticket time `t`: 1 s without a qualifying frame (R419). -/
def execCommitFrameTimeout (t : Time) (s : State) : Ans :=
  let s := s.atTime .bow t
  .next (if txnState s ≠ 2 ∨ s.txn.boundary.isSome = true ∨ Time.diff t s.txn.commitT < 1000000000 then s
    else endTxn s stState (failKey 0x1F00 7))

/-- `TXN_TIMEOUT` at ticket time `t`: still `OPEN` 10 s after `BEGIN` (R421). -/
def execTxnTimeout (t : Time) (s : State) : Ans :=
  let s := s.atTime .bow t
  .next (if txnState s ≠ 1 ∨ Time.diff t s.txn.beginT < 10000000000 then s
    else endTxn (s.bump 0x1F00 0x0C 1) stAborted 0)

/-! ### The recorder (R424, R428) -/

/-- `RECORD_EMIT` of accumulator `i` at ticket time `t`: `REC_SPAN_MS` has passed since its `T_FIRST` (R424). -/
def execRecordEmit (h : Half) (i : Nat) (t : Time) (s : State) : Ans :=
  let s := s.atTime h t
  .next (match (s.half h).recorder.accs[i]? with
    | none => s
    | some a => if Time.diff t a.tFirst < s.num (hk8 h 0x3000) 5 * 1000000 then s else emitAcc s h i)

/-- `REC_CLEAR` (R428). -/
def execRecClear (h : Half) (r : Req) (target : Half) (n : BitVec 32) (s : State) : Ans :=
  .next (writeReq s h r (hk8 target 0x3000) 4 0 (natLe 4 n.toNat))

/-! ### Rows that a dictionary write starts -/

/-- `STEP_ACCEPT` (R305). -/
def execStepAccept (h : Half) (r : Req) (v : BitVec 32) (s : State) : Ans := .next (writeReq s h r 0x2800 0x0A 0 (natLe 4 v.toNat))

/-- `CLOSE` of loop `n` (R342). -/
def execClose (h : Half) (r : Req) (target : Half) (n : Nat) (s : State) : Ans :=
  .next (if 8 ≤ n then s else writeReq s h r (loopIdx target n) 3 0 [1])

/-- `OPEN` of loop `n` (R342). -/
def execOpenLoop (h : Half) (r : Req) (target : Half) (n : Nat) (s : State) : Ans :=
  .next (if 8 ≤ n then s else writeReq s h r (loopIdx target n) 3 0 [2])

/-- `HALF_CMD` `REJOIN` (R398). -/
def execRejoin (h : Half) (r : Req) (target : Half) (s : State) : Ans :=
  .next (writeReq s h r 0x2900 4 0 [BitVec.ofNat 8 (0x10 + target.num)])

/-- `HALF_CMD` `HANDOVER` (R398). -/
def execHandover (h : Half) (r : Req) (target : Half) (s : State) : Ans :=
  .next (writeReq s h r 0x2900 4 0 [BitVec.ofNat 8 (0x20 + target.num)])

/-- `HALF_CMD` `RESUME` (R398). -/
def execHalfCmdResume (h : Half) (r : Req) (target : Half) (s : State) : Ans :=
  .next (writeReq s h r 0x2900 4 0 [BitVec.ofNat 8 (0x30 + target.num)])

/-- `ATTEST_NONCE` (R439). -/
def execAttestNonce (h : Half) (r : Req) (target : Half) (nonce : List Byte) (s : State) : Ans :=
  .next (writeReq s h r (hk target 0x4C00) 3 0 nonce)

/-- `OWNER_RECORD` (R440). -/
def execOwnerRecord (h : Half) (r : Req) (bs : List Byte) (s : State) : Ans := .next (writeReq s h r 0x2A00 1 0 bs)

/-- `SETTINGS_RECORD` (R441). -/
def execSettingsRecord (h : Half) (r : Req) (bs : List Byte) (s : State) : Ans := .next (writeReq s h r 0x2A00 5 0 bs)

/-- `FW_WRITE` (R442). -/
def execFwWrite (h : Half) (r : Req) (target : Half) (ofs : Nat) (bs : List Byte) (s : State) : Ans :=
  .next (writeReq s h r (hk target 0x4C10) 6 ofs bs)

/-- `FW_CMD` `ERASE` (R442). -/
def execErase (h : Half) (r : Req) (target : Half) (s : State) : Ans := .next (writeReq s h r (hk target 0x4C10) 7 0 [1])

/-- `FW_CMD` `VERIFY` (R442). -/
def execVerify (h : Half) (r : Req) (target : Half) (s : State) : Ans := .next (writeReq s h r (hk target 0x4C10) 7 0 [2])

/-- `FW_CMD` `ACTIVATE` (R443). -/
def execActivate (h : Half) (r : Req) (target : Half) (s : State) : Ans := .next (writeReq s h r (hk target 0x4C10) 7 0 [3])

/-- `FW_CMD` `COMMIT_SVN` (R444). -/
def execCommitSvn (h : Half) (r : Req) (target : Half) (s : State) : Ans := .next (writeReq s h r (hk target 0x4C10) 7 0 [4])

/-- `PROG_CMD` `LOAD` (R445). -/
def execLoad (h : Half) (r : Req) (target : Half) (s : State) : Ans := .next (writeReq s h r (hk target 0x4C20) 1 0 [1])

/-- `PROG_CMD` `UNLOAD` (R445). -/
def execUnload (h : Half) (r : Req) (target : Half) (s : State) : Ans := .next (writeReq s h r (hk target 0x4C20) 1 0 [2])

/-- `OP_REQUEST` (R452). -/
def execOpRequest (h : Half) (r : Req) (target : Half) (p : Nat) (s : State) : Ans :=
  .next (writeReq s h r (hk target 0x4D00) 1 0 [BitVec.ofNat 8 p])

/-- `POWER_REQ` = Run (R459, R461). -/
def execPowerReqRun (h : Half) (r : Req) (target : Half) (s : State) : Ans := .next (writeReq s h r (hk target 0x4D00) 9 0 [0])

/-- `POWER_REQ` = Idle allowed (R457). -/
def execPowerReqIdle (h : Half) (r : Req) (target : Half) (s : State) : Ans := .next (writeReq s h r (hk target 0x4D00) 9 0 [1])

/-- `POWER_REQ` = Nap (R458). -/
def execPowerReqNap (h : Half) (r : Req) (target : Half) (s : State) : Ans := .next (writeReq s h r (hk target 0x4D00) 9 0 [2])

/-- `STANDBY_REQ` (R460). -/
def execStandbyReq (h : Half) (r : Req) (s : State) : Ans := .next (writeReq s h r 0x2B00 2 0 [1])

end Sys2Proof.Machine
end

