-- ==== Sys2Proof/Machine/Dispatch.lean ====
section
/-! DEFINITION. Which meaning each command has: one arm per row of the table. -/
namespace Sys2Proof.Machine

/-- The effect of a command on everything but the queue. -/
def exec (i : Instr) (s : State) : Host.Outcome State Fault Refusal :=
  match i with
  -- core commands: the descriptor fetch delivers
  | .move h c d => Sys2Proof.Machine.execMove h c d s
  | .s2c2 h c d => Sys2Proof.Machine.execS2c2 h c d s
  | .s2c4 h c d => Sys2Proof.Machine.execS2c4 h c d s
  | .c2s2 h c d => Sys2Proof.Machine.execC2s2 h c d s
  | .c2s4 h c d => Sys2Proof.Machine.execC2s4 h c d s
  | .fill h c d => Sys2Proof.Machine.execFill h c d s
  | .loadw h c d => Sys2Proof.Machine.execLoadw h c d s
  | .stream h c d => Sys2Proof.Machine.execStream h c d s
  | .requantiseTile h c => Sys2Proof.Machine.execRequantiseTile h c s
  | .conv h c d => Sys2Proof.Machine.execConv h c d s
  | .crop h c d => Sys2Proof.Machine.execCrop h c d s
  | .pool h c d => Sys2Proof.Machine.execPool h c d s
  | .vec h c d => Sys2Proof.Machine.execVec h c d s
  | .attn h c d => Sys2Proof.Machine.execAttn h c d s
  | .semAcquire h c d => Sys2Proof.Machine.execSemAcquire h c d s
  | .semRelease h c d => Sys2Proof.Machine.execSemRelease h c d s
  | .gate h c d => Sys2Proof.Machine.execGate h c d s
  | .gateOpen h c t => Sys2Proof.Machine.execGateOpen h c t s
  | .moor h c d => Sys2Proof.Machine.execMoor h c d s
  | .contextSaveDone h c => Sys2Proof.Machine.execContextSaveDone h c s
  | .contextRestore h c => Sys2Proof.Machine.execContextRestore h c s
  | .tally h c d => Sys2Proof.Machine.execTally h c d s
  | .endCmd h c d => Sys2Proof.Machine.execEndCmd h c d s
  | .commandComplete h c k => Sys2Proof.Machine.execCommandComplete h c k s
  | .lbistEnd h c pass => Sys2Proof.Machine.execLbistEnd h c pass s
  | .rollPassEnd h c => Sys2Proof.Machine.execRollPassEnd h c s
  -- queues, contexts, Manifest
  | .doorbell h src ofs bs => Sys2Proof.Machine.execDoorbell h src ofs bs s
  | .dispatchChoice h => Sys2Proof.Machine.execDispatchChoice h s
  | .coreHandover h c => Sys2Proof.Machine.execCoreHandover h c s
  | .contextRunnable h n t => Sys2Proof.Machine.execContextRunnable h n t s
  | .swapDrain h cl => Sys2Proof.Machine.execSwapDrain h cl s
  | .completionRecord h q => Sys2Proof.Machine.execCompletionRecord h q s
  | .abort h src r => Sys2Proof.Machine.execAbort h src r s
  | .quayDescriptorWrite h q ofs bs => Sys2Proof.Machine.execQuayDescriptorWrite h q ofs bs s
  | .contextEntryWrite h n ofs bs => Sys2Proof.Machine.execContextEntryWrite h n ofs bs s
  | .step h src r => Sys2Proof.Machine.execStep h src r s
  | .propose h src r => Sys2Proof.Machine.execPropose h src r s
  | .accept h src r => Sys2Proof.Machine.execAccept h src r s
  | .append h src r => Sys2Proof.Machine.execAppend h src r s
  | .finish h src r => Sys2Proof.Machine.execFinish h src r s
  | .resume h src r => Sys2Proof.Machine.execResume h src r s
  | .release h src r => Sys2Proof.Machine.execRelease h src r s
  | .pageReturn h => Sys2Proof.Machine.execPageReturn h s
  -- memory system
  | .perBankRefresh h ch bank => Sys2Proof.Machine.execPerBankRefresh h ch bank s
  | .rfm h ch bank => Sys2Proof.Machine.execRfm h ch bank s
  | .patrolScrub h g t => Sys2Proof.Machine.execPatrolScrub h g t s
  | .retraining h ch ok => Sys2Proof.Machine.execRetraining h ch ok s
  -- host link
  | .bar4Write h ofs bs => Sys2Proof.Machine.execBar4Write h ofs bs s
  | .bar4Read h ofs n => Sys2Proof.Machine.execBar4Read h ofs n s
  | .bar0Write h ofs bs => Sys2Proof.Machine.execBar0Write h ofs bs s
  | .hdPerstN h => Sys2Proof.Machine.execHdPerstN h s
  | .linkDown h => Sys2Proof.Machine.execLinkDown h s
  | .linkUp h => Sys2Proof.Machine.execLinkUp h s
  | .halfState h => Sys2Proof.Machine.execHalfState h s
  | .hostAlive h count => Sys2Proof.Machine.execHostAlive h count s
  | .hostHeartbeatMiss h => Sys2Proof.Machine.execHostHeartbeatMiss h s
  | .hostCplTimeout h c k how => Sys2Proof.Machine.execHostCplTimeout h c k how s
  | .hdPerstNRelease h => Sys2Proof.Machine.execHdPerstNRelease h s
  | .adapterRetry h => Sys2Proof.Machine.execAdapterRetry h s
  | .configurationRequest h wr ofs bs => Sys2Proof.Machine.execConfigurationRequest h wr ofs bs s
  | .msixUnmask h v => Sys2Proof.Machine.execMsixUnmask h v s
  -- Ferry and Causeway
  | .rdReq h p m => Sys2Proof.Machine.execRdReq h p m s
  | .rdData h p m => Sys2Proof.Machine.execRdData h p m s
  | .wr h p m => Sys2Proof.Machine.execWr h p m s
  | .wrAck h p m => Sys2Proof.Machine.execWrAck h p m s
  | .or8 h p m => Sys2Proof.Machine.execOr8 h p m s
  | .orAck h p m => Sys2Proof.Machine.execOrAck h p m s
  | .counter h m => Sys2Proof.Machine.execCounter h m s
  | .counterAck h m => Sys2Proof.Machine.execCounterAck h m s
  | .dict h => Sys2Proof.Machine.execDict h s
  | .frame h t => Sys2Proof.Machine.execFrame h t s
  | .nak h p seq => Sys2Proof.Machine.execNak h p seq s
  | .flitCrcFailure h p seq => Sys2Proof.Machine.execFlitCrcFailure h p seq s
  | .heartbeatSend h p t => Sys2Proof.Machine.execHeartbeatSend h p t s
  | .heartbeat h p => Sys2Proof.Machine.execHeartbeat h p s
  | .heartbeatMiss h p => Sys2Proof.Machine.execHeartbeatMiss h p s
  | .timeSend h t => Sys2Proof.Machine.execTimeSend h t s
  | .time h t => Sys2Proof.Machine.execTime h t s
  | .retrain h p => Sys2Proof.Machine.execRetrain h p s
  | .retrainDone h p ok => Sys2Proof.Machine.execRetrainDone h p ok s
  | .trainingDone h p dev sig => Sys2Proof.Machine.execTrainingDone h p dev sig s
  -- time base
  | .sync h port gm t => Sys2Proof.Machine.execSync h port gm t s
  | .syncReceiptTimeout h => Sys2Proof.Machine.execSyncReceiptTimeout h s
  | .announceReceiptTimeout h => Sys2Proof.Machine.execAnnounceReceiptTimeout h s
  | .announce h port a => Sys2Proof.Machine.execAnnounce h port a s
  | .pdelay h port t1 t2 t3 t4 => Sys2Proof.Machine.execPdelay h port t1 t2 t3 t4 s
  | .syncSend h port t => Sys2Proof.Machine.execSyncSend h port t s
  | .stepAccept h r v => Sys2Proof.Machine.execStepAccept h r v s
  | .stepApply t => Sys2Proof.Machine.execStepApply t s
  -- switch
  | .frameIngress h port bs fcs t => Sys2Proof.Machine.execFrameIngress h port bs fcs t s
  | .txDescriptorTake h tc t => Sys2Proof.Machine.execTxDescriptorTake h tc t s
  | .launch h tc t => Sys2Proof.Machine.execLaunch h tc t s
  | .gclCycleStart h port t => Sys2Proof.Machine.execGclCycleStart h port t s
  | .frerReset h e => Sys2Proof.Machine.execFrerReset h e s
  -- cameras, triggers, captures
  | .frameStart h port vc no ecc t => Sys2Proof.Machine.execFrameStart h port vc no ecc t s
  | .line h port vc dt bs crc ecc t => Sys2Proof.Machine.execLine h port vc dt bs crc ecc t s
  | .embeddedData h port vc bs ecc t => Sys2Proof.Machine.execEmbeddedData h port vc bs ecc t s
  | .frameEnd h port vc ecc t => Sys2Proof.Machine.execFrameEnd h port vc ecc t s
  | .frameTimeout h port v t => Sys2Proof.Machine.execFrameTimeout h port v t s
  | .triggerInstant h k t => Sys2Proof.Machine.execTriggerInstant h k t s
  | .triggerPulseEnd h k t => Sys2Proof.Machine.execTriggerPulseEnd h k t s
  | .captureEdge h k rising t => Sys2Proof.Machine.execCaptureEdge h k rising t s
  -- control loops and CAN
  | .sample h hits t => Sys2Proof.Machine.execSample h hits t s
  | .close h r target n => Sys2Proof.Machine.execClose h r target n s
  | .openLoop h r target n => Sys2Proof.Machine.execOpenLoop h r target n s
  | .closeFail h n t => Sys2Proof.Machine.execCloseFail h n t s
  | .following h n => Sys2Proof.Machine.execFollowing h n s
  | .canReceive h c f t => Sys2Proof.Machine.execCanReceive h c f t s
  | .canTxTake h c t => Sys2Proof.Machine.execCanTxTake h c t s
  | .canTransmit h c t => Sys2Proof.Machine.execCanTransmit h c t s
  | .arbitrationLost h c cause t => Sys2Proof.Machine.execArbitrationLost h c cause t s
  | .busOffRecovery h c => Sys2Proof.Machine.execBusOffRecovery h c s
  | .abdDwell h c => Sys2Proof.Machine.execAbdDwell h c s
  | .controllerChange h c => Sys2Proof.Machine.execControllerChange h c s
  -- safety
  | .safetyFrame h t => Sys2Proof.Machine.execSafetyFrame h t s
  | .safetyFrameFallback h t => Sys2Proof.Machine.execSafetyFrameFallback h t s
  | .springDue h c t => Sys2Proof.Machine.execSpringDue h c t s
  | .springSegmentDone h c pass rerun t => Sys2Proof.Machine.execSpringSegmentDone h c pass rerun t s
  | .springLate h c t => Sys2Proof.Machine.execSpringLate h c t s
  | .lockstepCe h t => Sys2Proof.Machine.execLockstepCe h t s
  | .lockstepSm h t => Sys2Proof.Machine.execLockstepSm h t s
  | .clockDrift h t => Sys2Proof.Machine.execClockDrift h t s
  | .safetyMessageRepeat h t => Sys2Proof.Machine.execSafetyMessageRepeat h t s
  | .peerFaultN h t => Sys2Proof.Machine.execPeerFaultN h t s
  | .lifeboatDigestDone h t => Sys2Proof.Machine.execLifeboatDigestDone h t s
  | .rejoin h r target => Sys2Proof.Machine.execRejoin h r target s
  | .handover h r target => Sys2Proof.Machine.execHandover h r target s
  | .halfCmdResume h r target => Sys2Proof.Machine.execHalfCmdResume h r target s
  -- dictionary, transactions, recorder
  | .read h r msg => Sys2Proof.Machine.execRead h r msg s
  | .write h r msg => Sys2Proof.Machine.execWrite h r msg s
  | .describe h r msg => Sys2Proof.Machine.execDescribe h r msg s
  | .canSegment h client bs => Sys2Proof.Machine.execCanSegment h client bs s
  | .udpDatagram h addr port bs => Sys2Proof.Machine.execUdpDatagram h addr port bs s
  | .mailboxGo h mb w => Sys2Proof.Machine.execMailboxGo h mb w s
  | .mirrorApply t => Sys2Proof.Machine.execMirrorApply t s
  | .begin h r => Sys2Proof.Machine.execBegin h r s
  | .commit h r t => Sys2Proof.Machine.execCommit h r t s
  | .rollback h r => Sys2Proof.Machine.execRollback h r s
  | .commitBoundary t => Sys2Proof.Machine.execCommitBoundary t s
  | .commitFrameTimeout t => Sys2Proof.Machine.execCommitFrameTimeout t s
  | .txnTimeout t => Sys2Proof.Machine.execTxnTimeout t s
  | .recordEmit h a t => Sys2Proof.Machine.execRecordEmit h a t s
  | .recClear h r target n => Sys2Proof.Machine.execRecClear h r target n s
  -- boot, identity, update
  | .resetRelease h => Sys2Proof.Machine.execResetRelease h s
  | .firstStageVerified h => Sys2Proof.Machine.execFirstStageVerified h s
  | .mainFirmwareStart h => Sys2Proof.Machine.execMainFirmwareStart h s
  | .attestNonce h r target nonce => Sys2Proof.Machine.execAttestNonce h r target nonce s
  | .attestReport h t => Sys2Proof.Machine.execAttestReport h t s
  | .ownerRecord h r bs => Sys2Proof.Machine.execOwnerRecord h r bs s
  | .settingsRecord h r bs => Sys2Proof.Machine.execSettingsRecord h r bs s
  | .fwWrite h r target ofs bs => Sys2Proof.Machine.execFwWrite h r target ofs bs s
  | .erase h r target => Sys2Proof.Machine.execErase h r target s
  | .verify h r target => Sys2Proof.Machine.execVerify h r target s
  | .activate h r target => Sys2Proof.Machine.execActivate h r target s
  | .commitSvn h r target => Sys2Proof.Machine.execCommitSvn h r target s
  | .fwTrialTimeout h => Sys2Proof.Machine.execFwTrialTimeout h s
  | .load h r target => Sys2Proof.Machine.execLoad h r target s
  | .loadDone h => Sys2Proof.Machine.execLoadDone h s
  | .unload h r target => Sys2Proof.Machine.execUnload h r target s
  -- power, clocks, start-up, board
  | .opRequest h r target p => Sys2Proof.Machine.execOpRequest h r target p s
  | .opChange h t => Sys2Proof.Machine.execOpChange h t s
  | .vrAck h t => Sys2Proof.Machine.execVrAck h t s
  | .vrTimeout h t => Sys2Proof.Machine.execVrTimeout h t s
  | .thermalSample h temps t => Sys2Proof.Machine.execThermalSample h temps t s
  | .throttle h t => Sys2Proof.Machine.execThrottle h t s
  | .powerReqRun h r target => Sys2Proof.Machine.execPowerReqRun h r target s
  | .powerReqIdle h r target => Sys2Proof.Machine.execPowerReqIdle h r target s
  | .powerReqNap h r target => Sys2Proof.Machine.execPowerReqNap h r target s
  | .idleEntry h t => Sys2Proof.Machine.execIdleEntry h t s
  | .napEntryDone h t => Sys2Proof.Machine.execNapEntryDone h t s
  | .standbyReq h r => Sys2Proof.Machine.execStandbyReq h r s
  | .dWake => Sys2Proof.Machine.execDWake s
  | .canWake h => Sys2Proof.Machine.execCanWake h s
  | .suppliesApplied h => Sys2Proof.Machine.execSuppliesApplied h s
  | .supplyFault h rail => Sys2Proof.Machine.execSupplyFault h rail s
  | .resetNAssert h => Sys2Proof.Machine.execResetNAssert h s
  | .dramZeroWrite h => Sys2Proof.Machine.execDramZeroWrite h s
  | .ready3 h t => Sys2Proof.Machine.execReady3 h t s
  | .startupBoundMiss h => Sys2Proof.Machine.execStartupBoundMiss h s
  | .napWakeDone h t => Sys2Proof.Machine.execNapWakeDone h t s
  | .boundaryScan rising tms tdi => Sys2Proof.Machine.execBoundaryScan rising tms tdi s

end Sys2Proof.Machine
end

