-- ==== Sys2Proof/Machine/Step.lean ====
section
/-! DEFINITION. One step: the oldest waiting command, or one cycle of the time base. -/
namespace Sys2Proof.Machine

/-- The command at the front of the queue with the queue's rest; on an empty queue one 2 ns step of ticket time in both halves (R297; DESIGN CHOICE, log 2). -/
def step (s : State) : Host.Outcome State Fault Refusal :=
  match s.pending with
  | [] => .next (s.atTime .bow (s.now .bow + 2#48))
  | i :: rest => exec i { s with pending := rest }

/-- `s` with the command that a table word spells in front of its queue; no row of the table gives bits, so no word spells one (DESIGN CHOICE, log 31). -/
def State.withFetchWord (s : State) (nbits w : Nat) : State :=
  match Sys2Proof.decodeTableWord nbits w with
  | none => s
  | some i => { s with pending := i :: s.pending }

end Sys2Proof.Machine
end

