-- ==== Sys2Proof/Machine/Balls.lean ====
section
/-! DEFINITION. The levels at the single-ended output balls of a half, read from the state (R390, R465, R472, R480). -/
namespace Sys2Proof.Machine

/-- A single-ended output ball of a half that the spec gives a level. -/
inductive Ball where
  | canTx (c : Nat)
  | ttrig (k : Nat)
  | faultN
  | thermN
  | avs
  deriving DecidableEq, Repr

/-- The half drives its balls: not in Off, not in reset, and its firmware has applied `ISO_CLAMP` (R465). -/
def drivesBalls (s : State) (h : Half) : Bool :=
  (s.half h).power.supplied && !(s.half h).power.supplyFault && (s.half h).boot.stage == 3

/-- `x_THERM_N` is low while the half is in a thermal hold or has `T_JUNCTION` at or above `T_HOT` (R472). -/
def thermLow (s : State) (h : Half) : Bool :=
  (s.half h).power.hold || decide (tHot s h ≤ s.int (hk h 0x4D00) 4 16)

/-- The clamp value of a ball (*Clamp values*). -/
def clampLevel (s : State) (h : Half) : Ball → Bool
  | .canTx _ => true
  | .ttrig k => bitAt (s.half h).power.clampLow k
  | .faultN => false
  | .thermN => false
  | .avs => true

/-- The level of an output ball between frames, `none` where it floats: clamped or floating in Standby, floating until firmware applies `ISO_CLAMP`, driven after (R390, R465, R472, R480). -/
def ballLevel (s : State) (h : Half) (b : Ball) : Option Bool :=
  if s.standby then (if (s.half h).power.clamp then some (clampLevel s h b) else none)
  else if !drivesBalls s h then none
  else
    match b with
    | .canTx _ => some true
    | .ttrig k => some (trigLevel s h k (s.trig h k).active)
    | .faultN => some (!(s.half h).faultN)
    | .thermN => some (!thermLow s h)
    | .avs => some true

end Sys2Proof.Machine
end

