-- ==== Sys2Proof/Machine/Package.lean ====
section
/-! DEFINITION. The package: the ball grid, its regions, signals and supplies, the C-PHY wires, the supply limits, and the clock domains (R11, R449, R451, R467 to R474). -/
namespace Sys2Proof.Machine

/-- A signal ball of a half (*Signal placement*). `neg` is the N leg of a pair; CSI-2 wire 0 is `CK`, wire `j` + 1 is `Dj`; USXGMII port 4 is the SGMII port. -/
inductive Signal where
  | csi (port wire : Nat) (neg : Bool)
  | causeway (port lane : Nat) (rx neg : Bool)
  | refclk (port : Nat) (neg : Bool)
  | ethernet (port : Nat) (rx neg : Bool)
  | mdc
  | mdio
  | ttrig (k : Nat)
  | tcap (k : Nat)
  | canTx (c : Nat)
  | canRx (c : Nat)
  | resetN
  | faultN
  | thermN
  | avsClk
  | avsMdata
  | avsSdata
  deriving DecidableEq, Repr

/-- A supply rail of a half (R474). -/
inductive Rail where
  | core | sram | vdd1 | vdd2h | vdd2l | vddq | io18 | io33
  deriving DecidableEq, Repr

/-- What a position of the grid carries (R468). Device-wide signals count from 36/1: `D_XTAL_IN`, `D_XTAL_OUT`, `D_WAKE`, `D_DEVID0`, `D_DEVID1`, then from 37/1: `D_TCK`, `D_TMS`, `D_TDI`, `D_TDO`, `D_TRST_N`. -/
inductive BallUse where
  | signal (h : Half) (b : Signal)
  | supply (h : Half) (r : Rail)
  | device (k : Nat)
  | reserved
  | hostDie (k : Nat)
  | gnd
  deriving DecidableEq, Repr

/-- The signal ball at row `r`, column `c` of the Bow half and its strip (*Signal placement, Bow*). -/
def bowSignal (r c : Nat) : Option Signal :=
  if 1 ≤ r ∧ r ≤ 5 ∧ 1 ≤ c ∧ c ≤ 24 then some (.csi ((c - 1) / 2) (r - 1) ((c - 1) % 2 == 1))
  else if r = 0 ∨ 4 < r then none
  else if c = 33 then some (.refclk ((r - 1) / 2) ((r - 1) % 2 == 1))
  else if 25 ≤ c ∧ c ≤ 41 then some (.causeway (if c < 33 then 0 else 1) (if c < 33 then c - 25 else c - 34) (decide (3 ≤ r)) (r % 2 == 0))
  else if r ≤ 2 ∧ 42 ≤ c ∧ c ≤ 51 then some (.ethernet ((c - 42) / 2) (r == 2) (c % 2 == 1))
  else if c = 52 then (if r = 1 then some .mdc else if r = 2 then some .mdio else none)
  else if r ≤ 2 ∧ 53 ≤ c ∧ c ≤ 68 then some (if r = 1 then .ttrig (c - 53) else .tcap (c - 53))
  else if r ≤ 2 ∧ 69 ≤ c ∧ c ≤ 72 then some (if r = 1 then .canTx (c - 69) else .canRx (c - 69))
  else if r = 3 ∧ 53 ≤ c ∧ c ≤ 58 then [Signal.resetN, .faultN, .thermN, .avsClk, .avsMdata, .avsSdata][c - 53]?
  else none

/-- The supply at row `r`, column `c` of the Bow half; the odd positions of a checkerboard are ground (R473). -/
def bowSupply (r c : Nat) : Option Rail :=
  if 9 ≤ c ∧ c ≤ 40 then
    if (r + c) % 2 = 1 then none
    else if 17 ≤ r ∧ r ≤ 36 then some .core
    else if 13 ≤ r ∧ r ≤ 16 then some .sram
    else if r = 12 then some .vdd2l
    else if 9 ≤ r ∧ r ≤ 11 then some .vdd2h
    else if 6 ≤ r ∧ r ≤ 8 then some .vddq
    else none
  else if 6 ≤ r ∧ r ≤ 17 ∧ (c = 41 ∨ c = 42) then some .vdd1
  else if 6 ≤ r ∧ r ≤ 13 ∧ (c = 43 ∨ c = 44) then some .io18
  else if 14 ≤ r ∧ r ≤ 17 ∧ (c = 43 ∨ c = 44) then some .io33
  else none

/-- What the position at row `r`, column `c` carries (R468 to R470, R473); a Stern ball lies at row 73 less its Bow counterpart's (R469). -/
def ballAt (r c : Nat) : BallUse :=
  if (r = 36 ∨ r = 37) ∧ c ≤ 5 then .device ((r - 36) * 5 + (c - 1))
  else if (r = 36 ∨ r = 37) ∧ 41 ≤ c ∧ c ≤ 48 then .reserved
  else if 5 ≤ r ∧ r ≤ 68 ∧ 49 ≤ c then .hostDie ((r - 5) * 24 + (c - 49))
  else
    let h : Half := if r ≤ 36 then .bow else .stern
    let row := if r ≤ 36 then r else 73 - r
    match bowSignal row c, bowSupply row c with
    | some b, _ => .signal h b
    | none, some p => .supply h p
    | none, none => .gnd

/-- The wire of trio `t` on a ball of a CSI-2 port in C-PHY mode: 0 A, 1 B, 2 C; `D3N` is unused (R471). -/
def cphyWire (wire : Nat) (neg : Bool) : Option (Nat × Nat) :=
  match wire, neg with
  | 0, false => some (0, 2)
  | 0, true => some (1, 2)
  | 4, false => some (2, 2)
  | 4, true => none
  | w, n => some (w - 1, b2n n)

/-- Operating range of a rail in microvolts, `VDD_CORE`'s about its commanded value in millivolts (R474). -/
def railRange (core : Nat) : Rail → Nat × Nat
  | .core => (970 * core, 1030 * core)
  | .sram => (776000, 824000)
  | .vdd1 => (1700000, 1950000)
  | .vdd2h => (1010000, 1120000)
  | .vdd2l => (870000, 970000)
  | .vddq => (470000, 570000)
  | .io18 => (1710000, 1890000)
  | .io33 => (3135000, 3465000)

/-- The rails a half monitors, in the order of `SUPPLY_FAULT`'s operand (R477). -/
def monitored : List Rail := [.core, .sram, .io18, .vdd2h]

/-- A clock domain: eight in each half, two device-wide (R449). -/
inductive Clock where
  | cclk | nclk | mclk | pclk | uclk | fyclk | smclk | ioclk | aoclk | tbclk
  deriving DecidableEq, Repr

/-- Frequency of a domain of half `h` in kHz: CCLK's by the point in force (R449, R451). -/
def clockKHz (s : State) (h : Half) : Clock → Nat
  | .cclk => match s.num (hk h 0x4D00) 2 with
    | 0 => 1250000
    | 1 => 1000000
    | _ => 625000
  | .nclk => 1500000
  | .mclk => 667000
  | .pclk => 1333000
  | .uclk => 1000000
  | .fyclk => 2000000
  | .smclk => 800000
  | .ioclk => 500000
  | .aoclk => 25000
  | .tbclk => 500000

/-- A domain runs: it is not stopped in the state the half is in (R449, R455 to R457). -/
def clockRuns (s : State) (h : Half) (c : Clock) : Bool :=
  let nap := powerState s h == 2 || powerState s h == 3
  match c with
  | .cclk => !s.standby && powerState s h != 1 && !nap && !(s.half h).power.hold
  | .nclk => !s.standby && !nap
  | .mclk => !s.standby && !nap
  | .pclk => !s.standby && !nap
  | .uclk => !s.standby && !(s.half h).host.perst
  | .aoclk => true
  | _ => !s.standby

end Sys2Proof.Machine
end

