-- ==== Sys2Proof/Safety.lean ====
section
/-! DEFINITION. The terms in which claims about the block are made: the canonical form of its stores, states that agree on memory, a core ready to issue, a dictionary request a half serves. -/
namespace Sys2Proof.Machine

/-- The tables of a half are in canonical form: keys rising. -/
abbrev TablesWf (x : HalfState) : Prop :=
  Tab.sortedFrom none x.queues = true
  ∧ Tab.sortedFrom none x.ctxs = true
  ∧ Tab.sortedFrom none x.sems = true
  ∧ Tab.sortedFrom none x.cores = true
  ∧ Tab.sortedFrom none x.manifest = true
  ∧ Tab.sortedFrom none x.pages = true
  ∧ Tab.sortedFrom none x.roll = true
  ∧ Tab.sortedFrom none x.lineCtr = true
  ∧ Tab.sortedFrom none x.cams = true
  ∧ Tab.sortedFrom none x.trigs = true
  ∧ Tab.sortedFrom none x.caps = true
  ∧ Tab.sortedFrom none x.loops = true
  ∧ Tab.sortedFrom none x.cans = true
  ∧ Tab.sortedFrom none x.springs = true

/-- The stores of the block are in canonical form: memory, the registers and each half's tables. -/
structure StoresWf (s : State) : Prop where
  mem : Memory.wf s.mem = true
  dict : Tab.sortedFrom none s.dict = true
  dictBytes : Tab.sortedFrom none s.dictBytes = true
  bow : TablesWf s.bow
  stern : TablesWf s.stern

/-- Every byte of the device's memory reads the same. -/
def SameMem (s t : State) : Prop := ∀ a, t.byte a = s.byte a

/-- Every byte outside `[a, a + n)` reads the same. -/
def SameMemBut (s t : State) (a n : Nat) : Prop := ∀ j, j < a ∨ a + n ≤ j → t.byte j = s.byte j

/-- Class `cls` has no context in `PLACING` and none that can resume (R222). -/
def classQuiet (s : State) (h : Half) (cls : Nat) : Prop := placingBusy s h cls = false ∧ resumable s h cls = []

/-- An address in DRAM or in a Mere of either half. -/
def inMemory (s : State) (a : Nat) : Bool :=
  match s.region a with
  | .dram _ => true
  | .mere _ _ => true
  | _ => false

/-- The Manifest row of operation `op` (R191). -/
def manReq (op : Nat) (h : Half) (src : Src) (r : BitVec 256) : Instr :=
  if op = 2 then .propose h src r
  else if op = 3 then .accept h src r
  else if op = 4 then .append h src r
  else if op = 5 then .finish h src r
  else if op = 6 then .resume h src r
  else .release h src r

/-- The `L` entries of the stream led by `e` have changed as `f` says, by layer, and no other entry has. -/
def StreamSet (s t : State) (h : Half) (e L : Nat) (f : Nat → MEntry → MEntry) : Prop :=
  (∀ j < L, t.mentry h (e + j) = f j (s.mentry h (e + j))) ∧ ∀ k, k < e ∨ e + L ≤ k → t.mentry h k = s.mentry h k

/-- The 32 bytes at `ra` hold the answer and no other byte of memory has changed. -/
def Answered (s t : State) (ra : Nat) (resp : List Byte) : Prop := t.read ra 32 = resp ∧ SameMemBut s t ra 32

/-- Of all but memory, only the Manifest of half `h` has changed. -/
def ManifestOnly (s t : State) (h : Half) : Prop :=
  t.half h = { s.half h with manifest := (t.half h).manifest } ∧ t.half h.other = s.half h.other
  ∧ t.dict = s.dict ∧ t.dictBytes = s.dictBytes ∧ t.outbox = s.outbox ∧ t.hostMem = s.hostMem ∧ t.freeCtr = s.freeCtr

/-- A frame may start on port `p` at `t`: none of its class waits there, its gate lets it, and none of a higher class goes first (R308, R311). -/
def mayStart (s : State) (h : Half) (p : Nat) (bs : List Byte) (t : Time) : Bool :=
  let tc := (vlanOf bs).1
  (waitingAt s h p tc).isEmpty && gateAllows s h p tc bs.length t && !readyAbove s h p tc t

/-- A lead that a build for context `n` and model `m` examines (R193). -/
def buildable (s : State) (h : Half) (n m e : Nat) : Bool :=
  let x := s.mentry h e
  x.layer == 0 && x.context == n && x.model == m && (x.state == .active || x.state == .starved) && !x.built

/-- Half `h` has entered safe state with `cause` at ticket time `now` (R389): gate closed, `FAULT_N` asserted, state, cause and time as they read; its contexts, its cores and memory are as they were. -/
def SafeEntered (s t : State) (h : Half) (cause : Nat) : Prop :=
  t.halfState h = 4 ∧ t.num (hk h 0x4B00) 2 = cause ∧ t.num (hk h 0x4B00) 3 = (s.now h).toNat
  ∧ (t.half h).faultN = true ∧ (t.half h).safety.gateClosed = true
  ∧ (t.half h).ctxs = (s.half h).ctxs ∧ (t.half h).cores = (s.half h).cores ∧ (t.half h).queues = (s.half h).queues ∧ t.mem = s.mem

/-- Message `m` has been handed to port `p` of half `h`, whatever numbers its flits get: it waits for credits, or has been sent, over Causeway out of the device (R281, R282; DESIGN CHOICE, log 10). -/
def Handed (t : State) (h : Half) (p : Port) (m : LinkMsg) : Prop :=
  ∃ n, { m with flit := n } ∈ (t.link h p).waiting ∨ { m with flit := n } ∈ (t.link h p).sent
    ∨ .response h p { m with flit := n } ∈ t.outbox

/-- The response to request `m` that half `h` sends (R280). -/
def responseTo (s : State) (h : Half) (m : LinkMsg) (kind : MsgKind) (status : Nat) (poison : Bool) (data : List Byte) : LinkMsg :=
  { m with kind := kind, status := status, half := h, dev := s.num 0x2600 1, poison := poison, masked := false
           mask := [], data := data, lines := if data.isEmpty then 1 else m.lines }

/-- Of the halves' registers only their links have changed; dictionary and host memory are as they were. -/
def LinksOnly (s t : State) : Prop :=
  (∀ g, t.half g = { s.half g with ferry := (t.half g).ferry, cw0 := (t.half g).cw0, cw1 := (t.half g).cw1 })
  ∧ t.dict = s.dict ∧ t.dictBytes = s.dictBytes ∧ t.hostMem = s.hostMem

/-- Memory reads as good: no line is poisoned, and no hardware error waits in a DRAM line or in a Pool or Mere word (R240, R249, R258). -/
def cleanMem (s : State) : Prop := s.poison = [] ∧ s.lineErr = [] ∧ s.sramBad = []

/-- No hardware error waits in a DRAM line, in a Pool or Mere word, or in the fabric and the cores. -/
def errorFree (s : State) : Prop := s.lineErr = [] ∧ s.sramBad = [] ∧ s.upsets = []

/-- Half `h` serves the dictionary, has a new request of `r`, and itself holds the entries at `idx` (R408, R410, R414). -/
structure Serves (s : State) (h : Half) (r : Req) (idx : Nat) : Prop where
  on : dictOn s h = true
  new : (s.half h).kept.find? (fun k => k.req == r) = none
  here : holderOf idx = none ∨ holderOf idx = some h

/-- Half `h` serves a write by `r` of the entry at `idx`, `sub`, which the transport of `r` may write (R406). -/
structure Writes (s : State) (h : Half) (r : Req) (idx sub : Nat) : Prop where
  serves : Serves s h r idx
  allowed : bitAt (permMask s h idx sub) (transportBit r) = true

/-- An entry of no fixed size: its answers return `OFFSET` (R410). -/
def isString (idx sub : Nat) : Bool :=
  match entryOf idx sub with
  | some (_, e, _) => dtypeBytes e.typ == 0
  | none => false

/-- The state after half `h` in state `u` has answered a `WRITE` of `r` with status `st` (R410 to R414). -/
def wrote (u : State) (h : Half) (r : Req) (idx sub ofs : Nat) (data : List Byte) (st : Nat) : State :=
  answer u h r ⟨2, sub, idx, ofs, data⟩ ⟨st, 0, isString idx sub, []⟩

/-- The row of a request's operation (R410). -/
def requestRow (h : Half) (r : Req) (bs : List Byte) : Instr :=
  if bytesNat bs 0 1 = 1 then .read h r bs else if bytesNat bs 0 1 = 2 then .write h r bs else .describe h r bs

/-- A request by its row has the same effect in `u` as command `c` has in `s`. -/
def SameEffect (c : Instr) (s : State) (row : Instr) (u : State) : Prop := ∃ t, exec c s = .next t ∧ exec row u = .next t

/-- Half `h` is in reset as R433 and R477 leave it: what is not kept over a reset is at its reset value, its flash and DRAM are as they were, and so is the other half but for its end of the Ferry, which is down, and what its host is told of that (R269, R284). -/
def WentIntoReset (s t : State) (h : Half) : Prop :=
  (t.half h).ready = 0 ∧ (t.half h).boot.stage = 0 ∧ (t.half h).faultN = true ∧ (t.half h).queues = [] ∧ (t.half h).ctxs = []
  ∧ (t.half h).cores = [] ∧ (t.half h).service = (s.half h).service
  ∧ (∃ l x, t.half h.other = { s.half h.other with ferry := l, host := x } ∧ l.state = .down)
  ∧ (∀ a, s.region a = .dram h → t.byte a = s.byte a) ∧ ∀ c a, s.region a = .pool h c ∨ s.region a = .mere h c → t.byte a = 0

/-- The descriptor `d` as the next command of core `c`: without the bits beyond its size, at the offset it is fetched from (R103, R105). -/
def cmdAt (s : State) (h : Half) (c d : Nat) : Cmd := ⟨d % 2 ^ (8 * cmdBytes d), (s.core h c).fetch⟩

/-- Core `c` has fetched descriptor `d` into its window (R103). -/
def fetched (s : State) (h : Half) (c d : Nat) : State :=
  s.setCore h c { s.core h c with
    fetch := (s.core h c).fetch + cmdBytes d, window := (s.core h c).window ++ [cmdAt s h c d] }

/-- The command has left the window (R107). -/
def taken (s : State) (h : Half) (c d : Nat) : State :=
  (fetched s h c d).setCore h c { (fetched s h c d).core h c with window := [] }

/-- Core `c` runs for context `n`, has no command in its window or in flight, and no other core of the half has one that waits to issue; the descriptor's bytes hold no hardware error: `d` is looked at as soon as it is fetched (R103, R107, R108, R240). -/
structure CoreIdle (s : State) (h : Half) (c n d : Nat) : Prop where
  tables : StoresWf s
  ctx : (s.core h c).ctx = some n
  started : (s.ctx h n).startT.isSome = true
  noHold : (s.half h).power.hold = false
  running : (s.core h c).restoring = false ∧ (s.core h c).wait = none ∧ (s.core h c).moor = none
  empty : (s.core h c).inflight = []
  quiet : ∀ p ∈ (s.half h).cores, p.2.window = []
  room : (s.core h c).fetch + cmdBytes d ≤ (s.core h c).streamLen
  code : decodeCmd s h c [((s.core h c).streamBase + (s.core h c).fetch, cmdBytes d)] [] = (true, s)

/-- Core `c` is idle and descriptor `d` breaks no rule: it issues as soon as it is fetched (R134). -/
structure CoreReady (s : State) (h : Half) (c n d : Nat) : Prop extends CoreIdle s h c n d where
  good : cmdBad (fetched s h c d) h c (cmdAt s h c d) = false

/-- Context `n` has ended with `FAULT_CONTEXT` (R229): its record is due, no core is held for it; more may end where its semaphore would give them a second one (R124). -/
def FaultEnded (s t : State) (h : Half) (n : Nat) (tk : Ticket) : Prop :=
  (t.ctx h n).state = .ending ∧ (∀ j, (t.core h j).ctx ≠ some n)
  ∧ ∃ r more, (t.half h).done = (s.half h).done ++ r :: more ∧ r.status = 3 ∧ r.ctx = some n ∧ r.queue = tk.queue ∧ r.k = tk.k ∧ r.seq = tk.seq

/-- The state in which a command that moves or computes has just been put in flight. -/
def issued (s : State) (h : Half) (c d : Nat) : State := inFlight (taken s h c d) h c (cmdAt s h c d)

/-- What that command sees. -/
def issuedEnv (s : State) (h : Half) (c d : Nat) : Env := envOf (issued s h c d) h c (cmdAt s h c d) (s.half h).nextCid []

/-- An issued command runs at once: its accesses are allowed, none of its reads goes over a link, it meets no fault, and no hardware error waits (R134, R226). -/
def RunsAtOnce (s : State) (h : Half) (c d : Nat) : Prop :=
  let u := issued s h c d
  let e := issuedEnv s h c d
  let p := planOf u e []
  errorFree s ∧ s.poison = []
  ∧ rangesVerdict u h (effClass u h e.n) false p.reads = .ok ∧ rangesVerdict u h (effClass u h e.n) true p.writes = .ok
  ∧ p.exec = false ∧ hitsStream u h e.n (p.writes ++ p.poolW) = false ∧ missingLines u h p.reads [] = []

/-- Each of these ranges has got its bytes, and every byte outside them is as it was. -/
def Wrote (s t : State) (ws : List (Nat × List Byte)) : Prop :=
  (∀ w ∈ ws, t.read w.1 w.2.length = w.2) ∧ ∀ a, (∀ w ∈ ws, a < w.1 ∨ w.1 + w.2.length ≤ a) → t.byte a = s.byte a

/-- No two of these ranges meet. -/
def Apart (ws : List (Nat × List Byte)) : Prop := ws.Pairwise (fun x y => x.1 + x.2.length ≤ y.1 ∨ y.1 + y.2.length ≤ x.1)

/-- Core `c`'s command has touched memory, its own core and its own context's flags only: other cores and contexts, the queues, the other half, the registers and the outputs are as they were. -/
def OwnCore (s t : State) (h : Half) (c n : Nat) : Prop :=
  (∀ k, k ≠ c → t.core h k = s.core h k) ∧ (∀ k, k ≠ n → t.ctx h k = s.ctx h k)
  ∧ (∃ fl, t.ctx h n = { s.ctx h n with flags := fl }) ∧ (t.half h).queues = (s.half h).queues ∧ (t.half h).sems = (s.half h).sems
  ∧ (t.half h).manifest = (s.half h).manifest ∧ t.half h.other = s.half h.other ∧ t.dict = s.dict ∧ t.outbox = s.outbox

/-- The bytes `[a, a + n)` lie in half `h`'s own DRAM or Meres. -/
def ownBytes (s : State) (h : Half) (a n : Nat) : Prop := ∀ i < n, s.region (a + i) = .dram h ∨ ∃ cl, s.region (a + i) = .mere h cl

/-- The row of a `MOVE` in a mode (R111). -/
def moveInstr (m : Nat) (h : Half) (c : Nat) (d : BitVec 256) : Instr :=
  if m = 0 then .move h c d else if m = 1 then .s2c2 h c d else if m = 2 then .s2c4 h c d else if m = 3 then .c2s2 h c d
  else if m = 4 then .c2s4 h c d else if m = 5 then .fill h c d else .move h c d

/-- The row of a 32-byte descriptor. -/
def coreRow (h : Half) (c : Nat) (d : BitVec 256) : Instr :=
  match opcodeOf d.toNat with
  | 1 => moveInstr (moveMode d.toNat) h c d
  | 2 => .loadw h c d
  | 3 => .stream h c d
  | 5 => .crop h c d
  | 6 => .pool h c d
  | 7 => .vec h c d
  | 9 => if bitAt d.toNat 64 then .semRelease h c d else .semAcquire h c d
  | 0x0A => .gate h c d
  | 0x0B => .moor h c d
  | 0x0C => .tally h c d
  | _ => .endCmd h c d

end Sys2Proof.Machine
end

