-- ==== Sys2Proof/Certificates/Slice0/Obligations.lean ====
section
/-! DEFINITION. The statements for the provers. Where a statement gives the next state whole, everything it does not name is unchanged: registers, flags, contexts, outputs and every byte of memory. That a row whose precondition does not hold changes nothing (log 1), and that a time-driven row carries its ticket time `t` and first brings both halves' time there (log 3), is the model's own form of the table's rows. -/
open Sys2Proof Sys2Proof.Machine

/-! ### The machine -/

/-- A step takes the command at the front of the queue and carries it out with the queue's rest; with no command waiting, Bow's ticket time advances by one 2 ns step of R297 and Stern's over the same time at its own rate (R297, R298; the model's choice, log 2). Every command has an effect: the block never stops. -/
def Obligations.StepRunsFront : Prop :=
  ((∀ (c : Instr) (rest : List Instr) (s : State), step { s with pending := c :: rest } = exec c { s with pending := rest })
  ∧ ∀ s : State, s.pending = [] → ∃ t, step s = .next t ∧ t.bow.tt = s.bow.tt + 2
      ∧ (s.rate .bow = 0 → s.rate .stern = 0 → s.stern.phase = 0 → t.stern.tt = s.stern.tt + 2 ∧ t.clock = s.clock + 2)
      ∧ t = { s with
          clock := t.clock, bow := { s.bow with tt := t.bow.tt, phase := 0 }
          stern := { s.stern with tt := t.stern.tt, phase := t.stern.phase } })
  ∧ ((∀ (c : Instr) (s : State), ∃ t, exec c s = .next t) ∧ ∀ s : State, ∃ t, step s = .next t)

/-- What reset leaves (R265, R276, R284, R302, R433): no command waits, both halves hold `FAULT_N` asserted with `READY` 0 and `PEER` not yet started, ticket time 0, no context on a core, no link up, `HALF_STATUS` as its table resets it; the stores are in canonical form. -/
def Obligations.ResetState : Prop :=
  State.reset.pending = [] ∧ StoresWf State.reset
  ∧ ∀ h : Half, (State.reset.half h).faultN = true ∧ (State.reset.half h).ready = 0 ∧ (State.reset.half h).peer = 3
      ∧ (State.reset.half h).tt = 0 ∧ (State.reset.half h).ferry = linkDown ∧ (State.reset.half h).cw0 = linkDown
      ∧ (State.reset.half h).cw1 = linkDown ∧ (State.reset.half h).host.linkUp = false ∧ (State.reset.half h).boot.stage = 0
      ∧ State.reset.halfStatus h = 0x3000 ∧ ∀ c, (State.reset.core h c).ctx = none

/-- The canonical form of memory and of the registers, in which equal contents are equal data, is kept by every step, whatever the state and the command. The form, and the zero of what is not listed where the spec gives no reset value, are the model's own (R129, R462; log 6). -/
def Obligations.StoresWfKept : Prop := ∀ s t : State, StoresWf s → step s = .next t → StoresWf t

/-- A step takes exactly the front command off the queue, changes neither the part record nor the pins that name the device (R1, R289), never takes back what has left the block, and never uses a free value twice. The free values, the list of what has left the block and the part as data are the model's own (log 9, 17, 18). -/
def Obligations.StepKeepsQueueAndOutputs : Prop :=
  ∀ s t : State, step s = .next t →
    t.pending = s.pending.tail ∧ t.part = s.part ∧ t.devPins = s.devPins ∧ s.outbox <+: t.outbox ∧ s.freeCtr ≤ t.freeCtr

/-- `FAULT_N`, once asserted, stays asserted through every command but the `READY_3` with which its half enters service after a reset (R389, R398). -/
def Obligations.FaultNStays : Prop :=
  ∀ (c : Instr) (s t : State) (h : Half), (s.half h).faultN = true → exec c s = .next t → (t.half h).faultN = false →
    ∃ u, c = .ready3 h u


/-! ### Queues, contexts and the dispatcher -/

/-- `DOORBELL` (R209, R457): an accepted one moves `TAIL` and nothing else; a write that is not one aligned 8-byte write, one with a wrong word, one for a disabled queue and one out of range are discarded and counted with their row of *Doorbell outcomes*, and the last also clears `EN` and sets `ERR`. An aligned 8-byte write that reaches an idle half sets its `POWER_STATE` to Run, whatever becomes of it. -/
def Obligations.Doorbell : Prop :=
  (∀ (h : Half) (src : Src) (q : Nat) (bs : List Byte) (s : State),
    (srcCtx s h src).isSome = true → q < 131072 → bs.length = 8 → powerState s h ≠ 1 →
    let y := s.quay h q
    let w := leNat bs
    let tail := fld w 15 0
    let dist := (tail + 65536 - y.head) % 65536
    let used := (y.tail + 65536 - y.head) % 65536
    let sound := fld w 31 16 = q % 65536 ∧ fld w 63 32 = 0
    (sound → y.en = true → dist ≤ 2 ^ y.ringLog2 → used ≤ dist →
      exec (.doorbell h src (8 * q) bs) s = .next (s.setQuay h q { y with tail := tail }))
    ∧ (¬ sound → exec (.doorbell h src (8 * q) bs) s = .next (s.observe h 4 1 0xFF q 2 none))
    ∧ (sound → y.en = false → exec (.doorbell h src (8 * q) bs) s = .next (s.observe h 4 1 0xFF q 3 none))
    ∧ (sound → y.en = true → (2 ^ y.ringLog2 < dist ∨ dist < used) →
      exec (.doorbell h src (8 * q) bs) s
        = .next ((s.setQuay h q { y with en := false, err := 10 }).observe h 4 1 0xFF q 4 none)))
  ∧ (∀ (h : Half) (src : Src) (ofs : Nat) (bs : List Byte) (s : State),
    (srcCtx s h src).isSome = true → bs ≠ [] → ofs + bs.length ≤ 0x100000 → (bs.length ≠ 8 ∨ ofs % 8 ≠ 0) →
    exec (.doorbell h src ofs bs) s = .next (s.observe h 4 1 0xFF (ofs / 8) 1 none))
  ∧ (∀ (h : Half) (src : Src) (q : Nat) (bs : List Byte) (s : State), StoresWf s →
    (srcCtx s h src).isSome = true → q < 131072 → bs.length = 8 → powerState s h = 1 →
    ∃ t, exec (.doorbell h src (8 * q) bs) s = .next t ∧ powerState t h = 0)

/-- `DISPATCH_CHOICE` (R221, R222): the ready queue at or above the cursor in the most urgent class that has work gives its head ticket; a well-formed ticket of an idle context with every slot free, whose program is installed and names cores in service, that admits no stream and whose bytes and arguments read as good, puts the context in `PLACING` with all its cores claimed, `HEAD` moves on by one and the class's cursor goes past the queue. Nothing in memory changes. -/
def Obligations.DispatchChoice : Prop :=
  ∀ (h : Half) (q cls n : Nat) (p : Prog) (s : State), StoresWf s →
    dispatcherOn s h = true → cls < 4 →
    (∀ c ≤ cls, classQuiet s h c) → (∀ c < cls, chooseQueue s h c = none) → chooseQueue s h cls = some q →
    (s.half h).cores = [] →
    let y := s.quay h q
    let a := y.tring + 64 * (y.head % 2 ^ y.ringLog2)
    let tk := engineNat s h a 64
    y.context = n → y.cls = cls → (s.ctx h n).cls = cls → (s.ctx h n).state = .idle → y.aborts = [] →
    cleanMem s → ringReach s h a 64 = true → inMemory s a = true → ticketBad tk cls = false → fld tk 197 194 = 0 →
    resolveProg s h (fld tk 63 32) = some p → (progCores h p) ≠ [] → (progCores h p).length ≤ (s.ctx h n).saveMib →
    (progCores h p).any (coreRetired s h) = false → engineReach s (fld tk 111 64) 512 = true →
    (progNames h.other p && peerLost s h) = false → (∀ cl, (residents s h cl).length < 16) →
    ∃ t, exec (.dispatchChoice h) s = .next t
      ∧ (t.ctx h n).state = .placing ∧ (t.ctx h n).want = progCores h p ∧ (t.ctx h n).lastSeq = fld tk 31 0
      ∧ (t.ctx h n).flags = tickZero ∧ (t.ctx h n).progress = 0
      ∧ t.quay h q = { y with head := (y.head + 1) % 65536 }
      ∧ nth (t.half h).cursors cls = (q + 1) % 131072
      ∧ t.mem = s.mem ∧ t.dict = s.dict ∧ t.half h.other = s.half h.other

/-- `CORE_HANDOVER` (R99 to R102, R128, R129, R222): a free core in service, for which no Spring test waits, goes to the context that claims it. A context that starts there finds its Pool cleared and its stream copied to `STREAM_BASE`; the core holds its tags and arguments, an empty window and no command in flight. A context that has saved its work on that core begins its restore there, and no memory changes. With the last claimed core the context runs. No core that is not at a mooring changes beside it, nor any byte outside the Pool and the stream. A core given to nobody stays as it is. -/
def Obligations.CoreHandover : Prop :=
  (∀ (h : Half) (c n : Nat) (tk : Ticket) (r : PerCore) (s : State), StoresWf s →
    powerState s h ≤ 1 → c < s.part.cores → (s.core h c).ctx = none → coreRetired s h c = false →
    s.num (hk8 h 0xA032) c ≠ 2 → springReady s h c = false →
    claimant s h c = some n → (s.ctx h n).ticket = some tk → progCore h tk.prog c = some r →
    let x := s.ctx h n
    let common (t : State) : Prop :=
      (∀ k, k ≠ c → (s.core h k).wait = none → t.core h k = s.core h k)
      ∧ (t.ctx h n).want = x.want.filter (fun k => decide (k ≠ c))
      ∧ (x.want.filter (fun k => decide (k ≠ c)) = [] → (t.ctx h n).state = .running)
      ∧ t.half h.other = s.half h.other ∧ (powerState s h = 0 → t.dict = s.dict)
    (x.saved.any (fun v => v.core == c) = false → cleanMem s →
      ∃ t, exec (.coreHandover h c) s = .next t ∧ common t
        ∧ t.core h c = { coreFree with ctx := some n, streamBase := r.streamBase, streamLen := r.streamLen, tags := r.tags, args := tk.args }
        ∧ (∀ a, (a < poolBase h c ∨ poolBase h c + 0x200000 ≤ a) → (a < r.streamBase ∨ r.streamBase + r.streamLen ≤ a) →
            t.byte a = s.byte a)
        ∧ (∀ a, poolBase h c ≤ a → a < poolBase h c + 0x200000 → (a < r.streamBase ∨ r.streamBase + r.streamLen ≤ a) →
            t.byte a = 0)
        ∧ ((tk.prog.bodyAddr + r.imgOfs + r.streamLen ≤ poolBase h c ∨ poolBase h c + 0x200000 ≤ tk.prog.bodyAddr + r.imgOfs) →
            t.read r.streamBase r.streamLen = s.read (tk.prog.bodyAddr + r.imgOfs) r.streamLen))
    ∧ (x.saved.any (fun v => v.core == c) = true →
      ∃ t, exec (.coreHandover h c) s = .next t ∧ common t ∧ t.mem = s.mem
        ∧ t.core h c = { coreFree with
            ctx := some n, restoring := true, streamBase := r.streamBase, streamLen := r.streamLen, tags := r.tags }))
  ∧ (∀ (h : Half) (c : Nat) (s : State), powerState s h = 0 → c < s.part.cores → (∀ p ∈ (s.half h).cores, p.2.wait = none) →
    ((s.core h c).ctx.isSome = true ∨ coreRetired s h c = true ∨ s.num (hk8 h 0xA032) c = 2
      ∨ (springReady s h c = false ∧ claimant s h c = none)) →
    exec (.coreHandover h c) s = .next s)

/-- `CONTEXT_RUNNABLE` (R219): a context blocked at a wait that has come to hold becomes `PARKED`, and one that was unloaded while blocked becomes runnable; one none of whose waits holds stays as it is. `SWAP_DRAIN` (R227): when a cluster's free swap space is below `SWAP_RESERVE_KIB`, the live sets that the least recently run parked context keeps there drain to its save area, where that lies in channel groups of its class, and no other byte of memory changes; above it nothing happens. Where in the save area the sets then lie is left open (log 13). -/
def Obligations.ContextUpkeep : Prop :=
  (∀ (h : Half) (n : Nat) (t : Time) (s : State),
    let u := s.atTime h t
    let x := u.ctx h n
    powerState s h ≠ 1 →
    (x.saved.any (savedReady u h n) = false → exec (.contextRunnable h n t) s = .next u)
    ∧ (x.saved.any (savedReady u h n) = true → x.state = .blocked →
        exec (.contextRunnable h n t) s = .next (u.setCtx h n { x with state := .parked }))
    ∧ (x.saved.any (savedReady u h n) = true → x.state = .unloaded → x.runnable = false →
        exec (.contextRunnable h n t) s = .next (u.setCtx h n { x with runnable := true })))
  ∧ (∀ (h : Half) (cl n : Nat) (s : State),
    (StoresWf s → swapCapacity s h < swapUsed s h cl + 1024 * s.num (hk h 0x4300) 0x0A → oldestOf s h (drainable s h cl) = some n →
      let x := s.ctx h n
      (saveRoom s h n ≠ 0 →
        ∃ t, exec (.swapDrain h cl) s = .next t
          ∧ (∃ place : SavedCore → Nat, t.ctx h n = { x with
              saved := x.saved.map (fun v => if v.core / 8 = cl ∧ v.drained = false then { v with drained := true, place := place v } else v) })
          ∧ (∀ j, j ≠ n → t.ctx h j = s.ctx h j) ∧ t.dict = s.dict ∧ t.half h.other = s.half h.other ∧ t.outbox = s.outbox
          ∧ (∀ a, (a < x.saveAddr ∨ x.saveAddr + saveRoom s h n ≤ a) → t.byte a = s.byte a))
      ∧ (saveRoom s h n = 0 → exec (.swapDrain h cl) s = .next s))
    ∧ (swapUsed s h cl + 1024 * s.num (hk h 0x4300) 0x0A ≤ swapCapacity s h → exec (.swapDrain h cl) s = .next s))

/-- `COMPLETION_RECORD` (R207, R214, R216, R217): once no tally OR of its context is outstanding, the oldest ended ticket of a queue gets its record in slot k mod 2^`RING_LOG2` of the completion ring, `CTAIL` advances by one and its context, where the ticket ran in one, is idle; without `IRQ` and `NOTIFY` no message is sent. Only the 32 bytes of the record change in memory. -/
def Obligations.CompletionRecord : Prop :=
  ∀ (h : Half) (q : Nat) (d : DoneRec) (s : State), StoresWf s →
    (s.half h).done.find? (fun e => e.queue == q) = some d → (∀ n, d.ctx = some n → (s.ctx h n).pend = 0) →
    let y := s.quay h q
    let a := y.cring + 32 * (d.k % 2 ^ y.ringLog2)
    cleanMem s → ringReach s h a 32 = true → inMemory s a = true → y.irq = false → d.notify = false →
    ∃ t, exec (.completionRecord h q) s = .next t
      ∧ (∀ n, d.ctx = some n → t.read a 32 = recordBytes d (s.ctx h n).progress y.ringLog2)
      ∧ (d.ctx = none → t.read a 32 = recordBytes d 0 y.ringLog2) ∧ SameMemBut s t a 32
      ∧ t.quay h q = { y with ctail := (y.ctail + 1) % 65536 }
      ∧ (∀ n, d.ctx = some n → (t.ctx h n).state = .idle ∧ (t.ctx h n).ticket = none)
      ∧ (t.half h).done = (s.half h).done.erase d
      ∧ t.outbox = s.outbox ∧ t.dict = s.dict ∧ t.half h.other = s.half h.other

/-- `ABORT` (R230, R231): a well-formed request of host software for a ticket that still waits in its queue's ring marks that ticket, one for the ticket that runs ends it with the status `ABORTED`, and the status byte `OK` is written in 8 bytes at the response address; a request for a ticket that neither runs nor waits is answered `ALREADY_DONE` and changes nothing else; a request of a program for a queue of another context is answered `ACCESS_RIGHT`. -/
def Obligations.Abort : Prop :=
  ∀ (h : Half) (r : BitVec 128) (s : State),
    let q := fld r.toNat 47 31
    let seq := fld r.toNat 79 48
    let ra := fld r.toNat 127 80
    let y := s.quay h q
    let x := s.ctx h y.context
    let waiting := upto ((y.tail + 65536 - y.head) % 65536) (fun i => (y.head + i) % 65536)
    let found := waiting.find? (fun k => ticketSeq s h y k == seq && !y.aborts.contains k)
    abortBad s r.toNat = false → inMemory s ra = true → cleanMem s →
    (hostServed s h = true → (∀ tk, x.ticket = some tk → tk.queue ≠ q ∨ tk.seq ≠ seq ∨ x.state = .ending) →
      (∀ k, found = some k → exec (.abort h .host r) s = .next ((s.setQuay h q { y with aborts := y.aborts ++ [k] }).write ra (natLe 8 0)))
      ∧ (found = none → exec (.abort h .host r) s = .next (s.write ra (natLe 8 2))))
    ∧ (∀ tk, hostServed s h = true → x.ticket = some tk → tk.queue = q → tk.seq = seq → x.state ≠ .ending →
      exec (.abort h .host r) s = .next (engineWrite (endTicket s h y.context 1) h ra (natLe 8 0)))
    ∧ (∀ c n, (s.core h c).ctx = some n → y.context ≠ n → exec (.abort h (.core c) r) s = .next (s.write ra (natLe 8 11)))

/-- `QUAY_DESCRIPTOR_WRITE` (R205, R206): while `EN` is 0 a host write sets the fields it covers; one that sets `EN` with a ring size of 4 to 15 starts the queue empty with `ERR` 0, and one with another size is refused with `ERR` `ACCESS_STATE`; while `EN` is 1 only `EN` may change, and a write that would change another field is discarded. A write that is not 4 or 8 aligned bytes is discarded and counted (R264). `CONTEXT_ENTRY_WRITE` (R218): host software sets a context's save area, class and `EN` while it is idle and not enabled; otherwise only `EN` may change, and a write that would change more is discarded. -/
def Obligations.QueueTables : Prop :=
  (∀ (h : Half) (q ofs : Nat) (bs : List Byte) (s : State),
    hostServed s h = true → q < 131072 → ofs < 24 →
    let y := s.quay h q
    let w := leNat (overlay (quayBytes y) ofs bs)
    let z : Quay := { y with
      tring := fld w 191 144, cring := fld w 143 96, ringLog2 := fld w 47 43, context := fld w 42 31, cls := fld w 30 29
      vector := fld w 28 18, irq := bitAt w 17 }
    (bar0Aligned (24 * q + ofs) bs.length = true → y.en = false → bitAt w 16 = false →
      exec (.quayDescriptorWrite h q ofs bs) s = .next (s.setQuay h q z))
    ∧ (bar0Aligned (24 * q + ofs) bs.length = true → y.en = false → bitAt w 16 = true → 4 ≤ z.ringLog2 → z.ringLog2 ≤ 15 →
      exec (.quayDescriptorWrite h q ofs bs) s
        = .next ((s.setQuay h q { z with en := true, err := 0, head := 0, tail := 0, ctail := 0, aborts := [] }).modHalf h
            (fun x => { x with passed := x.passed.filter (fun p => decide (p.1 ≠ q)) })))
    ∧ (bar0Aligned (24 * q + ofs) bs.length = true → y.en = false → bitAt w 16 = true → (z.ringLog2 < 4 ∨ 15 < z.ringLog2) →
      exec (.quayDescriptorWrite h q ofs bs) s = .next (s.setQuay h q { z with err := 10 }))
    ∧ (bar0Aligned (24 * q + ofs) bs.length = true → y.en = true → z = y →
      exec (.quayDescriptorWrite h q ofs bs) s = .next (s.setQuay h q { y with en := bitAt w 16 }))
    ∧ (bar0Aligned (24 * q + ofs) bs.length = true → y.en = true → z ≠ y → exec (.quayDescriptorWrite h q ofs bs) s = .next s)
    ∧ (bar0Aligned (24 * q + ofs) bs.length = false →
      exec (.quayDescriptorWrite h q ofs bs) s = .next (s.observe h 4 1 0xFF (0x80000000 + (24 * q + ofs)) 0 none)))
  ∧ (∀ (h : Half) (n ofs : Nat) (bs : List Byte) (s : State),
    hostServed s h = true → n < 4096 → ofs < 32 → bar0Aligned (32 * n + ofs) bs.length = true →
    let x := s.ctx h n
    let w := leNat (overlay (ctxBytes s h n) ofs bs)
    let y : Ctx := { x with saveAddr := fld w 255 208, saveMib := fld w 207 200, cls := fld w 1 0 }
    (x.state = .idle → x.en = false →
      exec (.contextEntryWrite h n ofs bs) s = .next (s.setCtx h n { y with en := bitAt w 4 }))
    ∧ ((x.state ≠ .idle ∨ x.en = true) → y = x →
      exec (.contextEntryWrite h n ofs bs) s = .next (s.setCtx h n { x with en := bitAt w 4 }))
    ∧ ((x.state ≠ .idle ∨ x.en = true) → y ≠ x → exec (.contextEntryWrite h n ofs bs) s = .next s))



/-! ### The Manifest engine -/

/-- Requests the engine turns away (R192): an entry that is no lead or that another context owns is answered `ACCESS_RIGHT`, a wrong generation `ACCESS_STATE`; a malformed request of host software is answered `FAULT_CONTEXT`, one of a program ends its context. Nothing else changes. `PROPOSE`, `FINISH` and `RESUME` (R190, R191, R192): a request in a state the operation accepts changes every entry of the stream, and no other, and is answered `OK`; nothing else changes. In any other state, or on a built stream, it is answered `ACCESS_STATE` (`FINISH` of a finished stream: `ALREADY_DONE`) and changes nothing. -/
def Obligations.ManifestState : Prop :=
  (∀ (op : Nat) (h : Half) (src : Src) (ctx : Option Nat) (r : BitVec 256) (s : State),
    op ∈ [2, 3, 4, 5, 6, 7] → fld r.toNat 7 0 = op → srcCtx s h src = some ctx →
    let m := s.mentry h (fld r.toNat 71 59)
    let answer (st : Nat) := engineWrite s h (fld r.toNat 255 208) (manResp 0 0 0 0 op st)
    (manBad s h r.toNat = false → (m.layer ≠ 0 ∨ (ctx ≠ none ∧ ctx ≠ some m.context)) →
      exec (manReq op h src r) s = .next (answer 11))
    ∧ (manBad s h r.toNat = false → m.layer = 0 → (ctx = none ∨ ctx = some m.context) → fld r.toNat 87 72 ≠ m.gen →
      exec (manReq op h src r) s = .next (answer 10))
    ∧ (manBad s h r.toNat = true → ctx = none → exec (manReq op h src r) s = .next (answer 3))
    ∧ (∀ n, manBad s h r.toNat = true → ctx = some n → exec (manReq op h src r) s = .next (faultCtx s h n)))
  ∧ (∀ (h : Half) (src : Src) (ctx : Option Nat) (r : BitVec 256) (s : State),
    StoresWf s → srcCtx s h src = some ctx → manBad s h r.toNat = false →
    let e := fld r.toNat 71 59
    let m := s.mentry h e
    let ra := fld r.toNat 255 208
    let L := layersOf s h m.model
    m.layer = 0 → (ctx = none ∨ ctx = some m.context) → fld r.toNat 87 72 = m.gen → inMemory s ra = true → cleanMem s →
    (fld r.toNat 7 0 = 2 →
      if m.built = false ∧ (m.state = .active ∨ m.state = .starved) then
        ∃ t, exec (.propose h src r) s = .next t ∧ Answered s t ra (manResp 0 0 0 0 2 0) ∧ ManifestOnly s t h
          ∧ StreamSet s t h e L (fun _ x => { x with cand := fld r.toNat 127 104 })
      else exec (.propose h src r) s = .next (s.write ra (manResp 0 0 0 0 2 10)))
    ∧ (fld r.toNat 7 0 = 5 →
      if m.state = .done then exec (.finish h src r) s = .next (s.write ra (manResp 0 0 0 0 5 2))
      else if m.built = false ∧ (m.state = .active ∨ m.state = .starved) then
        ∃ t, exec (.finish h src r) s = .next t ∧ Answered s t ra (manResp 0 0 0 0 5 0) ∧ ManifestOnly s t h
          ∧ StreamSet s t h e L (fun _ x => { x with state := .done })
      else exec (.finish h src r) s = .next (s.write ra (manResp 0 0 0 0 5 10)))
    ∧ (fld r.toNat 7 0 = 6 →
      if m.built = false ∧ m.state = .done then
        ∃ t, exec (.resume h src r) s = .next t ∧ Answered s t ra (manResp 0 0 0 0 6 0) ∧ ManifestOnly s t h
          ∧ StreamSet s t h e L (fun _ x => { x with state := .active })
      else exec (.resume h src r) s = .next (s.write ra (manResp 0 0 0 0 6 10))))

/-- `APPEND` (R185, R191, R193): the granted pages are charged to the stream's class, `LENGTH` rises by `COUNT` in every layer and `NEXT` of the lead becomes `VALUE`; memory changes only in the response and in the index slots the new pages take. -/
def Obligations.ManifestAppend : Prop :=
  ∀ (h : Half) (src : Src) (ctx : Option Nat) (r : BitVec 256) (ps : List Nat) (s : State),
    StoresWf s → srcCtx s h src = some ctx → manBad s h r.toNat = false → fld r.toNat 7 0 = 4 →
    let e := fld r.toNat 71 59
    let m := s.mentry h e
    let ra := fld r.toNat 255 208
    let L := layersOf s h m.model
    let n := m.length + fld r.toNat 127 104
    let per := pagesFor (n + (if m.built then m.cand else 0)) - heldPages m
    m.layer = 0 → (ctx = none ∨ ctx = some m.context) → fld r.toNat 87 72 = m.gen → inMemory s ra = true → cleanMem s →
    (m.state = .active ∨ m.state = .starved) → n ≤ tokenLimit s h m.model → grantPages s h m.cls (per * L) = some ps →
    ∃ t, exec (.append h src r) s = .next t
      ∧ t.read ra 32 = manResp n 0 0 0 4 0
      ∧ StreamSet s t h e L (fun j x => { x with length := n, next := if j = 0 then fld r.toNat 159 128 else x.next })
      ∧ (∀ p, Tab.get 0 (t.half h).pages p = if p ∈ ps then m.cls + 1 else Tab.get 0 (s.half h).pages p)
      ∧ t.half h = { s.half h with manifest := (t.half h).manifest, pages := (t.half h).pages }
      ∧ t.half h.other = s.half h.other ∧ t.dict = s.dict ∧ t.outbox = s.outbox
      ∧ (∀ a, (a < ra ∨ ra + 32 ≤ a) →
          (∀ j < L, ∀ i < per, a < slotAddr s h (s.mentry h (e + j)) (heldPages m + i)
            ∨ slotAddr s h (s.mentry h (e + j)) (heldPages m + i) + 4 ≤ a) → t.byte a = s.byte a)

/-- `STEP` (R193, R194): the build counter advances by one modulo 2^32; no entry's generation, length, index page, owner, class or pending token changes; memory changes only in the work list, the response and the index pages. With one stream to build, and the pages for it granted, that stream is built: `ACTIVE`, its candidates and the build's number set in every layer. That a `STEP` of host software, which has no work list in a context, asks for no stream is the model's reading (log 20). -/
def Obligations.ManifestStep : Prop :=
  ∀ (h : Half) (src : Src) (ctx : Option Nat) (r : BitVec 256) (s : State),
    StoresWf s → srcCtx s h src = some ctx → manBad s h r.toNat = false → fld r.toNat 7 0 = 1 → pageBytes s h % 4 = 0 → cleanMem s →
    let list := fld r.toNat 207 160
    let cap := fld r.toNat 159 128
    let ra := fld r.toNat 255 208
    let step := ((s.half h).stepNo + 1) % 2 ^ 32
    ∃ t, exec (.step h src r) s = .next t ∧ (t.half h).stepNo = step
      ∧ t.half h.other = { s.half h.other with recMirror := (t.half h.other).recMirror }
      ∧ (∀ k, let x := s.mentry h k
              let y := t.mentry h k
              y = { x with state := y.state, cand := y.cand, built := y.built, step := y.step, seg := y.seg })
      ∧ (∀ a, (a < list ∨ list + cap ≤ a) → (a < ra ∨ ra + 32 ≤ a) →
          (∀ k, a < slotAddr s h (s.mentry h k) 0 ∨ slotAddr s h (s.mentry h k) 0 + pageBytes s h ≤ a) → t.byte a = s.byte a)
      ∧ (∀ n e ps, ctx = some n →
          ((s.half h).manifest.map Prod.fst).filter (buildable s h n (fld r.toNat 58 53)) = [e] →
          let m := s.mentry h e
          let L := layersOf s h m.model
          let c := if m.cand > 0 then m.cand else fld r.toNat 52 48
          48 ≤ cap → m.length + c ≤ tokenLimit s h m.model →
          grantPages s h m.cls ((pagesFor (m.length + c) - pagesFor m.length) * L) = some ps →
          StreamSet s t h e L (fun _ x => { x with state := .active, cand := c, built := true, step := step, seg := 0 })
          ∧ (inMemory s ra = true → t.read ra 32 = manResp 0 step 1 0 1 0))

/-- `ACCEPT` of one verify record, by a request that names a lead of its context with its generation (R192, R198, R199): the greedy path from the pending token is accepted. `LENGTH` rises by the accepted tokens in every layer, the candidates are gone, `NEXT` is the choice after the last accepted one, and the answer counts them. When the accepted candidates follow one another no slot is copied, and memory changes only in the record, the response and the index slots of the released pages. -/
def Obligations.ManifestAccept : Prop :=
  ∀ (h : Half) (src : Src) (ctx : Option Nat) (r : BitVec 256) (s : State),
    StoresWf s → srcCtx s h src = some ctx → manBad s h r.toNat = false → fld r.toNat 7 0 = 3 → fld r.toNat 127 104 = 1 →
    cleanMem s → (s.mentry h (fld r.toNat 71 59)).layer = 0 →
    (ctx = none ∨ ctx = some (s.mentry h (fld r.toNat 71 59)).context) → fld r.toNat 87 72 = (s.mentry h (fld r.toNat 71 59)).gen →
    let a := fld r.toNat 207 160
    let ra := fld r.toNat 255 208
    let field (o n : Nat) := engineNat s h (a + o) n
    let e := field 0 2
    let C := field 4 1
    let m := s.mentry h e
    let L := layersOf s h m.model
    e < 8192 → m.layer = 0 → (ctx = none ∨ ctx = some m.context) → m.state ≠ .evicted → m.built = true → C = m.cand →
    field 2 2 = m.gen → inMemory s ra = true →
    let path := greedy C (fun j => field (16 + j) 1) (fun j => field (32 + 4 * j) 4) (fun j => field (96 + 4 * j) 4) C 0
    let n := path.length + 1
    let next := field (96 + 4 * path.getLastD 0) 4
    ∃ t, exec (.accept h src r) s = .next t
      ∧ StreamSet s t h e L (fun j x =>
          { x with length := m.length + n, cand := 0, built := false, next := if j = 0 then next else x.next })
      ∧ t.read ra 32 = manResp next 0 n 0 3 0
      ∧ t.half h.other = s.half h.other ∧ t.dict = s.dict ∧ (t.half h).pages = (s.half h).pages
      ∧ (path = upto path.length (· + 1) →
          ∀ b, (b < a ∨ a + 160 ≤ b) → (b < ra ∨ ra + 32 ≤ b) →
            (∀ j < L, ∀ i, pagesFor (m.length + n) ≤ i → i < heldPages m →
              b < slotAddr s h (s.mentry h (e + j)) i ∨ slotAddr s h (s.mentry h (e + j)) i + 4 ≤ b) → t.byte b = s.byte b)

/-- `RELEASE` and `PAGE_RETURN` (R186, R190): a released stream's entries become `EVICTED` with no index page, its pages join the deferral list and stay charged; a page returns to the free list, its charge lifted, once no `ATTN` that read its entry is in flight. Neither changes memory but for the index slots and the response. That the released lead's `HEAD` names no page is the model's reading (log 29). -/
def Obligations.ManifestRelease : Prop :=
  (∀ (h : Half) (src : Src) (ctx : Option Nat) (r : BitVec 256) (s : State),
    StoresWf s → srcCtx s h src = some ctx → manBad s h r.toNat = false → fld r.toNat 7 0 = 7 →
    let e := fld r.toNat 71 59
    let m := s.mentry h e
    let ra := fld r.toNat 255 208
    let L := layersOf s h m.model
    m.layer = 0 → (ctx = none ∨ ctx = some m.context) → fld r.toNat 87 72 = m.gen → inMemory s ra = true → cleanMem s →
    m.state ≠ .evicted →
    ∃ t, exec (.release h src r) s = .next t
      ∧ StreamSet s t h e L (fun _ x => { x with state := .evicted, built := false, cand := 0, head := 0xFFFFFFFF })
      ∧ t.read ra 32 = manResp 0 0 0 0 7 0
      ∧ (t.half h).pages = (s.half h).pages ∧ (s.half h).deferred <+: (t.half h).deferred
      ∧ (∀ j < L, Tab.get 0 (s.half h).pages (s.mentry h (e + j)).head ≠ 0 →
          (s.mentry h (e + j)).head ∈ (t.half h).deferred.map (·.page))
      ∧ ((∀ j < L, ∀ k < L, j ≠ k →
            slotAddr s h (s.mentry h (e + j)) (heldPages m) ≤ slotAddr s h (s.mentry h (e + k)) 0
            ∨ slotAddr s h (s.mentry h (e + k)) (heldPages m) ≤ slotAddr s h (s.mentry h (e + j)) 0) →
          ∀ j < L, ∀ i < heldPages m, Tab.get 0 (s.half h).pages (slotPage s h (s.mentry h (e + j)) i) ≠ 0 →
            slotPage s h (s.mentry h (e + j)) i ∈ (t.half h).deferred.map (·.page))
      ∧ t.half h.other = s.half h.other ∧ t.dict = s.dict
      ∧ (∀ b, (b < ra ∨ ra + 32 ≤ b) →
          (∀ j < L, ∀ i < heldPages m, b < slotAddr s h (s.mentry h (e + j)) i ∨ slotAddr s h (s.mentry h (e + j)) i + 4 ≤ b) →
          t.byte b = s.byte b))
  ∧ ∀ (h : Half) (s : State), StoresWf s →
      let live := (s.half h).cores.flatMap (fun p => p.2.inflight.map (·.cid))
      let free := (s.half h).deferred.filter (fun d => !d.waits.any live.contains)
      ∃ t, exec (.pageReturn h) s = .next t
        ∧ (∀ p, Tab.get 0 (t.half h).pages p = if p ∈ free.map (·.page) then 0 else Tab.get 0 (s.half h).pages p)
        ∧ (t.half h).deferred = (s.half h).deferred.filter (fun d => d.waits.any live.contains)
        ∧ t.half h = { s.half h with pages := (t.half h).pages, deferred := (t.half h).deferred, passed := (s.half h).passed.filter (fun p => decide (p.2 ≠ none)) }
        ∧ t.half h.other = s.half h.other ∧ t.mem = s.mem ∧ t.dict = s.dict ∧ t.outbox = s.outbox


/-! ### The memory system -/

/-- Refresh, `RFM` and the patrol scrub (R249, R254, R255, R258): the first two change nothing; a scrub of good lines only moves on to the next data row of its group; a line with at most four bytes in error is corrected, written back and counted; any other is poisoned, no byte of memory changed, unless it lies within four bytes of another codeword, whose data it then holds. `RETRAINING` (R256, R393): one that converges clears the channel's row of failures, one that does not is counted; the third in a row on a channel whose group admits class 0 puts the half into safe state with the cause `MEMORY`. -/
def Obligations.MemoryUpkeep : Prop :=
  ((∀ (h : Half) (ch bank : Nat) (s : State), exec (.perBankRefresh h ch bank) s = .next s ∧ exec (.rfm h ch bank) s = .next s)
  ∧ ∀ (h : Half) (g : Nat) (t : Time) (s : State), StoresWf s →
    let u := s.atTime h t
    let d := u.num (hk h 0x4502) (4 + g)
    let line (i : Nat) := dramBase h + g * 2 ^ 34 + d * 2048 + 64 * i
    let good (i : Nat) := line i ∉ u.poison ∧ u.lineErr.find (line i) = none
    let next := (d + 1) % 2 ^ 23
    g < 4 → memOn u h = true → d < 2 ^ 23 →
    ((∀ i < 32, good i) → exec (.patrolScrub h g t) s = .next (u.setNum (hk h 0x4502) (4 + g) next))
    ∧ (∀ i < 32, (∀ j < 32, j ≠ i → good j) → line i ∉ u.poison →
        let e := Tab.get [] u.lineErr (line i)
        let ch := dramChannel (line i - dramBase h)
        (1 ≤ e.length → e.length ≤ 4 →
          exec (.patrolScrub h g t) s = .next
            ({ (u.bump (hk h 0x4500) (ch + 1) 1).observe h 7 1 0xFF ch (linBin ((e.length : Nat) : Int) 0)
                (some (dramRow (line i - dramBase h))) with lineErr := Tab.erase u.lineErr (line i) }.setNum (hk h 0x4502) (4 + g) next))
        ∧ (4 < e.length → decodePattern e = none → inTrial u h = false →
          ∃ v, exec (.patrolScrub h g t) s = .next v ∧ v.poison = u.poison ++ [line i] ∧ v.lineErr = Tab.erase u.lineErr (line i)
            ∧ v.mem = u.mem ∧ v.num (hk h 0x4502) (4 + g) = next ∧ v.num (hk h 0x4502) 1 = line i)
        ∧ (∀ f, 4 < e.length → decodePattern e = some f → e ≠ f →
          ∃ v, exec (.patrolScrub h g t) s = .next v ∧ v.poison = u.poison ∧ v.lineErr = Tab.erase (Tab.set [] u.lineErr (line i) f) (line i)
            ∧ (∀ j < 64, v.byte (line i + j) = u.byte (line i + j) ^^^ BitVec.ofNat 8 (Tab.get 0 e j ^^^ Tab.get 0 f j))
            ∧ (∀ a, (a < line i ∨ line i + 64 ≤ a) → v.byte a = u.byte a))))
  ∧ (∀ (h : Half) (ch : Nat) (s : State), ch < 24 → memOn s h = true →
    let row (n : Nat) := s.modHalf h (fun x => { x with safety := { x.safety with
      retrainRow := Tab.set 0 x.safety.retrainRow ch n } })
    let n := Tab.get 0 (s.half h).safety.retrainRow ch + 1
    exec (.retraining h ch true) s = .next (row 0)
    ∧ ((n < 3 ∨ bitAt (s.num (hk h 0x4300) (1 + ch % 4)) 0 = false) →
        exec (.retraining h ch false) s = .next ((row n).bump (hk h 0x4502) 8 1))
    ∧ (3 ≤ n → bitAt (s.num (hk h 0x4300) (1 + ch % 4)) 0 = true → StoresWf s → s.halfState h ≠ 4 → s.halfState h ≠ 5 →
        inTrial s h = false → ∃ t, exec (.retraining h ch false) s = .next t ∧ SafeEntered s t h 5
          ∧ t.num (hk h 0x4502) 8 = satAdd 32 (s.num (hk h 0x4502) 8) 1))



/-! ### The host link -/

/-- BAR4 (R258, R264, R266, R268): a write to good lines outside the program store puts exactly its bytes into DRAM and changes nothing else; a write of part of a poisoned line leaves it, and the safety manager is told. A read answers the bytes; where a line is poisoned it answers a poisoned completion of `0xFF` bytes and the safety manager is told; one past the BAR is an Unsupported Request. BAR0 (R206, R218, R245, R264, R269, R413): a write reaches the Quay, the context table and the MSI-X table as their own rows do; one to a mailbox's request area sets its bytes there; one to the Manifest window or another read-only place takes nothing; one that is not 4 or 8 aligned bytes is discarded and counted. Bytes of host and configuration space that the spec does not give are the model's (log 7, 15). -/
def Obligations.HostWindows : Prop :=
  (∀ (h : Half) (ofs n : Nat) (bs : List Byte) (s : State),
    StoresWf s → hostServed s h = true → memOn s h = true →
    let base := dramBase h + ofs
    let good (n : Nat) := ∀ l ∈ linesOf base n, l ∉ s.poison ∧ s.lineErr.find l = none
    (ofs + bs.length ≤ 2 ^ 36 → good bs.length → (∀ i < bs.length, inStore s h (base + i) = false) →
      ∃ t, exec (.bar4Write h ofs bs) s = .next t ∧ t.read base bs.length = bs ∧ SameMemBut s t base bs.length
        ∧ t = { s with mem := t.mem, poison := t.poison, lineErr := t.lineErr, sramBad := t.sramBad })
    ∧ (ofs + bs.length ≤ 2 ^ 36 → 0 < bs.length → ofs % 64 + bs.length ≤ 64 → bs.length < 64 → (base / 64 * 64) ∈ s.poison → inStore s h base = false →
      exec (.bar4Write h ofs bs) s = .next (s.tellPoison h none))
    ∧ (2 ^ 36 < ofs + n → exec (.bar4Read h ofs n) s = .next (s.emit (.unsupported h)))
    ∧ (ofs + n ≤ 2 ^ 36 → good n → exec (.bar4Read h ofs n) s = .next (s.emit (.completion h false (s.read base n))))
    ∧ (ofs + n ≤ 2 ^ 36 → (∃ l ∈ linesOf base n, l ∈ s.poison) → (∀ l ∈ linesOf base n, l ∈ s.poison ∨ s.lineErr.find l = none) →
      ∃ t, exec (.bar4Read h ofs n) s = .next t ∧ t.outbox = s.outbox ++ [.completion h true (List.replicate n 0xFF#8)]
        ∧ t.mem = s.mem ∧ t.poison = s.poison ∧ t.dict = s.dict ∧ t.half h.other = s.half h.other
        ∧ t.half h = { s.half h with safety := { (s.half h).safety with poisonReads := (t.half h).safety.poisonReads } }
        ∧ (∀ l, linesOf base n = [l] → (t.half h).safety.poisonReads
            = Tab.set 0 (s.half h).safety.poisonReads 0xFFFF (Tab.get 0 (s.half h).safety.poisonReads 0xFFFF + 1))))
  ∧ (∀ (h : Half) (o : Nat) (bs : List Byte) (s : State), hostServed s h = true →
    (∀ q ofs, q < 131072 → ofs < 24 → exec (.bar0Write h (24 * q + ofs) bs) s = exec (.quayDescriptorWrite h q ofs bs) s)
    ∧ (∀ n ofs, n < 4096 → ofs < 32 →
        exec (.bar0Write h (0x400000 + 32 * n + ofs) bs) s = exec (.contextEntryWrite h n ofs bs) s)
    ∧ (∀ v < 2048, exec (.bar0Write h (0x700000 + 16 * v + 12) (natLe 4 0)) s = exec (.msixUnmask h v) s)
    ∧ (0x1000000 ≤ o → o < 0x2000000 → 0x100 ≤ (o - 0x1000000) % 0x40000 → (o - 0x1000000) % 0x40000 + bs.length ≤ 0x20000 →
        bar0Aligned o bs.length = true →
        exec (.bar0Write h o bs) s = .next (s.modHalf h (fun x => { x with host := { x.host with
          mailboxIn := (List.zip (List.range bs.length) bs).foldl (fun t p => Tab.set 0 t (o - 0x1000000 + p.1) p.2) x.host.mailboxIn } })))
    ∧ (0x480000 ≤ o → o < 0x4C0000 → bar0Aligned o bs.length = true → exec (.bar0Write h o bs) s = .next s)
    ∧ ((o < 0x500000 ∨ 0x502000 ≤ o) → bar0Aligned o bs.length = false →
        exec (.bar0Write h o bs) s = .next (s.observe h 4 1 0xFF (0x80000000 + o) 0 none)))

/-- The host link's state (R18, R261, R271, R272, R275, R276): when the link of a half goes down its PCIe configuration and MSI-X table reset and the fall is counted, while the half computes on; a context with a host access outstanding, or one that completes with an error, ends, the error told against its core; the link trains again once `x_HD_PERST_N` is released; until `READY` reads 2 configuration requests are retried. Sideband, heartbeats and interrupts of the host link (R265, R269, R270, R277): each message, count and missed beat changes its own register and nothing else; unmasking a vector whose pending bit is set sends its message. -/
def Obligations.HostLinkState : Prop :=
  (∀ (h : Half) (s : State),
    let fallen (perst : Bool) := s.modHalf h (fun x => { x with host := { hostReset with
      perst := perst, hostAlive := x.host.hostAlive, mailboxIn := x.host.mailboxIn, mailboxOut := x.host.mailboxOut
      lostWrites := x.host.lostWrites, storeWrites := x.host.storeWrites } })
    let counted (u : State) := (u.bump (hk h 0x4600) 4 1).observe h 15 1 0xFF 3 (linBin 3 0) none
    let quiet := (s.half h).host.linkUp = true ∧ ∀ p ∈ (s.half h).cores, ∀ f ∈ p.2.inflight, f.host = false
    (quiet → exec (.hdPerstN h) s = .next (counted (fallen true)))
    ∧ (quiet → exec (.linkDown h) s = .next (counted (fallen (s.half h).host.perst)))
    ∧ ((s.half h).host.linkUp = false → exec (.hdPerstN h) s = .next (fallen true))
    ∧ exec (.hdPerstNRelease h) s = .next (s.modHalf h (fun x => { x with host := { x.host with perst := false } }))
    ∧ ((s.half h).host.perst = false → (s.half h).power.resetN = false → (s.half h).boot.stage ≠ 0 →
        exec (.linkUp h) s = .next (s.modHalf h (fun x => { x with host := { x.host with linkUp := true } })))
    ∧ (∀ wr ofs bs, (s.half h).host.linkUp = true → (s.half h).ready < 2 →
        exec (.configurationRequest h wr ofs bs) s = .next (s.emit (.cfgCompletion h true [])))
    ∧ (∀ ofs bs, (s.half h).host.linkUp = true → 2 ≤ (s.half h).ready →
        exec (.configurationRequest h false ofs bs) s
          = .next ((s.modHalf h (fun x => { x with host := { x.host with cfgDone := true } })).emit
              (.cfgCompletion h false (upto bs.length (fun i => cfgByte s h (ofs + i))))))
    ∧ (∀ c k n f how, (s.core h c).ctx = some n → (s.core h c).inflight[k]? = some f → f.host = true →
        exec (.hostCplTimeout h c k how) s = .next (faultCtx (s.modHalf h (fun x => { x with safety := { x.safety with
          hostErrs := Tab.set 0 x.safety.hostErrs c (Tab.get 0 x.safety.hostErrs c + 1) } })) h n)))
  ∧ (∀ (h : Half) (s : State),
    exec (.halfState h) s = .next (s.emit (.sideband h 1 (s.halfStatus h)))
    ∧ (∀ n, exec (.hostAlive h n) s = .next (s.modHalf h (fun x => { x with host := { x.host with hostAlive := n % 2 ^ 32 } })))
    ∧ exec (.hostHeartbeatMiss h) s = .next (s.setNum (hk h 0x4600) 6 (satAdd 32 (s.num (hk h 0x4600) 6) 1))
    ∧ exec (.adapterRetry h) s = .next (s.setNum (hk h 0x4600) 5 (satAdd 32 (s.num (hk h 0x4600) 5) 1))
    ∧ (∀ v, hostServed s h = true → v < 2048 → v ∈ (s.half h).host.msixPending → (s.half h).host.msixMaskAll = false →
        (s.half h).host.msixEnable = true → (s.half h).host.busMaster = true →
        ∃ t, exec (.msixUnmask h v) s = .next t
          ∧ (t.half h).host.msixPending = (s.half h).host.msixPending.filter (fun w => decide (w ≠ v))
          ∧ (msixByte (t.half h).host.msixTable (16 * v + 12)).toNat % 2 = 0
          ∧ t.outbox = s.outbox ++ [.msix h v (leNat (upto 8 (fun i => msixByte (s.half h).host.msixTable (16 * v + i))))
              (leNat (upto 4 (fun i => msixByte (s.half h).host.msixTable (16 * v + 8 + i))))]
          ∧ t.mem = s.mem ∧ t.dict = s.dict ∧ t.half h.other = s.half h.other))



/-! ### Ferry and Causeway -/

/-- `RD_REQ` (R258, R280, R281, R293): an allowed one is answered with the bytes of its lines, poisoned where a line is; a refused one with the first refusal and no data. Memory and every register but the links are unchanged where it meets no error. `WR` and `OR8` (R131, R280, R292, R293): an allowed write changes exactly the bytes its mask names in its lines, an OR changes its one byte, and each is acknowledged `OK`; a refused one changes no memory and is answered with its refusal. Every register but the links is unchanged. A request that came over the Ferry for another device goes on by this half's own port, which R291 picks, or is refused (R28, R291). That a request comes as a message with its lines, and its answer waits in the link, is the model's (log 10). -/
def Obligations.LinkAccess : Prop :=
  (∀ (h : Half) (p : Port) (m : LinkMsg) (s : State), StoresWf s → m.kind = .rdReq → arrives s h p m = true → onward s p m = none →
    (targetStatus s m false = 0 → cleanMem s → s.upsets = [] →
      ∃ t, exec (.rdReq h p m) s = .next t ∧ SameMem s t ∧ LinksOnly s t ∧ cleanMem t
        ∧ Handed t h p (responseTo s h m .rdData 0 false (s.read m.addr (64 * m.lines))))
    ∧ (targetStatus s m false = 0 → errorFree s →
        (∃ l ∈ s.poison, (dramHalf s l).isSome = true ∧ meets [(m.addr, 64 * m.lines)] l 64 = true) →
      ∃ t, exec (.rdReq h p m) s = .next t ∧ SameMem s t ∧ t.dict = s.dict ∧ t.poison = s.poison
        ∧ Handed t h p (responseTo s h m .rdData 0 true (s.read m.addr (64 * m.lines))))
    ∧ (targetStatus s m false ≠ 0 →
      ∃ t, exec (.rdReq h p m) s = .next t ∧ SameMem s t ∧ LinksOnly s t
        ∧ Handed t h p (responseTo s h m .rdData (targetStatus s m false) false [])))
  ∧ (∀ (h : Half) (p : Port) (m : LinkMsg) (s : State), StoresWf s → arrives s h p m = true → onward s p m = none →
    cleanMem s → s.upsets = [] →
    (m.kind = .wr → doorbellTarget s p m = none → m.poison = false → targetStatus s m true = 0 →
      ∃ t, exec (.wr h p m) s = .next t ∧ LinksOnly s t ∧ Handed t h p (responseTo s h m .wrAck 0 false [])
        ∧ ∀ a, t.byte a =
            if m.addr ≤ a ∧ a < m.addr + 64 * m.lines
              ∧ (m.masked = false ∨ bitAt (m.mask.getD ((a - m.addr) / 64) 0) ((a - m.addr) % 64) = true) then m.data.getD (a - m.addr) 0
            else s.byte a)
    ∧ (m.kind = .wr → doorbellTarget s p m = none → targetStatus s m true ≠ 0 →
      ∃ t, exec (.wr h p m) s = .next t ∧ SameMem s t ∧ LinksOnly s t
        ∧ Handed t h p (responseTo s h m .wrAck (targetStatus s m true) false []))
    ∧ (∀ g, m.kind = .or8 → (targetHalf s m m.addr true).2 = some g →
      ∃ t, exec (.or8 h p m) s = .next t ∧ LinksOnly s t ∧ SameMemBut s t m.addr 1
        ∧ t.byte m.addr = s.byte m.addr ||| m.data.headD 0 ∧ Handed t h p (responseTo s h m .orAck 0 false []))
    ∧ (m.kind = .or8 → (targetHalf s m m.addr true).2 = none →
      ∃ t, exec (.or8 h p m) s = .next t ∧ SameMem s t ∧ LinksOnly s t
        ∧ Handed t h p (responseTo s h m .orAck (targetHalf s m m.addr true).1 false [])))
  ∧ (∀ (h : Half) (m : LinkMsg) (d : Nat) (s : State), StoresWf s → arrives s h .ferry m = true → onward s .ferry m = some d →
    let u := takeMsg s h .ferry m
    let sent (q : Port) := sendMsg u h q { m with addr := (m.addr - 0x600000000000) % 2 ^ 43 }
    (∀ q, ownPort u h d m.addr = some q →
      (m.kind = .rdReq → exec (.rdReq h .ferry m) s = .next (sent q)) ∧ (m.kind = .wr → exec (.wr h .ferry m) s = .next (sent q))
      ∧ (m.kind = .or8 → exec (.or8 h .ferry m) s = .next (sent q)))
    ∧ (ownPort u h d m.addr = none → m.kind = .rdReq →
      ∃ t, exec (.rdReq h .ferry m) s = .next t ∧ SameMem s t ∧ LinksOnly s t ∧ Handed t h .ferry (responseTo s h m .rdData 3 false [])))

/-- Responses (R28, R109, R131, R132, R258, R281, R291): the access a response answers leaves the books of its half; an acknowledged OR counts as progress; read data joins its command, which goes on when all has come; a refusal or poisoned data ends the context with `FAULT_CONTEXT`, and poisoned data is told against its core. A response to the other half's request goes on over the Ferry. `COUNTER` (R287): a count for a context of the paired ticket that has started goes into its mirror of that core's counter; any other waits in the pending-counter store while that has room, and is held back while it has none. Messages as operands are the model's (log 10). -/
def Obligations.LinkResponses : Prop :=
  (∀ (h : Half) (p : Port) (m : LinkMsg) (f : Xfer) (s : State), arrives s h p m = true → answered s h p m = some f → tagHalf m.tag = h →
    let u := (takeResponse s h p m).modHalf h (fun y => { y with xfers := y.xfers.erase f })
    let x := u.ctx h f.ctx
    (m.kind = .wrAck → m.status = 0 → exec (.wrAck h p m) s = .next u)
    ∧ (m.kind = .wrAck → m.status ≠ 0 → exec (.wrAck h p m) s = .next (faultCtx u h f.ctx))
    ∧ (m.kind = .orAck → m.status = 0 →
        exec (.orAck h p m) s = .next (u.setCtx h f.ctx { x with pend := x.pend - 1, progress := x.progress + 1 }))
    ∧ (m.kind = .orAck → m.status ≠ 0 →
        exec (.orAck h p m) s = .next (faultCtx (u.setCtx h f.ctx { x with pend := x.pend - 1 }) h f.ctx))
    ∧ (∀ a n, m.kind = .rdData → m.status = 0 → m.poison = false → f.kind = .rd a n →
        let v := mapFlight u h f.core f.cid (fun y => { y with
          got := (List.range (64 * n)).foldl (fun t i => Tab.insert t (a + i) (m.data.getD i 0)) y.got })
        ((u.half h).xfers.any (fun y => y.core == f.core && y.cid == f.cid) = true → exec (.rdData h p m) s = .next v)
        ∧ ((u.half h).xfers.any (fun y => y.core == f.core && y.cid == f.cid) = false →
            exec (.rdData h p m) s = .next (advanceCmd v h f.core f.cid)))
    ∧ (m.kind = .rdData → m.poison = false → m.status ≠ 0 → exec (.rdData h p m) s = .next (faultCtx u h f.ctx))
    ∧ (m.kind = .rdData → m.poison = true → exec (.rdData h p m) s = .next (faultCtx (u.tellPoison h (some f.core)) h f.ctx))
    ∧ (m.kind = .counterAck → p = .ferry → exec (.counterAck h m) s = .next u))
  ∧ (∀ (h : Half) (p : Port) (m : LinkMsg) (s : State), arrives s h p m = true → tagHalf m.tag ≠ h →
    let on := sendFerry (takeResponse s h p m) h [m]
    (m.kind = .rdData → exec (.rdData h p m) s = .next on) ∧ (m.kind = .wrAck → exec (.wrAck h p m) s = .next on)
    ∧ (m.kind = .orAck → exec (.orAck h p m) s = .next on))
  ∧ (∀ (h : Half) (m : LinkMsg) (s : State), StoresWf s → m.kind = .counter → arrives s h .ferry m = true →
    let rest := (s.half h).pendCtrs.filter (fun c =>
      !(c.program == m.program && c.seq == m.seq && c.core == m.unit && c.ctr == m.ctr))
    (∀ n, pairedCtx s h m = some n →
      ∃ t, exec (.counter h m) s = .next t
        ∧ t.ctx h n = { s.ctx h n with mirror := Tab.set 0 (s.ctx h n).mirror (m.unit * 4 + m.ctr) (leNat (m.data.take 4)) }
        ∧ (∀ k, k ≠ n → t.ctx h k = s.ctx h k) ∧ (t.half h).pendCtrs = (s.half h).pendCtrs ∧ t.mem = s.mem ∧ t.dict = s.dict
        ∧ Handed t h .ferry (responseTo s h m .counterAck 0 false []))
    ∧ (pairedCtx s h m = none → rest.length < 1024 →
      ∃ t, exec (.counter h m) s = .next t
        ∧ (t.half h).pendCtrs = rest ++ [⟨m.program, m.seq, m.unit, m.ctr, leNat (m.data.take 4)⟩]
        ∧ (t.half h).ctxs = (s.half h).ctxs ∧ t.mem = s.mem ∧ t.dict = s.dict
        ∧ Handed t h .ferry (responseTo s h m .counterAck 0 false []))
    ∧ (pairedCtx s h m = none → 1024 ≤ rest.length → exec (.counter h m) s = .next s))

/-- Replay and retraining (R279, R283, R284, R285): a flit that fails is discarded with all later ones and asks for a resend by a `NAK` that names the last good number; a `NAK` is counted and the eighth for one number retrains the link; a retraining that succeeds makes the link `ACTIVE` at both ends, one that fails is counted and the third in a row makes it `FAILED`. Training and heartbeats (R265, R284, R285, R289, R290, R394): the Ferry trains once both halves run their firmware, and of two halves that start the follower's ticket time is then the leader's; a Causeway port trains with the partner R289 wires to it and reads another device as a cabling fault; heartbeats are sent and counted, and a missed one counts toward the link's failure. Messages and beats as operands are the model's (log 10). -/
def Obligations.LinkUpkeep : Prop :=
  (∀ (h : Half) (p : Port) (seq : Nat) (s : State), StoresWf s →
    let l := s.link h p
    let idle := ∀ f ∈ (s.half h).xfers, f.port ≠ p
    (l.state = .active → l.discard = false → seq < 1024 → flitSent s h p seq = true →
      let good := (seq + 1023) % 1024
      let last := (l.rxSeq + 1023) % 1024
      (p = .ferry → exec (.flitCrcFailure h p seq) s = .next
        ((s.setLink h .ferry { l with nakTx := some good, rxSeq := seq, discard := true }).setLink h.other .ferry
          (acknowledge (s.half h.other).ferry good)))
      ∧ (p ≠ .ferry → exec (.flitCrcFailure h p seq) s = .next
        ((s.setLink h p { l with nakTx := some last, discard := true }).emit (.flit h p (nakFlit last)))))
    ∧ (l.state = .active → (p = .ferry → (s.half h.other).ferry.nakTx = some seq) →
        ∃ t, exec (.nak h p seq) s = .next t ∧ t.num (portIdx h p) (portSubs p).1 = satAdd 32 (s.num (portIdx h p) (portSubs p).1) 1
          ∧ SameMem s t ∧ (t.half h).ctxs = (s.half h).ctxs ∧ (t.link h p).sent = l.sent
          ∧ (t.link h p).replay = (acknowledge l seq).replay
          ∧ (let n := if l.nakSeq = seq then l.nakCount + 1 else 1
             if 8 ≤ n then (t.link h p).state = .retrain else (t.link h p).nakCount = n ∧ (t.link h p).nakSeq = seq ∧ (t.link h p).state = .active))
    ∧ (l.state = .active → ∃ t, exec (.retrain h p) s = .next t ∧ (t.link h p).state = .retrain ∧ SameMem s t
        ∧ (t.link h p).sent = l.sent ∧ (t.link h p).waiting = l.waiting
        ∧ (p = .ferry → (s.half h.other).ferry.state = .active → (t.half h.other).ferry.state = .retrain)
        ∧ t.num (portIdx h p) (portSubs p).2 = satAdd 32 (s.num (portIdx h p) (portSubs p).2) 1)
    ∧ (l.state = .retrain → ∃ t, exec (.retrainDone h p true) s = .next t ∧ (t.link h p).state = .active
        ∧ (t.link h p).failedRetrains = 0 ∧ (p = .ferry → (s.half h.other).ferry.state = .retrain → (t.half h.other).ferry.state = .active)
        ∧ SameMem s t ∧ (t.half h).ctxs = (s.half h).ctxs)
    ∧ (l.state = .retrain → l.failedRetrains < 2 →
        ∃ t, exec (.retrainDone h p false) s = .next t ∧ (t.link h p) = { l with failedRetrains := l.failedRetrains + 1 } ∧ LinksOnly s t ∧ t.mem = s.mem)
    ∧ (l.state = .retrain → 2 ≤ l.failedRetrains → p ≠ .ferry → idle →
        ∃ t, exec (.retrainDone h p false) s = .next t ∧ (t.link h p).state = .failed ∧ (t.link h p).sent = [] ∧ t.mem = s.mem))
  ∧ (∀ (h : Half) (p : Port) (dev : Nat) (sig : BitVec 32) (tt : Time) (s : State), StoresWf s →
    let l := s.link h p
    let u := s.atTime h tt
    let idle := ∀ f ∈ (s.half h).xfers, f.port ≠ p
    let lead := if s.num 0x2800 1 = 1 then Half.stern else Half.bow
    let untrained (x : Link) := x.state ≠ .active ∧ x.state ≠ .retrain
    (untrained (s.half h).ferry → 3 ≤ (s.half .bow).boot.stage → 3 ≤ (s.half .stern).boot.stage →
      ∃ t, exec (.trainingDone h .ferry dev sig) s = .next t ∧ (∀ g, (t.half g).ferry.state = .active) ∧ SameMem s t
        ∧ ((s.half lead).ready ≠ 3 → (s.half lead.other).ready ≠ 3 → ∀ g, (t.half g).tt = (s.half lead).tt)
        ∧ ((s.half lead).ready = 3 → (s.half lead.other).ready ≠ 3 → ∀ g, (t.half g).tt = (s.half lead).tt)
        ∧ ((s.half lead).ready ≠ 3 → (s.half lead.other).ready = 3 → ∀ g, (t.half g).tt = (s.half lead.other).tt)
        ∧ ((s.half lead).ready = 3 → (s.half lead.other).ready = 3 → ∀ g, (t.half g).tt = (s.half g).tt))
    ∧ (p ≠ .ferry → untrained l → 3 ≤ (s.half h).boot.stage → wiredPartner s h p = some dev →
      ∃ t, exec (.trainingDone h p dev sig) s = .next t ∧ (t.link h p).state = .active ∧ t.num (portIdx h p) 2 = dev % 256
        ∧ t.num (portIdx h p) 8 = sig.toNat ∧ SameMem s t)
    ∧ (p ≠ .ferry → untrained l → 3 ≤ (s.half h).boot.stage → wiredPartner s h p ≠ some dev →
      ∃ t, exec (.trainingDone h p dev sig) s = .next t ∧ (t.link h p).state = .down
        ∧ t.num (portIdx h p) 6 = satAdd 32 (s.num (portIdx h p) 6) 1 ∧ SameMem s t)
    ∧ ((u.half h).ferry.state = .active →
        exec (.heartbeatSend h .ferry tt) s = .next (u.modHalf h (fun x => { x with
          beats := ((u.half h).beats + 1) % 2 ^ 32, beatTx := some ⟨tt, u.halfStatus h, ((u.half h).beats + 1) % 2 ^ 32⟩ })))
    ∧ (∀ b, (s.half h.other).beatTx = some b → (s.half h).ferry.state = .active →
        let v := (s.modHalf h.other (fun x => { x with beatTx := none })).modHalf h (fun x => { x with
          beatsRx := (x.beatsRx + 1) % 2 ^ 64, ferry := { x.ferry with missed := 0 }
          safety := { x.safety with peerStat := some b.status } })
        (bitAt b.status 11 = false → exec (.heartbeat h .ferry) s = .next v)
        ∧ (bitAt b.status 11 = true → b.status % 256 = 3 → (s.half h).ready = 3 →
            exec (.heartbeat h .ferry) s = .next (judgeLost v h (knownCause v h))))
    ∧ (p ≠ .ferry → l.state = .active →
        (∃ t, exec (.heartbeat h p) s = .next t ∧ (t.link h p).missed = 0 ∧ t.mem = s.mem ∧ (t.half h).ctxs = (s.half h).ctxs
          ∧ ∃ n, t.num (portIdx h p) 5 = satAdd 32 (s.num (portIdx h p) 5) n)
        ∧ ∃ t, exec (.heartbeatSend h p tt) s = .next t ∧ t.mem = s.mem ∧ t.dict = s.dict
          ∧ t.outbox = s.outbox ++ [.beat h p ⟨tt, u.halfStatus h, (l.beats + 1) % 2 ^ 32⟩])
    ∧ ((l.state = .active ∨ l.state = .retrain) → l.missed < 2 →
        ∃ t, exec (.heartbeatMiss h p) s = .next t ∧ t.link h p = { l with missed := l.missed + 1 } ∧ t.mem = s.mem
          ∧ (t.half h).ctxs = (s.half h).ctxs ∧ t.outbox = s.outbox
          ∧ (p = .ferry → t.num (hk h 0x4620) 5 = satAdd 32 (s.num (hk h 0x4620) 5) 1))
    ∧ (l.state = .active → 2 ≤ l.missed → p ≠ .ferry → idle →
        ∃ t, exec (.heartbeatMiss h p) s = .next t ∧ (t.link h p).state = .failed ∧ (t.link h p).sent = [] ∧ t.mem = s.mem))

/-- What crosses the Ferry beside memory traffic (R27, R279, R286, R299, R307, R315, R378, R408, R409): a `TIME` flit carries its sender's ticket time, numbered and kept for a replay, by which the follower's servo runs toward the leader; a mirrored value is acknowledged, an invalid mark is taken over, a request of the other half is served, a replica waits in the other switch for its own launch and any other frame is bridged there. What carries them arrives as any message does. -/
def Obligations.FerryServices : Prop :=
  ∀ (h : Half) (tt : Time) (s : State),
    let u := s.atTime h tt
    let l := (u.half h).ferry
    (l.state = .active → l.replay.length < replaySize → exec (.timeSend h tt) s = .next (u.modHalf h (fun x => { x with
      timeTx := some (tt, l.txSeq)
      ferry := { l with replay := l.replay ++ [numbered l l.txSeq 6 (natLe 6 tt.toNat)], txSeq := (l.txSeq + 1) % 1024 } })))
    ∧ (∀ sent n, (u.half h.other).timeTx = some (sent, n) → l.state = .active → isLeader u h = false →
        (u.half h.other).ferry.replay.any (fun f => f.seq == n) = true → l.discard = false →
        let v := (u.modHalf h.other (fun x => { x with timeTx := none, ferry := acknowledge x.ferry n })).setLink h .ferry
          { l with rxSeq := (n + 1) % 1024 }
        let off := Time.diff (sent + BitVec.ofNat 48 (u.num (hk h 0x4620) 4 / 1000)) tt
        exec (.time h tt) s = .next (((v.setNum (hk h 0x4A00) 2 (twos 64 off)).setNum (hk h 0x4A00) 3
          (twos 32 (clampI (-500000) 500000 (Config.servoGain off)))).setNum (hk h 0x4A00) 1 5))
    ∧ (∀ m idx sub bs, nextCargo s h .dict = some m → m.cargo = .dict (.mirror idx sub bs) →
        let v := takeMsg s h .ferry m
        exec (.dict h) s = .next { v with mirrors := ackMirror v.mirrors h.other idx sub bs })
    ∧ (∀ m mark, nextCargo s h .dict = some m → m.cargo = .dict (.invalid mark) →
        exec (.dict h) s = .next ((takeMsg s h .ferry m).setNum (hk h 0x4B00) 0x0B mark.toNat))
    ∧ (∀ m r bs, nextCargo s h .dict = some m → m.cargo = .dict (.request r bs) →
        exec (.dict h) s = .next (serveForwarded (takeMsg s h .ferry m) h r bs))
    ∧ (∀ m f, nextCargo u h .frame = some m → m.cargo = .frame f → portOn u h 6 = true →
        let v := takeMsg u h .ferry m
        (f.replica = true → exec (.frame h tt) s = .next (v.modHalf h (fun x => { x with tsn := { x.tsn with
          txq := x.tsn.txq ++ [⟨.peer, none, (vlanOf f.data).1, f.data, f.launch, f.srcT, f.budget, none, 0, 0xFFFF⟩] } })))
        ∧ (f.replica = false → exec (.frame h tt) s = .next (admitFrame v h 6 f.data tt tt)))


/-! ### The time base -/

/-- `SYNC` (R298, R301 to R304): the first Sync of a free-running leader sets both halves' ticket time to the grandmaster's; a later one within the step threshold only slews, and eight in a row below 100 ns make the half `LOCKED`; one beyond the threshold moves nothing and waits as a pending step under a new `STEP_ID`. A Sync on a port that is not the slave port changes nothing. -/
def Obligations.Sync : Prop :=
  ∀ (h : Half) (port : Nat) (gm tt : Time) (s : State), StoresWf s →
    let u := s.atTime h tt
    let off := Time.diff (gm + BitVec.ofNat 48 (u.num (hk h (0x4800 + port)) 6)) (ingressTime u h port tt)
    let good := if off.natAbs < 100 then min 8 ((u.half h).tb.good + 1) else 0
    (u.num (hk h 0x4A00) 5 ≠ port → exec (.sync h port gm tt) s = .next u)
    ∧ (isLeader u h = true → portOn u h port = true → u.num (hk h 0x4A00) 5 = port → u.now h = tt →
      ((u.half h).tb.locked = false → timeState u h = 1 →
        ∃ t, exec (.sync h port gm tt) s = .next t ∧ (∀ g, t.now g = tt + BitVec.ofInt 48 off) ∧ (t.half h).tb.locked = true
          ∧ t.num (hk h 0x4A00) 2 = twos 64 off ∧ SameMem s t)
      ∧ (((u.half h).tb.locked = true ∨ timeState u h ≠ 1) → off.natAbs ≤ u.num 0x2800 2 →
        ∃ t, exec (.sync h port gm tt) s = .next t ∧ (∀ g, t.now g = u.now g) ∧ timeState t h = (if good = 8 then 2 else 1)
          ∧ (t.half h).tb.good = good ∧ t.num (hk h 0x4A00) 2 = twos 64 off
          ∧ t.num (hk h 0x4A00) 3 = twos 32 (clampI (-500000) 500000 (Config.servoGain off)) ∧ SameMem s t)
      ∧ (((u.half h).tb.locked = true ∨ timeState u h ≠ 1) → u.num 0x2800 2 < off.natAbs → timeState u h ≠ 4 →
        ∃ t, exec (.sync h port gm tt) s = .next t ∧ (∀ g, t.now g = u.now g) ∧ timeState t h = 4
          ∧ t.num 0x2800 8 = twos 64 off ∧ t.num 0x2800 7 = (u.num 0x2800 7 + 1) % 2 ^ 32 ∧ t.stepAt = none ∧ SameMem s t))

/-- Grandmasters and peer delay (R301, R304, R310): external configuration takes the grandmaster of the slave port; a lost Sync puts the leader into `HOLDOVER`, a lost Announce forgets the announcement too, and by BMCA the port; a peer-delay exchange sets the port's mean link delay; a master port sends the half's own Sync where the Tiril is grandmaster, and otherwise relays the slave port's last Sync with residence time and link delay added to its correction, scaled by the rate ratio; how its last place rounds is left open (log 14). An accepted step (R305, R306): once its instant has come, both halves' ticket times move by `STEP_PENDING_NS` at once, its size and its instant read in `LAST_STEP_NS` and `LAST_STEP_AT`, and the servo starts again from `UNLOCKED`; before it nothing changes. How announced vectors compare, and the half's own, are read from 802.1AS (log 21). -/
def Obligations.TimeMessages : Prop :=
  (∀ (h : Half) (port : Nat) (a : Announce) (t1 t2 t3 t4 tt : Time) (s : State), StoresWf s →
    let u := s.atTime h tt
    let slave := s.num (hk h 0x4A00) 5
    (portOn s h port = true → isLeader s h = true → s.num 0x2800 6 = 1 → (s.half h).tb.leads = false → s.num (hk h (0x4800 + port)) 5 = 2 →
      (∀ p < 7, p ≠ port → s.num (hk h (0x4800 + p)) 5 ≠ 2) →
      ∃ t, exec (.announce h port a) s = .next t ∧ t.num (hk h 0x4A00) 4 = a.identity ∧ t.num (hk h 0x4A00) 5 = port ∧ SameMem s t)
    ∧ (isLeader s h = true → slave ≠ 0xFF → timeState s h ≠ 0 → timeState s h ≠ 3 →
      (∃ t, exec (.syncReceiptTimeout h) s = .next t ∧ timeState t h = 3 ∧ t.num (hk h 0x4A00) 3 = s.num (hk h 0x4A00) 3
        ∧ (∀ g, t.now g = s.now g) ∧ SameMem s t)
      ∧ ∃ t, exec (.announceReceiptTimeout h) s = .next t ∧ timeState t h = 3 ∧ t.num (hk h 0x4A00) 5 = (if s.num 0x2800 6 = 1 then slave else 0xFF)
        ∧ (t.half h).tb.anns = Tab.erase (s.half h).tb.anns slave ∧ (∀ g, t.now g = s.now g) ∧ SameMem s t)
    ∧ (portOn s h port = true → port < 5 →
      exec (.pdelay h port t1 t2 t3 t4) s
        = .next (s.setNum (hk h (0x4800 + port)) 6 (((Time.diff t4 t1 - Time.diff t3 t2) / 2).toNat % 2 ^ 32)))
    ∧ (masterPort u h port = true →
      (selfGm u h = true → exec (.syncSend h port tt) s = .next (u.emit (.syncOut h port tt none)))
      ∧ (selfGm u h = false → ∀ a, (u.half (leaderOf u h)).tb.relay = some a →
        exec (.syncSend h port tt) s = .next (u.emit (.syncOut h port tt (some (syncCorrection u h port a tt)))))))
  ∧ (∀ (tt at_ : Time) (s : State), StoresWf s → s.stepAt = some at_ →
    (Time.diff tt at_ < 0 → exec (.stepApply tt) s = .next s)
    ∧ (0 ≤ Time.diff tt at_ →
      let u := s.atTime .bow tt
      let lead := stepLead u
      let d := u.int 0x2800 8 64
      ∃ t, exec (.stepApply tt) s = .next t ∧ (∀ g, t.now g = u.now g + BitVec.ofInt 48 d) ∧ t.stepAt = none
        ∧ t.num 0x2800 0x0B = twos 64 d ∧ t.num 0x2800 0x0C = (u.now lead).toNat ∧ timeState t lead = 1
        ∧ (t.half lead).tb.good = 0 ∧ t.steps = s.steps.filter (fun p => decide (u.clock < p.clock + 2 ^ 47)) ++ [⟨u.clock, u.now lead, d⟩] ∧ t.mem = s.mem))



/-! ### The switch -/

/-- `FRAME_INGRESS` (R308, R309, R311, R316): a frame with a bad FCS or over 9,212 bytes, and one whose destination the filtering database does not know, is dropped and counted; one for a wire port leaves there after the port's egress delay, where its gate lets it and no frame of its class or above goes first, else it waits in its class; one for the endpoint goes to the ring its rule names: its bytes behind a header in the next slot, and no other byte of memory changes. An ARP request on port 4 for the dictionary's address (R412) is answered there as well, unless the output gate is closed (R390). What the filtering database holds is left open (log 12). -/
def Obligations.FrameIngress : Prop :=
  ∀ (h : Half) (port : Nat) (bs : List Byte) (tt : Time) (s : State), StoresWf s →
    let u := s.atTime h tt
    let dropped := u.setNum (hk h (0x4800 + port)) 0x0C (satAdd 32 (u.num (hk h (0x4800 + port)) 0x0C) 1)
    let stamp := tt - BitVec.ofInt 48 (u.int (hk h (0x4800 + port)) 3 32)
    let tc := (vlanOf bs).1
    port < 5 → portOn u h port = true →
    (9212 < bs.length → exec (.frameIngress h port bs true tt) s = .next dropped)
    ∧ exec (.frameIngress h port bs false tt) s = .next dropped
    ∧ (60 ≤ bs.length → bs.length ≤ 9212 → isGptp bs = false → arpAsks u h port bs = true → egressOf h port bs = none →
      (gateClosed u h = false → mayStart dropped h port (arpReply u h bs) tt = true →
        exec (.frameIngress h port bs true tt) s = .next (dropped.emit
          (.frameOut h port (arpReply u h bs) (tt + BitVec.ofInt 48 (dropped.int (hk h (0x4800 + port)) 4 32)))))
      ∧ (gateClosed u h = true → exec (.frameIngress h port bs true tt) s = .next dropped))
    ∧ (60 ≤ bs.length → bs.length ≤ 9212 → isGptp bs = false → rTag bs = none → arpAsks u h port bs = false →
      ∃ v, exec (.frameIngress h port bs true tt) s = .next v
      ∧ (egressOf h port bs = none → v = dropped)
      ∧ (∀ p, egressOf h port bs = some [p] → p < 5 → portOn u h p = true →
          v = if mayStart u h p bs tt then u.emit (.frameOut h p bs (tt + BitVec.ofInt 48 (u.int (hk h (0x4800 + p)) 4 32)))
              else setWaiting u h p tc (waitingAt u h p tc ++ [⟨port, bs, stamp⟩]))
      ∧ (egressOf h port bs = some [5] → portOn u h 5 = true → mayStart u h 5 bs tt = true → cleanMem s →
          let r := steer u h bs
          let size := u.num (hk h 0x4811) (0x21 + r.2)
          let k := Tab.get 0 (u.half h).tsn.rxCount r.2
          let a := u.num (hk h 0x4811) (1 + r.2) + (k % 2 ^ u.num (hk h 0x4811) (0x11 + r.2)) * size
          32 ≤ size → inOwnMemory u h a size = true → memOn u h = true →
          SameMemBut u v a size
            ∧ v.read (a + 32) (min bs.length (size - 32)) = bs.take (size - 32)
            ∧ v.read a 32 = natLe 32 ((k + 1) % 2 ^ 32 + 2 ^ 175 * b2n (decide (size - 32 < bs.length)) + 2 ^ 176 * r.1.getD 0xFF
                + 2 ^ 184 * port + 2 ^ 192 * bs.length + 2 ^ 208 * stamp.toNat)
            ∧ (v.half h).tsn.rxCount = Tab.set 0 (u.half h).tsn.rxCount r.2 ((k + 1) % 2 ^ 32)
            ∧ v.half h.other = u.half h.other ∧ v.outbox = u.outbox))

/-- `TX_DESCRIPTOR_TAKE` (R312, R313, R315): a posted descriptor gives its frame to the queue of its class; with `REPLICATE` the frame carries the stream's next number and a copy crosses the Ferry, unless the output gate is closed (R389); one that breaks a rule is written back `ACCESS_STATE` with no frame; one not yet posted is left. -/
def Obligations.TxDescriptorTake : Prop :=
  ∀ (h : Half) (tc : Nat) (tt : Time) (s : State), StoresWf s →
    let u := s.atTime h tt
    let i := Tab.get 0 (u.half h).tsn.txNext tc
    let a := u.num (hk h 0x4810) (1 + tc) + 32 * (i % 2 ^ u.num (hk h 0x4810) (9 + tc))
    let d := u.readNat a 32
    let bs := upto (fld d 95 80) (fun i => engineByte u h (fld d 255 208 + i))
    let launch := if bitAt d 5 then some (BitVec.ofNat 48 (fld d 207 160)) else none
    let f (x : List Byte) : TxFrame := ⟨.ring, some a, tc, x, launch, BitVec.ofNat 48 (fld d 159 112), fld d 111 96, none, 0, 0xFFFF⟩
    let v := u.modHalf h (fun x => { x with tsn := { x.tsn with txNext := Tab.set 0 x.tsn.txNext tc ((i + 1) % 4096) } })
    tc < 8 → memOn u h = true → inOwnMemory u h a 32 = true → cleanMem s →
    (bitAt d 7 = false → exec (.txDescriptorTake h tc tt) s = .next u)
    ∧ (bitAt d 7 = true → txRefused u h tc d tt = true →
        exec (.txDescriptorTake h tc tt) s
          = .next (v.write a (natLe 32 (d / 2 ^ 64 * 2 ^ 64 + 10 * 2 ^ 8 + d % 2 ^ 7))))
    ∧ (bitAt d 7 = true → txRefused u h tc d tt = false → bitAt d 6 = false →
        exec (.txDescriptorTake h tc tt) s
          = .next (v.modHalf h (fun x => { x with tsn := { x.tsn with txq := x.tsn.txq ++ [f bs] } })))
    ∧ (bitAt d 7 = true → txRefused u h tc d tt = false → bitAt d 6 = true →
        let q := fld d 69 64
        let n := Tab.get 0 (u.half h).tsn.frerSeq q
        ∃ w, exec (.txDescriptorTake h tc tt) s = .next w
          ∧ (w.half h).tsn.txq = (u.half h).tsn.txq ++ [f (putRTag bs n)]
          ∧ (w.half h).tsn.frerSeq = Tab.set 0 (u.half h).tsn.frerSeq q ((n + 1) % 65536)
          ∧ (gateClosed u h = false → portOn u h 6 = true → (w.half h).ferry = ((sendFrameMsg u h
              ⟨putRTag bs n, frameClass (putRTag bs n), true, launch, BitVec.ofNat 48 (fld d 159 112), fld d 111 96⟩).half h).ferry)
          ∧ ((gateClosed u h = true ∨ portOn u h 6 = false) → (w.half h).ferry = (u.half h).ferry)
          ∧ w.mem = u.mem ∧ w.dict = u.dict)

/-- `LAUNCH` (R308, R311, R312, R313, R314): where no bridged frame waits at a port and no frame of a higher class of the endpoint's queues, the first frame of the class waits before its launch time, less 16 ns; at it, with its gate open, it leaves by the ports the filtering database names and its descriptor is written back `OK`; more than 2,000 ns late it is dropped and written back `DEADLINE_MISSED`. A bridged frame that waits leaves once its gate lets it. Gate lists and recovery (R311, R315): a committed gate list comes into force at a start of its cycle, and at no other time; a reset recovery entry takes any next frame. What the filtering database holds is left open (log 12). -/
def Obligations.Launch : Prop :=
  (∀ (h : Half) (tc : Nat) (tt : Time) (f : TxFrame) (s : State), StoresWf s →
    let u := s.atTime h tt
    tc < 8 → (∀ p < 7, ∀ c < 8, waitingAt u h p c = []) →
    (u.half h).tsn.txq.find? (fun x => x.cls == tc) = some f → (∀ g ∈ (u.half h).tsn.txq, g.cls ≤ tc ∧ (g.cls = tc → g.src = f.src)) →
    (f.src = .peer ∨ gateClosed u h = false) →
    (∀ l, f.launch = some l → Time.diff tt l < -16 → exec (.launch h tc tt) s = .next u)
    ∧ ((∀ l, f.launch = some l → -16 ≤ Time.diff tt l ∧ Time.diff tt l ≤ 2000) → f.loop = none → f.budget = 0 →
        ∀ p, egressOf h (entryPort f) f.data = some [p] → p < 5 → portOn u h p = true → gateAllows u h p tc f.data.length tt = true →
          let left := tt + BitVec.ofInt 48 (u.int (hk h (0x4800 + p)) 4 32)
          exec (.launch h tc tt) s = .next (doneTx ((u.modHalf h (fun x => { x with tsn := { x.tsn with
            txq := x.tsn.txq.erase f } })).emit (.frameOut h p f.data left)) f left 0))
    ∧ (∀ l, f.launch = some l → 2000 < Time.diff tt l → f.loop = none → f.budget = 0 → inTrial u h = false →
        ∃ v, exec (.launch h tc tt) s = .next v ∧ (v.half h).tsn.txq = (u.half h).tsn.txq.erase f
          ∧ v.mem = (doneTx u f 0 5).mem))
  ∧ (∀ (h : Half) (tc p : Nat) (e : Egress) (tt : Time) (s : State),
    let u := s.atTime h tt
    tc < 8 → p < 5 → waitingAt u h p tc = [e] → (∀ q < 7, ∀ c < 8, (q ≠ p ∨ c ≠ tc) → waitingAt u h q c = []) → (u.half h).tsn.txq = [] →
    exec (.launch h tc tt) s = .next (if gateAllows u h p tc e.data.length tt then
        (setWaiting u h p tc []).emit (.frameOut h p e.data (tt + BitVec.ofInt 48 (u.int (hk h (0x4800 + p)) 4 32)))
      else u))
  ∧ (∀ (h : Half) (port e : Nat) (tt : Time) (s : State),
    let u := s.atTime h tt
    let i := hk h (0x4800 + port)
    let base := gclRef u h port
    let cycle := u.num i 0x0A
    (port < 7 → cycle ≠ 0 → 0 ≤ Time.diff tt base → Time.diff tt base % (cycle : Int) = 0 →
      exec (.gclCycleStart h port tt) s = .next (u.modHalf h (fun x => { x with tsn := { x.tsn with
        gcls := Tab.insert x.tsn.gcls port ⟨upto (u.num i 8) (fun k =>
          if 8 * k < (u.bytes i 7).length then (fld (bytesNat (u.bytes i 7) (8 * k) 8) 7 0, fld (bytesNat (u.bytes i 7) (8 * k) 8) 39 8)
          else (0xFF, 0)), tt, cycle, BitVec.ofNat 48 (u.num i 9)⟩ } })))
    ∧ ((cycle = 0 ∨ Time.diff tt base < 0 ∨ Time.diff tt base % (cycle : Int) ≠ 0) →
      exec (.gclCycleStart h port tt) s = .next u)
    ∧ exec (.frerReset h e) s = .next (s.modHalf h (fun x => { x with tsn := { x.tsn with frerRx := Tab.erase x.tsn.frerRx e } })))



/-! ### Cameras, triggers and captures -/

/-- `FRAME_START` and `FRAME_END` (R317, R320 to R322, R324 to R326): a frame start on a bound virtual channel opens frame `FRAME_NO` + 1, sets the line counter to it and writes its record, less `DONE`, at the start of its slot; the frame end closes it and writes the record with `DONE`, the rows that came and both times. A packet of an unbound channel is discarded and counted, and so is one whose header ECC cannot correct it; one that it corrects is counted and goes on. Other channels, and every byte outside the record, are unchanged. `FRAME_TIMEOUT` (R324): a frame whose packets have stopped for `FE_TIMEOUT_US` is closed short with `DONE`; its `T_FE` is a free value; one that is not late stays open. What `T_FE` then holds is a free value (log 9). -/
def Obligations.CameraFrame : Prop :=
  (∀ (h : Half) (port vc no v : Nat) (e : Ecc) (tt : Time) (s : State), StoresWf s → cleanMem s →
    let u0 := s.atTime h tt
    let u := if e = .corrected then u0.setNum (camIdx h port) 7 (satAdd 32 (u0.num (camIdx h port) 7) 1) else u0
    let n := (u.num (camIdx h port) (camSub v 15) + 1) % 2 ^ 32
    let at_ := tt - BitVec.ofNat 48 (u.num (camIdx h port) 5)
    let k : CamFrame := ⟨camSettings u h port v, vc, n, no % 65536, at_, tt, 0, 0, 0, false, false, false, []⟩
    camOn u0 h port = true →
    (e ≠ .bad → camChannel u h port vc = some v → u.cam h port v = none → u.num 0x1F00 1 ≠ 2 →
      inOwnMemory u h (camSlot k.set n) 64 = true → memOn u h = true →
      ∃ w, exec (.frameStart h port vc no e tt) s = .next w ∧ w.num (camIdx h port) (camSub v 15) = n ∧ w.cam h port v = some k
        ∧ (∀ j, j ≠ port * 4 + v → (w.half h).cams.find j = (u.half h).cams.find j)
        ∧ (w.half h).lineCtr = Tab.set 0 (u.half h).lineCtr (port * 4 + v) (n % 65536 * 65536 % 2 ^ 32)
        ∧ w.read (camSlot k.set n) 64 = camRecord k false false 0 ∧ SameMemBut u w (camSlot k.set n) 64
        ∧ w.half h.other = u.half h.other ∧ w.outbox = u.outbox)
    ∧ (e ≠ .bad → camChannel u h port vc = none → exec (.frameStart h port vc no e tt) s
        = .next (u.setNum (camIdx h port) 9 (satAdd 32 (u.num (camIdx h port) 9) 1)))
    ∧ (e = .bad → exec (.frameStart h port vc no e tt) s
        = .next (u0.setNum (camIdx h port) 9 (satAdd 32 (u0.num (camIdx h port) 9) 1)))
    ∧ (∀ k, e ≠ .bad → openChannel u h port vc = some (v, k) → u.cam h port v = some k →
        inOwnMemory u h (camSlot k.set k.n) 64 = true → memOn u h = true →
        ∃ w, exec (.frameEnd h port vc e tt) s = .next w ∧ w.cam h port v = none
          ∧ (∀ j, j ≠ port * 4 + v → (w.half h).cams.find j = (u.half h).cams.find j)
          ∧ w.read (camSlot k.set k.n) 64 = camRecord k true (decide (k.rows < k.set.lines)) at_
          ∧ SameMemBut u w (camSlot k.set k.n) 64 ∧ w.dict = u.dict ∧ w.half h.other = u.half h.other)
    ∧ (e ≠ .bad → openChannel u h port vc = none → exec (.frameEnd h port vc e tt) s
        = .next (u.setNum (camIdx h port) 9 (satAdd 32 (u.num (camIdx h port) 9) 1)))
    ∧ (e = .bad → exec (.frameEnd h port vc e tt) s
        = .next (u0.setNum (camIdx h port) 9 (satAdd 32 (u0.num (camIdx h port) 9) 1))))
  ∧ (∀ (h : Half) (port v : Nat) (k : CamFrame) (tt : Time) (s : State), StoresWf s → cleanMem s →
    let u := s.atTime h tt
    u.cam h port v = some k →
    (Time.diff tt k.tLast < u.num (camIdx h port) 6 * 1000 → exec (.frameTimeout h port v tt) s = .next u)
    ∧ (u.num (camIdx h port) 6 * 1000 ≤ Time.diff tt k.tLast → inOwnMemory u h (camSlot k.set k.n) 64 = true → memOn u h = true →
        ∃ w, exec (.frameTimeout h port v tt) s = .next w ∧ w.cam h port v = none ∧ w.freeCtr = u.freeCtr + 1
          ∧ w.read (camSlot k.set k.n) 64
              = camRecord k true (decide (k.rows < k.set.lines)) (BitVec.ofNat 48 (Config.freeNat u.freeCtr))
          ∧ SameMemBut u w (camSlot k.set k.n) 64 ∧ w.dict = u.dict))

/-- `LINE` and `EMBEDDED_DATA` (R317, R319, R320, R323, R324): a row that completes a stored line writes it, in its pixel format and layout, at its place in the slot and moves the line counter on; a row before that is kept; a row of another data type, one of no open frame and one whose header ECC cannot correct it are discarded and counted; one that it corrects is counted and goes on; a row beyond `LINES` only marks the frame long. Embedded data fills the slot's 4,032 bytes behind the record and is cut there. How CSI-2 packs the samples of a row is taken from CSI-2 (log 23). -/
def Obligations.CameraLine : Prop :=
  ∀ (h : Half) (port vc dt v : Nat) (k : CamFrame) (bs : List Byte) (crc : Bool) (e : Ecc) (tt : Time) (s : State),
    StoresWf s → cleanMem s →
    let u0 := s.atTime h tt
    let u := if e = .corrected then u0.setNum (camIdx h port) 7 (satAdd 32 (u0.num (camIdx h port) 7) 1) else u0
    let c := k.set
    let f := max 1 c.f
    let want := rowBytes c
    let row := bs.take want ++ List.replicate (want - bs.length) 0
    let k' := { k with tLast := tt, rows := k.rows + 1, crcRows := k.crcRows + (if crc then 0 else 1),
                       lenErr := k.lenErr || decide (bs.length ≠ want), part := k.part ++ [row] }
    let u' := if crc then u else u.setNum (camIdx h port) 8 (satAdd 32 (u.num (camIdx h port) 8) 1)
    let l := k'.rows / f - 1
    let stored := storedLine c k'.part
    let a := camSlot c k.n + 4096 + l * c.pitch
    let discarded (x : State) := x.setNum (camIdx h port) 9 (satAdd 32 (x.num (camIdx h port) 9) 1)
    camOn u0 h port = true →
    (e = .bad → exec (.line h port vc dt bs crc e tt) s = .next (discarded u0)
      ∧ exec (.embeddedData h port vc bs e tt) s = .next (discarded u0))
    ∧ (e ≠ .bad → openChannel u h port vc = none → exec (.line h port vc dt bs crc e tt) s = .next (discarded u)
      ∧ exec (.embeddedData h port vc bs e tt) s = .next (discarded u))
    ∧ (e ≠ .bad → openChannel u h port vc = some (v, k) →
      (dt = c.dt → k.rows < c.lines → k'.part.length = f → c.mereBase = 0 → inOwnMemory u h a stored.length = true →
        memOn u h = true →
        ∃ w, exec (.line h port vc dt bs crc e tt) s = .next w ∧ w.read a stored.length = stored ∧ SameMemBut u w a stored.length
          ∧ w.cam h port v = some { k' with part := [] } ∧ w.dict = u'.dict
          ∧ (w.half h).lineCtr = Tab.set 0 (u.half h).lineCtr (port * 4 + v)
              ((k.n % 65536 * 65536 + (if c.unit = 0 then f * l + f else l + 1)) % 2 ^ 32)
          ∧ w.half h.other = u.half h.other)
      ∧ (dt = c.dt → k.rows < c.lines → k'.part.length ≠ f →
          exec (.line h port vc dt bs crc e tt) s = .next (u'.setCam h port v (some k')))
      ∧ (dt ≠ c.dt → exec (.line h port vc dt bs crc e tt) s = .next (discarded (u.setCam h port v (some { k with tLast := tt }))))
      ∧ (dt = c.dt → c.lines ≤ k.rows →
          exec (.line h port vc dt bs crc e tt) s = .next (u.setCam h port v (some { k with tLast := tt, long := true })))
      ∧ (let keep := bs.take (4032 - k.emb)
         inOwnMemory u h (camSlot c k.n + 64 + k.emb) keep.length = true → memOn u h = true →
          exec (.embeddedData h port vc bs e tt) s
            = .next ((u.write (camSlot c k.n + 64 + k.emb) keep).setCam h port v (some { k with
                tLast := tt, emb := k.emb + keep.length, embTrunc := k.embTrunc || decide (keep.length < bs.length) }))))

/-- Triggers and captures (R306, R327, R328): at its instant, or at most 2,000 ns past it, a trigger drives its active edge and plans the next; later than that the instant is skipped and counted; the pulse ends its width after the edge, whatever has happened to the setting since. A selected edge of a capture input stores its 8-byte record, stamp less the input's delay, in the ring and raises the count; one within 20 ns of the last is counted as a glitch. The number of a capture record follows R328's formula (log 36). -/
def Obligations.TriggersCaptures : Prop :=
  ∀ (h : Half) (k : Nat) (rising : Bool) (tt : Time) (s : State), StoresWf s →
    let u := s.atTime h tt
    let i := trigIdx h k
    let nx := BitVec.ofNat 48 (u.num i 7)
    let late := Time.diff tt nx
    let planned := u.setNum i 7 (if u.num i 1 = 1 then nx + BitVec.ofNat 48 (u.num i 3) else nx).toNat
    let j := capIdx h k
    let n := u.num j 5
    let a := u.num j 3 + 8 * (n % 2 ^ u.num j 4)
    let near := match (u.half h).caps.find k with
      | some p => decide ((Time.diff tt p).natAbs ≤ 20)
      | none => false
    k < 16 →
    (u.num i 1 ≠ 0 → (u.num i 1 ≠ 2 ∨ (u.trig h k).last ≠ some nx) → 0 ≤ late → late ≤ 2000 →
      exec (.triggerInstant h k tt) s
        = .next ((planned.setTrig h k ⟨true, some nx, tt, u.num i 4⟩).emit (.trigger h k (trigLevel u h k true) tt)))
    ∧ (u.num i 1 ≠ 0 → (u.num i 1 ≠ 2 ∨ (u.trig h k).last ≠ some nx) → 2000 < late →
      ∃ w, exec (.triggerInstant h k tt) s = .next w ∧ w.num i 6 = satAdd 32 (u.num i 6) 1 ∧ w.outbox = u.outbox
        ∧ w.num i 7 = planned.num i 7 ∧ w.mem = u.mem)
    ∧ ((u.trig h k).active = true → (u.trig h k).width ≤ Time.diff tt (u.trig h k).edge →
      exec (.triggerPulseEnd h k tt) s
        = .next ((u.setTrig h k { u.trig h k with active := false }).emit (.trigger h k (trigLevel u h k false) tt)))
    ∧ (edgeSelected (u.num j 1) rising = true → near = false → inOwnMemory u h a 8 = true → memOn u h = true → cleanMem s →
      ∃ w, exec (.captureEdge h k rising tt) s = .next w ∧ SameMemBut u w a 8
        ∧ w.read a 8 = natLe 8 ((tt - BitVec.ofInt 48 (u.int j 2 32)).toNat + 2 ^ 48 * ((n + 1) % 2 ^ 15) + 2 ^ 63 * b2n rising)
        ∧ w.num j 5 = (n + 1) % 2 ^ 32 ∧ (w.half h).caps = Tab.insert (u.half h).caps k tt)
    ∧ (edgeSelected (u.num j 1) rising = true → near = true →
      ∃ w, exec (.captureEdge h k rising tt) s = .next w ∧ w.mem = u.mem ∧ w.num j 6 = satAdd 32 (u.num j 6) 1 ∧ w.num j 5 = n)
    ∧ (edgeSelected (u.num j 1) rising = false → exec (.captureEdge h k rising tt) s = .next u)


/-! ### Control loops -/

/-- `SAMPLE` (R331, R332, R335 to R342, R344, R345), with memory that reads as good: with no loop due nothing but time moves on. When one loop is due it takes one sample of its law: its state advances as the law says; a setpoint that a publication disturbs twice is held from the sample before and counted (R337); a stale measurement, or else an expired trajectory, trips a closing or closed loop, and the safety manager counts the trip (R393); a closed loop within its limits stays closed; a tripped loop goes on calculating; its frame is posted for its instant and `OUT_DELAY_NS`. No byte of memory and no other loop changes. One PID sample (R60, R339): the integrator is held between its bounds, the derivative is filtered on the measurement, the output is held between its bounds; every operation rounds to FP32 in the order the rule writes. `CLOSE_FAIL` (R342): a loop still `CLOSING` when its following-error time has passed trips with cause 4; before that nothing changes, nor at a `FOLLOWING` for a loop that is not `CLOSED` or has counted no sample. That a sample is one step, that a value not stated (a trajectory of no points, a number that is none) is free, and that a frame more than 1 s ahead is refused are the model's readings (log 24). -/
def Obligations.LoopSample : Prop :=
  (∀ (h : Half) (n : Nat) (hits : List (Nat × Nat)) (i : Time) (tt : Time) (s : State), StoresWf s → cleanMem s →
    let u := s.atTime h tt
    ((∀ k < 8, dueInstant u h k tt = none) → exec (.sample h hits tt) s = .next u)
    ∧ (n < 8 → dueInstant u h n tt = some i → (∀ k < 8, k ≠ n → dueInstant u h k tt = none) →
      let pid := u.num (loopIdx h n) 1 == 0
      let inp := if pid then 1 else min 4 (u.num (loopIdx h n) 0x10)
      let r := readSetpoint u h n hits i
      let ys := upto inp (fun j => measure u h n j i)
      let sps := upto inp (fun j => r.1.ch.getD (u.num (loopIdx h n) (0x17 + j)) 0)
      let v := upto inp (fun j => fsub (sps.getD j 0) (ys.getD j (0, true)).1)
      let l := { u.loop h n with sp := r.1.ch, spSrc := r.1.src, last := some i, lastAt := u.clock, origin := i }
      let o := if pid then pidSample u h n l (sps.getD 0 0) (ys.getD 0 (0, true)).1 (r.1.ch.getD (u.num (loopIdx h n) 0x1B) 0)
        else ssSample u h n l v (min 12 (u.num (loopIdx h n) 0x12)) inp (min 4 (u.num (loopIdx h n) 0x11))
      let stale := ys.any Prod.snd
      let lim (j : Nat) : F32 := BitVec.ofNat 32 (u.num (loopIdx h n) (0x0A + j))
      ∃ t, exec (.sample h hits tt) s = .next t ∧ SameMem s t
        ∧ (∀ k, k ≠ n → t.loop h k = u.loop h k)
        ∧ (hits.contains (n, 0) = true → hits.contains (n, 1) = true →
            r.1 = ⟨(u.loop h n).sp, (u.loop h n).spSrc, false⟩ ∧ t.num (loopIdx h n) 0x20 = satAdd 32 (u.num (loopIdx h n) 0x20) 1)
        ∧ (loopState u h n = 3 → t.loop h n = o.1 ∧ loopState t h n = 3)
        ∧ ((loopState u h n = 1 ∨ loopState u h n = 2) → stale = true →
            t.loop h n = o.1 ∧ loopState t h n = 3 ∧ t.num (loopIdx h n) 0x1E = 2
            ∧ (t.half h).safety.trips = Tab.set 0 (u.half h).safety.trips n (Tab.get 0 (u.half h).safety.trips n + 1))
        ∧ ((loopState u h n = 1 ∨ loopState u h n = 2) → stale = false → r.1.expired = true →
            t.loop h n = o.1 ∧ loopState t h n = 3 ∧ t.num (loopIdx h n) 0x1E = 3
            ∧ (t.half h).safety.trips = Tab.set 0 (u.half h).safety.trips n (Tab.get 0 (u.half h).safety.trips n + 1))
        ∧ (loopState u h n = 2 → stale = false → r.1.expired = false →
            (∀ j < inp, fgt (fabs (v.getD j 0)) (lim j) = false) →
            loopState t h n = 2 ∧ (t.loop h n).i = o.1.i ∧ (t.loop h n).d = o.1.d ∧ (t.loop h n).x = o.1.x)
        ∧ (let tpl := u.bytes (loopIdx h n) 0x1D
           let launch := i + BitVec.ofNat 48 (u.num (loopIdx h n) 6)
           16 ≤ tpl.length → bytesNat tpl 0 1 = 2 → Time.diff launch (u.now h) ≤ 1000000000 →
            ∃ f, (t.half h).tsn.txq = (u.half h).tsn.txq ++ [f] ∧ f.src = .engine ∧ f.loop = some n ∧ f.launch = some launch
              ∧ f.srcT = r.1.src ∧ f.data.length = bytesNat tpl 2 2)))
  ∧ (∀ (h : Half) (n : Nat) (tt : Time) (s : State), n < 8 →
    let u := s.atTime h tt
    let tripped := ((u.setNum (loopIdx h n) 2 3).setNum (loopIdx h n) 0x1E 4).modSafety h (fun x =>
      { x with trips := Tab.set 0 x.trips n (Tab.get 0 x.trips n + 1) })
    (u.num (loopIdx h n) 2 = 1 → 1000 * u.num (loopIdx h n) 0x0E ≤ frameAge u tt (u.loop h n).closeT →
      exec (.closeFail h n tt) s = .next tripped)
    ∧ ((u.num (loopIdx h n) 2 ≠ 1 ∨ frameAge u tt (u.loop h n).closeT < 1000 * u.num (loopIdx h n) 0x0E) →
      exec (.closeFail h n tt) s = .next u)
    ∧ ((s.num (loopIdx h n) 2 ≠ 2 ∨ (s.loop h n).fe = 0) → exec (.following h n) s = .next s))
  ∧ (∀ (s : State) (h : Half) (n : Nat) (l : Loop) (sp y ff : F32),
    let c := coeff s h n
    let e := fsub sp y
    let i := fmin (fmax (fadd l.i (fmul (c 1) e)) (c 5)) (c 6)
    let d := fadd (fmul (c 2) l.d) (fmul (c 3) (fsub (if l.first then y else l.yPrev) y))
    let u := fadd (fadd (fadd (fmul (c 0) e) i) d) (fmul (c 4) ff)
    pidSample s h n l sp y ff = ({ l with i := i, d := d, yPrev := y, first := false }, [fmin (fmax u (c 7)) (c 8)]))

/-- In `CLOSED`, a sample in which any |v_j| exceeds `FE_LIMIT_j` counts toward the following-error timer, and a sample within all the limits resets it. When the counted samples × `PERIOD_NS` reach 1,000 × `FE_TIME_US`, the loop trips with cause `FOLLOWING` (R343): at the sample that reaches the time, and at the `FOLLOWING` row. -/
def Obligations.FollowingError : Prop :=
  (∀ (h : Half) (n : Nat) (hits : List (Nat × Nat)) (i : Time) (tt : Time) (s : State), StoresWf s → cleanMem s →
    let u := s.atTime h tt
    let inp := if u.num (loopIdx h n) 1 == 0 then 1 else min 4 (u.num (loopIdx h n) 0x10)
    let r := readSetpoint u h n hits i
    let ys := upto inp (fun j => measure u h n j i)
    let v (j : Nat) : F32 := fsub (r.1.ch.getD (u.num (loopIdx h n) (0x17 + j)) 0) (ys.getD j (0, true)).1
    let lim (j : Nat) : F32 := BitVec.ofNat 32 (u.num (loopIdx h n) (0x0A + j))
    let count := (u.loop h n).fe + 1
    n < 8 → dueInstant u h n tt = some i → (∀ k < 8, k ≠ n → dueInstant u h k tt = none) →
    loopState u h n = 2 → ys.any Prod.snd = false → r.1.expired = false →
    ∃ t, exec (.sample h hits tt) s = .next t
      ∧ ((∃ j, j < inp ∧ fgt (fabs (v j)) (lim j) = true) →
          (t.loop h n).fe = count
          ∧ if 1000 * u.num (loopIdx h n) 0x0E ≤ count * u.num (loopIdx h n) 5 then
              loopState t h n = 3 ∧ t.num (loopIdx h n) 0x1E = 1
            else loopState t h n = 2)
      ∧ ((∀ j < inp, isNaN (v j) = false ∧ isNaN (lim j) = false ∧ fgt (fabs (v j)) (lim j) = false) →
          (t.loop h n).fe = 0 ∧ loopState t h n = 2))
  ∧ (∀ (h : Half) (n : Nat) (s : State), n < 8 →
    s.num (loopIdx h n) 2 = 2 → 0 < (s.loop h n).fe → 1000 * s.num (loopIdx h n) 0x0E ≤ (s.loop h n).fe * s.num (loopIdx h n) 5 →
    exec (.following h n) s = .next (((s.setNum (loopIdx h n) 2 3).setNum (loopIdx h n) 0x1E 1).modSafety h (fun x =>
      { x with trips := Tab.set 0 x.trips n (Tab.get 0 x.trips n + 1) })))


/-! ### CAN controllers -/

/-- `CAN_RECEIVE` (R346, R348, R352): an error-free frame of a format the controller takes is stored as its record, payload behind header, at the ring's write pointer, which moves past it; nothing else of memory changes. A frame of a format that is off is an error: counted, and in `NORMAL` the receive error counter rises. A controller that is off or bus-off takes nothing. Memory reads as good. Error counts are those of ISO 11898-1, which R352 names (log 16). -/
def Obligations.CanReceive : Prop :=
  ∀ (h : Half) (c : Nat) (f : CanFrame) (tt : Time) (s : State), StoresWf s → cleanMem s →
    let u := s.atTime h tt
    let k := u.can h c
    let w := u.num (canIdx h c) 0x0A
    let a := k.rxRing + w
    let body := roundUp 32 f.data.length
    canOn u h c = true →
    ((k.mode = 0 ∨ k.busOff = true) → exec (.canReceive h c f tt) s = .next u)
    ∧ (k.mode ≠ 0 → k.mode ≠ 4 → k.busOff = false → formatOn k f.format = true → w + 32 + body ≤ 65536 →
        inOwnMemory u h a 32 = true → (f.data ≠ [] → inOwnMemory u h (a + 32) body = true) → memOn u h = true →
        ∃ v, exec (.canReceive h c f tt) s = .next v ∧ SameMemBut u v a (32 + body)
          ∧ v.read (a + 32) f.data.length = f.data
          ∧ v.read a 32 = natLe 32 (canHeader f (tt - BitVec.ofInt 48 k.rxDelay) (k.recNo + 1) false)
          ∧ v.num (canIdx h c) 0x0A = (w + 32 + body) % 65536 ∧ (v.can h c).recNo = (k.recNo + 1) % 2 ^ 32
          ∧ (v.can h c).queue = k.queue ∧ v.outbox = u.outbox)
    ∧ (k.mode = 1 → k.busOff = false → formatOn k f.format = false →
        ∃ v, exec (.canReceive h c f tt) s = .next v ∧ v.num (canIdx h c) 0x15 = satAdd 32 (u.num (canIdx h c) 0x15) 1
          ∧ v.can h c = { k with recv := k.recv + 1 } ∧ v.mem = u.mem)

/-- `CAN_TX_TAKE` (R313, R347, R349): a descriptor given to the controller joins its queue of 32; one that breaks a rule completes `ACCESS_STATE` once it is at the head, at once in an empty queue; a slot not yet given, or a controller whose frames the control engine writes, is left alone. `CAN_TRANSMIT` and `ARBITRATION_LOST` (R313, R350 to R352): with no safety message waiting, the head frame waits for its launch time, then leaves and is off the queue; a lost arbitration is counted and leaves it for another attempt, an error raises the transmit error counter by 8, above 255 the controller is bus-off. In bus-off nothing leaves, and a queue in which no launch time has passed stays as it is. With `ONE_SHOT` = 1 (R351) each frame gets exactly one attempt: sent, it is off the queue; a lost arbitration or an error completes it with `ABORTED` and its `CAUSE`. Memory reads as good. Error counts and limits are those of ISO 11898-1, which R352 names without giving them (log 16). -/
def Obligations.CanTransmit : Prop :=
  (∀ (h : Half) (c : Nat) (tt : Time) (s : State), StoresWf s → cleanMem s →
    let u := s.atTime h tt
    let k := u.can h c
    let a := k.txRing + 64 * (k.next % 32)
    let d := u.readNat a 64
    let refused := canRefused u h k d tt
    (k.owner ≠ 0 → exec (.canTxTake h c tt) s = .next u)
    ∧ (canOn u h c = true → k.owner = 0 → (k.mode = 1 ∨ k.mode = 2) → k.queue.length < 32 → memOn u h = true →
        inOwnMemory u h a 64 = true →
        (bitAt d 448 = false → exec (.canTxTake h c tt) s = .next u)
        ∧ (bitAt d 448 = true → refused = true → k.queue = [] →
            ∃ v, exec (.canTxTake h c tt) s = .next v ∧ v.dict = u.dict
              ∧ v.mem = (u.write a (natLe 64 (d % 2 ^ 448 + 2 ^ 456 * 10))).mem ∧ v.can h c = { k with next := (k.next + 1) % 32 })
        ∧ (bitAt d 448 = true → (∀ q, k.queue.head? = some q → q.refused = false) → (refused = false ∨ k.queue ≠ []) →
            ∃ v, exec (.canTxTake h c tt) s = .next v ∧ v.mem = u.mem ∧ v.dict = u.dict
              ∧ (∀ j, j ≠ c → v.can h j = u.can h j)
              ∧ v.can h c = { k with next := (k.next + 1) % 32, queue := k.queue ++ [⟨some a, canFrameOf u d,
                  if bitAt d 2 then some (BitVec.ofNat 48 (fld d 207 160)) else none, BitVec.ofNat 48 (fld d 159 112),
                  fld d 111 96, 0, none, 0, 0xFFFF, refused⟩] })))
  ∧ (∀ (h : Half) (c cause : Nat) (tt : Time) (f : CanTx) (rest : List CanTx) (s : State), StoresWf s →
    let u := s.atTime h tt
    let k := u.can h c
    canOn u h c = true → k.mode = 1 → k.queue = f :: rest → k.safe = [] → f.refused = false → f.loop = none → f.budget = 0 →
    gateClosed u h = false →
    (k.busOff = false → (∀ l, f.launch = some l → Time.diff tt l < -16 → exec (.canTransmit h c tt) s = .next u))
    ∧ (k.busOff = true → (∀ q ∈ k.queue, ∀ l, q.launch = some l → Time.diff tt l ≤ 2000) → exec (.canTransmit h c tt) s = .next u)
    ∧ ((∀ l, f.launch = some l → -16 ≤ Time.diff tt l ∧ Time.diff tt l ≤ 2000) → k.busOff = false →
      (∃ v, exec (.canTransmit h c tt) s = .next v
        ∧ v.outbox = u.outbox ++ [.canOut h c { f.f with esi := decide (127 < k.tec ∨ 127 < k.recv) && f.f.format == 1 } tt]
        ∧ (v.can h c).queue = rest ∧ (v.can h c).tec = k.tec - 1 ∧ (v.can h c).busOff = false)
      ∧ (k.oneShot = false → exec (.arbitrationLost h c 1 tt) s
          = .next ((u.setNum (canIdx h c) 0x16 (satAdd 32 (u.num (canIdx h c) 0x16) 1)).setCan h c
              { k with queue := { f with cause := 1 } :: rest }))
      ∧ (2 ≤ cause → cause ≤ 6 → (cause ≠ 5 ∨ k.tec ≤ 127) → k.oneShot = false →
          ∃ v, exec (.arbitrationLost h c cause tt) s = .next v ∧ (v.can h c).tec = k.tec + 8
            ∧ (v.can h c).busOff = decide (255 < k.tec + 8) ∧ (v.can h c).queue = { f with cause := cause } :: rest ∧ v.mem = u.mem
            ∧ v.num (canIdx h c) 0x15 = satAdd 32 (u.num (canIdx h c) 0x15) 1)))
  ∧ (∀ (h : Half) (c cause : Nat) (tt : Time) (f : CanTx) (rest : List CanTx) (s : State), StoresWf s → cleanMem s →
    let u := s.atTime h tt
    let k := u.can h c
    canOn u h c = true → k.mode = 1 → k.busOff = false → k.oneShot = true → k.queue = f :: rest → k.safe = [] → f.refused = false →
    judgeLaunch u h true f.loop.isSome f.launch f.srcT tt (f.launch.getD tt) f.budget = .send →
    (∃ v, exec (.canTransmit h c tt) s = .next v ∧ (v.can h c).queue = rest)
    ∧ (1 ≤ cause → cause ≤ 6 → ∃ v, exec (.arbitrationLost h c cause tt) s = .next v ∧ (v.can h c).queue = rest
        ∧ (∀ a, f.slot = some a →
            v.mem = (u.write a (natLe 64 (u.readNat a 64 % 2 ^ 448 + 2 ^ 452 * cause + 2 ^ 456))).mem)
        ∧ (f.slot = none → v.mem = u.mem)))

/-- The state of a controller (R346, R352, R353): bus-off ends by itself with `BUSOFF_AUTO` or after `MODE` was written, and both counters are cleared; settings come into force at a controller change, which starts detection anew where `MODE` or `ABD_TABLE` is another; when a candidate bit rate's dwell time ends without two good frames the next one is tried. Error counts and limits are those of ISO 11898-1, which R352 names without giving them, and that a new `ABD_TABLE` starts anew is the model's reading (log 16). -/
def Obligations.CanState : Prop :=
  ∀ (h : Half) (c : Nat) (s : State), StoresWf s → canOn s h c = true →
    let k := s.can h c
    let g (j : Nat) := s.num (canIdx h c) j
    let table := s.bytes (canIdx h c) 0x11
    let set : Can := { k with
      mode := g 1, formats := g 2, oneShot := g 3 == 1, owner := g 4, nbt := g 5, dbtFd := g 6, dbtXl := g 7, rxRing := g 9
      rxDelay := s.int (canIdx h c) 0x0B 32, txRing := g 0x0C, busoffAuto := g 0x10 == 1, abd := table, abdRounds := g 0x13 }
    (k.busOff = true → (k.busoffAuto = true ∨ k.recover = true) →
      (∀ q ∈ k.queue, ∀ l, q.launch = some l → Time.diff (s.now h) l ≤ 2000) →
      ∃ t, exec (.busOffRecovery h c) s = .next t ∧ t.can h c = { k with busOff := false, recover := false, tec := 0, recv := 0 }
        ∧ t.num (canIdx h c) 0x0D = 0 ∧ t.num (canIdx h c) 0x0E = 0 ∧ t.num (canIdx h c) 0x0F = 0 ∧ t.mem = s.mem)
    ∧ (k.busOff = true → (k.busoffAuto = true ∨ k.recover = true) →
      ∃ t, exec (.busOffRecovery h c) s = .next t ∧ (t.can h c).busOff = false ∧ (t.can h c).tec = 0 ∧ (t.can h c).recv = 0
        ∧ t.num (canIdx h c) 0x0F = 0)
    ∧ (k.busOff = true → k.busoffAuto = false → k.recover = false → exec (.busOffRecovery h c) s = .next s)
    ∧ (g 1 = k.mode → table = k.abd → exec (.controllerChange h c) s = .next (s.setCan h c set))
    ∧ ((g 1 ≠ k.mode ∨ table ≠ k.abd) → exec (.controllerChange h c) s = .next (s.setCan h c { set with
        goodFrames := 0, fdOk := false, xlOk := false, rounds := 0, held := []
        cand := if g 1 = 4 ∧ 12 ≤ table.length then some 0 else none }))
    ∧ (∀ i, k.mode = 4 → k.cand = some i → i + 1 < abdCount k.abd →
        exec (.abdDwell h c) s = .next (s.setCan h c { k with
          goodFrames := 0, fdOk := false, xlOk := false, held := [], cand := some (i + 1) }))
    ∧ (∀ i, k.mode = 4 → k.cand = some i → abdCount k.abd ≤ i + 1 → k.abdRounds ≤ k.rounds + 1 →
        ∃ t, exec (.abdDwell h c) s = .next t ∧ (t.can h c).cand = none ∧ t.num (canIdx h c) 0x14 = 0xFF ∧ t.mem = s.mem)
    ∧ (∀ i, k.mode = 4 → k.cand = some i → abdCount k.abd ≤ i + 1 → k.rounds + 1 < k.abdRounds →
        exec (.abdDwell h c) s = .next (s.setCan h c { k with
          goodFrames := 0, fdOk := false, xlOk := false, held := [], cand := some 0, rounds := k.rounds + 1 }))


/-! ### Safety -/

/-- Safety frames (R379, R380): a new frame of the camera channel that `SAFETY_FRAME_SRC` names counts one and ends a fallback, and so does each `SAFETY_FRAME_NS` of ticket time when no channel is named or the half has fallen back; the fallback happens when the named channel is off or has been silent for twice that time, and is counted. A core suspected more than 1,000 frames ago is `UNIT_OK` again. Spring tests (R382 to R385): a test comes due once a period and starts at once on a core that nothing holds; a passed segment leads to the next, or yields to class 0; the eighth completes the test and the core is free; a segment that fails twice retires the core; a test that waits 2 ms is late and counted. -/
def Obligations.SafetyTime : Prop :=
  (∀ (h : Half) (tt : Time) (s : State), StoresWf s →
    let u := s.atTime h tt
    let x := (u.half h).safety
    let ns := u.num (hk h 0x4B00) 5
    (frameSrc u h ≠ 0xFFFF → srcFrames u h ≠ x.camSeen →
      ∃ t, exec (.safetyFrame h tt) s = .next t ∧ (t.half h).safety.frameNo = x.frameNo + 1 ∧ (t.half h).safety.frameT = tt
        ∧ (t.half h).safety.byTime = false ∧ (t.half h).safety.camSeen = srcFrames u h ∧ t.mem = u.mem
        ∧ (t.half h).ctxs = (u.half h).ctxs)
    ∧ ((frameSrc u h = 0xFFFF ∨ (x.byTime = true ∧ srcFrames u h = x.camSeen)) → ns ≤ Time.diff tt x.frameT →
      ∃ t, exec (.safetyFrame h tt) s = .next t ∧ (t.half h).safety.frameNo = x.frameNo + 1
        ∧ (t.half h).safety.frameT = x.frameT + BitVec.ofNat 48 ns ∧ t.mem = u.mem ∧ (t.half h).ctxs = (u.half h).ctxs
        ∧ (∀ c, c < 96 → coreRetired u h c = false → x.suspects = [(c * 128, x.frameNo - 1000)] → 1000 ≤ x.frameNo →
            t.num (hk8 h 0xA030) c = 0 ∧ (t.half h).safety.suspects = []))
    ∧ ((frameSrc u h = 0xFFFF ∨ srcFrames u h = x.camSeen) → Time.diff tt x.frameT < ns → exec (.safetyFrame h tt) s = .next u)
    ∧ (frameSrc u h ≠ 0xFFFF → x.byTime = false → (srcOff u h = true ∨ 2 * ns ≤ Time.diff tt x.frameT) →
      exec (.safetyFrameFallback h tt) s
        = .next ((u.modSafety h (fun y => { y with byTime := true })).setNum (hk h 0x4B00) 0x0E
            (satAdd 32 (u.num (hk h 0x4B00) 0x0E) 1)))
    ∧ ((frameSrc u h = 0xFFFF ∨ x.byTime = true ∨ (srcOff u h = false ∧ Time.diff tt x.frameT < 2 * ns)) →
      exec (.safetyFrameFallback h tt) s = .next u))
  ∧ (∀ (h : Half) (c : Nat) (rerun : Bool) (due tt : Time) (s : State), StoresWf s →
    let u := s.atTime h tt
    let x := u.spring h c
    let st := u.num (hk8 h 0xA032) c
    (c < u.part.cores → coreRetired u h c = false → powerState u h = 0 → (u.half h).ready = 3 →
      springDueTime u h c tt = some due → springDone u h c due = false → st = 0 → (u.core h c).ctx = none →
      class0Claim u h c = false →
      ∃ t, exec (.springDue h c tt) s = .next t ∧ t.spring h c = ⟨0, due, false, some u.clock⟩ ∧ t.num (hk8 h 0xA032) c = 2
        ∧ (t.half h).cores = (u.half h).cores ∧ t.mem = u.mem)
    ∧ (springDueTime u h c tt = none → exec (.springDue h c tt) s = .next u)
    ∧ (springDueTime u h c tt = some due → springDone u h c due = true → exec (.springDue h c tt) s = .next u)
    ∧ (st = 2 → x.seg < 7 → class0Claim u h c = false →
      exec (.springSegmentDone h c true rerun tt) s = .next (u.setSpring h c { x with seg := x.seg + 1 }))
    ∧ (st = 2 → x.seg < 7 → class0Claim u h c = true →
      exec (.springSegmentDone h c true rerun tt) s
        = .next ((u.setSpring h c { x with seg := x.seg + 1 }).setNum (hk8 h 0xA032) c 3))
    ∧ (st = 2 → 7 ≤ x.seg →
      ∃ t, exec (.springSegmentDone h c true rerun tt) s = .next t ∧ t.spring h c = ⟨0, x.due, false, x.mark⟩
        ∧ t.num (hk8 h 0xA032) c = 0 ∧ t.num (hk8 h 0xA034) c = 0 ∧ t.num (hk8 h 0xA035) c = tt.toNat
        ∧ (t.half h).cores = (u.half h).cores ∧ t.mem = u.mem)
    ∧ (st = 2 → (u.core h c).ctx = none → (∀ p ∈ (u.half h).ctxs, p.2.want.contains c = false) → coreCritical u h c = false →
      coreRetired u h c = false → (u.half h).service.length < serviceBank →
      ∃ t, exec (.springSegmentDone h c false false tt) s = .next t ∧ coreRetired t h c = true ∧ t.num (hk8 h 0xA032) c = 0
        ∧ (t.half h).serviceCtr = (u.half h).serviceCtr + 1 ∧ (t.half h).ctxs = (u.half h).ctxs ∧ t.mem = u.mem)
    ∧ (st ≠ 2 → exec (.springSegmentDone h c true rerun tt) s = .next u)
    ∧ (st ≠ 0 → x.late = false → 2000000 ≤ Time.diff tt x.due →
      ∃ t, exec (.springLate h c tt) s = .next t ∧ t.spring h c = { x with late := true }
        ∧ t.num (hk8 h 0xA033) c = satAdd 32 (u.num (hk8 h 0xA033) c) 1 ∧ t.mem = u.mem)
    ∧ ((st = 0 ∨ x.late = true ∨ Time.diff tt x.due < 2000000) → exec (.springLate h c tt) s = .next u))

/-- Going out of service (R372, R377, R389, R391, R393, R399): a disagreement of the control engine and a drifting clock put the half into safe state with their cause, its contexts running on and memory as it was; a disagreement of the safety manager closes the gate and asserts `FAULT_N` with the state `GATED`; a half in safe state sends its message again, to the CAN controller and the ports its settings name, past their queues and with its next alive count; a half in another state sends none. -/
def Obligations.OutOfService : Prop :=
  ∀ (h : Half) (tt : Time) (s : State), StoresWf s →
    let u := s.atTime h tt
    let c := u.num (hk h 0x4B00) 6
    let msg := safetyBytes false (u.deviceCode h h) h (u.num (hk h 0x4B00) 2) (BitVec.ofNat 48 (u.num (hk h 0x4B00) 3))
      (u.half h).safety.alive
    (u.halfState h ≠ 4 → u.halfState h ≠ 5 → inTrial u h = false →
      (∃ t, exec (.lockstepCe h tt) s = .next t ∧ SafeEntered u t h 3)
      ∧ ∃ t, exec (.clockDrift h tt) s = .next t ∧ SafeEntered u t h 10)
    ∧ ((u.halfState h = 4 ∨ u.halfState h = 5) → exec (.clockDrift h tt) s = .next u)
    ∧ (∃ t, exec (.lockstepSm h tt) s = .next t ∧ t.halfState h = 5 ∧ (t.half h).faultN = true
        ∧ (t.half h).safety.gateClosed = true ∧ (t.half h).safety.gated = true ∧ t.num (hk h 0x4B00) 2 = 4
        ∧ (t.half h).ctxs = (u.half h).ctxs ∧ t.mem = u.mem)
    ∧ (u.halfState h = 4 → (u.half h).safety.gated = false →
      ∃ t, exec (.safetyMessageRepeat h tt) s = .next t
        ∧ (c ≤ 3 → (t.can h c).safe = Tab.insert (u.can h c).safe h.num (safetyCanFrame (u.num (hk h 0x4B00) 7) msg))
        ∧ (∀ p < 4, u.num (hk h (0x4800 + p)) 1 = 1 →
            waitingAt t h p 7 = waitingAt u h p 7
              ++ [⟨5, safetyEthFrame (u.num (hk h 0x4B00) 8 % 2 ^ 48) (dictMac u h) msg, u.now h⟩])
        ∧ (t.half h).safety.alive = ((u.half h).safety.alive + 1) % 256 ∧ t.dict = u.dict ∧ t.mem = u.mem)
    ∧ (u.halfState h ≠ 4 → exec (.safetyMessageRepeat h tt) s = .next u)

/-- Losing the other half (R394, R396, R459): a half in service that senses the `FAULT_N` of a peer that has started reads it as lost and forces it into Nap: its contexts, cores, queues and Pools are gone; a half in `NORMAL` begins its lifeboat switch. With a lifeboat image of the digest its descriptor gives, the queues of the stop list are disabled and the schedule is then in force; with another the half enters safe state with the cause `LIFEBOAT_IMAGE`. Memory reads as good. -/
def Obligations.PeerLoss : Prop :=
  ∀ (h : Half) (tt : Time) (s : State), StoresWf s → cleanMem s →
    let u := s.atTime h tt
    let p := u.half h.other
    ((u.half h).ready = 3 → p.faultN = true → (u.half h).peer ≠ 1 →
      ((u.half h).peer ≠ 3 ∨ p.ready = 3 ∨ p.power.stuck = true ∨ p.power.supplyFault = true) →
      (u.half h).xfers = [] → (∀ q ∈ (u.half h).ctxs, q.2.ticket = none) →
      ∃ t, exec (.peerFaultN h tt) s = .next t ∧ (t.half h).peer = 1 ∧ powerState t h.other = 3 ∧ (t.half h.other).cores = []
        ∧ (t.half h.other).safety.gateClosed = true ∧ (t.half h.other).ctxs = [] ∧ (t.half h.other).queues = []
        ∧ (∀ a, poolBase h.other 0 ≤ a → a < poolBase h.other 0 + 0x10000000 → t.byte a = 0) ∧ (t.half h).ctxs = (u.half h).ctxs
        ∧ (u.halfState h = 1 → lifeboat u h ≠ [] → t.halfState h = 1 ∧ (t.half h).safety.digesting = true)
        ∧ (u.halfState h = 1 → lifeboat u h = [] → t.halfState h = 2 ∧ (t.half h).lifeboat = true))
    ∧ (((u.half h).ready ≠ 3 ∨ p.faultN = false) → exec (.peerFaultN h tt) s = .next u)
    ∧ ((u.half h).safety.digesting = false → exec (.lifeboatDigestDone h tt) s = .next u)
    ∧ ((u.half h).safety.digesting = true → (u.half h).safety.handover = false → (lifeboatDigestOk u h).1 = true →
      bytesNat (lifeboat u h) 62 2 = 0 →
      ∃ t, exec (.lifeboatDigestDone h tt) s = .next t ∧ t.halfState h = 2 ∧ (t.half h).lifeboat = true
        ∧ (∀ i < min 64 (bytesNat (lifeboat u h) 60 2), (t.quay h (bytesNat (lifeboat u h) (64 + 4 * i) 4)).en = false)
        ∧ t.num (hk h 0x4B00) 0x0D = (u.now h).toNat ∧ (t.half h).safety.digesting = false ∧ t.mem = u.mem)
    ∧ ((u.half h).safety.digesting = true → (lifeboatDigestOk u h).1 = false → u.halfState h ≠ 4 → u.halfState h ≠ 5 →
      inTrial u h = false → ∃ t, exec (.lifeboatDigestDone h tt) s = .next t ∧ SafeEntered u t h 8)

/-! ### The object dictionary -/

/-- `READ` and `DESCRIBE` (R404, R408, R410, R414): an entry that is not present and a WO entry are answered `ACCESS_RIGHT`; a scalar is answered with its whole value, a byte string with the part asked for; `DESCRIBE` answers type, access, permission mask and length. An entry of the other half is asked of it, or answered `HALF_LOST`. A repeated request of CAN or UDP is answered again from the store and not carried out again. That a forwarded request is judged at once, and that bytes which hold no message get no response, are the model's readings (log 26). -/
def Obligations.DictRead : Prop :=
  ∀ (h : Half) (r : Req) (bs : List Byte) (m : Msg) (s : State), parseMsg bs = some m → dictOn s h = true →
    (∀ k, (s.half h).kept.find? (fun k => k.req == r) = some k →
      (m.op = 1 → exec (.read h r bs) s = .next (sendBack s h r k.bytes))
      ∧ (m.op = 2 → exec (.write h r bs) s = .next (sendBack s h r k.bytes))
      ∧ (m.op = 3 → exec (.describe h r bs) s = .next (sendBack s h r k.bytes)))
    ∧ ((s.half h).kept.find? (fun k => k.req == r) = none →
      (m.op = 1 → entryAt s m.idx m.sub = none → exec (.read h r bs) s = .next (answer s h r m (plain 11)))
      ∧ ∀ a e, entryAt s m.idx m.sub = some (a, e) →
        (m.op = 1 → holderOf m.idx = some h.other →
          (canForward s h = true → exec (.read h r bs) s = .next (sendDict s h (.request r (msgBytes m))))
          ∧ (canForward s h = false → exec (.read h r bs) s = .next (answer s h r m (plain 7))))
        ∧ (holderOf m.idx = none ∨ holderOf m.idx = some h →
          (m.op = 1 → e.acc = .wo → exec (.read h r bs) s = .next (answer s h r m (plain 11)))
          ∧ (m.op = 1 → e.acc ≠ .wo → a.base ≠ 0x4C00 → 0 < dtypeBytes e.typ → m.ofs = 0 → m.data = [] →
            exec (.read h r bs) s = .next (answer s h r m ⟨0, dtypeCode e.typ, false, valueBytes s h m.idx m.sub a e⟩))
          ∧ (∀ n < 65536, m.op = 1 → e.acc ≠ .wo → a.base ≠ 0x4C00 → dtypeBytes e.typ = 0 → m.data = natLe 2 n →
            exec (.read h r bs) s
              = .next (answer s h r m ⟨0, dtypeCode e.typ, true, ((viewBytes s h m.idx m.sub).drop m.ofs).take n⟩))
          ∧ (m.op = 3 → exec (.describe h r bs) s = .next (answer s h r m ⟨0, 0, false,
              natLe 1 (dtypeCode e.typ) ++ natLe 1 (daccCode e.acc) ++ natLe 1 (permMask s h m.idx a.sub) ++ [0]
              ++ natLe 4 (if dtypeBytes e.typ = 0 then (viewBytes s h m.idx m.sub).length else dtypeBytes e.typ)⟩))))

/-- `WRITE` (R404 to R406, R409, R416, R417): a read-only entry and one that the transport may not write are answered `ACCESS_RIGHT`, a value that does not suit `ACCESS_STATE`; a `RW` number of the half takes its value at once; a device-wide one waits for its mirror, which goes to the other half; a `RWT` entry is staged, in the open transaction of its owner and nowhere else. A row that writes an entry of the other half is sent there over the Ferry, or answered `HALF_LOST` (R408). `MIRROR_APPLY`: a waiting write whose mirror is acknowledged takes effect, one whose mirror is not is answered `ACCESS_STATE`. The order of the checks is the model's reading (log 27). -/
def Obligations.DictWrite : Prop :=
  (∀ (h : Half) (r : Req) (bs : List Byte) (m : Msg) (a : DAddr) (e : Entry) (s : State),
    parseMsg bs = some m → m.op = 2 → Serves s h r m.idx → entryAt s m.idx m.sub = some (a, e) →
    let say (u : State) (st : Nat) := exec (.write h r bs) s = .next (answer u h r m ⟨st, 0, dtypeBytes e.typ == 0, []⟩)
    let may := bitAt (permMask s h m.idx m.sub) (transportBit r)
    (e.acc = .const ∨ e.acc = .ro → say s 11)
    ∧ (e.acc ≠ .const → e.acc ≠ .ro → (a.base ≠ 0x3000 ∨ a.sub ≠ 4) → may = false → say s 11)
    ∧ (e.acc ≠ .const → e.acc ≠ .ro → may = true → a.base ≠ 0x2B00 → valueOk a e m.ofs m.data = false → say s 10)
    ∧ (e.acc = .rw → may = true → a.base ≠ 0x2B00 → valueOk a e m.ofs m.data = true →
      (holderOf m.idx = some h → say (s.setNum m.idx m.sub (maskReserved a.base a.sub e.typ (leNat m.data))) 0)
      ∧ (holderOf m.idx = none → txnState s = 0 → exec (.write h r bs) s
          = .next (sendDict { s with mirrors := s.mirrors ++ [⟨h, r, m.idx, m.sub, m.data, s.now h + 10000#48, false⟩] } h
              (.mirror m.idx m.sub m.data))))
    ∧ (e.acc = .rwt → may = true → a.base ≠ 0x2B00 → valueOk a e m.ofs m.data = true →
      (txnState s = 0 → say s 10)
      ∧ (txnState s ≠ 0 → s.num 0x1F00 4 ≠ ownerWord h r → say s 11)
      ∧ (let old := if dtypeBytes e.typ = 0 then ((stagedOf s.txn.staged m.idx m.sub).map (·.bytes)).getD [] else []
         let xs := putStaged s.txn.staged ⟨m.idx, m.sub, placeBytes old m.ofs m.data⟩
         txnState s = 1 → s.num 0x1F00 4 = ownerWord h r → stageOk s a (placeBytes old m.ofs m.data) = true →
         xs.length ≤ 1024 → stagedBytes xs ≤ 262144 → say { s with txn := { s.txn with staged := xs } } 0)))
  ∧ (∀ (t : Time) (x : MirrorWrite) (s : State),
    let u := s.atTime .bow t
    let v := { u with mirrors := u.mirrors.erase x }
    let due := u.mirrors.filter (fun x => decide (0 ≤ Time.diff t x.at_))
    let m : Msg := ⟨2, x.sub, x.idx, 0, x.bytes⟩
    (due = [] → exec (.mirrorApply t) s = .next u)
    ∧ (due = [x] → (x.acked = true ∨ peerLost u x.half = true ∨ powerState u x.half.other = 2) →
      exec (.mirrorApply t) s = .next (answer (applyValues v [(x.idx, x.sub, x.bytes)] x.at_) x.half x.req m (plain 0)))
    ∧ (due = [x] → x.acked = false → peerLost u x.half = false → powerState u x.half.other ≠ 2 →
      exec (.mirrorApply t) s = .next (answer v x.half x.req m (plain 10))))
  ∧ (∀ (h : Half) (r : Req) (n ofs p : Nat) (bs : List Byte) (s : State), dictOn s h = true →
    (s.half h).kept.find? (fun k => k.req == r) = none → n < 8 → ofs < 2 ^ 32 → p < 256 → bs.length < 65536 →
    let g := h.other
    let fw := hk g 0x4C10
    let pw := hk g 0x4D00
    let goes (row : Instr) (idx sub ofs : Nat) (data : List Byte) :=
      (canForward s h = true → exec row s = .next (sendDict s h (.request r (writeMsg idx sub ofs data))))
      ∧ (canForward s h = false → exec row s = .next (answer s h r ⟨2, sub, idx, ofs, data⟩ (plain 7)))
    goes (.close h r g n) (loopIdx g n) 3 0 [1] ∧ goes (.openLoop h r g n) (loopIdx g n) 3 0 [2]
    ∧ goes (.attestNonce h r g bs) (hk g 0x4C00) 3 0 bs ∧ goes (.fwWrite h r g ofs bs) fw 6 ofs bs
    ∧ goes (.erase h r g) fw 7 0 [1] ∧ goes (.verify h r g) fw 7 0 [2] ∧ goes (.activate h r g) fw 7 0 [3]
    ∧ goes (.commitSvn h r g) fw 7 0 [4] ∧ goes (.load h r g) (hk g 0x4C20) 1 0 [1] ∧ goes (.unload h r g) (hk g 0x4C20) 1 0 [2]
    ∧ goes (.opRequest h r g p) pw 1 0 [BitVec.ofNat 8 p] ∧ goes (.powerReqRun h r g) pw 9 0 [0]
    ∧ goes (.powerReqIdle h r g) pw 9 0 [1] ∧ goes (.powerReqNap h r g) pw 9 0 [2])

/-- The three transports (R411 to R413): a request is carried out as its row says once its message is whole: with its last CAN segment in order, with a UDP datagram of its own length, with `GO` in a mailbox that is not busy. A CAN segment out of order drops the message; a datagram of another length is counted as refused; a write of a busy mailbox is discarded. That a transport's row serves its request in the same step, and what the response frames carry beyond R411, are the model's (log 27). -/
def Obligations.Transports : Prop :=
  ∀ (h : Half) (client mb addr port : Nat) (head tr : Byte) (body bs : List Byte) (w : BitVec 64) (s : State), dictOn s h = true →
    let seg := head :: tr :: body
    let dropped := s.modHalf h (fun x => { x with canSeg := Tab.erase x.canSeg client })
    let keep (g : SegAsm) := s.modHalf h (fun x => { x with canSeg := Tab.insert x.canSeg client g })
    let op (b : List Byte) := bytesNat b 0 1 = 1 ∨ bytesNat b 0 1 = 2 ∨ bytesNat b 0 1 = 3
    let old := mbCtrl s h mb
    let tag := fld w.toNat 63 32 * 2 ^ 32
    let taken := putMailbox s h (mailboxAt mb) (natLe 8 (tag + 1))
    (client < 8 → s.num (hkc h 0x9000) 1 < 4 →
      (head = 0xC0 → op body → SameEffect (.canSegment h client seg) s (requestRow h (.can client tr.toNat) body) dropped)
      ∧ (head = 0x80 → exec (.canSegment h client seg) s = .next (keep ⟨tr.toNat, 1, body⟩))
      ∧ (∀ g, (s.half h).canSeg.find client = some g → head.toNat < 128 →
        (g.trans = tr.toNat → g.next = head.toNat % 64 → head.toNat < 64 →
          exec (.canSegment h client seg) s = .next (keep ⟨g.trans, (g.next + 1) % 64, g.bytes ++ body⟩))
        ∧ (g.trans = tr.toNat → g.next = head.toNat % 64 → 64 ≤ head.toNat → op (g.bytes ++ body) →
          SameEffect (.canSegment h client seg) s (requestRow h (.can client g.trans) (g.bytes ++ body)) dropped)
        ∧ ((g.trans ≠ tr.toNat ∨ g.next ≠ head.toNat % 64) → exec (.canSegment h client seg) s = .next dropped)))
    ∧ (s.num (hkc h 0x9000) 5 ≠ 0 → portOn s h 4 = true →
      (bs.length = 16 + bytesNat bs 10 2 → bytesNat bs 10 2 ≤ 8192 → op (bs.drop 4) →
        SameEffect (.udpDatagram h addr port bs) s (requestRow h (.udp addr port (leNat (bs.take 4))) (bs.drop 4)) s)
      ∧ ((bs.length ≠ 16 + bytesNat bs 10 2 ∨ 8192 < bytesNat bs 10 2) →
        exec (.udpDatagram h addr port bs) s
          = .next (s.setNum (hkc h 0x9000) 9 (satAdd 32 (s.num (hkc h 0x9000) 9) 1))))
    ∧ (hostServed s h = true → mb < 64 →
      (bitAt old 0 = false → bitAt w.toNat 0 = true → op (mailboxMsg s h mb) →
        SameEffect (.mailboxGo h mb w) s (requestRow h (.bar0 mb) (mailboxMsg s h mb)) taken)
      ∧ (bitAt old 0 = true → exec (.mailboxGo h mb w) s = .next s)
      ∧ (bitAt old 0 = false → bitAt w.toNat 0 = false →
        exec (.mailboxGo h mb w) s = .next (putMailbox s h (mailboxAt mb) (natLe 8 (tag + 2 * b2n (bitAt old 1))))))

/-- Transactions (R415, R416, R419 to R421): `BEGIN` opens one, numbered and owned, where none is; `COMMIT` of its owner plans the boundary, not before 100 µs from now; `ROLLBACK` of its owner ends it; another requester is answered `ACCESS_RIGHT`. At the boundary every staged value takes effect or none does; without a safety frame for 1 s, or 10 s after `BEGIN`, the transaction ends. Which entry of several decides a refusal, and `ROLLBACK` while committing, are the model's readings (log 28). -/
def Obligations.Transactions : Prop :=
  ∀ (h : Half) (r : Req) (t : Time) (s : State), StoresWf s →
    let u := s.atTime h t
    let b := s.atTime .bow t
    let closed (v : State) (result fail : Nat) := v.txn = txnIdle ∧ txnState v = 0 ∧ v.num 0x1F00 9 = result ∧ v.num 0x1F00 0xA = fail
    (Writes s h r 0x1F00 2 →
      (txnState s = 0 → exec (.begin h r) s = .next (wrote { ((s.setNum 0x1F00 1 1).setNum 0x1F00 3 ((s.num 0x1F00 3 + 1) % 2 ^ 32)).setNum
        0x1F00 4 (ownerWord h r) with txn := { txnIdle with owner := some (h, r), beginT := s.now h } } h r 0x1F00 2 0 [1] 0))
      ∧ (txnState s ≠ 0 → exec (.begin h r) s = .next (wrote s h r 0x1F00 2 0 [1] 10))
      ∧ (txnState s ≠ 0 → s.num 0x1F00 4 = ownerWord h r →
        ∃ v, exec (.rollback h r) s = .next (wrote v h r 0x1F00 2 0 [3] 0) ∧ closed v 1 0 ∧ v.mem = s.mem
          ∧ ∀ i j, j < 256 → i ≠ 0x1F00 → v.num i j = s.num i j)
      ∧ (txnState s ≠ 0 → s.num 0x1F00 4 ≠ ownerWord h r → exec (.rollback h r) s = .next (wrote s h r 0x1F00 2 0 [3] 11)))
    ∧ (Writes u h r 0x1F00 2 → txnState u ≠ 0 →
      let at_ := BitVec.ofNat 48 (u.num 0x1F00 6)
      let soon := t + 100000#48
      let plan (tb : Option Time) := wrote { u.setNum 0x1F00 1 2 with txn := { u.txn with commitT := t, boundary := tb } } h r 0x1F00 2 0 [2] 0
      (u.num 0x1F00 4 ≠ ownerWord h r → exec (.commit h r t) s = .next (wrote u h r 0x1F00 2 0 [2] 11))
      ∧ (u.num 0x1F00 4 = ownerWord h r → txnState u = 1 → u.now h = t →
        (u.num 0x1F00 5 = 1 → Time.diff at_ t ≤ 1000000000 →
          exec (.commit h r t) s = .next (plan (some (if 0 < Time.diff at_ soon then at_ else soon))))
        ∧ (u.num 0x1F00 5 = 1 → 1000000000 < Time.diff at_ t → exec (.commit h r t) s = .next (wrote u h r 0x1F00 2 0 [2] 10))
        ∧ (u.num 0x1F00 5 ≠ 1 → exec (.commit h r t) s = .next (plan none))))
    ∧ (∀ tb, b.txn.boundary = some tb → txnState b = 2 →
      let w := b.setNum 0x1F00 0xB tb.toNat
      (Time.diff t tb < 0 → exec (.commitBoundary t) s = .next b)
      ∧ (∀ st key, 0 ≤ Time.diff t tb → commitFailure w = some (st, key) →
        ∃ v, exec (.commitBoundary t) s = .next v ∧ closed v st key ∧ (∀ i j, j < 256 → i ≠ 0x1F00 → v.num i j = b.num i j)
          ∧ v.dictBytes = b.dictBytes ∧ v.mem = b.mem)
      ∧ (0 ≤ Time.diff t tb → commitFailure w = none →
        exec (.commitBoundary t) s = .next (endTxn (applyValues w (stagedValues b.txn.staged) tb) 0 0)
        ∧ (∀ x a e p, b.txn.staged = [x] → entryOf x.idx x.sub = some (a, e, p) → 0 < dtypeBytes e.typ → a.base ≠ 0x1F00 → x.sub < 256 →
          a.base ∉ [0x2800, 0x4700, 0x4800, 0x4900, 0x9100, 0x9200] →
          ∃ v, exec (.commitBoundary t) s = .next v ∧ closed v 0 0
            ∧ v.num x.idx x.sub = maskReserved a.base x.sub e.typ (leNat (x.bytes.map (fun y => y.getD 0))))))
    ∧ (txnState b = 2 → b.txn.boundary = none → 1000000000 ≤ Time.diff t b.txn.commitT →
      ∃ v, exec (.commitFrameTimeout t) s = .next v ∧ closed v 10 (dkey 0x1F00 7) ∧ ∀ i j, j < 256 → i ≠ 0x1F00 → v.num i j = b.num i j)
    ∧ (txnState b = 1 → 10000000000 ≤ Time.diff t b.txn.beginT →
      ∃ v, exec (.txnTimeout t) s = .next v ∧ closed v 1 0 ∧ v.num 0x1F00 0xC = satAdd 32 (b.num 0x1F00 0xC) 1)
    ∧ (txnState b = 1 → Time.diff t b.txn.beginT < 10000000000 → exec (.txnTimeout t) s = .next b)

/-- The event recorder (R424, R427 to R429): an accumulator whose span has passed becomes the next record, or joins the newest one where that has its key; `REC_CLEAR` of a record number within the records held moves the tail there, of any other it is answered `ACCESS_STATE`. -/
def Obligations.RecorderRows : Prop :=
  ∀ (h target : Half) (i : Nat) (t : Time) (r : Req) (n : BitVec 32) (s : State),
    let u := s.atTime h t
    let x := (u.half h).recorder
    let ix := hk8 target 0x3000
    let done (v : State) (st : Nat) := exec (.recClear h r target n) s = .next (wrote v h r ix 4 0 (natLe 4 n.toNat) st)
    let span (y : Recorder) := (n.toNat + (2 ^ 32 - y.tail % 2 ^ 32)) % 2 ^ 32
    let own := (s.half target).recorder
    let kept := (s.half h).recMirror
    (∀ a, x.accs[i]? = some a → Time.diff t a.tFirst < u.num (hk8 h 0x3000) 5 * 1000000 → exec (.recordEmit h i t) s = .next u)
    ∧ (∀ a, x.accs[i]? = some a → u.num (hk8 h 0x3000) 5 * 1000000 ≤ Time.diff t a.tFirst →
      ∃ v, exec (.recordEmit h i t) s = .next v ∧ v.mem = u.mem ∧ (v.half h).recorder.accs = x.accs.eraseIdx i
        ∧ (v.half h).recorder.seq = x.seq + 1
        ∧ ((∀ l, x.recs.getLast? = some l → sameKey l.acc a = false ∨ l.num < x.tail) →
          (v.half h).recorder.head = x.head + 1 ∧ (v.half h).recorder.recs.getLast? = some ⟨x.head, x.seq + 1, 0, a⟩)
        ∧ (∀ l, x.recs.getLast? = some l → sameKey l.acc a = true → x.tail ≤ l.num →
          (v.half h).recorder.head = x.head ∧ ∃ m, (v.half h).recorder.recs.getLast? = some m ∧ m.num = l.num
            ∧ m.rep = satAdd 16 l.rep 1 ∧ m.acc.count = satAdd 32 l.acc.count a.count ∧ m.acc.tLast = a.tLast))
    ∧ (Serves s h r ix → (h = target ∨ (s.half h).ferry.state = .active) →
      (own.tail + span own ≤ own.head → done ((s.modHalf target (fun y => { y with
        recorder := { own with tail := own.tail + span own, seq := own.seq + 1 } })).recMirrored target) 0)
      ∧ (own.head < own.tail + span own → done s 10))
    ∧ (Serves s h r ix → h ≠ target → (s.half h).ferry.state ≠ .active →
      (kept.tail + span kept ≤ kept.head → done (s.modHalf h (fun y => { y with
        recMirror := { kept with tail := kept.tail + span kept, seq := kept.seq + 1 } })) 0)
      ∧ (kept.head < kept.tail + span kept → done s 10))

/-! ### Rows that a dictionary write starts -/

/-- Commands to the time base, the loops and the halves (R305, R342, R398): an accepted step waits for its instant, `CLOSE` takes an `OPEN` loop to `CLOSING` from the start of its law, `OPEN` opens a loop in any state, `REJOIN` resets a half out of service, `HANDOVER` begins a switch with both halves in `NORMAL`, `RESUME` ends one; each is answered `OK`, and `ACCESS_STATE` where it does not apply (a loop with staged writes to it or to its maps, R334, R344), when nothing else happens. That `HANDOVER` needs no proxied message is the model's reading (log 30). -/
def Obligations.CommandWrites : Prop :=
  ∀ (h target : Half) (r : Req) (v : BitVec 32) (n : Nat) (s : State), StoresWf s →
    let lead := leaderOf s h
    let at_ := BitVec.ofNat 48 (s.num 0x2800 9)
    let stepped (u : State) (st : Nat) := exec (.stepAccept h r v) s = .next (wrote u h r 0x2800 0x0A 0 (natLe 4 v.toNat) st)
    let cmd (c u : Nat) (t : State) (st : Nat) (i : Instr) := exec i s = .next (wrote t h r 0x2900 4 0 [BitVec.ofNat 8 (16 * c + u)] st)
    (Writes s h r 0x2800 0x0A →
      (timeState s lead = 4 → v.toNat = s.num 0x2800 7 → (at_ = 0 ∨ Time.diff at_ (s.now lead) ≤ 1000000000) →
        stepped { s with stepAt := some (if at_ = 0 ∨ Time.diff at_ (s.now lead) < 0 then s.now lead else at_) } 0)
      ∧ ((timeState s lead ≠ 4 ∨ v.toNat ≠ s.num 0x2800 7) → stepped s 10))
    ∧ (Writes s h r (loopIdx h n) 3 → n < 8 →
      (loopState s h n = 0 → loopStaged s h n = false →
        ∃ u, exec (.close h r h n) s = .next (wrote u h r (loopIdx h n) 3 0 [1] 0) ∧ loopState u h n = 1
          ∧ u.loop h n = { s.loop h n with
              i := coeff s h n 9, d := 0, yPrev := 0, first := true, good := 0, fe := 0, closeT := s.now h, origin := BitVec.ofNat 48 (s.num (loopIdx h n) 4)
              x := (u.loop h n).x }
          ∧ (u.loop h n).x.length = min 12 (s.num (loopIdx h n) 0x12) ∧ (∀ k, k ≠ n → u.loop h k = s.loop h k) ∧ u.mem = s.mem)
      ∧ ((loopState s h n ≠ 0 ∨ loopStaged s h n = true) → exec (.close h r h n) s = .next (wrote s h r (loopIdx h n) 3 0 [1] 10))
      ∧ exec (.openLoop h r h n) s
          = .next (wrote ((s.setNum (loopIdx h n) 2 0).setNum (loopIdx h n) 0x1E 0) h r (loopIdx h n) 3 0 [2] 0))
    ∧ (Writes s h r 0x2900 4 →
      ((s.halfState target = 4 ∨ s.halfState target = 5 ∨ powerState s target = 3) →
        ∃ u, cmd 1 target.num u 0 (.rejoin h r target) ∧ WentIntoReset s u target)
      ∧ (s.halfState target ≠ 4 → s.halfState target ≠ 5 → powerState s target ≠ 3 → cmd 1 target.num s 10 (.rejoin h r target))
      ∧ (s.halfState .bow = 1 → s.halfState .stern = 1 → (∀ p ∈ (s.half target).ctxs, p.2.ticket = none) → lifeboat s target ≠ [] →
        cmd 2 target.num (s.modHalf target (fun x => { x with safety := { x.safety with digesting := true, handover := true } })) 0
          (.handover h r target))
      ∧ (s.halfState .bow = 1 → s.halfState .stern = 1 → (∀ p ∈ (s.half target).ctxs, p.2.ticket = none) → lifeboat s target = [] →
        (s.half target.other).cores = [] → ∃ u, cmd 2 target.num u 0 (.handover h r target) ∧ u.halfState target = 3 ∧ (u.half target).lifeboat = true
          ∧ (u.half target.other).power.nap = 2 ∧ (u.half target.other).power.dispatchOff = true ∧ u.mem = s.mem)
      ∧ ((s.halfState .bow ≠ 1 ∨ s.halfState .stern ≠ 1) → cmd 2 target.num s 10 (.handover h r target))
      ∧ ((s.halfState target = 2 ∨ s.halfState target = 3) → s.halfState target.other = 1 →
        cmd 3 target.num ((s.setNum (hk target 0x4B00) 1 1).modHalf target (fun x => { x with lifeboat := false })) 0
          (.halfCmdResume h r target))
      ∧ (s.halfState target.other ≠ 1 → cmd 3 target.num s 10 (.halfCmdResume h r target)))

/-- Firmware update, attestation and records (R439 to R444): writes go to the slot the half does not run, bits only from 1 to 0; an erased slot reads `0xFF`; an image that verifies makes `FW_STATE` 2; `ACTIVATE` starts its trial with a reset; `COMMIT_SVN` raises the floor to the running slot's counter; a nonce is kept for one report; a record is stored by every running half when each accepts it. While `FW_STATE` reads busy the firmware commands are answered `ACCESS_STATE`. Signatures, identities and flash contents that the spec does not give are left open, and that a command is done in its own row is the model's reading (log 11, 19). -/
def Obligations.FirmwareRows : Prop :=
  ∀ (h : Half) (r : Req) (ofs : Nat) (bs : List Byte) (s : State), StoresWf s →
    let ix := hk h 0x4C10
    let i := 1 - (s.half h).boot.slot
    let state := s.num ix 8
    let cmd (c : Nat) (u : State) (st : Nat) (row : Instr) := exec row s = .next (wrote u h r ix 7 0 [BitVec.ofNat 8 c] st)
    let others (u : State) := slotOf u h (1 - i) = slotOf s h (1 - i) ∧ u.mem = s.mem ∧ u.half h.other = s.half h.other
    let v := { s with freeCtr := s.freeCtr + 1 }
    let good := firstStageOk v h i && mainOk v h i
    let verified (result mark : Nat) := cmd 2 ((v.setNum ix 8 mark).setNum ix 9 result) 0 (.verify h r h)
    (Writes s h r ix 6 → bs.length < 65536 → ofs < 2 ^ 32 →
      (state ≠ 1 → ofs + bs.length ≤ slotBytes →
        ∃ u, exec (.fwWrite h r h ofs bs) s = .next (wrote u h r ix 6 ofs bs 0) ∧ u.num ix 8 = 0 ∧ others u
          ∧ ∀ o, slotByte u h i o = if ofs ≤ o ∧ o < ofs + bs.length then bs.getD (o - ofs) 0 &&& slotByte s h i o else slotByte s h i o)
      ∧ ((state = 1 ∨ slotBytes < ofs + bs.length) → exec (.fwWrite h r h ofs bs) s = .next (wrote s h r ix 6 ofs bs 10)))
    ∧ (Writes s h r ix 7 →
      (state = 1 → cmd 1 s 10 (.erase h r h) ∧ cmd 2 s 10 (.verify h r h) ∧ cmd 3 s 10 (.activate h r h) ∧ cmd 4 s 10 (.commitSvn h r h))
      ∧ (state ≠ 1 →
        (∃ u, cmd 1 u 0 (.erase h r h) ∧ u.num ix 8 = 0 ∧ u.num ix 9 = 0 ∧ others u ∧ (∀ o, slotByte u h i o = 0xFF)
          ∧ i ∉ (u.half h).boot.failed)
        ∧ verified (if good then (if bitAt (Config.freeNat s.freeCtr) 0 then 0 else 10) else 11)
            (if good && bitAt (Config.freeNat s.freeCtr) 0 then 2 else 0)
        ∧ (state = 2 → powerState s h = 2 → s.halfState h.other = 3 →
          ∃ u, cmd 3 u 0 (.activate h r h) ∧ WentIntoReset s u h
            ∧ (u.half h).flash = { (s.half h).flash with preferred := i, trial := true, tries := 3, lastGood := 1 - i })
        ∧ (state ≠ 2 → cmd 3 s 10 (.activate h r h))
        ∧ ((s.half h).flash.trial = false →
          ∃ u, cmd 4 u 0 (.commitSvn h r h) ∧ u.num ix 9 = 0 ∧ u.mem = s.mem
            ∧ (u.half h).flash = { (s.half h).flash with cnt0 := max (s.half h).flash.cnt0 (slotSvn s h (s.half h).boot.slot) })
        ∧ ((s.half h).flash.trial = true → cmd 4 s 10 (.commitSvn h r h))))
    ∧ (Writes s h r (hk h 0x4C00) 3 →
      (bs.length = 32 → (s.half h).attNonce = none → exec (.attestNonce h r h bs) s
        = .next (wrote ((s.modHalf h (fun x => { x with attNonce := some bs })).setBytes (hk h 0x4C00) 4 []) h r (hk h 0x4C00) 3 0 bs 0))
      ∧ (bs.length < 65536 → (bs.length ≠ 32 ∨ (s.half h).attNonce ≠ none) →
        exec (.attestNonce h r h bs) s = .next (wrote s h r (hk h 0x4C00) 3 0 bs 10)))
    ∧ (Writes s h r 0x2A00 1 → bs.length < 65536 →
      ∀ st, (∀ g, (s.half g).boot.stage = 3 → judgeOwner s (s.half g) bs = st) →
        ∃ u, exec (.ownerRecord h r bs) s = .next (wrote u h r 0x2A00 1 0 bs st) ∧ (st ≠ 0 → u = s)
          ∧ (st = 0 → u.mem = s.mem ∧ u.dict = s.dict
            ∧ ∀ g, u.half g = { s.half g with flash := if (s.half g).boot.stage = 3 then
                { (s.half g).flash with owner := bs, cnt1 := bytesNat bs 12 4 } else (s.half g).flash }))
    ∧ (Writes s h r 0x2A00 5 → bs.length < 65536 →
      ∀ st, (∀ g, (s.half g).boot.stage = 3 → judgeSettings s (s.half g) bs = st) →
        ∃ u, exec (.settingsRecord h r bs) s = .next (wrote u h r 0x2A00 5 0 bs st) ∧ (st ≠ 0 → u = s)
          ∧ (st = 0 → u.mem = s.mem ∧ u.dict = s.dict
            ∧ ∀ g, u.half g = { s.half g with flash := if (s.half g).boot.stage = 3 then
                (if byteAt bs 4 = 5 then { (s.half g).flash with perm := bs, cnt3 := bytesNat bs 12 4 }
                 else { (s.half g).flash with dflt := bs, cnt3 := bytesNat bs 12 4 }) else (s.half g).flash }))

/-- The program loader (R99, R445): `LOAD` notes its source; when it is done an image of one half that passes every check, and the owner's signature where it is asked for or given, stands in the store at the lowest place with room, under a new handle, and `PROG_RESULT` reads `OK`; a source outside the half's DRAM is refused `ACCESS_STATE` and nothing is stored. `UNLOAD` removes a program that no alias names and no context runs. -/
def Obligations.Loader : Prop :=
  ∀ (h : Half) (r : Req) (s : State), StoresWf s →
    let ix := hk h 0x4C20
    let handle := s.num ix 4
    let say (c : Nat) (u : State) (st : Nat) (row : Instr) := exec row s = .next (wrote u h r ix 1 0 [BitVec.ofNat 8 c] st)
    (Writes s h r ix 1 →
      ((s.half h).loading = none →
        say 1 (s.modHalf h (fun x => { x with loading := some ⟨s.num ix 2, s.num ix 3⟩ })) 0 (.load h r h)
        ∧ ((s.half h).progs.find? (fun p => p.handle == handle) = none → say 2 (s.setNum ix 6 10) 0 (.unload h r h))
        ∧ (∀ p, (s.half h).progs.find? (fun p => p.handle == handle) = some p → namedHalves p.cores = [h] → handle < 0x80000000 →
          (aliased s h handle = false → progRuns s h handle = false →
            say 2 ((s.modHalf h (fun x => { x with progs := x.progs.filter (fun p => decide (p.handle ≠ handle)) })).setNum ix 6 0) 0
              (.unload h r h))
          ∧ ((aliased s h handle = true ∨ progRuns s h handle = true) → say 2 (s.setNum ix 6 10) 0 (.unload h r h))))
      ∧ ((s.half h).loading ≠ none → say 1 s 10 (.load h r h) ∧ say 2 s 10 (.unload h r h)))
    ∧ (∀ l, (s.half h).loading = some l →
      let idle := s.modHalf h (fun x => { x with loading := none })
      let bs := s.read l.src l.bytes
      let w := imageWrap s h bs
      let img := bs.drop w.2
      (loadInDram h l = false → exec (.loadDone h) s = .next (idle.setNum ix 6 10))
      ∧ (∀ a k, loadInDram h l = true → storePlace s h l.bytes = some a → freeHandle s [h] = some k → cleanMem s →
        w.1 = true → imageOk img (if w.2 = 0 then l.bytes else bytesNat bs 8 4) = true → shapeOk s h img = true →
        namedHalves (perCores img) = [h] → s.inService h = true → signatureFits s img = true →
        let gen := if 32767 ≤ Tab.get 0 (s.half h).gens k then 1 else Tab.get 0 (s.half h).gens k + 1
        ∃ t, exec (.loadDone h) s = .next t ∧ t.read a l.bytes = bs ∧ SameMemBut s t a l.bytes
          ∧ (t.half h).progs = (s.half h).progs
              ++ [⟨gen * 65536 + k, a, l.bytes, a + (w.2 + bytesNat img 40 8), sha384 bs, perCores img⟩]
          ∧ t.num ix 6 = 0 ∧ t.num ix 4 = gen * 65536 + k ∧ (t.half h).loading = none ∧ t.half h.other = s.half h.other))
    ∧ ((s.half h).loading = none → exec (.loadDone h) s = .next s)

/-- Power requests (R452, R457 to R461): `OP_REQUEST` keeps the point asked for; `POWER_REQ` wakes an idle half at once, begins the wake of one in planned Nap, and is refused by one in forced Nap; Idle is allowed; Nap begins where the loops are open and the peer is out, by holding the dispatcher and requesting every core; Standby is entered from CAN alone, with every loop open. -/
def Obligations.PowerRequests : Prop :=
  ∀ (h : Half) (r : Req) (p : Nat) (s : State), StoresWf s →
    let ix := hk h 0x4D00
    let say (v : Nat) (u : State) (st : Nat) (row : Instr) := exec row s = .next (wrote u h r ix 9 0 [BitVec.ofNat 8 v] st)
    let asked (q : Nat) := s.modPower h (fun x => { x with req := q })
    (Writes s h r ix 1 → p < 256 →
      (p ≤ 2 → exec (.opRequest h r h p) s = .next (wrote (s.setNum ix 1 p) h r ix 1 0 [BitVec.ofNat 8 p] 0))
      ∧ (2 < p → exec (.opRequest h r h p) s = .next (wrote s h r ix 1 0 [BitVec.ofNat 8 p] 10)))
    ∧ (Writes s h r ix 9 →
      (powerState s h = 0 → say 0 (asked 0) 0 (.powerReqRun h r h))
      ∧ (powerState s h = 1 → ∃ u, say 0 u 0 (.powerReqRun h r h) ∧ powerState u h = 0 ∧ u.num ix 0x0B = 4 ∧ (u.half h).power.req = 0
          ∧ u.mem = s.mem)
      ∧ (powerState s h = 2 → say 0 ((asked 0).setNum ix 0x0B 4 |>.modPower h (fun x => { x with nap := 3 })) 0 (.powerReqRun h r h))
      ∧ (powerState s h = 3 → say 0 s 10 (.powerReqRun h r h))
      ∧ say 1 (asked 1) 0 (.powerReqIdle h r h)
      ∧ (powerState s h < 2 → loopsOpen s h = true → peerOut s h = true → (s.half h).power.nap = 0 → (s.half h).cores = [] →
          ∃ u, say 2 u 0 (.powerReqNap h r h) ∧ (u.half h).power.req = 2 ∧ (u.half h).power.nap = 1 ∧ (u.half h).power.dispatchOff = true
            ∧ powerState u h = 0 ∧ u.mem = s.mem ∧ (u.half h).ctxs = (s.half h).ctxs)
      ∧ (powerState s h < 2 → loopsOpen s h = true → peerOut s h = true → (s.half h).power.nap ≠ 0 → say 2 s 0 (.powerReqNap h r h))
      ∧ ((2 ≤ powerState s h ∨ loopsOpen s h = false ∨ peerOut s h = false) → say 2 s 10 (.powerReqNap h r h)))
    ∧ (Writes s h r 0x2B00 2 →
      (transportBit r = 0 → loopsOpen s .bow = true → loopsOpen s .stern = true →
        (∀ g, (∀ q ∈ (s.half g).ctxs, q.2.ticket = none) ∧ (s.half g).done = [] ∧ inTrial s g = false) →
        ∃ u, exec (.standbyReq h r) s = .next (wrote u h r 0x2B00 2 0 [1] 0) ∧ u.standby = true
          ∧ (∀ g, (u.half g).ready = 0 ∧ (u.half g).boot.stage = 0 ∧ (u.half g).faultN = true)
          ∧ ∀ a g, s.region a = .dram g → u.byte a = s.byte a)
      ∧ (transportBit r = 0 → (loopsOpen s .bow = false ∨ loopsOpen s .stern = false) →
        exec (.standbyReq h r) s = .next (wrote s h r 0x2B00 2 0 [1] 10))
      ∧ (transportBit r ≠ 0 → exec (.standbyReq h r) s = .next (wrote s h r 0x2B00 2 0 [1] 11)))

/-! ### Start-up, attestation, power and supplies -/

/-- Start-up (R433 to R437, R439, R443): at `RESET_RELEASE` the mask ROM chooses the preferred slot, spending a try of a trial, or the last good one when a trial has none left, and `READY` reads 1; a first stage that verifies leads to the main firmware, one that does not marks its slot and resets the half; main firmware that verifies runs, its settings come into force and the half's objects are served; a half whose part record disagrees with its peer's is held; a half whose PUF does not reconstruct stays in reset; a trial that has not reached `NORMAL` goes back to the old slot; a nonce is answered by one report. Signatures, identities, the PUF and flash contents are left open; the layout of the defaults record and the comparison of the part record are the model's (log 11, 18, 19). -/
def Obligations.StartUp : Prop :=
  ∀ (h : Half) (tt : Time) (s : State), StoresWf s →
    let x := s.half h
    let f := x.flash
    let u := s.atTime h tt
    let started (t : State) (slot : Nat) (fl : Flash) := (t.half h).ready = 1 ∧ (t.half h).boot.stage = 1 ∧ (t.half h).boot.slot = slot
      ∧ (t.half h).flash = fl ∧ (t.half h).power.resetN = false ∧ t.mem = s.mem ∧ t.half h.other = s.half h.other
      ∧ ((s.half h.other).boot.stage = 0 → t.num 0x2600 1 = s.devPins % 4)
    (x.boot.stage = 0 → s.standby = false → x.power.supplied = true → x.power.supplyFault = false → x.power.stuck = false →
      x.boot.failed = [] →
      ∃ t, exec (.resetRelease h) s = .next t
        ∧ (f.trial = false → started t f.preferred f)
        ∧ (f.trial = true → 0 < f.tries → started t f.preferred { f with tries := f.tries - 1 } ∧ (t.half h).boot.trialT = some x.tt)
        ∧ (f.trial = true → f.tries = 0 → started t f.lastGood { f with trial := false } ∧ f.preferred ∈ (t.half h).boot.failed))
    ∧ ((x.boot.stage ≠ 0 ∨ s.standby = true ∨ x.power.supplied = false ∨ x.power.supplyFault = true) →
      exec (.resetRelease h) s = .next s)
    ∧ (x.boot.stage = 1 → x.power.stuck = false →
      ∃ t, exec (.firstStageVerified h) s = .next t
        ∧ (firstStageOk s h x.boot.slot = true → t = s.modHalf h (fun y => { y with boot := { y.boot with stage := 2 } }))
        ∧ (firstStageOk s h x.boot.slot = false → WentIntoReset s t h ∧ x.boot.slot ∈ (t.half h).boot.failed ∧ (t.half h).flash = f))
    ∧ (x.boot.stage = 2 → x.power.stuck = false → (s.half h.other).boot.stage ≠ 3 →
      ∃ t, exec (.mainFirmwareStart h) s = .next t
        ∧ (Config.pufGood h.num = false → WentIntoReset s t h ∧ (t.half h).power.stuck = true)
        ∧ (Config.pufGood h.num = true → mainOk s h x.boot.slot = false → WentIntoReset s t h ∧ x.boot.slot ∈ (t.half h).boot.failed)
        ∧ (Config.pufGood h.num = true → mainOk s h x.boot.slot = true → serviceChainOk x = true → f.partOk = true → (flashSettings s f).dflts = [] →
            x.power.cold = false → x.ready = 1 →
            (t.half h).boot.stage = 3 ∧ (t.half h).ready = 2 ∧ (t.half h).settings = flashSettings s f
            ∧ viewBytes t h 0x2A00 2 = ownerDigest f.owner ∧ viewNum t h 0x2A00 3 = ownerPolicy f.owner ∧ t.mem = s.mem ∧ (t.half h).flash = f)
        ∧ (Config.pufGood h.num = true → mainOk s h x.boot.slot = true → f.partOk = false → (flashSettings s f).dflts = [] → x.ready = 1 →
            (t.half h).boot.stage = 3 ∧ (t.half h).power.stuck = true ∧ (t.half h).ready = 1 ∧ t.mem = s.mem))
    ∧ (inTrial s h = true → s.halfState h ≠ 1 →
      ∃ t, exec (.fwTrialTimeout h) s = .next t ∧ WentIntoReset s t h ∧ f.preferred ∈ (t.half h).boot.failed
        ∧ (t.half h).flash = { f with preferred := f.lastGood, trial := false })
    ∧ ((inTrial s h = false ∨ s.halfState h = 1) → exec (.fwTrialTimeout h) s = .next s)
    ∧ (∀ n, (u.half h).attNonce = some n →
      ∃ t, exec (.attestReport h tt) s = .next t ∧ (t.half h).attNonce = none ∧ t.mem = u.mem
        ∧ t.num (hk h 0x4C00) 5 = satAdd 32 (u.num (hk h 0x4C00) 5) 1
        ∧ ∃ head rest, t.bytes (hk h 0x4C00) 4 = head ++ (n ++ natLe 8 tt.toNat ++ natLe 16 u.part.serial ++ rest))
    ∧ ((u.half h).attNonce = none → exec (.attestReport h tt) s = .next u)

/-- Operating points and heat (R451 to R455): a half goes to the slower of `OP_REQUEST` and `OP_LIMIT`, at most once a millisecond; a slower point switches the clock first, a faster one when the regulator reports its voltage; an unanswered command is counted. A reading of 122 °C sets the slowest limit, one of 127 °C holds issue, and both `T_HOT` conditions move the limit one point. -/
def Obligations.OperatingPoints : Prop :=
  ∀ (h : Half) (temps : List Int) (tt : Time) (s : State), StoresWf s →
    let u := s.atTime h tt
    let ix := hk h 0x4D00
    let x := (u.half h).power
    let cur := u.num ix 2
    let want := max (u.num ix 1) (u.num ix 3)
    let mv (p : Nat) := if p = 0 then 750 else if p = 1 then 680 else 600
    (powerState u h < 2 → (∀ l, x.lastChange = some l → 1000000 ≤ Time.diff tt l) →
      (cur < want → x.raise = none →
        ∃ t, exec (.opChange h tt) s = .next t ∧ t.num ix 2 = want ∧ t.outbox = u.outbox ++ [.regulator h (mv want)]
          ∧ (t.half h).power = { x with vcmd := some want, lastChange := some tt, raise := none } ∧ t.mem = u.mem)
      ∧ (want < cur → x.raise = none →
        ∃ t, exec (.opChange h tt) s = .next t ∧ t.num ix 2 = cur ∧ t.outbox = u.outbox ++ [.regulator h (mv want)]
          ∧ (t.half h).power = { x with vcmd := some want, lastChange := some tt, raise := some want } ∧ t.mem = u.mem)
      ∧ (cur = want → x.raise = none → x.vcmd = none → exec (.opChange h tt) s = .next u))
    ∧ (powerState u h < 2 → ∀ l, x.lastChange = some l → Time.diff tt l < 1000000 → x.raise = none → exec (.opChange h tt) s = .next u)
    ∧ (x.vcmd ≠ none →
      (∀ p, x.raise = some p → ∃ t, exec (.vrAck h tt) s = .next t ∧ t.num ix 2 = p
        ∧ (t.half h).power = { x with vcmd := none, raise := none } ∧ t.mem = u.mem)
      ∧ (x.raise = none → exec (.vrAck h tt) s = .next (u.modPower h (fun y => { y with vcmd := none, raise := none })))
      ∧ (∃ t, exec (.vrTimeout h tt) s = .next t ∧ t.num ix 2 = cur ∧ t.num ix 0x0C = satAdd 32 (u.num ix 0x0C) 1
        ∧ (t.half h).power.raise = none ∧ (t.half h).power.lastChange = some tt ∧ t.mem = u.mem))
    ∧ (x.vcmd = none → exec (.vrAck h tt) s = .next u ∧ exec (.vrTimeout h tt) s = .next u)
    ∧ (∀ a rest, temps = a :: rest → (∀ p ∈ (u.half h).cores, p.2.ctx = none) →
      let tj := clampI (-32768) 32767 (rest.foldl max a)
      let hot := 16 * u.int ix 5 8
      ∃ t, exec (.thermalSample h temps tt) s = .next t ∧ t.num ix 4 = twos 16 tj ∧ t.mem = u.mem
        ∧ t.num ix 3 = (if 1952 ≤ tj then 2 else u.num ix 3)
        ∧ (t.half h).power.hold = (decide (2032 ≤ tj) || (x.hold && decide (1920 ≤ tj)))
        ∧ t.num ix 7 = (if 2032 ≤ tj ∧ x.hold = false then satAdd 32 (u.num ix 7) 1 else u.num ix 7)
        ∧ (t.half h).power.hotSince = (if hot ≤ tj then some (x.hotSince.getD tt) else none)
        ∧ (t.half h).power.coolSince = (if tj < hot - 160 then some (x.coolSince.getD tt) else none))
    ∧ (∀ a, x.hotSince = some a →
      (1000000 ≤ Time.diff tt a → u.num ix 3 < 2 → ∃ t, exec (.throttle h tt) s = .next t ∧ t.num ix 3 = u.num ix 3 + 1
        ∧ t.num ix 6 = satAdd 32 (u.num ix 6) 1 ∧ t.mem = u.mem)
      ∧ ((Time.diff tt a < 1000000 ∨ 2 ≤ u.num ix 3) → exec (.throttle h tt) s = .next u))
    ∧ (∀ a, x.hotSince = none → x.coolSince = some a →
      (100000000 ≤ Time.diff tt a → 0 < u.num ix 3 → ∃ t, exec (.throttle h tt) s = .next t ∧ t.num ix 3 = u.num ix 3 - 1
        ∧ t.num ix 6 = satAdd 32 (u.num ix 6) 1 ∧ t.mem = u.mem)
      ∧ ((Time.diff tt a < 100000000 ∨ u.num ix 3 = 0) → exec (.throttle h tt) s = .next u))

/-- Idle, Nap and wake (R456 to R461): a half that may and holds no core goes Idle; a half whose cores are free enters Nap with its gate closed, Pools and Meres lost, its peer told; `D_WAKE` and a wake of CAN0 leave Standby with their cause; a waking half has clear Pools and Meres, an open gate unless it is in safe state, its dispatcher on and its Spring schedule begun anew. -/
def Obligations.NapAndWake : Prop :=
  ∀ (h : Half) (tt : Time) (s : State), StoresWf s →
    let u := s.atTime h tt
    let x := (u.half h).power
    let cleared (t : State) := ∀ c a, (u.region a = .pool h c ∨ u.region a = .mere h c) → t.byte a = 0
    let dram (t : State) := ∀ a g, u.region a = .dram g → t.byte a = u.byte a
    (x.req = 1 → powerState u h = 0 → x.nap = 0 → (u.half h).ready = 3 → (∀ p ∈ (u.half h).cores, p.2.ctx = none) →
      (∀ c < u.part.cores, springState u h c ≠ 2) →
      ∃ t, exec (.idleEntry h tt) s = .next t ∧ powerState t h = 1 ∧ t.mem = u.mem ∧ (t.half h) = u.half h)
    ∧ ((x.req ≠ 1 ∨ powerState u h ≠ 0) → exec (.idleEntry h tt) s = .next u)
    ∧ ((x.nap = 1 ∨ x.nap = 2) → powerState u h < 2 → (∀ p ∈ (u.half h).cores, p.2.ctx = none) → (∀ p ∈ (u.half h).ctxs, isResident p.2 = false) →
      ∃ t, exec (.napEntryDone h tt) s = .next t ∧ powerState t h = 2 ∧ (t.half h).power.nap = 0 ∧ (t.half h).safety.gateClosed = true
        ∧ (t.half h.other).peer = 2 ∧ (t.half h).springs = [] ∧ (t.half h).ctxs = (u.half h).ctxs ∧ cleared t ∧ dram t)
    ∧ (((x.nap ≠ 1 ∧ x.nap ≠ 2) ∨ ∃ p ∈ (u.half h).cores, p.2.ctx ≠ none) → exec (.napEntryDone h tt) s = .next u)
    ∧ (powerState u h = 2 → x.nap = 3 →
      ∃ t, exec (.napWakeDone h tt) s = .next t ∧ powerState t h = 0 ∧ (t.half h).safety.gateClosed = (u.halfState h == 4 || u.halfState h == 5)
        ∧ (t.half h).power.dispatchOff = false ∧ (t.half h).power.nap = 0 ∧ (t.half h).springS = tt
        ∧ (t.half h.other).peer = (if (u.half h.other).peer = 2 then 0 else (u.half h.other).peer)
        ∧ (t.half h).ctxs = (u.half h).ctxs ∧ cleared t ∧ dram t)
    ∧ ((powerState u h ≠ 2 ∨ x.nap ≠ 3) → exec (.napWakeDone h tt) s = .next u)
    ∧ (s.standby = true →
      exec .dWake s = .next { (s.setNum (hk .bow 0x4D00) 0x0B 3).setNum (hk .stern 0x4D00) 0x0B 3 with standby := false }
      ∧ exec (.canWake h) s = .next { (s.setNum (hk .bow 0x4D00) 0x0B (1 + h.num)).setNum (hk .stern 0x4D00) 0x0B (1 + h.num) with
          standby := false })
    ∧ (s.standby = false → exec (.canWake h) s = .next s
      ∧ (powerState s h = 2 → powerState s h.other ≠ 2 →
        ∃ t, exec .dWake s = .next t ∧ (t.half h).power.nap = 3 ∧ t.num (hk h 0x4D00) 0x0B = 3 ∧ t.half h.other = s.half h.other
          ∧ t.mem = s.mem))

/-- Supplies, resets and entry into service (R93, R95, R398, R461 to R463, R476, R477, R482): supplies start a half cold and in reset; a fault of a monitored rail and `x_RESET_N` reset it; after Off its DRAM is written with zeros before its objects are served; with its tests passed it enters service: `NORMAL`, `READY` 3, `FAULT_N` released, Pools and Meres clear, unless it has entered safe state, in which it stays; a bound missed stops it where it is. The boundary scan runs only with both resets low, by the states of IEEE 1149.1. The boundary register's cells are left open (log 25). -/
def Obligations.Supplies : Prop :=
  ∀ (h : Half) (rail : Nat) (rising tms tdi : Bool) (tt : Time) (s : State), StoresWf s →
    let x := s.half h
    let u := s.atTime h tt
    let v := u.half h
    let b := dramBase h
    (x.power.resetN = true →
      ∃ t, exec (.suppliesApplied h) s = .next t ∧ WentIntoReset s t h ∧ (t.half h).power.supplied = true
        ∧ (t.half h).power.cold = true ∧ (t.half h).power.supplyFault = false ∧ (t.half h).boot.failed = [] ∧ t.standby = false)
    ∧ (x.power.resetN = false → exec (.suppliesApplied h) s = .next s)
    ∧ (rail < 4 → ∃ t, exec (.supplyFault h rail) s = .next t ∧ WentIntoReset s t h ∧ (t.half h).power.supplyFault = true)
    ∧ (∃ t, exec (.resetNAssert h) s = .next t ∧ WentIntoReset s t h ∧ (t.half h).power.resetN = true ∧ (t.half h).power.supplyFault = false)
    ∧ (x.boot.stage = 3 → x.ready = 1 → x.power.cold = true → x.power.stuck = false →
      ∃ t, exec (.dramZeroWrite h) s = .next t ∧ (t.half h).ready = 2 ∧ (t.half h).power.cold = false
        ∧ (∀ a, t.byte a = if b ≤ a ∧ a < b + 0x1000000000 then 0 else s.byte a)
        ∧ (∀ l, b ≤ l → l < b + 0x1000000000 → l ∉ t.poison ∧ t.lineErr.find l = none) ∧ t.half h.other = s.half h.other ∧ t.dict = s.dict)
    ∧ ((x.boot.stage ≠ 3 ∨ x.ready ≠ 1 ∨ x.power.cold = false) → exec (.dramZeroWrite h) s = .next s)
    ∧ (v.boot.stage = 3 → v.ready = 2 → v.power.stuck = false → u.part.spareBow = [] → u.part.spareStern = [] → v.service = [] →
      u.halfState h ≠ 4 → u.halfState h ≠ 5 →
      ∃ t, exec (.ready3 h tt) s = .next t ∧ t.halfState h = 1 ∧ powerState t h = 0 ∧ (t.half h).ready = 3 ∧ (t.half h).faultN = false
        ∧ (t.half h).springS = v.tt ∧ (t.half h.other).peer = 0
        ∧ (inTrial u h = true → (t.half h).flash.trial = false ∧ t.num (hk h 0x4C10) 9 = 0)
        ∧ (∀ c a, (u.region a = .pool h c ∨ u.region a = .mere h c) → t.byte a = 0)
        ∧ (∀ a g, u.region a = .dram g → t.byte a = u.byte a))
    ∧ (v.boot.stage = 3 → v.ready = 2 → v.power.stuck = false → u.part.spareBow = [] → u.part.spareStern = [] → v.service = [] →
      (u.halfState h = 4 ∨ u.halfState h = 5) →
      ∃ t, exec (.ready3 h tt) s = .next t ∧ (t.half h).ready = 3 ∧ t.halfState h = u.halfState h ∧ (t.half h).faultN = v.faultN)
    ∧ ((v.boot.stage ≠ 3 ∨ v.ready ≠ 2) → exec (.ready3 h tt) s = .next u)
    ∧ (x.boot.stage ≠ 0 → x.ready ≠ 3 → exec (.startupBoundMiss h) s = .next (s.modPower h (fun y => { y with stuck := true })))
    ∧ ((x.boot.stage = 0 ∨ x.ready = 3) → exec (.startupBoundMiss h) s = .next s)
    ∧ (s.bow.power.resetN = true → s.stern.power.resetN = true →
      (rising = true → s.scan.tap = 4 → (s.scan.ir = 0 ∨ s.scan.ir = 1) →
        exec (.boundaryScan true tms tdi) s = .next { s with scan := { s.scan with
          cells := s.scan.cells.drop 1 ++ [tdi], tap := if tms then 5 else 4 } })
      ∧ (rising = true → s.scan.tap = 4 → s.scan.ir ≠ 0 → s.scan.ir ≠ 1 →
        exec (.boundaryScan true tms tdi) s = .next { s with scan := { s.scan with bypass := tdi, tap := if tms then 5 else 4 } })
      ∧ (rising = false → s.scan.tap = 4 → (s.scan.ir = 0 ∨ s.scan.ir = 1) →
        exec (.boundaryScan false tms tdi) s = .next (s.emit (.tdo (s.scan.cells.headD false))))
      ∧ (rising = false → s.scan.tap = 8 → (s.scan.ir = 0 ∨ s.scan.ir = 1) →
        exec (.boundaryScan false tms tdi) s = .next { s with scan := { s.scan with out := s.scan.cells } }))
    ∧ ((s.bow.power.resetN = false ∨ s.stern.power.resetN = false) → exec (.boundaryScan rising tms tdi) s = .next s)

/-! ### Core commands -/

/-- The six modes of `MOVE` (R105, R111, R145, R146): a well-formed one whose rows lie in the half's own memory or in the core's Pool, none of them over another, copies every row, or fills it with the 4-byte value; every byte outside its destinations is unchanged. That a command takes effect where it issues, and comes as an operand of its row, is the model's (log 4, 5). -/
def Obligations.Moves : Prop :=
  ∀ (h : Half) (c n m : Nat) (d : BitVec 256) (s : State),
    CoreReady s h c n d.toNat → opcodeOf d.toNat = 1 → moveMode d.toNat = m → m ≤ 5 → RunsAtOnce s h c d.toNat →
    let e := issuedEnv s h c d.toNat
    let rows := moveRows e
    let bytes (r : Nat × Nat × Nat) : List Byte :=
      if m = 5 then upto r.2.2 (fun i => BitVec.ofNat 8 (fillValue e / 2 ^ (8 * (i % 4)))) else s.read r.1 r.2.2
    let ws := rows.map (fun r => (r.2.1, bytes r))
    Apart ws → (m = 5 ∨ ∀ r ∈ rows, ∀ w ∈ ws, r.1 + r.2.2 ≤ w.1 ∨ w.1 + w.2.length ≤ r.1) →
    (bitAt d.toNat 72 = true ∨ ∀ r ∈ rows, ownBytes s h r.2.1 r.2.2) →
    (m = 5 ∨ bitAt d.toNat 71 = true ∨ ∀ r ∈ rows, ownBytes s h r.1 r.2.2) →
    ∃ t, exec (moveInstr m h c d) s = .next t ∧ Wrote s t ws ∧ OwnCore s t h c n

/-- `LOADW`, `STREAM` and `REQUANTISE_TILE` (R48 to R51, R70, R72, R77, R78, R113): a `LOADW` fills the next weight register; a `STREAM` makes that block active and feeds every unmasked row to every column of its tile, which stays open, or with `REQ` waits for the requantiser in runs of a tile's rows; the requantiser writes its oldest run row by row. Only the requantiser writes memory. That a command takes effect where it issues, and comes as an operand of its row, is the model's (log 4, 5). -/
def Obligations.GangCommands : Prop :=
  ∀ (h : Half) (c n : Nat) (d : BitVec 256) (s : State),
    let e := issuedEnv s h c d.toNat
    let k := s.core h c
    let still := (s.rollOf h c).pend = [] ∧ (s.rollOf h c).armed = [] ∧ (s.rollOf h c).testSpare = none
    (∀ w, CoreReady s h c n d.toNat → opcodeOf d.toNat = 2 → fmtOf (fld d.toNat 68 64) = some w → RunsAtOnce s h c d.toNat → still →
      ∃ t, exec (.loadw h c d) s = .next t ∧ (t.core h c).wNext = some (readBlock s e w) ∧ (t.core h c).wActive = k.wActive
        ∧ (t.core h c).lastLoadw = some d.toNat ∧ (t.core h c).tile = k.tile ∧ t.mem = s.mem ∧ OwnCore s t h c n)
    ∧ (∀ a b, CoreReady s h c n d.toNat → opcodeOf d.toNat = 3 → fmtOf (fld d.toNat 68 64) = some a → streamBlock k = some b →
      RunsAtOnce s h c d.toNat → still →
      let form := fld d.toNat 75 74
      let N := formN form
      let K := pairK form a b.fmt
      let rows := fld d.toNat 127 108
      let all := formEngines form * rows
      let acc := bitAt d.toNat 76
      let mask := streamMask s e k all
      let lsb := gridOf d.toNat a b.fmt
      let old (i j : Nat) : Acc := match k.tile with
        | some x => if acc then x.accs.getD (i * N + j) accZero else accZero
        | none => accZero
      let codes (i : Nat) := upto K (fun q => bufElem s e 0 (fld d.toNat 175 160 * 32 + i * fld d.toNat 191 176) a q)
      let scale (i : Nat) : Option Int := if fmtIsMx a then e8m0 (bufByte s e 5 (fld d.toNat 255 240 * 32 + i)).toNat else some 0
      let val (i j : Nat) : Acc :=
        if mask.getD i false then feed (old i j) (!acc) a b K N (i / rows) j (codes i) (scale i) (zpVal a (fld d.toNat 135 128)) lsb
        else old i j
      ∃ t, exec (.stream h c d) s = .next t ∧ (t.core h c).wActive = some b ∧ (t.core h c).wNext = none ∧ t.mem = s.mem
        ∧ OwnCore s t h c n
        ∧ (bitAt d.toNat 77 = false → (t.core h c).runs = k.runs ∧ ∃ x, (t.core h c).tile = some x ∧ x.form = form ∧ x.rows = rows
            ∧ x.grid = lsb ∧ x.mask = mask ∧ ∀ i < all, ∀ j < N, x.accs.getD (i * N + j) accZero = val i j)
        ∧ (bitAt d.toNat 77 = true → (t.core h c).tile = none
            ∧ let rs := runRows mask (formEngines form) rows (formRows form)
              (t.core h c).runs = k.runs ++ rs.map (fun r =>
                ⟨(s.half h).nextCid, d.toNat, r, r.flatMap (fun i => upto N (val i)), lsb, fmtOrdered a⟩)
              ∧ (t.core h c).inflight.map (·.runs) = [rs.length]))
    ∧ (∀ r rest f tgt, StoresWf s → k.runs = r :: rest → k.inflight = [f] → f.cid = r.cid → f.cmd.d = d.toNat →
      fmtOf (fld d.toNat 73 69) = some tgt → slotTag d.toNat 4 = none →
      let e := envOf s h c f.cmd f.cid []
      let N := formN (fld d.toNat 75 74)
      let out (p : Nat × Nat) := upto N (fun j =>
        (writeOut tgt (fld d.toNat 143 136) (sext 16 (fld d.toNat 159 144)) (r.accs.getD (p.1 * N + j) accZero) r.ordered r.grid
          (BitVec.ofNat 32 (bufNat s e 2 (4 * (fld d.toNat 239 224 + p.2 / fld d.toNat 127 108 * N + j)) 4))).1)
      let ws := (List.zip (List.range r.rows.length) r.rows).map (fun p =>
        ((buf e 1).1 + (fld d.toNat 207 192 * 32 + p.2 * fld d.toNat 223 208), packRun tgt (out p)))
      Apart ws → k.ctx = some n →
      ∃ t, exec (.requantiseTile h c) s = .next t ∧ Wrote s t ws ∧ (t.core h c).runs = rest
        ∧ (t.core h c).inflight.map (·.runs) = [f.runs - 1] ∧ OwnCore s t h c n)
    ∧ (k.runs = [] → exec (.requantiseTile h c) s = .next s)

/-- `CONV`, `CROP`, `POOL`, `VEC` and `ATTN` (R60, R115 to R120, R135 to R154, R166 to R177, R486): each writes its results, computed as its rules say, at its output, and nothing else in memory; an empty `CONV` or `POOL` marks its ticket and writes nothing, as does a `VEC` of length 0. `CONV` and `ATTN` leave the gang without an active block and an open tile; the staging area of an `ATTN` is left with free values. That a command takes effect where it issues, and comes as an operand of its row, is the model's (log 4, 5). -/
def Obligations.Kernels : Prop :=
  ∀ (h : Half) (c n : Nat) (d : BitVec 256) (d2 : BitVec 512) (s : State),
    let still := (s.rollOf h c).pend = [] ∧ (s.rollOf h c).armed = [] ∧ (s.rollOf h c).testSpare = none
    let gangFree (t : State) := (t.core h c).wActive = none ∧ (t.core h c).wNext = none ∧ (t.core h c).tile = none
    let flagged (t : State) (st : Stat) := (t.ctx h n).flags.sat = ((s.ctx h n).flags.sat || decide (0 < st.sat))
      ∧ (t.ctx h n).flags.satTotal = satAdd 20 (s.ctx h n).flags.satTotal st.sat
      ∧ (t.ctx h n).flags.uflTotal = satAdd 20 (s.ctx h n).flags.uflTotal st.ufl
    (CoreReady s h c n d2.toNat → RunsAtOnce s h c d2.toNat → still → slotTag d2.toNat 4 = none →
      let x := d2.toNat
      let e := issuedEnv s h c x
      opcodeOf x = 4 →
      (convPixels x = 0 → ∃ t, exec (.conv h c d2) s = .next t ∧ (t.ctx h n).flags.empty = true ∧ gangFree t ∧ t.mem = s.mem
        ∧ OwnCore s t h c n)
      ∧ (∀ a w o, 0 < convPixels x → fmtOf (fld x 68 64) = some a → fmtOf (fld x 440 436) = some w → fmtOf (fld x 73 69) = some o →
        let E := formEngines (fld x 75 74)
        let N := formN (fld x 75 74)
        let K := pairK (fld x 75 74) a w
        let lsb := gridOf x a w
        let out (i : Nat) := (upto E (fun g => upto N (fun j =>
          (writeOut o (fld x 143 136) (sext 16 (fld x 159 144)) (convOut s e a w K N E i g j lsb) (fmtOrdered a) lsb
            (BitVec.ofNat 32 (bufNat s e 2 (4 * (fld x 239 224 + g * N + j)) 4))).1))).flatten
        let ws := upto (convPixels x) (fun i => ((buf e 1).1 + (fld x 207 192 * 32 + i * fld x 223 208), packRun o (out i)))
        Apart ws → ∃ t, exec (.conv h c d2) s = .next t ∧ Wrote s t ws ∧ gangFree t ∧ OwnCore s t h c n))
    ∧ (∀ f, CoreReady s h c n d.toNat → RunsAtOnce s h c d.toNat → opcodeOf d.toNat = 5 → fmtOf (fld d.toNat 68 64) = some f →
      let x := d.toNat
      let e := issuedEnv s h c x
      let byte (a : Nat) : Byte := if bitAt x 69 then s.byte a else e.rd a
      let el (y z q : Nat) : Nat := elemAt f (fun b => byte (reach (bitAt x 69) (cropSrc e) (cropOfs x y z + b))) q
      let out := (cropSamples e).flatMap (fun p => upto (fld x 126 111) (fun q =>
        cropMix f p.1.2.2 p.2.2.2 [el p.1.1 p.2.1 q, el p.1.1 p.2.2.1 q, el p.1.2.1 p.2.1 q, el p.1.2.1 p.2.2.1 q]))
      ∃ t, exec (.crop h c d) s = .next t ∧ OwnCore s t h c n
        ∧ Wrote s t [((buf e 1).1 + fld x 211 196 * 32, packRun f (out.map Prod.fst))]
        ∧ flagged t ((out.map Prod.snd).foldl statPlus statZero))
    ∧ (∀ f o, CoreReady s h c n d.toNat → RunsAtOnce s h c d.toNat → opcodeOf d.toNat = 6 → fmtOf (fld d.toNat 68 64) = some f →
      fmtOf (fld d.toNat 73 69) = some o →
      let x := d.toNat
      let e := issuedEnv s h c x
      let out := (poolWindows x).flatMap (fun w => upto (fld x 175 160) (fun q =>
        poolOut x f o (w.map (fun p => bufElem s e 0 (poolOfs x p) f q))))
      (poolWindows x = [] → ∃ t, exec (.pool h c d) s = .next t ∧ (t.ctx h n).flags.empty = true ∧ t.mem = s.mem ∧ OwnCore s t h c n)
      ∧ (poolWindows x ≠ [] → ∃ t, exec (.pool h c d) s = .next t ∧ OwnCore s t h c n
          ∧ Wrote s t [((buf e 1).1 + fld x 243 228 * 32, packRun o (out.map Prod.fst))]
          ∧ flagged t ((out.map Prod.snd).foldl statPlus statZero)))
    ∧ (∀ k f0 f1 f2 fd, CoreReady s h c n d.toNat → RunsAtOnce s h c d.toNat → opcodeOf d.toNat = 7 →
      vecKind (vecOp d.toNat) = some k → fmtOf (fld d.toNat 76 72) = some f0 → fmtOf (fld d.toNat 81 77) = some f1 →
      fmtOf (fld d.toNat 86 82) = some f2 → fmtOf (fld d.toNat 91 87) = some fd →
      let x := d.toNat
      let e := issuedEnv s h c x
      let src (slot ofs : Nat) (f : Fmt) (i : Nat) : F32 :=
        if k == .int2 then BitVec.ofNat 32 (bufElem s e slot (ofs * 32) f i) else fvToF32 (fmtDec f (bufElem s e slot (ofs * 32) f i))
      let out := vecResults x k fd (src 0 (fld x 159 144) f0) (src 1 (fld x 175 160) f1) (src 2 (fld x 191 176) f2)
      (vecLen x = 0 → ∃ t, exec (.vec h c d) s = .next t ∧ t.mem = s.mem ∧ OwnCore s t h c n ∧ (t.ctx h n).flags = (s.ctx h n).flags)
      ∧ (vecLen x ≠ 0 → ∃ t, exec (.vec h c d) s = .next t ∧ OwnCore s t h c n
          ∧ Wrote s t [((buf e 3).1 + fld x 207 192 * 32, packRun fd (out.map Prod.fst))]
          ∧ flagged t ((out.map Prod.snd).foldl statPlus statZero)))
    ∧ (∀ f, CoreReady s h c n d2.toNat → RunsAtOnce s h c d2.toNat → still → slotTag d2.toNat 6 = none → opcodeOf d2.toNat = 8 →
      atFmts d2.toNat = some f →
      let x := d2.toNat
      let e := issuedEnv s h c x
      let u := issued s h c x
      let qs := atQRecs s e
      let freqs := atFreqs s e
      let lists := atKeyLists u e f
      let total := (lists.map List.length).foldl (· + ·) 0
      let q (r : Nat) := upto (atDqk x) (fun i => bufElem s e 0 (fld x 335 320 * 32 + r * atKRec x f) f.qk i)
      let qcodes := upto (atRows x) (fun r => if atDr x = 0 then q r else rope x f.qk freqs ((qs.getD r ⟨0, 0, 0, 0⟩).pos) (q r))
      let fin := ((atBlocks e qs lists).foldl (atStep s e f qs qcodes freqs total) (upto (atRows x) (atRow0 s e), statZero, statZero)).1
      let rows := List.zip (List.range fin.length) fin
      let stage := ((buf e 2).1 + (atStaging x f).1, (atStaging x f).2)
      let ws := rows.map (fun p =>
        if bitAt x 133 then ((buf e 1).1 + (fld x 351 336 * 32 + p.1 * atOutRow x f), packRun f.out ((atOutCodes x f p.2).map Prod.fst))
        else ((buf e 2).1 + (atState x + p.1 * atStateRow x), atRowBytes p.2))
      Apart ws → ∃ t, exec (.attn h c d2) s = .next t ∧ gangFree t ∧ OwnCore s t h c n ∧ t.freeCtr = s.freeCtr + stage.2
        ∧ (∀ w ∈ ws, t.read w.1 w.2.length = w.2)
        ∧ ∀ a, (∀ w ∈ ws, a < w.1 ∨ w.1 + w.2.length ≤ a) → (a < stage.1 ∨ stage.1 + stage.2 ≤ a) → t.byte a = s.byte a)

/-- `SEM`, `GATE`, `MOOR`, `TALLY` and `END` (R105, R121 to R124, R127, R131, R132, R216, R231): a free semaphore is taken, a held one is waited for, a released one goes to its first waiter or is free; a `GATE` that holds lets its core go on, another waits, its context having run until then, and opens when it holds; a mooring at which a request has come is taken, else passed; a `TALLY` sets its bit in memory, then its row counter; the last `END` of a ticket makes its completion record due with the ticket's status. That a command takes effect where it issues, and comes as an operand of its row, is the model's (log 4, 5). -/
def Obligations.Synchronisation : Prop :=
  ∀ (h : Half) (c n : Nat) (d : BitVec 256) (tt : Time) (s : State),
    let x := d.toNat
    let cmd := cmdAt s h c x
    let v := taken s h c x
    let k := v.core h c
    let due := mooringDue v h c
    let i := semId x
    let waits := stampRan (v.setCore h c { k with wait := some cmd }) h n
    let moored := v.setCore h c { k with wait := none, moor := some ⟨cmd, true⟩ }
    (CoreReady s h c n x →
      (opcodeOf x = 9 → bitAt x 64 = false →
        (due = false → (s.sem h i).holder = none →
          exec (.semAcquire h c d) s
            = .next ((v.setSem h i { v.sem h i with holder := some n }).setCtx h n { s.ctx h n with sem := some i }))
        ∧ (∀ m, due = false → (s.sem h i).holder = some m → (s.sem h i).waiters = [] →
          ∃ t, exec (.semAcquire h c d) s = .next t ∧ t.sem h i = ⟨some m, [((s.ctx h n).cls, n, c)]⟩ ∧ (t.core h c).wait = some cmd
            ∧ t.mem = s.mem ∧ t.ctx h n = { s.ctx h n with ran := (s.half h).ranStamp + 1 })
        ∧ (due = true → exec (.semAcquire h c d) s = .next moored))
      ∧ (opcodeOf x = 9 → bitAt x 64 = true →
        ((s.sem h i).waiters = [] → exec (.semRelease h c d) s
          = .next ((v.setCtx h n { s.ctx h n with sem := none }).setSem h i semFree))
        ∧ (∀ w, firstWaiter (s.sem h i).waiters = some w → (∀ y ∈ (s.sem h i).waiters, y.2.1 ≠ n ∧ (s.ctx h y.2.1).sem = none) →
          (s.core h w.2.2).ctx = some w.2.1 →
          ∃ t, exec (.semRelease h c d) s = .next t ∧ t.sem h i = ⟨some w.2.1, (s.sem h i).waiters.erase w⟩
            ∧ (t.ctx h n).sem = none ∧ (t.ctx h w.2.1).sem = some i ∧ (t.core h w.2.2).wait = none ∧ t.mem = s.mem))
      ∧ (opcodeOf x = 0x0A →
        (due = false → gateHolds s h n x (s.core h c).args = true → exec (.gate h c d) s = .next v)
        ∧ (due = false → gateHolds s h n x (s.core h c).args = false → exec (.gate h c d) s = .next waits)
        ∧ (due = true → exec (.gate h c d) s = .next moored))
      ∧ (opcodeOf x = 0x0B → (due = false → exec (.moor h c d) s = .next v) ∧ (due = true → exec (.moor h c d) s = .next moored))
      ∧ (opcodeOf x = 0x0C → errorFree s → s.poison = [] → (bitAt x 70 = false ∨ isPaired s h n = false) →
        let e := envOf s h c cmd (s.half h).nextCid []
        let a := tallyAddr e
        (bitAt x 80 = false ∨ (ownBytes s h a 1 ∧ accessVerdict s h (effClass s h n) true a 1 = .ok)) →
        ∃ t, exec (.tally h c d) s = .next t
          ∧ (bitAt x 80 = true → t.byte a = s.byte a ||| BitVec.ofNat 8 (2 ^ (fld x 159 128 % 8)) ∧ SameMemBut s t a 1
              ∧ (t.ctx h n).progress = (s.ctx h n).progress + 1)
          ∧ (bitAt x 80 = false → t.mem = s.mem ∧ (t.ctx h n).progress = (s.ctx h n).progress)
          ∧ (t.ctx h n).rows = (if bitAt x 70 then Tab.set 0 (s.ctx h n).rows (c * 4 + fld x 72 71) (tallyValue e) else (s.ctx h n).rows)
          ∧ (∀ m, m ≠ n → t.ctx h m = s.ctx h m) ∧ (t.half h).sems = (s.half h).sems ∧ t.half h.other = s.half h.other
          ∧ t.dict = s.dict ∧ t.outbox = s.outbox)
      ∧ (∀ tk, opcodeOf x = 0x0D → (s.ctx h n).ticket = some tk →
        let y := s.ctx h n
        let last := (progCores h tk.prog).all (fun m => (y.ended ++ [c]).contains m)
        (last = false → exec (.endCmd h c d) s = .next ((v.setCtx h n { y with ended := y.ended ++ [c] }).setCore h c coreFree))
        ∧ (last = true → y.state ≠ .ending →
          ∃ t r, exec (.endCmd h c d) s = .next t ∧ t.core h c = coreFree ∧ (t.ctx h n).state = .ending
            ∧ (t.half h).done = (s.half h).done ++ [r] ∧ r.queue = tk.queue ∧ r.k = tk.k ∧ r.seq = tk.seq ∧ r.ctx = some n
            ∧ r.status = endStatus y.flags ∧ r.endT = s.now h ∧ r.startT = y.startT.getD 0 ∧ t.mem = s.mem)))
    ∧ (∀ g, (s.core h c).wait = some g → opcodeOf g.d = 0x0A → (∀ p ∈ (s.half h).cores, p.2.window = []) → StoresWf s →
      let u := s.atTime h tt
      let holds := gateHolds u h ((s.core h c).ctx.getD 0) g.d (s.core h c).args
      (holds = true → exec (.gateOpen h c tt) s = .next (u.setCore h c { s.core h c with wait := none }))
      ∧ (holds = false → exec (.gateOpen h c tt) s = .next u))

/-- Moorings, completion and the rolling test (R86, R88 to R92, R109, R128, R129, R219, R227): a save at a taken mooring keeps the live buffers, the arguments and the last `LOADW`, changes no memory but the swap ways of the core's cluster, and frees the core; the context goes to its save area where its slot was asked for; a restore clears the Pool, brings stream and buffers back and goes on at its mooring; a completed command frees its tags and units, one whose effect is not done yet stays; the test spare of a core passes to its second phase or is marked bad, and a position that was promised to it costs the core where no other is left; the next pass takes the position its number gives and the next open spare. Which events are rows of their own is the table's; when a command's effect shows, and what bytes the swap ways hold after a save, is the model's (log 5, 13). -/
def Obligations.CoreEvents : Prop :=
  ∀ (h : Half) (c n i : Nat) (s : State), StoresWf s →
    let k := s.core h c
    let x := s.ctx h n
    let r := s.rollOf h c
    let ix (o : Nat) := s.num (hk8 h o) c
    let swap (a : Nat) := ∃ j < swapCapacity s h, swapPlace s h (c / 8) j = a
    (∀ m, k.ctx = some n → k.moor = some m → k.inflight = [] → cleanMem s → x.state = .running →
      (∀ p ∈ (s.half h).cores, p.1 ≠ c → p.2.ctx ≠ some n ∧ p.2.wait = none) → k.wait = none → ix 0xA032 = 0 →
      let tags := liveTags k m.cmd.d
      let live := tags.map (fun t => (t, s.read (poolBase h c + tagBase k.tags t) (tagLen k.tags t)))
      let room := swapUsed s h (c / 8) + ((tags.map (tagLen k.tags)).foldl (· + ·) 0)
      (room ≤ swapCapacity s h → x.evict = false →
        ∃ t place, exec (.contextSaveDone h c) s = .next t ∧ t.core h c = coreFree ∧ (t.ctx h n).want = []
          ∧ (t.ctx h n).saved = x.saved ++ [⟨c, m.cmd, k.args, k.lastLoadw, live, false, place⟩]
          ∧ ((t.ctx h n).state = .parked ∨ (t.ctx h n).state = .blocked) ∧ t.dict = s.dict
          ∧ (∀ a, ¬swap a → t.byte a = s.byte a)
          ∧ (∀ j, j ≠ n → t.ctx h j = s.ctx h j) ∧ (∀ j, j ≠ c → t.core h j = s.core h j))
      ∧ (room ≤ swapCapacity s h → x.evict = true →
        ∃ t, exec (.contextSaveDone h c) s = .next t ∧ t.core h c = coreFree ∧ (t.ctx h n).state = .unloaded
          ∧ (t.ctx h n).want = [] ∧ (t.ctx h n).evict = false)
      ∧ (swapCapacity s h < room → exec (.contextSaveDone h c) s = .next s))
    ∧ (k.inflight ≠ [] → k.ctx = some n → (∀ p ∈ (s.half h).cores, p.2.wait = none) → exec (.contextSaveDone h c) s = .next s)
    ∧ (∀ tk v pc, k.ctx = some n → k.restoring = true → x.ticket = some tk → x.saved.find? (fun w => w.core == c) = some v →
      progCore h tk.prog c = some pc → opcodeOf v.cmd.d = 9 → x.sem = some (semId v.cmd.d) → reloadBit v.cmd.d = false →
      (∀ p ∈ (s.half h).cores, p.2.window = []) → cleanMem s →
      let lo := poolBase h c
      let ws := v.live.map (fun p => (lo + tagBase pc.tags p.1, p.2))
      let out (a : Nat) := ∀ w ∈ ws, a < w.1 ∨ w.1 + w.2.length ≤ a
      Apart ws →
      ((v.drained = false ∨ swapUsed s h (c / 8) + savedBytes v ≤ swapCapacity s h) →
        ∃ t, exec (.contextRestore h c) s = .next t
          ∧ t.core h c = { coreFree with
              ctx := some n, streamBase := pc.streamBase, streamLen := pc.streamLen, tags := pc.tags, args := v.args
              lastLoadw := v.lastLoadw, fetch := v.cmd.ofs + cmdBytes v.cmd.d }
          ∧ t.ctx h n = { x with saved := x.saved.filter (fun w => decide (w.core ≠ c)) }
          ∧ (∀ w ∈ ws, t.read w.1 w.2.length = w.2)
          ∧ (∀ a, out a → (a < pc.streamBase ∨ pc.streamBase + pc.streamLen ≤ a) → (v.drained = false ∨ ¬swap a) →
              t.byte a = if lo ≤ a ∧ a < lo + 0x200000 then 0 else s.byte a))
      ∧ (v.drained = true → swapCapacity s h < swapUsed s h (c / 8) + savedBytes v → exec (.contextRestore h c) s = .next s))
    ∧ (∀ f, k.inflight[i]? = some f → (s.half h).power.hold = false → (∀ p ∈ (s.half h).cores, p.2.window = [] ∧ p.2.wait = none) →
      (f.ran = true → f.runs = 0 → (s.half h).xfers.any (fun y => y.core == c && y.cid == f.cid) = false →
        exec (.commandComplete h c i) s = .next (s.setCore h c { k with
          inflight := k.inflight.eraseIdx i
          moor := k.moor.map (fun m => { m with saving := m.saving || (k.inflight.eraseIdx i).isEmpty }) }))
      ∧ ((f.ran = false ∨ f.runs ≠ 0) → exec (.commandComplete h c i) s = .next s))
    ∧ (∀ sp, rollRuns s h c = true → r.testSpare = some sp → r.lbist = true →
      (∃ t, exec (.lbistEnd h c true) s = .next t ∧ t.rollOf h c = { r with lbist := false } ∧ t.num (hk8 h 0xA021) c = 1 ∧ t.mem = s.mem)
      ∧ (r.pend = [] → ∃ t, exec (.lbistEnd h c false) s = .next t ∧ (t.rollOf h c).word = spareMarkBad r.word sp ∧ t.mem = s.mem
        ∧ t.num (hk8 h 0xA023) c = ix 0xA023 ∧ ∃ q, (t.half h).service.getLast? = some q ∧ q.kind = 2 ∧ q.core = c ∧ q.spare = sp)
      ∧ (∀ q, r.pend = [(q, sp)] → (∀ j < 4, spareIdle (spareMarkBad r.word sp) j = false) → inTrial s h = false →
        ∃ t, exec (.lbistEnd h c false) s = .next t ∧ coreRetired t h c = true))
    ∧ (rollRuns s h c = true → r.lbist = false →
      let p := (ix 0xA023 + 1) % 2 ^ 32
      let free := (List.range 4).find? (fun j => spareOpen r ((r.lastTest + 1 + j) % 4))
      let starts (t : State) (pass : Nat) := t.num (hk8 h 0xA023) c = pass ∧ t.mem = s.mem ∧ (t.rollOf h c).word = r.word
        ∧ (∀ j, free = some j → (t.rollOf h c).testSpare = some ((r.lastTest + 1 + j) % 4) ∧ (t.rollOf h c).lbist = true
            ∧ t.num (hk8 h 0xA021) c = 0 ∧ t.num (hk8 h 0xA022) c = pass % 64)
        ∧ (free = none → (t.rollOf h c).testSpare = none ∧ t.num (hk8 h 0xA021) c = 2)
      (∀ sp, r.testSpare = some sp → ∃ t, exec (.rollPassEnd h c) s = .next t ∧ starts t p)
      ∧ (r.testSpare = none → ∃ t, exec (.rollPassEnd h c) s = .next t ∧ starts t (ix 0xA023)))
    ∧ (rollRuns s h c = false → exec (.rollPassEnd h c) s = .next s ∧ exec (.lbistEnd h c true) s = .next s)

/-! ### Commands that break a rule -/

/-- A `STREAM` whose `FORM` differs from that of the block it uses ends its context with `FAULT_CONTEXT` (R73), as does every command that breaks a rule its descriptor, its tags or the state before it decide: it is found at the head of the window, has no effect, and its context ends there. -/
def Obligations.StreamForm : Prop :=
  ∀ (h : Half) (c n : Nat) (d : BitVec 256) (d2 : BitVec 512) (s : State),
    let bad (x : Nat) := cmdBad (fetched s h c x) h c (cmdAt s h c x) = true
    (∀ b tk, CoreIdle s h c n d.toNat → opcodeOf d.toNat = 3 → streamBlock (s.core h c) = some b → fld d.toNat 75 74 ≠ b.form →
      (s.ctx h n).ticket = some tk → (s.ctx h n).state ≠ .ending →
      ∃ t, exec (.stream h c d) s = .next t ∧ FaultEnded s t h n tk)
    ∧ (CoreIdle s h c n d.toNat → cmdBytes d.toNat = 32 → bad d.toNat →
      exec (coreRow h c d) s = .next (faultCtx (fetched s h c d.toNat) h n))
    ∧ (CoreIdle s h c n d2.toNat → opcodeOf d2.toNat = 4 → bad d2.toNat →
      exec (.conv h c d2) s = .next (faultCtx (fetched s h c d2.toNat) h n))
    ∧ (CoreIdle s h c n d2.toNat → opcodeOf d2.toNat = 8 → bad d2.toNat →
      exec (.attn h c d2) s = .next (faultCtx (fetched s h c d2.toNat) h n))

/-- Zero points apply only to INT and UINT operands: they add nothing to a sum of any other format, and a zero point that `LOADW`, `STREAM`, `CONV` or `POOL` gives for any other format ends the context with `FAULT_CONTEXT` (R50). -/
def Obligations.ZeroPoints : Prop :=
  (∀ (acc : Acc) (a w : Fmt) (xs ws : List Nat) (za zw lsb : Int), fmtIsGangInt a = false ∨ fmtIsGangInt w = false →
    addZp acc a w xs ws za zw lsb = acc)
  ∧ (∀ (h : Half) (c n : Nat) (d : BitVec 256) (d2 : BitVec 512) (tk : Ticket) (s : State),
    let x := d.toNat
    let y := d2.toNat
    let ends (i : Instr) := ∃ t, exec i s = .next t ∧ FaultEnded s t h n tk
    let notInt (hi lo z : Nat) := ∃ f, fmtOf (fld z hi lo) = some f ∧ fmtIsGangInt f = false
    (s.ctx h n).ticket = some tk → (s.ctx h n).state ≠ .ending →
    (CoreIdle s h c n x → opcodeOf x = 2 → notInt 68 64 x → (slotTag x 1).isSome = true → ends (.loadw h c d))
    ∧ (CoreIdle s h c n x → opcodeOf x = 3 → notInt 68 64 x → fld x 135 128 ≠ 0 → ends (.stream h c d))
    ∧ (CoreIdle s h c n y → opcodeOf y = 4 → notInt 68 64 y → fld y 135 128 ≠ 0 → ends (.conv h c d2))
    ∧ (CoreIdle s h c n y → opcodeOf y = 4 → notInt 440 436 y → (slotTag y 5).isSome = true → ends (.conv h c d2))
    ∧ (CoreIdle s h c n x → opcodeOf x = 6 → (∃ f, fmtOf (fld x 68 64) = some f ∧ fmtIsInt f = false) → fld x 123 116 ≠ 0 →
      ends (.pool h c d)))
end

