-- ==== Sys2Proof/Laws/Mem.lean ====
section
/-! SUPPORT. Sparse tables and memory: what a read sees after a write, and that every operation keeps the canonical form. -/
namespace Sys2Proof.Machine

section Table
variable {α : Type}

theorem Tab.find_insert (t : Tab α) (k j : Nat) (v : α) :
    (t.insert k v).find j = if j = k then some v else t.find j := by
  induction t with
  | nil => simp [Tab.insert, Tab.find]
  | cons p t ih =>
    obtain ⟨k', v'⟩ := p
    simp only [Tab.insert]
    split
    · simp [Tab.find]
    · split
      · subst k
        simp only [Tab.find]
        split <;> simp_all
      · simp only [Tab.find, ih]
        split <;> split <;> simp_all

/-- Keys above a bound: nothing is found below. -/
theorem Tab.find_none_of_lt (t : Tab α) (lo k : Nat) (ht : Tab.sortedFrom (some lo) t = true) (hk : k ≤ lo) : t.find k = none := by
  induction t generalizing lo with
  | nil => rfl
  | cons p t ih =>
    obtain ⟨k', v'⟩ := p
    simp only [Tab.sortedFrom, Bool.and_eq_true, decide_eq_true_eq] at ht
    have hne : k ≠ k' := by omega
    simp only [Tab.find, hne, if_false]
    exact ih k' ht.2 (by omega)

theorem Tab.sortedFrom_none (t : Tab α) (lo : Nat) (ht : Tab.sortedFrom (some lo) t = true) : Tab.sortedFrom none t = true := by
  cases t with
  | nil => rfl
  | cons p t =>
    simp only [Tab.sortedFrom, Bool.and_eq_true] at ht ⊢
    exact ⟨trivial, ht.2⟩

theorem Tab.sortedFrom_mono (t : Tab α) (a b : Nat) (hab : a ≤ b) (ht : Tab.sortedFrom (some b) t = true) :
    Tab.sortedFrom (some a) t = true := by
  cases t with
  | nil => rfl
  | cons p t =>
    simp only [Tab.sortedFrom, Bool.and_eq_true, decide_eq_true_eq] at ht ⊢
    exact ⟨by omega, ht.2⟩

theorem Tab.find_erase (t : Tab α) (lo : Option Nat) (k j : Nat) (ht : Tab.sortedFrom lo t = true) :
    (t.erase k).find j = if j = k then none else t.find j := by
  induction t generalizing lo with
  | nil => simp [Tab.erase, Tab.find]
  | cons p t ih =>
    obtain ⟨k', v'⟩ := p
    simp only [Tab.sortedFrom, Bool.and_eq_true] at ht
    by_cases h1 : k = k'
    · simp only [Tab.erase, h1, if_true, Tab.find]
      by_cases h2 : j = k'
      · simp only [h2, if_true]
        exact Tab.find_none_of_lt t k' k' ht.2 (by omega)
      · simp only [h2, if_false]
    · simp only [Tab.erase, h1, if_false, Tab.find, ih _ ht.2]
      by_cases h2 : j = k'
      · simp only [h2, if_true]
        rw [if_neg (fun h => h1 h.symm)]
      · simp only [h2, if_false]

theorem Tab.sortedFrom_insert (t : Tab α) (lo : Option Nat) (k : Nat) (v : α) (ht : Tab.sortedFrom lo t = true)
    (hk : ∀ b, lo = some b → b < k) : Tab.sortedFrom lo (t.insert k v) = true := by
  induction t generalizing lo with
  | nil => cases lo <;> simp_all [Tab.insert, Tab.sortedFrom]
  | cons p t ih =>
    obtain ⟨k', v'⟩ := p
    simp only [Tab.sortedFrom, Bool.and_eq_true] at ht
    simp only [Tab.insert]
    split
    · cases lo <;> simp_all [Tab.sortedFrom]
    · split
      · subst k
        simp only [Tab.sortedFrom, Bool.and_eq_true]
        exact ht
      · simp only [Tab.sortedFrom, Bool.and_eq_true]
        refine ⟨ht.1, ih _ ht.2 ?_⟩
        intro b hb
        cases hb
        omega

theorem Tab.sortedFrom_erase (t : Tab α) (lo : Option Nat) (k : Nat) (ht : Tab.sortedFrom lo t = true) :
    Tab.sortedFrom lo (t.erase k) = true := by
  induction t generalizing lo with
  | nil => exact ht
  | cons p t ih =>
    obtain ⟨k', v'⟩ := p
    simp only [Tab.sortedFrom, Bool.and_eq_true] at ht
    simp only [Tab.erase]
    split
    · cases lo with
      | none => exact Tab.sortedFrom_none t k' ht.2
      | some b =>
        have hb : b < k' := by simpa using ht.1
        exact Tab.sortedFrom_mono t b k' (by omega) ht.2
    · simp only [Tab.sortedFrom, Bool.and_eq_true]
      exact ⟨ht.1, ih _ ht.2⟩

theorem Tab.sortedFrom_filter (t : Tab α) (lo : Option Nat) (f : Nat × α → Bool) (ht : Tab.sortedFrom lo t = true) :
    Tab.sortedFrom lo (t.filter f) = true := by
  induction t generalizing lo with
  | nil => exact ht
  | cons p t ih =>
    obtain ⟨k', v'⟩ := p
    simp only [Tab.sortedFrom, Bool.and_eq_true] at ht
    simp only [List.filter]
    split
    · simp only [Tab.sortedFrom, Bool.and_eq_true]
      exact ⟨ht.1, ih _ ht.2⟩
    · cases lo with
      | none => exact ih none (Tab.sortedFrom_none t k' ht.2)
      | some b =>
        have hb : b < k' := by simpa using ht.1
        exact ih (some b) (Tab.sortedFrom_mono t b k' (by omega) ht.2)

theorem Tab.sortedFrom_map {β : Type} (t : Tab α) (lo : Option Nat) (f : Nat × α → Nat × β) (hf : ∀ p, (f p).1 = p.1)
    (ht : Tab.sortedFrom lo t = true) : Tab.sortedFrom lo (t.map f) = true := by
  induction t generalizing lo with
  | nil => cases lo <;> rfl
  | cons p t ih =>
    obtain ⟨k', v'⟩ := p
    simp only [Tab.sortedFrom, Bool.and_eq_true] at ht
    have h1 := hf (k', v')
    have h2 := ih _ ht.2
    simp only [List.map]
    cases hp : f (k', v') with
    | mk a b =>
      rw [hp] at h1
      simp only at h1
      subst h1
      simp only [Tab.sortedFrom, Bool.and_eq_true]
      exact ⟨ht.1, h2⟩

theorem Tab.sortedFrom_foldl {β : Type} (l : List β) (f : Tab α → β → Tab α) (t : Tab α)
    (hf : ∀ t x, Tab.sortedFrom none t = true → Tab.sortedFrom none (f t x) = true) (ht : Tab.sortedFrom none t = true) :
    Tab.sortedFrom none (l.foldl f t) = true := by
  induction l generalizing t with
  | nil => exact ht
  | cons x l ih => exact ih _ (hf _ _ ht)

theorem Tab.mem_insert (t : Tab α) (k : Nat) (v : α) (p : Nat × α) (hp : p ∈ t.insert k v) : p = (k, v) ∨ p ∈ t := by
  induction t with
  | nil => simp [Tab.insert] at hp; exact .inl hp
  | cons q t ih =>
    obtain ⟨k', v'⟩ := q
    simp only [Tab.insert] at hp
    split at hp
    · simpa using hp
    · split at hp
      · simp only [List.mem_cons] at hp ⊢
        rcases hp with h | h
        · exact .inl h
        · exact .inr (.inr h)
      · simp only [List.mem_cons] at hp ⊢
        rcases hp with h | h
        · exact .inr (.inl h)
        · exact (ih h).elim .inl (fun h => .inr (.inr h))

theorem Tab.mem_erase (t : Tab α) (k : Nat) (p : Nat × α) (hp : p ∈ t.erase k) : p ∈ t := by
  induction t with
  | nil => exact hp
  | cons q t ih =>
    obtain ⟨k', v'⟩ := q
    simp only [Tab.erase] at hp
    split at hp
    · exact List.mem_cons_of_mem _ hp
    · simp only [List.mem_cons] at hp ⊢
      exact hp.imp id ih

/-- Another key than the one written reads as before, in a table of any form. -/
theorem Tab.find_erase_ne (t : Tab α) (k j : Nat) (h : j ≠ k) : (t.erase k).find j = t.find j := by
  induction t with
  | nil => rfl
  | cons p t ih =>
    obtain ⟨k', v'⟩ := p
    simp only [Tab.erase]
    split
    · subst k
      simp [Tab.find, h]
    · simp only [Tab.find, ih]

variable [DecidableEq α]

/-- Writing one key: that key reads the value written, every other key as before. -/
theorem Tab.get_set (d : α) (t : Tab α) (k j : Nat) (v : α) (ht : Tab.wf d t = true) :
    Tab.get d (Tab.set d t k v) j = if j = k then v else Tab.get d t j := by
  simp only [Tab.wf, Bool.and_eq_true] at ht
  simp only [Tab.get, Tab.set]
  split
  · rename_i hv
    rw [Tab.find_erase t none k j ht.1]
    split <;> simp_all
  · rw [Tab.find_insert]
    split <;> simp_all

/-- Another key than the one written reads as before, in a table of any form. -/
theorem Tab.get_set_ne (d : α) (t : Tab α) (k j : Nat) (v : α) (h : j ≠ k) : Tab.get d (Tab.set d t k v) j = Tab.get d t j := by
  simp only [Tab.get, Tab.set]
  split
  · rw [Tab.find_erase_ne t k j h]
  · rw [Tab.find_insert, if_neg h]

/-- A write keeps keys rising. -/
theorem Tab.sortedFrom_set (d : α) (t : Tab α) (k : Nat) (v : α) (ht : Tab.sortedFrom none t = true) :
    Tab.sortedFrom none (Tab.set d t k v) = true := by
  simp only [Tab.set]
  split
  · exact Tab.sortedFrom_erase t none k ht
  · exact Tab.sortedFrom_insert t none k v ht (by simp)

/-- Writing one key of a table with rising keys. -/
theorem Tab.get_set_sorted (d : α) (t : Tab α) (k j : Nat) (v : α) (ht : Tab.sortedFrom none t = true) :
    Tab.get d (Tab.set d t k v) j = if j = k then v else Tab.get d t j := by
  simp only [Tab.get, Tab.set]
  split
  · rename_i hv
    rw [Tab.find_erase t none k j ht]
    split <;> simp_all
  · rw [Tab.find_insert]
    split <;> simp_all

/-- A write keeps the canonical form. -/
theorem Tab.wf_set (d : α) (t : Tab α) (k : Nat) (v : α) (ht : Tab.wf d t = true) : Tab.wf d (Tab.set d t k v) = true := by
  simp only [Tab.wf, Bool.and_eq_true, List.all_eq_true, decide_eq_true_eq] at ht ⊢
  simp only [Tab.set]
  split
  · exact ⟨Tab.sortedFrom_erase t none k ht.1, fun p hp => ht.2 p (Tab.mem_erase t k p hp)⟩
  · refine ⟨Tab.sortedFrom_insert t none k v ht.1 (by simp), fun p hp => ?_⟩
    rcases Tab.mem_insert t k v p hp with h | h
    · subst h; assumption
    · exact ht.2 p h

/-- Taking entries out keeps the canonical form. -/
theorem Tab.wf_filter (d : α) (t : Tab α) (f : Nat × α → Bool) (ht : Tab.wf d t = true) : Tab.wf d (t.filter f) = true := by
  simp only [Tab.wf, Bool.and_eq_true, List.all_eq_true, decide_eq_true_eq] at ht ⊢
  exact ⟨Tab.sortedFrom_filter t none f ht.1, fun p hp => ht.2 p ((List.mem_filter.mp hp).1)⟩

end Table

/-! ### Memory -/

/-- A byte written reads back; another byte reads as before. -/
theorem memGet_memSet (m : Tab Byte) (a j : Nat) (b : Byte) (hm : Memory.wf m = true) :
    memGet (memSet m a b) j = if j = a then b else memGet m j := Tab.get_set memDflt m a j b hm

theorem memSet_wf (m : Tab Byte) (a : Nat) (b : Byte) (hm : Memory.wf m = true) : Memory.wf (memSet m a b) = true :=
  Tab.wf_set memDflt m a b hm

theorem memWrite_wf (m : Tab Byte) (a : Nat) (bs : List Byte) (hm : Memory.wf m = true) : Memory.wf (memWrite m a bs) = true := by
  induction bs generalizing m a with
  | nil => exact hm
  | cons b bs ih => exact ih _ _ (memSet_wf m a b hm)

theorem memClear_wf (m : Tab Byte) (a n : Nat) (hm : Memory.wf m = true) : Memory.wf (memClear m a n) = true :=
  Tab.wf_filter memDflt m _ hm

theorem Tab.find_filter_keep {α : Type} (t : Tab α) (f : Nat × α → Bool) (j : Nat) (hf : ∀ v, f (j, v) = true) :
    Tab.find (t.filter f) j = t.find j := by
  induction t with
  | nil => rfl
  | cons p t ih =>
    obtain ⟨k, v⟩ := p
    by_cases hj : j = k
    · subst hj
      simp [List.filter, hf, Tab.find]
    · simp only [List.filter]
      split <;> simp [Tab.find, hj, ih]

theorem Tab.find_filter_drop {α : Type} (t : Tab α) (f : Nat × α → Bool) (j : Nat) (hf : ∀ v, f (j, v) = false) :
    Tab.find (t.filter f) j = none := by
  induction t with
  | nil => rfl
  | cons p t ih =>
    obtain ⟨k, v⟩ := p
    by_cases hj : j = k
    · subst hj
      simp [List.filter, hf, ih]
    · simp only [List.filter]
      split <;> simp [Tab.find, hj, ih]

/-- Cleared bytes read as zero, every other byte as before. -/
theorem memGet_memClear (m : Tab Byte) (a n j : Nat) :
    memGet (memClear m a n) j = if a ≤ j ∧ j < a + n then memDflt else memGet m j := by
  unfold memGet Tab.get memClear
  split
  · rw [Tab.find_filter_drop m _ j (by intro v; simpa using by omega)]; rfl
  · rw [Tab.find_filter_keep m _ j (by intro v; simp only [Bool.not_eq_true', Bool.and_eq_false_iff, decide_eq_false_iff_not]; omega)]

/-- Bytes outside those written read as before, whatever the form of the list. -/
theorem memGet_memWrite_out (m : Tab Byte) (a j : Nat) (bs : List Byte) (h : j < a ∨ a + bs.length ≤ j) :
    memGet (memWrite m a bs) j = memGet m j := by
  induction bs generalizing m a with
  | nil => rfl
  | cons b bs ih =>
    simp only [List.length_cons] at h
    simp only [memWrite]
    rw [ih _ _ (by omega)]
    exact Tab.get_set_ne memDflt m a j b (by omega)

/-- A byte written reads back. -/
theorem memGet_memWrite_in (m : Tab Byte) (a i : Nat) (bs : List Byte) (hm : Memory.wf m = true) (h : i < bs.length) :
    memGet (memWrite m a bs) (a + i) = bs[i] := by
  induction bs generalizing m a i with
  | nil => simp at h
  | cons b bs ih =>
    cases i with
    | zero =>
      simp only [memWrite, Nat.add_zero, List.getElem_cons_zero]
      rw [memGet_memWrite_out _ _ _ _ (by omega), memGet_memSet _ _ _ _ hm, if_pos rfl]
    | succ i =>
      simp only [memWrite, List.getElem_cons_succ]
      have := ih (memSet m a b) (a + 1) i (memSet_wf m a b hm) (by simpa using h)
      rw [show a + (i + 1) = a + 1 + i by omega]
      exact this

/-- Reading back the bytes just written (R37, R240). -/
theorem memRead_memWrite (m : Tab Byte) (a : Nat) (bs : List Byte) (hm : Memory.wf m = true) :
    memRead (memWrite m a bs) a bs.length = bs := by
  apply List.ext_getElem
  · simp [memRead, upto]
  · intro i h1 h2
    simp only [memRead, upto, List.getElem_map, List.getElem_range]
    exact memGet_memWrite_in m a i bs hm h2

end Sys2Proof.Machine
end

