-- ==== Sys2Proof/Laws/State.lean ====
section
/-! SUPPORT. What each update of the state leaves: one lemma per field, and the reads of a half, a register and memory after an update. -/
namespace Sys2Proof.Machine


/-! ### `setHalf` -/

@[simp] theorem setHalf_pending (s : State) (h : Half) (x : HalfState) : (s.setHalf h x).pending = s.pending := by cases h <;> rfl
@[simp] theorem setHalf_freeCtr (s : State) (h : Half) (x : HalfState) : (s.setHalf h x).freeCtr = s.freeCtr := by cases h <;> rfl
@[simp] theorem setHalf_outbox (s : State) (h : Half) (x : HalfState) : (s.setHalf h x).outbox = s.outbox := by cases h <;> rfl
@[simp] theorem setHalf_part (s : State) (h : Half) (x : HalfState) : (s.setHalf h x).part = s.part := by cases h <;> rfl
@[simp] theorem setHalf_devPins (s : State) (h : Half) (x : HalfState) : (s.setHalf h x).devPins = s.devPins := by cases h <;> rfl
@[simp] theorem setHalf_mem (s : State) (h : Half) (x : HalfState) : (s.setHalf h x).mem = s.mem := by cases h <;> rfl
@[simp] theorem setHalf_poison (s : State) (h : Half) (x : HalfState) : (s.setHalf h x).poison = s.poison := by cases h <;> rfl
@[simp] theorem setHalf_lineErr (s : State) (h : Half) (x : HalfState) : (s.setHalf h x).lineErr = s.lineErr := by cases h <;> rfl
@[simp] theorem setHalf_sramBad (s : State) (h : Half) (x : HalfState) : (s.setHalf h x).sramBad = s.sramBad := by cases h <;> rfl
@[simp] theorem setHalf_upsets (s : State) (h : Half) (x : HalfState) : (s.setHalf h x).upsets = s.upsets := by cases h <;> rfl
@[simp] theorem setHalf_hostMem (s : State) (h : Half) (x : HalfState) : (s.setHalf h x).hostMem = s.hostMem := by cases h <;> rfl
@[simp] theorem setHalf_dict (s : State) (h : Half) (x : HalfState) : (s.setHalf h x).dict = s.dict := by cases h <;> rfl
@[simp] theorem setHalf_dictBytes (s : State) (h : Half) (x : HalfState) : (s.setHalf h x).dictBytes = s.dictBytes := by cases h <;> rfl
@[simp] theorem setHalf_txn (s : State) (h : Half) (x : HalfState) : (s.setHalf h x).txn = s.txn := by cases h <;> rfl
@[simp] theorem setHalf_mirrors (s : State) (h : Half) (x : HalfState) : (s.setHalf h x).mirrors = s.mirrors := by cases h <;> rfl
@[simp] theorem setHalf_stepAt (s : State) (h : Half) (x : HalfState) : (s.setHalf h x).stepAt = s.stepAt := by cases h <;> rfl
@[simp] theorem setHalf_steps (s : State) (h : Half) (x : HalfState) : (s.setHalf h x).steps = s.steps := by cases h <;> rfl
@[simp] theorem setHalf_clock (s : State) (h : Half) (x : HalfState) : (s.setHalf h x).clock = s.clock := by cases h <;> rfl
@[simp] theorem setHalf_standby (s : State) (h : Half) (x : HalfState) : (s.setHalf h x).standby = s.standby := by cases h <;> rfl
@[simp] theorem setHalf_scan (s : State) (h : Half) (x : HalfState) : (s.setHalf h x).scan = s.scan := by cases h <;> rfl

/-! ### `modHalf` -/

@[simp] theorem modHalf_pending (s : State) (h : Half) (f : HalfState → HalfState) : (s.modHalf h f).pending = s.pending := by cases h <;> rfl
@[simp] theorem modHalf_freeCtr (s : State) (h : Half) (f : HalfState → HalfState) : (s.modHalf h f).freeCtr = s.freeCtr := by cases h <;> rfl
@[simp] theorem modHalf_outbox (s : State) (h : Half) (f : HalfState → HalfState) : (s.modHalf h f).outbox = s.outbox := by cases h <;> rfl
@[simp] theorem modHalf_part (s : State) (h : Half) (f : HalfState → HalfState) : (s.modHalf h f).part = s.part := by cases h <;> rfl
@[simp] theorem modHalf_devPins (s : State) (h : Half) (f : HalfState → HalfState) : (s.modHalf h f).devPins = s.devPins := by cases h <;> rfl
@[simp] theorem modHalf_mem (s : State) (h : Half) (f : HalfState → HalfState) : (s.modHalf h f).mem = s.mem := by cases h <;> rfl
@[simp] theorem modHalf_poison (s : State) (h : Half) (f : HalfState → HalfState) : (s.modHalf h f).poison = s.poison := by cases h <;> rfl
@[simp] theorem modHalf_lineErr (s : State) (h : Half) (f : HalfState → HalfState) : (s.modHalf h f).lineErr = s.lineErr := by cases h <;> rfl
@[simp] theorem modHalf_sramBad (s : State) (h : Half) (f : HalfState → HalfState) : (s.modHalf h f).sramBad = s.sramBad := by cases h <;> rfl
@[simp] theorem modHalf_upsets (s : State) (h : Half) (f : HalfState → HalfState) : (s.modHalf h f).upsets = s.upsets := by cases h <;> rfl
@[simp] theorem modHalf_hostMem (s : State) (h : Half) (f : HalfState → HalfState) : (s.modHalf h f).hostMem = s.hostMem := by cases h <;> rfl
@[simp] theorem modHalf_dict (s : State) (h : Half) (f : HalfState → HalfState) : (s.modHalf h f).dict = s.dict := by cases h <;> rfl
@[simp] theorem modHalf_dictBytes (s : State) (h : Half) (f : HalfState → HalfState) : (s.modHalf h f).dictBytes = s.dictBytes := by cases h <;> rfl
@[simp] theorem modHalf_txn (s : State) (h : Half) (f : HalfState → HalfState) : (s.modHalf h f).txn = s.txn := by cases h <;> rfl
@[simp] theorem modHalf_mirrors (s : State) (h : Half) (f : HalfState → HalfState) : (s.modHalf h f).mirrors = s.mirrors := by cases h <;> rfl
@[simp] theorem modHalf_stepAt (s : State) (h : Half) (f : HalfState → HalfState) : (s.modHalf h f).stepAt = s.stepAt := by cases h <;> rfl
@[simp] theorem modHalf_steps (s : State) (h : Half) (f : HalfState → HalfState) : (s.modHalf h f).steps = s.steps := by cases h <;> rfl
@[simp] theorem modHalf_clock (s : State) (h : Half) (f : HalfState → HalfState) : (s.modHalf h f).clock = s.clock := by cases h <;> rfl
@[simp] theorem modHalf_standby (s : State) (h : Half) (f : HalfState → HalfState) : (s.modHalf h f).standby = s.standby := by cases h <;> rfl
@[simp] theorem modHalf_scan (s : State) (h : Half) (f : HalfState → HalfState) : (s.modHalf h f).scan = s.scan := by cases h <;> rfl

/-! ### `setCore` -/

@[simp] theorem setCore_pending (s : State) (h : Half) (c : Nat) (k : CoreSt) : (s.setCore h c k).pending = s.pending := by cases h <;> rfl
@[simp] theorem setCore_freeCtr (s : State) (h : Half) (c : Nat) (k : CoreSt) : (s.setCore h c k).freeCtr = s.freeCtr := by cases h <;> rfl
@[simp] theorem setCore_outbox (s : State) (h : Half) (c : Nat) (k : CoreSt) : (s.setCore h c k).outbox = s.outbox := by cases h <;> rfl
@[simp] theorem setCore_part (s : State) (h : Half) (c : Nat) (k : CoreSt) : (s.setCore h c k).part = s.part := by cases h <;> rfl
@[simp] theorem setCore_devPins (s : State) (h : Half) (c : Nat) (k : CoreSt) : (s.setCore h c k).devPins = s.devPins := by cases h <;> rfl
@[simp] theorem setCore_mem (s : State) (h : Half) (c : Nat) (k : CoreSt) : (s.setCore h c k).mem = s.mem := by cases h <;> rfl
@[simp] theorem setCore_poison (s : State) (h : Half) (c : Nat) (k : CoreSt) : (s.setCore h c k).poison = s.poison := by cases h <;> rfl
@[simp] theorem setCore_lineErr (s : State) (h : Half) (c : Nat) (k : CoreSt) : (s.setCore h c k).lineErr = s.lineErr := by cases h <;> rfl
@[simp] theorem setCore_sramBad (s : State) (h : Half) (c : Nat) (k : CoreSt) : (s.setCore h c k).sramBad = s.sramBad := by cases h <;> rfl
@[simp] theorem setCore_upsets (s : State) (h : Half) (c : Nat) (k : CoreSt) : (s.setCore h c k).upsets = s.upsets := by cases h <;> rfl
@[simp] theorem setCore_hostMem (s : State) (h : Half) (c : Nat) (k : CoreSt) : (s.setCore h c k).hostMem = s.hostMem := by cases h <;> rfl
@[simp] theorem setCore_dict (s : State) (h : Half) (c : Nat) (k : CoreSt) : (s.setCore h c k).dict = s.dict := by cases h <;> rfl
@[simp] theorem setCore_dictBytes (s : State) (h : Half) (c : Nat) (k : CoreSt) : (s.setCore h c k).dictBytes = s.dictBytes := by cases h <;> rfl
@[simp] theorem setCore_txn (s : State) (h : Half) (c : Nat) (k : CoreSt) : (s.setCore h c k).txn = s.txn := by cases h <;> rfl
@[simp] theorem setCore_mirrors (s : State) (h : Half) (c : Nat) (k : CoreSt) : (s.setCore h c k).mirrors = s.mirrors := by cases h <;> rfl
@[simp] theorem setCore_stepAt (s : State) (h : Half) (c : Nat) (k : CoreSt) : (s.setCore h c k).stepAt = s.stepAt := by cases h <;> rfl
@[simp] theorem setCore_steps (s : State) (h : Half) (c : Nat) (k : CoreSt) : (s.setCore h c k).steps = s.steps := by cases h <;> rfl
@[simp] theorem setCore_clock (s : State) (h : Half) (c : Nat) (k : CoreSt) : (s.setCore h c k).clock = s.clock := by cases h <;> rfl
@[simp] theorem setCore_standby (s : State) (h : Half) (c : Nat) (k : CoreSt) : (s.setCore h c k).standby = s.standby := by cases h <;> rfl
@[simp] theorem setCore_scan (s : State) (h : Half) (c : Nat) (k : CoreSt) : (s.setCore h c k).scan = s.scan := by cases h <;> rfl

/-! ### `setCtx` -/

@[simp] theorem setCtx_pending (s : State) (h : Half) (n : Nat) (k : Ctx) : (s.setCtx h n k).pending = s.pending := by cases h <;> rfl
@[simp] theorem setCtx_freeCtr (s : State) (h : Half) (n : Nat) (k : Ctx) : (s.setCtx h n k).freeCtr = s.freeCtr := by cases h <;> rfl
@[simp] theorem setCtx_outbox (s : State) (h : Half) (n : Nat) (k : Ctx) : (s.setCtx h n k).outbox = s.outbox := by cases h <;> rfl
@[simp] theorem setCtx_part (s : State) (h : Half) (n : Nat) (k : Ctx) : (s.setCtx h n k).part = s.part := by cases h <;> rfl
@[simp] theorem setCtx_devPins (s : State) (h : Half) (n : Nat) (k : Ctx) : (s.setCtx h n k).devPins = s.devPins := by cases h <;> rfl
@[simp] theorem setCtx_mem (s : State) (h : Half) (n : Nat) (k : Ctx) : (s.setCtx h n k).mem = s.mem := by cases h <;> rfl
@[simp] theorem setCtx_poison (s : State) (h : Half) (n : Nat) (k : Ctx) : (s.setCtx h n k).poison = s.poison := by cases h <;> rfl
@[simp] theorem setCtx_lineErr (s : State) (h : Half) (n : Nat) (k : Ctx) : (s.setCtx h n k).lineErr = s.lineErr := by cases h <;> rfl
@[simp] theorem setCtx_sramBad (s : State) (h : Half) (n : Nat) (k : Ctx) : (s.setCtx h n k).sramBad = s.sramBad := by cases h <;> rfl
@[simp] theorem setCtx_upsets (s : State) (h : Half) (n : Nat) (k : Ctx) : (s.setCtx h n k).upsets = s.upsets := by cases h <;> rfl
@[simp] theorem setCtx_hostMem (s : State) (h : Half) (n : Nat) (k : Ctx) : (s.setCtx h n k).hostMem = s.hostMem := by cases h <;> rfl
@[simp] theorem setCtx_dict (s : State) (h : Half) (n : Nat) (k : Ctx) : (s.setCtx h n k).dict = s.dict := by cases h <;> rfl
@[simp] theorem setCtx_dictBytes (s : State) (h : Half) (n : Nat) (k : Ctx) : (s.setCtx h n k).dictBytes = s.dictBytes := by cases h <;> rfl
@[simp] theorem setCtx_txn (s : State) (h : Half) (n : Nat) (k : Ctx) : (s.setCtx h n k).txn = s.txn := by cases h <;> rfl
@[simp] theorem setCtx_mirrors (s : State) (h : Half) (n : Nat) (k : Ctx) : (s.setCtx h n k).mirrors = s.mirrors := by cases h <;> rfl
@[simp] theorem setCtx_stepAt (s : State) (h : Half) (n : Nat) (k : Ctx) : (s.setCtx h n k).stepAt = s.stepAt := by cases h <;> rfl
@[simp] theorem setCtx_steps (s : State) (h : Half) (n : Nat) (k : Ctx) : (s.setCtx h n k).steps = s.steps := by cases h <;> rfl
@[simp] theorem setCtx_clock (s : State) (h : Half) (n : Nat) (k : Ctx) : (s.setCtx h n k).clock = s.clock := by cases h <;> rfl
@[simp] theorem setCtx_standby (s : State) (h : Half) (n : Nat) (k : Ctx) : (s.setCtx h n k).standby = s.standby := by cases h <;> rfl
@[simp] theorem setCtx_scan (s : State) (h : Half) (n : Nat) (k : Ctx) : (s.setCtx h n k).scan = s.scan := by cases h <;> rfl

/-! ### `setQuay` -/

@[simp] theorem setQuay_pending (s : State) (h : Half) (q : Nat) (k : Quay) : (s.setQuay h q k).pending = s.pending := by cases h <;> rfl
@[simp] theorem setQuay_freeCtr (s : State) (h : Half) (q : Nat) (k : Quay) : (s.setQuay h q k).freeCtr = s.freeCtr := by cases h <;> rfl
@[simp] theorem setQuay_outbox (s : State) (h : Half) (q : Nat) (k : Quay) : (s.setQuay h q k).outbox = s.outbox := by cases h <;> rfl
@[simp] theorem setQuay_part (s : State) (h : Half) (q : Nat) (k : Quay) : (s.setQuay h q k).part = s.part := by cases h <;> rfl
@[simp] theorem setQuay_devPins (s : State) (h : Half) (q : Nat) (k : Quay) : (s.setQuay h q k).devPins = s.devPins := by cases h <;> rfl
@[simp] theorem setQuay_mem (s : State) (h : Half) (q : Nat) (k : Quay) : (s.setQuay h q k).mem = s.mem := by cases h <;> rfl
@[simp] theorem setQuay_poison (s : State) (h : Half) (q : Nat) (k : Quay) : (s.setQuay h q k).poison = s.poison := by cases h <;> rfl
@[simp] theorem setQuay_lineErr (s : State) (h : Half) (q : Nat) (k : Quay) : (s.setQuay h q k).lineErr = s.lineErr := by cases h <;> rfl
@[simp] theorem setQuay_sramBad (s : State) (h : Half) (q : Nat) (k : Quay) : (s.setQuay h q k).sramBad = s.sramBad := by cases h <;> rfl
@[simp] theorem setQuay_upsets (s : State) (h : Half) (q : Nat) (k : Quay) : (s.setQuay h q k).upsets = s.upsets := by cases h <;> rfl
@[simp] theorem setQuay_hostMem (s : State) (h : Half) (q : Nat) (k : Quay) : (s.setQuay h q k).hostMem = s.hostMem := by cases h <;> rfl
@[simp] theorem setQuay_dict (s : State) (h : Half) (q : Nat) (k : Quay) : (s.setQuay h q k).dict = s.dict := by cases h <;> rfl
@[simp] theorem setQuay_dictBytes (s : State) (h : Half) (q : Nat) (k : Quay) : (s.setQuay h q k).dictBytes = s.dictBytes := by cases h <;> rfl
@[simp] theorem setQuay_txn (s : State) (h : Half) (q : Nat) (k : Quay) : (s.setQuay h q k).txn = s.txn := by cases h <;> rfl
@[simp] theorem setQuay_mirrors (s : State) (h : Half) (q : Nat) (k : Quay) : (s.setQuay h q k).mirrors = s.mirrors := by cases h <;> rfl
@[simp] theorem setQuay_stepAt (s : State) (h : Half) (q : Nat) (k : Quay) : (s.setQuay h q k).stepAt = s.stepAt := by cases h <;> rfl
@[simp] theorem setQuay_steps (s : State) (h : Half) (q : Nat) (k : Quay) : (s.setQuay h q k).steps = s.steps := by cases h <;> rfl
@[simp] theorem setQuay_clock (s : State) (h : Half) (q : Nat) (k : Quay) : (s.setQuay h q k).clock = s.clock := by cases h <;> rfl
@[simp] theorem setQuay_standby (s : State) (h : Half) (q : Nat) (k : Quay) : (s.setQuay h q k).standby = s.standby := by cases h <;> rfl
@[simp] theorem setQuay_scan (s : State) (h : Half) (q : Nat) (k : Quay) : (s.setQuay h q k).scan = s.scan := by cases h <;> rfl

/-! ### `setMentry` -/

@[simp] theorem setMentry_pending (s : State) (h : Half) (e : Nat) (k : MEntry) : (s.setMentry h e k).pending = s.pending := by cases h <;> rfl
@[simp] theorem setMentry_freeCtr (s : State) (h : Half) (e : Nat) (k : MEntry) : (s.setMentry h e k).freeCtr = s.freeCtr := by cases h <;> rfl
@[simp] theorem setMentry_outbox (s : State) (h : Half) (e : Nat) (k : MEntry) : (s.setMentry h e k).outbox = s.outbox := by cases h <;> rfl
@[simp] theorem setMentry_part (s : State) (h : Half) (e : Nat) (k : MEntry) : (s.setMentry h e k).part = s.part := by cases h <;> rfl
@[simp] theorem setMentry_devPins (s : State) (h : Half) (e : Nat) (k : MEntry) : (s.setMentry h e k).devPins = s.devPins := by cases h <;> rfl
@[simp] theorem setMentry_mem (s : State) (h : Half) (e : Nat) (k : MEntry) : (s.setMentry h e k).mem = s.mem := by cases h <;> rfl
@[simp] theorem setMentry_poison (s : State) (h : Half) (e : Nat) (k : MEntry) : (s.setMentry h e k).poison = s.poison := by cases h <;> rfl
@[simp] theorem setMentry_lineErr (s : State) (h : Half) (e : Nat) (k : MEntry) : (s.setMentry h e k).lineErr = s.lineErr := by cases h <;> rfl
@[simp] theorem setMentry_sramBad (s : State) (h : Half) (e : Nat) (k : MEntry) : (s.setMentry h e k).sramBad = s.sramBad := by cases h <;> rfl
@[simp] theorem setMentry_upsets (s : State) (h : Half) (e : Nat) (k : MEntry) : (s.setMentry h e k).upsets = s.upsets := by cases h <;> rfl
@[simp] theorem setMentry_hostMem (s : State) (h : Half) (e : Nat) (k : MEntry) : (s.setMentry h e k).hostMem = s.hostMem := by cases h <;> rfl
@[simp] theorem setMentry_dict (s : State) (h : Half) (e : Nat) (k : MEntry) : (s.setMentry h e k).dict = s.dict := by cases h <;> rfl
@[simp] theorem setMentry_dictBytes (s : State) (h : Half) (e : Nat) (k : MEntry) : (s.setMentry h e k).dictBytes = s.dictBytes := by cases h <;> rfl
@[simp] theorem setMentry_txn (s : State) (h : Half) (e : Nat) (k : MEntry) : (s.setMentry h e k).txn = s.txn := by cases h <;> rfl
@[simp] theorem setMentry_mirrors (s : State) (h : Half) (e : Nat) (k : MEntry) : (s.setMentry h e k).mirrors = s.mirrors := by cases h <;> rfl
@[simp] theorem setMentry_stepAt (s : State) (h : Half) (e : Nat) (k : MEntry) : (s.setMentry h e k).stepAt = s.stepAt := by cases h <;> rfl
@[simp] theorem setMentry_steps (s : State) (h : Half) (e : Nat) (k : MEntry) : (s.setMentry h e k).steps = s.steps := by cases h <;> rfl
@[simp] theorem setMentry_clock (s : State) (h : Half) (e : Nat) (k : MEntry) : (s.setMentry h e k).clock = s.clock := by cases h <;> rfl
@[simp] theorem setMentry_standby (s : State) (h : Half) (e : Nat) (k : MEntry) : (s.setMentry h e k).standby = s.standby := by cases h <;> rfl
@[simp] theorem setMentry_scan (s : State) (h : Half) (e : Nat) (k : MEntry) : (s.setMentry h e k).scan = s.scan := by cases h <;> rfl

/-! ### `setSem` -/

@[simp] theorem setSem_pending (s : State) (h : Half) (i : Nat) (k : Sem) : (s.setSem h i k).pending = s.pending := by cases h <;> rfl
@[simp] theorem setSem_freeCtr (s : State) (h : Half) (i : Nat) (k : Sem) : (s.setSem h i k).freeCtr = s.freeCtr := by cases h <;> rfl
@[simp] theorem setSem_outbox (s : State) (h : Half) (i : Nat) (k : Sem) : (s.setSem h i k).outbox = s.outbox := by cases h <;> rfl
@[simp] theorem setSem_part (s : State) (h : Half) (i : Nat) (k : Sem) : (s.setSem h i k).part = s.part := by cases h <;> rfl
@[simp] theorem setSem_devPins (s : State) (h : Half) (i : Nat) (k : Sem) : (s.setSem h i k).devPins = s.devPins := by cases h <;> rfl
@[simp] theorem setSem_mem (s : State) (h : Half) (i : Nat) (k : Sem) : (s.setSem h i k).mem = s.mem := by cases h <;> rfl
@[simp] theorem setSem_poison (s : State) (h : Half) (i : Nat) (k : Sem) : (s.setSem h i k).poison = s.poison := by cases h <;> rfl
@[simp] theorem setSem_lineErr (s : State) (h : Half) (i : Nat) (k : Sem) : (s.setSem h i k).lineErr = s.lineErr := by cases h <;> rfl
@[simp] theorem setSem_sramBad (s : State) (h : Half) (i : Nat) (k : Sem) : (s.setSem h i k).sramBad = s.sramBad := by cases h <;> rfl
@[simp] theorem setSem_upsets (s : State) (h : Half) (i : Nat) (k : Sem) : (s.setSem h i k).upsets = s.upsets := by cases h <;> rfl
@[simp] theorem setSem_hostMem (s : State) (h : Half) (i : Nat) (k : Sem) : (s.setSem h i k).hostMem = s.hostMem := by cases h <;> rfl
@[simp] theorem setSem_dict (s : State) (h : Half) (i : Nat) (k : Sem) : (s.setSem h i k).dict = s.dict := by cases h <;> rfl
@[simp] theorem setSem_dictBytes (s : State) (h : Half) (i : Nat) (k : Sem) : (s.setSem h i k).dictBytes = s.dictBytes := by cases h <;> rfl
@[simp] theorem setSem_txn (s : State) (h : Half) (i : Nat) (k : Sem) : (s.setSem h i k).txn = s.txn := by cases h <;> rfl
@[simp] theorem setSem_mirrors (s : State) (h : Half) (i : Nat) (k : Sem) : (s.setSem h i k).mirrors = s.mirrors := by cases h <;> rfl
@[simp] theorem setSem_stepAt (s : State) (h : Half) (i : Nat) (k : Sem) : (s.setSem h i k).stepAt = s.stepAt := by cases h <;> rfl
@[simp] theorem setSem_steps (s : State) (h : Half) (i : Nat) (k : Sem) : (s.setSem h i k).steps = s.steps := by cases h <;> rfl
@[simp] theorem setSem_clock (s : State) (h : Half) (i : Nat) (k : Sem) : (s.setSem h i k).clock = s.clock := by cases h <;> rfl
@[simp] theorem setSem_standby (s : State) (h : Half) (i : Nat) (k : Sem) : (s.setSem h i k).standby = s.standby := by cases h <;> rfl
@[simp] theorem setSem_scan (s : State) (h : Half) (i : Nat) (k : Sem) : (s.setSem h i k).scan = s.scan := by cases h <;> rfl

/-! ### `setLink` -/

@[simp] theorem setLink_pending (s : State) (h : Half) (p : Port) (l : Link) : (s.setLink h p l).pending = s.pending := by cases p <;> cases h <;> rfl
@[simp] theorem setLink_freeCtr (s : State) (h : Half) (p : Port) (l : Link) : (s.setLink h p l).freeCtr = s.freeCtr := by cases p <;> cases h <;> rfl
@[simp] theorem setLink_outbox (s : State) (h : Half) (p : Port) (l : Link) : (s.setLink h p l).outbox = s.outbox := by cases p <;> cases h <;> rfl
@[simp] theorem setLink_part (s : State) (h : Half) (p : Port) (l : Link) : (s.setLink h p l).part = s.part := by cases p <;> cases h <;> rfl
@[simp] theorem setLink_devPins (s : State) (h : Half) (p : Port) (l : Link) : (s.setLink h p l).devPins = s.devPins := by cases p <;> cases h <;> rfl
@[simp] theorem setLink_mem (s : State) (h : Half) (p : Port) (l : Link) : (s.setLink h p l).mem = s.mem := by cases p <;> cases h <;> rfl
@[simp] theorem setLink_poison (s : State) (h : Half) (p : Port) (l : Link) : (s.setLink h p l).poison = s.poison := by cases p <;> cases h <;> rfl
@[simp] theorem setLink_lineErr (s : State) (h : Half) (p : Port) (l : Link) : (s.setLink h p l).lineErr = s.lineErr := by cases p <;> cases h <;> rfl
@[simp] theorem setLink_sramBad (s : State) (h : Half) (p : Port) (l : Link) : (s.setLink h p l).sramBad = s.sramBad := by cases p <;> cases h <;> rfl
@[simp] theorem setLink_upsets (s : State) (h : Half) (p : Port) (l : Link) : (s.setLink h p l).upsets = s.upsets := by cases p <;> cases h <;> rfl
@[simp] theorem setLink_hostMem (s : State) (h : Half) (p : Port) (l : Link) : (s.setLink h p l).hostMem = s.hostMem := by cases p <;> cases h <;> rfl
@[simp] theorem setLink_dict (s : State) (h : Half) (p : Port) (l : Link) : (s.setLink h p l).dict = s.dict := by cases p <;> cases h <;> rfl
@[simp] theorem setLink_dictBytes (s : State) (h : Half) (p : Port) (l : Link) : (s.setLink h p l).dictBytes = s.dictBytes := by cases p <;> cases h <;> rfl
@[simp] theorem setLink_txn (s : State) (h : Half) (p : Port) (l : Link) : (s.setLink h p l).txn = s.txn := by cases p <;> cases h <;> rfl
@[simp] theorem setLink_mirrors (s : State) (h : Half) (p : Port) (l : Link) : (s.setLink h p l).mirrors = s.mirrors := by cases p <;> cases h <;> rfl
@[simp] theorem setLink_stepAt (s : State) (h : Half) (p : Port) (l : Link) : (s.setLink h p l).stepAt = s.stepAt := by cases p <;> cases h <;> rfl
@[simp] theorem setLink_steps (s : State) (h : Half) (p : Port) (l : Link) : (s.setLink h p l).steps = s.steps := by cases p <;> cases h <;> rfl
@[simp] theorem setLink_clock (s : State) (h : Half) (p : Port) (l : Link) : (s.setLink h p l).clock = s.clock := by cases p <;> cases h <;> rfl
@[simp] theorem setLink_standby (s : State) (h : Half) (p : Port) (l : Link) : (s.setLink h p l).standby = s.standby := by cases p <;> cases h <;> rfl
@[simp] theorem setLink_scan (s : State) (h : Half) (p : Port) (l : Link) : (s.setLink h p l).scan = s.scan := by cases p <;> cases h <;> rfl

/-! ### `setNum` -/

@[simp] theorem setNum_pending (s : State) (idx sub v : Nat) : (s.setNum idx sub v).pending = s.pending := rfl
@[simp] theorem setNum_freeCtr (s : State) (idx sub v : Nat) : (s.setNum idx sub v).freeCtr = s.freeCtr := rfl
@[simp] theorem setNum_outbox (s : State) (idx sub v : Nat) : (s.setNum idx sub v).outbox = s.outbox := rfl
@[simp] theorem setNum_part (s : State) (idx sub v : Nat) : (s.setNum idx sub v).part = s.part := rfl
@[simp] theorem setNum_devPins (s : State) (idx sub v : Nat) : (s.setNum idx sub v).devPins = s.devPins := rfl
@[simp] theorem setNum_mem (s : State) (idx sub v : Nat) : (s.setNum idx sub v).mem = s.mem := rfl
@[simp] theorem setNum_poison (s : State) (idx sub v : Nat) : (s.setNum idx sub v).poison = s.poison := rfl
@[simp] theorem setNum_lineErr (s : State) (idx sub v : Nat) : (s.setNum idx sub v).lineErr = s.lineErr := rfl
@[simp] theorem setNum_sramBad (s : State) (idx sub v : Nat) : (s.setNum idx sub v).sramBad = s.sramBad := rfl
@[simp] theorem setNum_upsets (s : State) (idx sub v : Nat) : (s.setNum idx sub v).upsets = s.upsets := rfl
@[simp] theorem setNum_hostMem (s : State) (idx sub v : Nat) : (s.setNum idx sub v).hostMem = s.hostMem := rfl
@[simp] theorem setNum_dictBytes (s : State) (idx sub v : Nat) : (s.setNum idx sub v).dictBytes = s.dictBytes := rfl
@[simp] theorem setNum_txn (s : State) (idx sub v : Nat) : (s.setNum idx sub v).txn = s.txn := rfl
@[simp] theorem setNum_mirrors (s : State) (idx sub v : Nat) : (s.setNum idx sub v).mirrors = s.mirrors := rfl
@[simp] theorem setNum_stepAt (s : State) (idx sub v : Nat) : (s.setNum idx sub v).stepAt = s.stepAt := rfl
@[simp] theorem setNum_steps (s : State) (idx sub v : Nat) : (s.setNum idx sub v).steps = s.steps := rfl
@[simp] theorem setNum_clock (s : State) (idx sub v : Nat) : (s.setNum idx sub v).clock = s.clock := rfl
@[simp] theorem setNum_standby (s : State) (idx sub v : Nat) : (s.setNum idx sub v).standby = s.standby := rfl
@[simp] theorem setNum_scan (s : State) (idx sub v : Nat) : (s.setNum idx sub v).scan = s.scan := rfl
@[simp] theorem setNum_bow (s : State) (idx sub v : Nat) : (s.setNum idx sub v).bow = s.bow := rfl
@[simp] theorem setNum_stern (s : State) (idx sub v : Nat) : (s.setNum idx sub v).stern = s.stern := rfl
@[simp] theorem setNum_half (s : State) (idx sub v : Nat) (g : Half) : (s.setNum idx sub v).half g = s.half g := rfl

/-! ### `setBytes` -/

@[simp] theorem setBytes_pending (s : State) (idx sub : Nat) (v : List Byte) : (s.setBytes idx sub v).pending = s.pending := rfl
@[simp] theorem setBytes_freeCtr (s : State) (idx sub : Nat) (v : List Byte) : (s.setBytes idx sub v).freeCtr = s.freeCtr := rfl
@[simp] theorem setBytes_outbox (s : State) (idx sub : Nat) (v : List Byte) : (s.setBytes idx sub v).outbox = s.outbox := rfl
@[simp] theorem setBytes_part (s : State) (idx sub : Nat) (v : List Byte) : (s.setBytes idx sub v).part = s.part := rfl
@[simp] theorem setBytes_devPins (s : State) (idx sub : Nat) (v : List Byte) : (s.setBytes idx sub v).devPins = s.devPins := rfl
@[simp] theorem setBytes_mem (s : State) (idx sub : Nat) (v : List Byte) : (s.setBytes idx sub v).mem = s.mem := rfl
@[simp] theorem setBytes_poison (s : State) (idx sub : Nat) (v : List Byte) : (s.setBytes idx sub v).poison = s.poison := rfl
@[simp] theorem setBytes_lineErr (s : State) (idx sub : Nat) (v : List Byte) : (s.setBytes idx sub v).lineErr = s.lineErr := rfl
@[simp] theorem setBytes_sramBad (s : State) (idx sub : Nat) (v : List Byte) : (s.setBytes idx sub v).sramBad = s.sramBad := rfl
@[simp] theorem setBytes_upsets (s : State) (idx sub : Nat) (v : List Byte) : (s.setBytes idx sub v).upsets = s.upsets := rfl
@[simp] theorem setBytes_hostMem (s : State) (idx sub : Nat) (v : List Byte) : (s.setBytes idx sub v).hostMem = s.hostMem := rfl
@[simp] theorem setBytes_dict (s : State) (idx sub : Nat) (v : List Byte) : (s.setBytes idx sub v).dict = s.dict := rfl
@[simp] theorem setBytes_txn (s : State) (idx sub : Nat) (v : List Byte) : (s.setBytes idx sub v).txn = s.txn := rfl
@[simp] theorem setBytes_mirrors (s : State) (idx sub : Nat) (v : List Byte) : (s.setBytes idx sub v).mirrors = s.mirrors := rfl
@[simp] theorem setBytes_stepAt (s : State) (idx sub : Nat) (v : List Byte) : (s.setBytes idx sub v).stepAt = s.stepAt := rfl
@[simp] theorem setBytes_steps (s : State) (idx sub : Nat) (v : List Byte) : (s.setBytes idx sub v).steps = s.steps := rfl
@[simp] theorem setBytes_clock (s : State) (idx sub : Nat) (v : List Byte) : (s.setBytes idx sub v).clock = s.clock := rfl
@[simp] theorem setBytes_standby (s : State) (idx sub : Nat) (v : List Byte) : (s.setBytes idx sub v).standby = s.standby := rfl
@[simp] theorem setBytes_scan (s : State) (idx sub : Nat) (v : List Byte) : (s.setBytes idx sub v).scan = s.scan := rfl
@[simp] theorem setBytes_bow (s : State) (idx sub : Nat) (v : List Byte) : (s.setBytes idx sub v).bow = s.bow := rfl
@[simp] theorem setBytes_stern (s : State) (idx sub : Nat) (v : List Byte) : (s.setBytes idx sub v).stern = s.stern := rfl
@[simp] theorem setBytes_half (s : State) (idx sub : Nat) (v : List Byte) (g : Half) : (s.setBytes idx sub v).half g = s.half g := rfl

/-! ### `bump` -/

@[simp] theorem bump_pending (s : State) (idx sub n : Nat) : (s.bump idx sub n).pending = s.pending := rfl
@[simp] theorem bump_freeCtr (s : State) (idx sub n : Nat) : (s.bump idx sub n).freeCtr = s.freeCtr := rfl
@[simp] theorem bump_outbox (s : State) (idx sub n : Nat) : (s.bump idx sub n).outbox = s.outbox := rfl
@[simp] theorem bump_part (s : State) (idx sub n : Nat) : (s.bump idx sub n).part = s.part := rfl
@[simp] theorem bump_devPins (s : State) (idx sub n : Nat) : (s.bump idx sub n).devPins = s.devPins := rfl
@[simp] theorem bump_mem (s : State) (idx sub n : Nat) : (s.bump idx sub n).mem = s.mem := rfl
@[simp] theorem bump_poison (s : State) (idx sub n : Nat) : (s.bump idx sub n).poison = s.poison := rfl
@[simp] theorem bump_lineErr (s : State) (idx sub n : Nat) : (s.bump idx sub n).lineErr = s.lineErr := rfl
@[simp] theorem bump_sramBad (s : State) (idx sub n : Nat) : (s.bump idx sub n).sramBad = s.sramBad := rfl
@[simp] theorem bump_upsets (s : State) (idx sub n : Nat) : (s.bump idx sub n).upsets = s.upsets := rfl
@[simp] theorem bump_hostMem (s : State) (idx sub n : Nat) : (s.bump idx sub n).hostMem = s.hostMem := rfl
@[simp] theorem bump_dictBytes (s : State) (idx sub n : Nat) : (s.bump idx sub n).dictBytes = s.dictBytes := rfl
@[simp] theorem bump_txn (s : State) (idx sub n : Nat) : (s.bump idx sub n).txn = s.txn := rfl
@[simp] theorem bump_mirrors (s : State) (idx sub n : Nat) : (s.bump idx sub n).mirrors = s.mirrors := rfl
@[simp] theorem bump_stepAt (s : State) (idx sub n : Nat) : (s.bump idx sub n).stepAt = s.stepAt := rfl
@[simp] theorem bump_steps (s : State) (idx sub n : Nat) : (s.bump idx sub n).steps = s.steps := rfl
@[simp] theorem bump_clock (s : State) (idx sub n : Nat) : (s.bump idx sub n).clock = s.clock := rfl
@[simp] theorem bump_standby (s : State) (idx sub n : Nat) : (s.bump idx sub n).standby = s.standby := rfl
@[simp] theorem bump_scan (s : State) (idx sub n : Nat) : (s.bump idx sub n).scan = s.scan := rfl
@[simp] theorem bump_bow (s : State) (idx sub n : Nat) : (s.bump idx sub n).bow = s.bow := rfl
@[simp] theorem bump_stern (s : State) (idx sub n : Nat) : (s.bump idx sub n).stern = s.stern := rfl
@[simp] theorem bump_half (s : State) (idx sub n : Nat) (g : Half) : (s.bump idx sub n).half g = s.half g := rfl

/-! ### `emit` -/

@[simp] theorem emit_pending (s : State) (x : Output) : (s.emit x).pending = s.pending := rfl
@[simp] theorem emit_freeCtr (s : State) (x : Output) : (s.emit x).freeCtr = s.freeCtr := rfl
@[simp] theorem emit_part (s : State) (x : Output) : (s.emit x).part = s.part := rfl
@[simp] theorem emit_devPins (s : State) (x : Output) : (s.emit x).devPins = s.devPins := rfl
@[simp] theorem emit_mem (s : State) (x : Output) : (s.emit x).mem = s.mem := rfl
@[simp] theorem emit_poison (s : State) (x : Output) : (s.emit x).poison = s.poison := rfl
@[simp] theorem emit_lineErr (s : State) (x : Output) : (s.emit x).lineErr = s.lineErr := rfl
@[simp] theorem emit_sramBad (s : State) (x : Output) : (s.emit x).sramBad = s.sramBad := rfl
@[simp] theorem emit_upsets (s : State) (x : Output) : (s.emit x).upsets = s.upsets := rfl
@[simp] theorem emit_hostMem (s : State) (x : Output) : (s.emit x).hostMem = s.hostMem := rfl
@[simp] theorem emit_dict (s : State) (x : Output) : (s.emit x).dict = s.dict := rfl
@[simp] theorem emit_dictBytes (s : State) (x : Output) : (s.emit x).dictBytes = s.dictBytes := rfl
@[simp] theorem emit_txn (s : State) (x : Output) : (s.emit x).txn = s.txn := rfl
@[simp] theorem emit_mirrors (s : State) (x : Output) : (s.emit x).mirrors = s.mirrors := rfl
@[simp] theorem emit_stepAt (s : State) (x : Output) : (s.emit x).stepAt = s.stepAt := rfl
@[simp] theorem emit_steps (s : State) (x : Output) : (s.emit x).steps = s.steps := rfl
@[simp] theorem emit_clock (s : State) (x : Output) : (s.emit x).clock = s.clock := rfl
@[simp] theorem emit_standby (s : State) (x : Output) : (s.emit x).standby = s.standby := rfl
@[simp] theorem emit_scan (s : State) (x : Output) : (s.emit x).scan = s.scan := rfl
@[simp] theorem emit_bow (s : State) (x : Output) : (s.emit x).bow = s.bow := rfl
@[simp] theorem emit_stern (s : State) (x : Output) : (s.emit x).stern = s.stern := rfl
@[simp] theorem emit_half (s : State) (x : Output) (g : Half) : (s.emit x).half g = s.half g := rfl

/-! ### `free` -/

@[simp] theorem free_pending (s : State)  : (s.free.2).pending = s.pending := rfl
@[simp] theorem free_outbox (s : State)  : (s.free.2).outbox = s.outbox := rfl
@[simp] theorem free_part (s : State)  : (s.free.2).part = s.part := rfl
@[simp] theorem free_devPins (s : State)  : (s.free.2).devPins = s.devPins := rfl
@[simp] theorem free_mem (s : State)  : (s.free.2).mem = s.mem := rfl
@[simp] theorem free_poison (s : State)  : (s.free.2).poison = s.poison := rfl
@[simp] theorem free_lineErr (s : State)  : (s.free.2).lineErr = s.lineErr := rfl
@[simp] theorem free_sramBad (s : State)  : (s.free.2).sramBad = s.sramBad := rfl
@[simp] theorem free_upsets (s : State)  : (s.free.2).upsets = s.upsets := rfl
@[simp] theorem free_hostMem (s : State)  : (s.free.2).hostMem = s.hostMem := rfl
@[simp] theorem free_dict (s : State)  : (s.free.2).dict = s.dict := rfl
@[simp] theorem free_dictBytes (s : State)  : (s.free.2).dictBytes = s.dictBytes := rfl
@[simp] theorem free_txn (s : State)  : (s.free.2).txn = s.txn := rfl
@[simp] theorem free_mirrors (s : State)  : (s.free.2).mirrors = s.mirrors := rfl
@[simp] theorem free_stepAt (s : State)  : (s.free.2).stepAt = s.stepAt := rfl
@[simp] theorem free_steps (s : State)  : (s.free.2).steps = s.steps := rfl
@[simp] theorem free_clock (s : State)  : (s.free.2).clock = s.clock := rfl
@[simp] theorem free_standby (s : State)  : (s.free.2).standby = s.standby := rfl
@[simp] theorem free_scan (s : State)  : (s.free.2).scan = s.scan := rfl
@[simp] theorem free_bow (s : State)  : (s.free.2).bow = s.bow := rfl
@[simp] theorem free_stern (s : State)  : (s.free.2).stern = s.stern := rfl
@[simp] theorem free_half (s : State)  (g : Half) : (s.free.2).half g = s.half g := rfl

/-! ### `write` -/

@[simp] theorem write_pending (s : State) (a : Nat) (bs : List Byte) : (s.write a bs).pending = s.pending := rfl
@[simp] theorem write_freeCtr (s : State) (a : Nat) (bs : List Byte) : (s.write a bs).freeCtr = s.freeCtr := rfl
@[simp] theorem write_outbox (s : State) (a : Nat) (bs : List Byte) : (s.write a bs).outbox = s.outbox := rfl
@[simp] theorem write_part (s : State) (a : Nat) (bs : List Byte) : (s.write a bs).part = s.part := rfl
@[simp] theorem write_devPins (s : State) (a : Nat) (bs : List Byte) : (s.write a bs).devPins = s.devPins := rfl
@[simp] theorem write_upsets (s : State) (a : Nat) (bs : List Byte) : (s.write a bs).upsets = s.upsets := rfl
@[simp] theorem write_hostMem (s : State) (a : Nat) (bs : List Byte) : (s.write a bs).hostMem = s.hostMem := rfl
@[simp] theorem write_dict (s : State) (a : Nat) (bs : List Byte) : (s.write a bs).dict = s.dict := rfl
@[simp] theorem write_dictBytes (s : State) (a : Nat) (bs : List Byte) : (s.write a bs).dictBytes = s.dictBytes := rfl
@[simp] theorem write_txn (s : State) (a : Nat) (bs : List Byte) : (s.write a bs).txn = s.txn := rfl
@[simp] theorem write_mirrors (s : State) (a : Nat) (bs : List Byte) : (s.write a bs).mirrors = s.mirrors := rfl
@[simp] theorem write_stepAt (s : State) (a : Nat) (bs : List Byte) : (s.write a bs).stepAt = s.stepAt := rfl
@[simp] theorem write_steps (s : State) (a : Nat) (bs : List Byte) : (s.write a bs).steps = s.steps := rfl
@[simp] theorem write_clock (s : State) (a : Nat) (bs : List Byte) : (s.write a bs).clock = s.clock := rfl
@[simp] theorem write_standby (s : State) (a : Nat) (bs : List Byte) : (s.write a bs).standby = s.standby := rfl
@[simp] theorem write_scan (s : State) (a : Nat) (bs : List Byte) : (s.write a bs).scan = s.scan := rfl
@[simp] theorem write_bow (s : State) (a : Nat) (bs : List Byte) : (s.write a bs).bow = s.bow := rfl
@[simp] theorem write_stern (s : State) (a : Nat) (bs : List Byte) : (s.write a bs).stern = s.stern := rfl
@[simp] theorem write_half (s : State) (a : Nat) (bs : List Byte) (g : Half) : (s.write a bs).half g = s.half g := rfl
@[simp] theorem write_mem (s : State) (a : Nat) (bs : List Byte) : (s.write a bs).mem = memWrite s.mem a bs := rfl

/-! ### `advance` -/

@[simp] theorem advance_pending (s : State) (h : Half) (ns : Int) : (s.advance h ns).pending = s.pending := by simp [State.advance]
@[simp] theorem advance_freeCtr (s : State) (h : Half) (ns : Int) : (s.advance h ns).freeCtr = s.freeCtr := by simp [State.advance]
@[simp] theorem advance_outbox (s : State) (h : Half) (ns : Int) : (s.advance h ns).outbox = s.outbox := by simp [State.advance]
@[simp] theorem advance_part (s : State) (h : Half) (ns : Int) : (s.advance h ns).part = s.part := by simp [State.advance]
@[simp] theorem advance_devPins (s : State) (h : Half) (ns : Int) : (s.advance h ns).devPins = s.devPins := by simp [State.advance]
@[simp] theorem advance_mem (s : State) (h : Half) (ns : Int) : (s.advance h ns).mem = s.mem := by simp [State.advance]
@[simp] theorem advance_poison (s : State) (h : Half) (ns : Int) : (s.advance h ns).poison = s.poison := by simp [State.advance]
@[simp] theorem advance_lineErr (s : State) (h : Half) (ns : Int) : (s.advance h ns).lineErr = s.lineErr := by simp [State.advance]
@[simp] theorem advance_sramBad (s : State) (h : Half) (ns : Int) : (s.advance h ns).sramBad = s.sramBad := by simp [State.advance]
@[simp] theorem advance_upsets (s : State) (h : Half) (ns : Int) : (s.advance h ns).upsets = s.upsets := by simp [State.advance]
@[simp] theorem advance_hostMem (s : State) (h : Half) (ns : Int) : (s.advance h ns).hostMem = s.hostMem := by simp [State.advance]
@[simp] theorem advance_dict (s : State) (h : Half) (ns : Int) : (s.advance h ns).dict = s.dict := by simp [State.advance]
@[simp] theorem advance_dictBytes (s : State) (h : Half) (ns : Int) : (s.advance h ns).dictBytes = s.dictBytes := by simp [State.advance]
@[simp] theorem advance_txn (s : State) (h : Half) (ns : Int) : (s.advance h ns).txn = s.txn := by simp [State.advance]
@[simp] theorem advance_mirrors (s : State) (h : Half) (ns : Int) : (s.advance h ns).mirrors = s.mirrors := by simp [State.advance]
@[simp] theorem advance_stepAt (s : State) (h : Half) (ns : Int) : (s.advance h ns).stepAt = s.stepAt := by simp [State.advance]
@[simp] theorem advance_steps (s : State) (h : Half) (ns : Int) : (s.advance h ns).steps = s.steps := by simp [State.advance]
@[simp] theorem advance_clock (s : State) (h : Half) (ns : Int) : (s.advance h ns).clock = s.clock := by simp [State.advance]
@[simp] theorem advance_standby (s : State) (h : Half) (ns : Int) : (s.advance h ns).standby = s.standby := by simp [State.advance]
@[simp] theorem advance_scan (s : State) (h : Half) (ns : Int) : (s.advance h ns).scan = s.scan := by simp [State.advance]

/-! ### `atTime` -/

@[simp] theorem atTime_pending (s : State) (h : Half) (t : Time) : (s.atTime h t).pending = s.pending := by simp only [State.atTime]; split <;> simp
@[simp] theorem atTime_freeCtr (s : State) (h : Half) (t : Time) : (s.atTime h t).freeCtr = s.freeCtr := by simp only [State.atTime]; split <;> simp
@[simp] theorem atTime_outbox (s : State) (h : Half) (t : Time) : (s.atTime h t).outbox = s.outbox := by simp only [State.atTime]; split <;> simp
@[simp] theorem atTime_part (s : State) (h : Half) (t : Time) : (s.atTime h t).part = s.part := by simp only [State.atTime]; split <;> simp
@[simp] theorem atTime_devPins (s : State) (h : Half) (t : Time) : (s.atTime h t).devPins = s.devPins := by simp only [State.atTime]; split <;> simp
@[simp] theorem atTime_mem (s : State) (h : Half) (t : Time) : (s.atTime h t).mem = s.mem := by simp only [State.atTime]; split <;> simp
@[simp] theorem atTime_poison (s : State) (h : Half) (t : Time) : (s.atTime h t).poison = s.poison := by simp only [State.atTime]; split <;> simp
@[simp] theorem atTime_lineErr (s : State) (h : Half) (t : Time) : (s.atTime h t).lineErr = s.lineErr := by simp only [State.atTime]; split <;> simp
@[simp] theorem atTime_sramBad (s : State) (h : Half) (t : Time) : (s.atTime h t).sramBad = s.sramBad := by simp only [State.atTime]; split <;> simp
@[simp] theorem atTime_upsets (s : State) (h : Half) (t : Time) : (s.atTime h t).upsets = s.upsets := by simp only [State.atTime]; split <;> simp
@[simp] theorem atTime_hostMem (s : State) (h : Half) (t : Time) : (s.atTime h t).hostMem = s.hostMem := by simp only [State.atTime]; split <;> simp
@[simp] theorem atTime_dict (s : State) (h : Half) (t : Time) : (s.atTime h t).dict = s.dict := by simp only [State.atTime]; split <;> simp
@[simp] theorem atTime_dictBytes (s : State) (h : Half) (t : Time) : (s.atTime h t).dictBytes = s.dictBytes := by simp only [State.atTime]; split <;> simp
@[simp] theorem atTime_txn (s : State) (h : Half) (t : Time) : (s.atTime h t).txn = s.txn := by simp only [State.atTime]; split <;> simp
@[simp] theorem atTime_mirrors (s : State) (h : Half) (t : Time) : (s.atTime h t).mirrors = s.mirrors := by simp only [State.atTime]; split <;> simp
@[simp] theorem atTime_stepAt (s : State) (h : Half) (t : Time) : (s.atTime h t).stepAt = s.stepAt := by simp only [State.atTime]; split <;> simp
@[simp] theorem atTime_steps (s : State) (h : Half) (t : Time) : (s.atTime h t).steps = s.steps := by simp only [State.atTime]; split <;> simp
@[simp] theorem atTime_standby (s : State) (h : Half) (t : Time) : (s.atTime h t).standby = s.standby := by simp only [State.atTime]; split <;> simp
@[simp] theorem atTime_scan (s : State) (h : Half) (t : Time) : (s.atTime h t).scan = s.scan := by simp only [State.atTime]; split <;> simp

/-! ### Reads after updates -/

@[simp] theorem half_setHalf (s : State) (h : Half) (x : HalfState) : (s.setHalf h x).half h = x := by cases h <;> rfl
@[simp] theorem half_setHalf_other (s : State) (h : Half) (x : HalfState) : (s.setHalf h x).half h.other = s.half h.other := by
  cases h <;> rfl
@[simp] theorem half_other_setHalf (s : State) (h : Half) (x : HalfState) : (s.setHalf h.other x).half h = s.half h := by
  cases h <;> rfl
@[simp] theorem half_modHalf (s : State) (h : Half) (f : HalfState → HalfState) : (s.modHalf h f).half h = f (s.half h) := by
  cases h <;> rfl
@[simp] theorem half_modHalf_other (s : State) (h : Half) (f : HalfState → HalfState) :
    (s.modHalf h f).half h.other = s.half h.other := by cases h <;> rfl
@[simp] theorem half_other_modHalf (s : State) (h : Half) (f : HalfState → HalfState) :
    (s.modHalf h.other f).half h = s.half h := by cases h <;> rfl
@[simp] theorem other_other (h : Half) : h.other.other = h := by cases h <;> rfl
@[simp] theorem other_ne (h : Half) : h.other ≠ h := by cases h <;> decide
@[simp] theorem ne_other (h : Half) : h ≠ h.other := by cases h <;> decide

theorem half_modHalf_ite (s : State) (h g : Half) (f : HalfState → HalfState) :
    (s.modHalf h f).half g = if g = h then f (s.half g) else s.half g := by cases h <;> cases g <;> rfl

/-- A register written reads the value written; every other register reads as before (R403). -/
theorem num_setNum (s : State) (i j k l v : Nat) (hs : Tab.sortedFrom none s.dict = true) :
    (s.setNum i j v).num k l = if dkey k l = dkey i j then (if v = dictDflt i j then dictDflt k l else v) else s.num k l := by
  simp only [State.num, State.setNum]
  by_cases hv : v = dictDflt i j <;> by_cases hk : dkey k l = dkey i j <;>
    simp [hv, hk, Tab.find_erase s.dict none _ _ hs, Tab.find_insert]

/-- A register written reads the value written (R403). -/
@[simp] theorem num_setNum_same (s : State) (i j v : Nat) (hs : Tab.sortedFrom none s.dict = true) : (s.setNum i j v).num i j = v := by
  rw [num_setNum s i j i j v hs, if_pos rfl]
  split <;> simp_all

/-- Every other register reads as before (R403). -/
theorem num_setNum_ne (s : State) (i j k l v : Nat) (h : dkey k l ≠ dkey i j) : (s.setNum i j v).num k l = s.num k l := by
  simp only [State.num, State.setNum]
  by_cases hv : v = dictDflt i j <;> simp [hv, h, Tab.find_erase_ne s.dict _ _ h, Tab.find_insert]

/-- Writing a register keeps the registers' keys rising. -/
theorem setNum_sorted (s : State) (i j v : Nat) (hs : Tab.sortedFrom none s.dict = true) :
    Tab.sortedFrom none (s.setNum i j v).dict = true := by
  simp only [State.setNum]
  split
  · exact Tab.sortedFrom_erase _ _ _ hs
  · exact Tab.sortedFrom_insert _ _ _ _ hs (by simp)

/-- Every other register reads as before (R403). -/
theorem num_bump_ne (s : State) (i j k l n : Nat) (h : dkey k l ≠ dkey i j) : (s.bump i j n).num k l = s.num k l :=
  num_setNum_ne s i j k l _ h

/-- Bytes outside those written read as before (R240). -/
theorem byte_write_out (s : State) (a j : Nat) (bs : List Byte) (h : j < a ∨ a + bs.length ≤ j) :
    (s.write a bs).byte j = s.byte j := memGet_memWrite_out s.mem a j bs h

/-- The bytes written read back (R240). -/
theorem read_write (s : State) (a : Nat) (bs : List Byte) (hm : Memory.wf s.mem = true) : (s.write a bs).read a bs.length = bs :=
  memRead_memWrite s.mem a bs hm

@[simp] theorem byte_setNum (s : State) (i j v a : Nat) : (s.setNum i j v).byte a = s.byte a := rfl
@[simp] theorem byte_modHalf (s : State) (h : Half) (f : HalfState → HalfState) (a : Nat) : (s.modHalf h f).byte a = s.byte a := by
  cases h <;> rfl
@[simp] theorem num_modHalf (s : State) (h : Half) (f : HalfState → HalfState) (i j : Nat) : (s.modHalf h f).num i j = s.num i j := by
  cases h <;> rfl
@[simp] theorem num_emit (s : State) (o : Output) (i j : Nat) : (s.emit o).num i j = s.num i j := rfl
@[simp] theorem num_write (s : State) (a : Nat) (bs : List Byte) (i j : Nat) : (s.write a bs).num i j = s.num i j := rfl

end Sys2Proof.Machine
end

