-- ==== Sys2Proof/Laws/Keeps.lean ====
section
/-! SUPPORT. What no operation of the block disturbs: the queue, the part record, outputs already sent, the canonical form of the stores, and an asserted `FAULT_N` (R389). -/
namespace Sys2Proof.Machine

/-- What `t` keeps of `s`; `ex` names the half whose `FAULT_N` may have been released (R398). -/
structure Keeps (ex : Option Half) (s t : State) : Prop where
  pending : t.pending = s.pending
  part : t.part = s.part
  devPins : t.devPins = s.devPins
  freeCtr : s.freeCtr ≤ t.freeCtr
  outbox : s.outbox <+: t.outbox
  wf : StoresWf s → StoresWf t
  faultN : ∀ h, ex ≠ some h → (s.half h).faultN = true → (t.half h).faultN = true

/-- What `y` keeps of one half `x`. -/
abbrev HalfKeeps (x y : HalfState) : Prop := (x.faultN = true → y.faultN = true) ∧ (TablesWf x → TablesWf y)

theorem StoresWf.half {s : State} (h : StoresWf s) (g : Half) : TablesWf (s.half g) := by
  cases g
  · exact h.bow
  · exact h.stern

theorem TablesWf.queues {x : HalfState} {t : Tab _} (h : TablesWf x) (ht : Tab.sortedFrom none x.queues = true → Tab.sortedFrom none t = true) :
    TablesWf { x with queues := t } := ⟨ht h.1, h.2.1, h.2.2.1, h.2.2.2.1, h.2.2.2.2.1, h.2.2.2.2.2.1, h.2.2.2.2.2.2.1, h.2.2.2.2.2.2.2.1, h.2.2.2.2.2.2.2.2.1, h.2.2.2.2.2.2.2.2.2.1, h.2.2.2.2.2.2.2.2.2.2.1, h.2.2.2.2.2.2.2.2.2.2.2.1, h.2.2.2.2.2.2.2.2.2.2.2.2.1, h.2.2.2.2.2.2.2.2.2.2.2.2.2⟩
theorem TablesWf.ctxs {x : HalfState} {t : Tab _} (h : TablesWf x) (ht : Tab.sortedFrom none x.ctxs = true → Tab.sortedFrom none t = true) :
    TablesWf { x with ctxs := t } := ⟨h.1, ht h.2.1, h.2.2.1, h.2.2.2.1, h.2.2.2.2.1, h.2.2.2.2.2.1, h.2.2.2.2.2.2.1, h.2.2.2.2.2.2.2.1, h.2.2.2.2.2.2.2.2.1, h.2.2.2.2.2.2.2.2.2.1, h.2.2.2.2.2.2.2.2.2.2.1, h.2.2.2.2.2.2.2.2.2.2.2.1, h.2.2.2.2.2.2.2.2.2.2.2.2.1, h.2.2.2.2.2.2.2.2.2.2.2.2.2⟩
theorem TablesWf.sems {x : HalfState} {t : Tab _} (h : TablesWf x) (ht : Tab.sortedFrom none x.sems = true → Tab.sortedFrom none t = true) :
    TablesWf { x with sems := t } := ⟨h.1, h.2.1, ht h.2.2.1, h.2.2.2.1, h.2.2.2.2.1, h.2.2.2.2.2.1, h.2.2.2.2.2.2.1, h.2.2.2.2.2.2.2.1, h.2.2.2.2.2.2.2.2.1, h.2.2.2.2.2.2.2.2.2.1, h.2.2.2.2.2.2.2.2.2.2.1, h.2.2.2.2.2.2.2.2.2.2.2.1, h.2.2.2.2.2.2.2.2.2.2.2.2.1, h.2.2.2.2.2.2.2.2.2.2.2.2.2⟩
theorem TablesWf.cores {x : HalfState} {t : Tab _} (h : TablesWf x) (ht : Tab.sortedFrom none x.cores = true → Tab.sortedFrom none t = true) :
    TablesWf { x with cores := t } := ⟨h.1, h.2.1, h.2.2.1, ht h.2.2.2.1, h.2.2.2.2.1, h.2.2.2.2.2.1, h.2.2.2.2.2.2.1, h.2.2.2.2.2.2.2.1, h.2.2.2.2.2.2.2.2.1, h.2.2.2.2.2.2.2.2.2.1, h.2.2.2.2.2.2.2.2.2.2.1, h.2.2.2.2.2.2.2.2.2.2.2.1, h.2.2.2.2.2.2.2.2.2.2.2.2.1, h.2.2.2.2.2.2.2.2.2.2.2.2.2⟩
theorem TablesWf.manifest {x : HalfState} {t : Tab _} (h : TablesWf x) (ht : Tab.sortedFrom none x.manifest = true → Tab.sortedFrom none t = true) :
    TablesWf { x with manifest := t } := ⟨h.1, h.2.1, h.2.2.1, h.2.2.2.1, ht h.2.2.2.2.1, h.2.2.2.2.2.1, h.2.2.2.2.2.2.1, h.2.2.2.2.2.2.2.1, h.2.2.2.2.2.2.2.2.1, h.2.2.2.2.2.2.2.2.2.1, h.2.2.2.2.2.2.2.2.2.2.1, h.2.2.2.2.2.2.2.2.2.2.2.1, h.2.2.2.2.2.2.2.2.2.2.2.2.1, h.2.2.2.2.2.2.2.2.2.2.2.2.2⟩
theorem TablesWf.pages {x : HalfState} {t : Tab _} (h : TablesWf x) (ht : Tab.sortedFrom none x.pages = true → Tab.sortedFrom none t = true) :
    TablesWf { x with pages := t } := ⟨h.1, h.2.1, h.2.2.1, h.2.2.2.1, h.2.2.2.2.1, ht h.2.2.2.2.2.1, h.2.2.2.2.2.2.1, h.2.2.2.2.2.2.2.1, h.2.2.2.2.2.2.2.2.1, h.2.2.2.2.2.2.2.2.2.1, h.2.2.2.2.2.2.2.2.2.2.1, h.2.2.2.2.2.2.2.2.2.2.2.1, h.2.2.2.2.2.2.2.2.2.2.2.2.1, h.2.2.2.2.2.2.2.2.2.2.2.2.2⟩
theorem TablesWf.roll {x : HalfState} {t : Tab _} (h : TablesWf x) (ht : Tab.sortedFrom none x.roll = true → Tab.sortedFrom none t = true) :
    TablesWf { x with roll := t } := ⟨h.1, h.2.1, h.2.2.1, h.2.2.2.1, h.2.2.2.2.1, h.2.2.2.2.2.1, ht h.2.2.2.2.2.2.1, h.2.2.2.2.2.2.2.1, h.2.2.2.2.2.2.2.2.1, h.2.2.2.2.2.2.2.2.2.1, h.2.2.2.2.2.2.2.2.2.2.1, h.2.2.2.2.2.2.2.2.2.2.2.1, h.2.2.2.2.2.2.2.2.2.2.2.2.1, h.2.2.2.2.2.2.2.2.2.2.2.2.2⟩
theorem TablesWf.lineCtr {x : HalfState} {t : Tab _} (h : TablesWf x) (ht : Tab.sortedFrom none x.lineCtr = true → Tab.sortedFrom none t = true) :
    TablesWf { x with lineCtr := t } := ⟨h.1, h.2.1, h.2.2.1, h.2.2.2.1, h.2.2.2.2.1, h.2.2.2.2.2.1, h.2.2.2.2.2.2.1, ht h.2.2.2.2.2.2.2.1, h.2.2.2.2.2.2.2.2.1, h.2.2.2.2.2.2.2.2.2.1, h.2.2.2.2.2.2.2.2.2.2.1, h.2.2.2.2.2.2.2.2.2.2.2.1, h.2.2.2.2.2.2.2.2.2.2.2.2.1, h.2.2.2.2.2.2.2.2.2.2.2.2.2⟩
theorem TablesWf.cams {x : HalfState} {t : Tab _} (h : TablesWf x) (ht : Tab.sortedFrom none x.cams = true → Tab.sortedFrom none t = true) :
    TablesWf { x with cams := t } := ⟨h.1, h.2.1, h.2.2.1, h.2.2.2.1, h.2.2.2.2.1, h.2.2.2.2.2.1, h.2.2.2.2.2.2.1, h.2.2.2.2.2.2.2.1, ht h.2.2.2.2.2.2.2.2.1, h.2.2.2.2.2.2.2.2.2.1, h.2.2.2.2.2.2.2.2.2.2.1, h.2.2.2.2.2.2.2.2.2.2.2.1, h.2.2.2.2.2.2.2.2.2.2.2.2.1, h.2.2.2.2.2.2.2.2.2.2.2.2.2⟩
theorem TablesWf.trigs {x : HalfState} {t : Tab _} (h : TablesWf x) (ht : Tab.sortedFrom none x.trigs = true → Tab.sortedFrom none t = true) :
    TablesWf { x with trigs := t } := ⟨h.1, h.2.1, h.2.2.1, h.2.2.2.1, h.2.2.2.2.1, h.2.2.2.2.2.1, h.2.2.2.2.2.2.1, h.2.2.2.2.2.2.2.1, h.2.2.2.2.2.2.2.2.1, ht h.2.2.2.2.2.2.2.2.2.1, h.2.2.2.2.2.2.2.2.2.2.1, h.2.2.2.2.2.2.2.2.2.2.2.1, h.2.2.2.2.2.2.2.2.2.2.2.2.1, h.2.2.2.2.2.2.2.2.2.2.2.2.2⟩
theorem TablesWf.caps {x : HalfState} {t : Tab _} (h : TablesWf x) (ht : Tab.sortedFrom none x.caps = true → Tab.sortedFrom none t = true) :
    TablesWf { x with caps := t } := ⟨h.1, h.2.1, h.2.2.1, h.2.2.2.1, h.2.2.2.2.1, h.2.2.2.2.2.1, h.2.2.2.2.2.2.1, h.2.2.2.2.2.2.2.1, h.2.2.2.2.2.2.2.2.1, h.2.2.2.2.2.2.2.2.2.1, ht h.2.2.2.2.2.2.2.2.2.2.1, h.2.2.2.2.2.2.2.2.2.2.2.1, h.2.2.2.2.2.2.2.2.2.2.2.2.1, h.2.2.2.2.2.2.2.2.2.2.2.2.2⟩
theorem TablesWf.loops {x : HalfState} {t : Tab _} (h : TablesWf x) (ht : Tab.sortedFrom none x.loops = true → Tab.sortedFrom none t = true) :
    TablesWf { x with loops := t } := ⟨h.1, h.2.1, h.2.2.1, h.2.2.2.1, h.2.2.2.2.1, h.2.2.2.2.2.1, h.2.2.2.2.2.2.1, h.2.2.2.2.2.2.2.1, h.2.2.2.2.2.2.2.2.1, h.2.2.2.2.2.2.2.2.2.1, h.2.2.2.2.2.2.2.2.2.2.1, ht h.2.2.2.2.2.2.2.2.2.2.2.1, h.2.2.2.2.2.2.2.2.2.2.2.2.1, h.2.2.2.2.2.2.2.2.2.2.2.2.2⟩
theorem TablesWf.cans {x : HalfState} {t : Tab _} (h : TablesWf x) (ht : Tab.sortedFrom none x.cans = true → Tab.sortedFrom none t = true) :
    TablesWf { x with cans := t } := ⟨h.1, h.2.1, h.2.2.1, h.2.2.2.1, h.2.2.2.2.1, h.2.2.2.2.2.1, h.2.2.2.2.2.2.1, h.2.2.2.2.2.2.2.1, h.2.2.2.2.2.2.2.2.1, h.2.2.2.2.2.2.2.2.2.1, h.2.2.2.2.2.2.2.2.2.2.1, h.2.2.2.2.2.2.2.2.2.2.2.1, ht h.2.2.2.2.2.2.2.2.2.2.2.2.1, h.2.2.2.2.2.2.2.2.2.2.2.2.2⟩
theorem TablesWf.springs {x : HalfState} {t : Tab _} (h : TablesWf x) (ht : Tab.sortedFrom none x.springs = true → Tab.sortedFrom none t = true) :
    TablesWf { x with springs := t } := ⟨h.1, h.2.1, h.2.2.1, h.2.2.2.1, h.2.2.2.2.1, h.2.2.2.2.2.1, h.2.2.2.2.2.2.1, h.2.2.2.2.2.2.2.1, h.2.2.2.2.2.2.2.2.1, h.2.2.2.2.2.2.2.2.2.1, h.2.2.2.2.2.2.2.2.2.2.1, h.2.2.2.2.2.2.2.2.2.2.2.1, h.2.2.2.2.2.2.2.2.2.2.2.2.1, ht h.2.2.2.2.2.2.2.2.2.2.2.2.2⟩

variable {ex : Option Half} {s0 s t : State}

theorem Keeps.rfl : Keeps ex s s := ⟨(Eq.refl _), (Eq.refl _), (Eq.refl _), Nat.le_refl _, List.prefix_rfl, id, fun _ _ h => h⟩

theorem Keeps.trans {u : State} (h1 : Keeps ex s t) (h2 : Keeps ex t u) : Keeps ex s u :=
  ⟨h2.pending.trans h1.pending, h2.part.trans h1.part, h2.devPins.trans h1.devPins, Nat.le_trans h1.freeCtr h2.freeCtr,
    h1.outbox.trans h2.outbox, fun h => h2.wf (h1.wf h), fun h he hf => h2.faultN h he (h1.faultN h he hf)⟩

/-- A state that differs from one that keeps it only elsewhere. -/
theorem Keeps.elsewhere {a1 a2 a3 a4 a5 a6 a7 a8 a9 a10 a11 a12} {b c : HalfState}
    (he : t = ⟨s.pending, s.freeCtr, s.outbox, s.part, s.devPins, s.mem, a1, a2, a3, a4, a5, s.dict, s.dictBytes, a6, a7, a8, a9, a10, a11, a12, b, c⟩)
    (hk : Keeps ex s0 s) (hb : HalfKeeps s.bow b) (hc : HalfKeeps s.stern c) : Keeps ex s0 t := by
  subst he
  refine hk.trans ⟨Eq.refl _, Eq.refl _, Eq.refl _, Nat.le_refl _, List.prefix_rfl, fun h => ⟨h.mem, h.dict, h.dictBytes, hb.2 h.bow, hc.2 h.stern⟩, fun h _ => ?_⟩
  cases h
  · exact hb.1
  · exact hc.1

/-- Passing over free values. -/
theorem Keeps.skip {n : Nat} (hk : Keeps ex s0 s) (hn : s.freeCtr ≤ n) : Keeps ex s0 { s with freeCtr := n } :=
  hk.trans ⟨Eq.refl _, Eq.refl _, Eq.refl _, hn, List.prefix_rfl, fun h => ⟨h.mem, h.dict, h.dictBytes, h.bow, h.stern⟩, fun _ _ h => h⟩

theorem Keeps.ite {c : Prop} [Decidable c] {a b : State} (ha : c → Keeps ex s0 a) (hb : ¬c → Keeps ex s0 b) :
    Keeps ex s0 (if c then a else b) := by
  split
  · exact ha ‹_›
  · exact hb ‹_›

theorem Keeps.ite_snd {α : Type} {c : Prop} [Decidable c] {a b : α × State} (ha : c → Keeps ex s0 a.2) (hb : ¬c → Keeps ex s0 b.2) :
    Keeps ex s0 (if c then a else b).2 := by
  split
  · exact ha ‹_›
  · exact hb ‹_›

theorem Keeps.ite_fst {α : Type} {c : Prop} [Decidable c] {a b : State × α} (ha : c → Keeps ex s0 a.1) (hb : ¬c → Keeps ex s0 b.1) :
    Keeps ex s0 (if c then a else b).1 := by
  split
  · exact ha ‹_›
  · exact hb ‹_›

theorem Keeps.foldl {α : Type} {f : State → α → State} {l : List α} (hk : Keeps ex s0 s)
    (hf : ∀ t x, Keeps ex s0 t → Keeps ex s0 (f t x)) : Keeps ex s0 (l.foldl f s) := by
  induction l generalizing s with
  | nil => exact hk
  | cons x l ih => exact ih (hf _ _ hk)

theorem Keeps.foldl_snd {α β : Type} {f : β × State → α → β × State} {l : List α} {p : β × State} (hk : Keeps ex s0 p.2)
    (hf : ∀ t x, Keeps ex s0 t.2 → Keeps ex s0 (f t x).2) : Keeps ex s0 (l.foldl f p).2 := by
  induction l generalizing p with
  | nil => exact hk
  | cons x l ih => exact ih (hf _ _ hk)

theorem Keeps.foldl_fst {α β : Type} {f : State × β → α → State × β} {l : List α} {p : State × β} (hk : Keeps ex s0 p.1)
    (hf : ∀ t x, Keeps ex s0 t.1 → Keeps ex s0 (f t x).1) : Keeps ex s0 (l.foldl f p).1 := by
  induction l generalizing p with
  | nil => exact hk
  | cons x l ih => exact ih (hf _ _ hk)

theorem Keeps.foldl_trd {α β γ : Type} {f : β × γ × State → α → β × γ × State} {l : List α} {p : β × γ × State} (hk : Keeps ex s0 p.2.2)
    (hf : ∀ t x, Keeps ex s0 t.2.2 → Keeps ex s0 (f t x).2.2) : Keeps ex s0 (l.foldl f p).2.2 := by
  induction l generalizing p with
  | nil => exact hk
  | cons x l ih => exact ih (hf _ _ hk)

theorem Keeps.mk_snd {α : Type} {a : α} (hk : Keeps ex s0 t) : Keeps ex s0 (a, t).2 := hk
theorem Keeps.mk_fst {α : Type} {a : α} (hk : Keeps ex s0 t) : Keeps ex s0 (t, a).1 := hk

theorem Keeps.of_snd {α : Type} {p : α × State} {a : α} (he : p = (a, t)) (hk : Keeps ex s0 p.2) : Keeps ex s0 t := by
  subst he; exact hk

theorem Keeps.of_fst {α : Type} {p : State × α} {a : α} (he : p = (t, a)) (hk : Keeps ex s0 p.1) : Keeps ex s0 t := by
  subst he; exact hk

/-! ### The named updates -/

theorem setHalf_keeps (h : Half) (x : HalfState) (hk : Keeps ex s0 s) (hx : HalfKeeps (s.half h) x) : Keeps ex s0 (s.setHalf h x) := by
  refine hk.trans ⟨by simp, by simp, by simp, by simp, by simp, fun hw => ?_, fun g _ hf => ?_⟩
  · cases h
    · exact ⟨hw.mem, hw.dict, hw.dictBytes, hx.2 hw.bow, hw.stern⟩
    · exact ⟨hw.mem, hw.dict, hw.dictBytes, hw.bow, hx.2 hw.stern⟩
  · cases h <;> cases g <;> first | exact hx.1 hf | exact hf

theorem modHalf_keeps (h : Half) (f : HalfState → HalfState) (hk : Keeps ex s0 s)
    (hf : ∀ x, HalfKeeps x (f x)) : Keeps ex s0 (s.modHalf h f) :=
  setHalf_keeps h _ hk (hf _)

/-- Only `READY_3` releases `FAULT_N` of its half (R389, R398). -/
theorem modHalf_keeps_but (h : Half) (f : HalfState → HalfState) (hk : Keeps (some h) s0 s) (hf : ∀ x, TablesWf x → TablesWf (f x)) :
    Keeps (some h) s0 (s.modHalf h f) := by
  refine hk.trans ⟨by simp, by simp, by simp, by simp, by simp, fun hw => ?_, fun g hg hf => ?_⟩
  · cases h
    · exact ⟨hw.mem, hw.dict, hw.dictBytes, hf _ hw.bow, hw.stern⟩
    · exact ⟨hw.mem, hw.dict, hw.dictBytes, hw.bow, hf _ hw.stern⟩
  · cases h <;> cases g <;> first | exact absurd (Eq.refl _) hg | exact hf

theorem setQuay_keeps (h : Half) (n : Nat) (k : Quay) (hk : Keeps ex s0 s) : Keeps ex s0 (s.setQuay h n k) :=
  modHalf_keeps h _ hk fun _ => ⟨fun h => h, fun h => ⟨Tab.sortedFrom_set _ _ _ _ h.1, h.2⟩⟩
theorem setCtx_keeps (h : Half) (n : Nat) (k : Ctx) (hk : Keeps ex s0 s) : Keeps ex s0 (s.setCtx h n k) :=
  modHalf_keeps h _ hk fun _ => ⟨fun h => h, fun h => ⟨h.1, Tab.sortedFrom_set _ _ _ _ h.2.1, h.2.2⟩⟩
theorem setSem_keeps (h : Half) (n : Nat) (k : Sem) (hk : Keeps ex s0 s) : Keeps ex s0 (s.setSem h n k) :=
  modHalf_keeps h _ hk fun _ => ⟨fun h => h, fun h => ⟨h.1, h.2.1, Tab.sortedFrom_set _ _ _ _ h.2.2.1, h.2.2.2⟩⟩
theorem setCore_keeps (h : Half) (c : Nat) (k : CoreSt) (hk : Keeps ex s0 s) : Keeps ex s0 (s.setCore h c k) :=
  modHalf_keeps h _ hk fun _ => ⟨fun h => h, fun h => ⟨h.1, h.2.1, h.2.2.1, Tab.sortedFrom_set _ _ _ _ h.2.2.2.1, h.2.2.2.2⟩⟩
theorem setMentry_keeps (h : Half) (n : Nat) (k : MEntry) (hk : Keeps ex s0 s) : Keeps ex s0 (s.setMentry h n k) :=
  modHalf_keeps h _ hk fun _ => ⟨fun h => h, fun h => ⟨h.1, h.2.1, h.2.2.1, h.2.2.2.1, Tab.sortedFrom_set _ _ _ _ h.2.2.2.2.1, h.2.2.2.2.2⟩⟩
theorem setLink_keeps (h : Half) (p : Port) (l : Link) (hk : Keeps ex s0 s) : Keeps ex s0 (s.setLink h p l) := by
  unfold State.setLink
  cases p <;> (refine modHalf_keeps h _ hk ?_; exact fun _ => ⟨fun h => h, fun h => h⟩)

theorem advance_keeps (h : Half) (ns : Int) (hk : Keeps ex s0 s) : Keeps ex s0 (s.advance h ns) := by
  unfold State.advance
  exact modHalf_keeps h _ hk fun _ => ⟨fun h => h, fun h => h⟩

theorem atTime_keeps (h : Half) (u : Time) (hk : Keeps ex s0 s) : Keeps ex s0 (s.atTime h u) := by
  unfold State.atTime
  exact Keeps.ite (fun _ => Keeps.elsewhere (Eq.refl _) (advance_keeps _ _ (modHalf_keeps h _ hk fun _ => ⟨fun h => h, fun h => h⟩))
    ⟨fun h => h, fun h => h⟩ ⟨fun h => h, fun h => h⟩) (fun _ => hk)

theorem setNum_keeps (i j v : Nat) (hk : Keeps ex s0 s) : Keeps ex s0 (s.setNum i j v) :=
  hk.trans ⟨(Eq.refl _), (Eq.refl _), (Eq.refl _), Nat.le_refl _, List.prefix_rfl, fun h => ⟨h.mem, setNum_sorted s i j v h.dict, h.dictBytes, h.bow, h.stern⟩,
    fun _ _ h => h⟩

theorem setBytes_keeps (i j : Nat) (v : List Byte) (hk : Keeps ex s0 s) : Keeps ex s0 (s.setBytes i j v) := by
  refine hk.trans ⟨(Eq.refl _), (Eq.refl _), (Eq.refl _), Nat.le_refl _, List.prefix_rfl, fun h => ⟨h.mem, h.dict, ?_, h.bow, h.stern⟩, fun _ _ h => h⟩
  simp only [State.setBytes]
  split
  · exact Tab.sortedFrom_erase _ _ _ h.dictBytes
  · exact Tab.sortedFrom_insert _ _ _ _ h.dictBytes (by simp)

theorem bump_keeps (i j n : Nat) (hk : Keeps ex s0 s) : Keeps ex s0 (s.bump i j n) := setNum_keeps i j _ hk

theorem write_keeps (a : Nat) (bs : List Byte) (hk : Keeps ex s0 s) : Keeps ex s0 (s.write a bs) :=
  hk.trans ⟨(Eq.refl _), (Eq.refl _), (Eq.refl _), Nat.le_refl _, List.prefix_rfl, fun h => ⟨memWrite_wf _ _ _ h.mem, h.dict, h.dictBytes, h.bow, h.stern⟩,
    fun _ _ h => h⟩

theorem hostWrite_keeps (a : Nat) (bs : List Byte) (hk : Keeps ex s0 s) : Keeps ex s0 (s.hostWrite a bs) := by
  induction bs generalizing s a with
  | nil => exact hk
  | cons b bs ih =>
    exact ih _ (Keeps.elsewhere (Eq.refl _) hk ⟨fun h => h, fun h => h⟩ ⟨fun h => h, fun h => h⟩)

theorem free_keeps (hk : Keeps ex s0 s) : Keeps ex s0 s.free.2 :=
  hk.trans ⟨(Eq.refl _), (Eq.refl _), (Eq.refl _), Nat.le_succ _, List.prefix_rfl, fun h => ⟨h.mem, h.dict, h.dictBytes, h.bow, h.stern⟩, fun _ _ h => h⟩

theorem emit_keeps (x : Output) (hk : Keeps ex s0 s) : Keeps ex s0 (s.emit x) :=
  hk.trans ⟨(Eq.refl _), (Eq.refl _), (Eq.refl _), Nat.le_refl _, List.prefix_append _ _, fun h => ⟨h.mem, h.dict, h.dictBytes, h.bow, h.stern⟩, fun _ _ h => h⟩

end Sys2Proof.Machine
end

