-- ==== Sys2Proof/Laws/KeepsOps.lean ====
section
/-! SUPPORT. What no operation of Machine/Ops.lean disturbs. -/
namespace Sys2Proof.Machine

variable {ex : Option Half} {s0 s : State}

theorem msix_keeps (h : Half) (v : Nat) (hk : Keeps ex s0 s) : Keeps ex s0 (State.msix s h v) := by
  unfold State.msix
  repeat' first
    | with_reducible assumption
    | extract_lets
    | with_reducible apply emit_keeps
    | with_reducible apply modHalf_keeps
    | with_reducible refine Keeps.ite (fun _ => ?_) (fun _ => ?_)
    | with_reducible exact fun _ => ⟨fun h => h, fun h => h⟩
    | split
    | with_reducible exact Keeps.of_snd (by assumption) (by assumption)

theorem recMirrored_keeps (h : Half) (hk : Keeps ex s0 s) : Keeps ex s0 (State.recMirrored s h) := by
  unfold State.recMirrored
  repeat' first
    | with_reducible assumption
    | with_reducible apply modHalf_keeps
    | with_reducible refine Keeps.ite (fun _ => ?_) (fun _ => ?_)
    | with_reducible exact fun _ => ⟨fun h => h, fun h => h⟩
    | split
    | with_reducible exact Keeps.of_snd (by assumption) (by assumption)

theorem recWrite_keeps (h : Half) (a : RAcc) (hk : Keeps ex s0 s) : Keeps ex s0 (State.recWrite s h a) := by
  unfold State.recWrite
  repeat' first
    | with_reducible assumption
    | with_reducible apply modHalf_keeps
    | with_reducible apply msix_keeps
    | with_reducible apply recMirrored_keeps
    | with_reducible refine Keeps.ite (fun _ => ?_) (fun _ => ?_)
    | with_reducible exact fun _ => ⟨fun h => h, fun h => h⟩
    | split
    | with_reducible exact Keeps.of_snd (by assumption) (by assumption)

theorem observe_keeps (h : Half) (kind : Nat) (scope : Nat) (unit : Nat) (key : Nat) (bin : Nat) (ext : Option Int) (hk : Keeps ex s0 s) : Keeps ex s0 (State.observe s h kind scope unit key bin ext) := by
  unfold State.observe
  repeat' first
    | with_reducible assumption
    | extract_lets
    | with_reducible apply bump_keeps
    | with_reducible apply modHalf_keeps
    | with_reducible apply recWrite_keeps
    | with_reducible refine Keeps.ite (fun _ => ?_) (fun _ => ?_)
    | with_reducible refine Keeps.foldl ?_ (fun t x ht => ?_)
    | with_reducible refine Keeps.foldl_snd ?_ (fun t x ht => ?_)
    | with_reducible refine Keeps.foldl_fst ?_ (fun t x ht => ?_)
    | with_reducible refine Keeps.foldl_trd ?_ (fun t x ht => ?_)
    | with_reducible exact fun _ => ⟨fun h => h, fun h => h⟩
    | split
    | with_reducible exact Keeps.of_snd (by assumption) (by assumption)

end Sys2Proof.Machine
end

