-- ==== Sys2Proof/Laws/KeepsResetOps.lean ====
section
/-! SUPPORT. What no operation of Machine/ResetOps.lean disturbs. -/
namespace Sys2Proof.Machine

variable {ex : Option Half} {s0 s : State}

theorem clearClusters_keeps (h : Half) (hk : Keeps ex s0 s) : Keeps ex s0 (clearClusters s h) := by
  unfold clearClusters
  refine hk.trans ⟨Eq.refl _, Eq.refl _, Eq.refl _, Nat.le_refl _, List.prefix_rfl, fun h => ⟨?_, h.dict, h.dictBytes, h.bow, h.stern⟩, fun _ _ h => h⟩
  exact memClear_wf _ _ _ (memClear_wf _ _ _ h.mem)

theorem showDevicePower_keeps  (hk : Keeps ex s0 s) : Keeps ex s0 (showDevicePower s) := by
  unfold showDevicePower
  repeat' first
    | with_reducible assumption
    | extract_lets
    | with_reducible apply setNum_keeps
    | with_reducible refine Keeps.ite (fun _ => ?_) (fun _ => ?_)
    | split
    | with_reducible exact Keeps.of_snd (by assumption) (by assumption)

theorem showSignatures_keeps  (hk : Keeps ex s0 s) : Keeps ex s0 (showSignatures s) := by
  unfold showSignatures
  repeat' first
    | with_reducible assumption
    | extract_lets
    | with_reducible apply setNum_keeps
    | with_reducible refine Keeps.ite (fun _ => ?_) (fun _ => ?_)
    | split
    | with_reducible exact Keeps.of_snd (by assumption) (by assumption)

theorem ferryDown_keeps (h : Half) (hk : Keeps ex s0 s) : Keeps ex s0 (ferryDown s h) := by
  unfold ferryDown
  repeat' first
    | with_reducible assumption
    | extract_lets
    | with_reducible apply msix_keeps
    | with_reducible apply setLink_keeps
    | with_reducible refine Keeps.ite (fun _ => ?_) (fun _ => ?_)
    | split
    | with_reducible exact Keeps.of_snd (by assumption) (by assumption)

theorem resetHalf_keeps (h : Half) (hk : Keeps ex s0 s) : Keeps ex s0 (resetHalf s h) := by
  unfold resetHalf
  extract_lets
  with_reducible apply showSignatures_keeps
  with_reducible apply ferryDown_keeps
  with_reducible apply showDevicePower_keeps
  with_reducible apply clearClusters_keeps
  refine setHalf_keeps h _ ?_ ⟨fun _ => Eq.refl _, fun _ => (by decide : TablesWf halfReset)⟩
  refine hk.trans ⟨Eq.refl _, Eq.refl _, Eq.refl _, Nat.le_refl _, List.prefix_rfl, fun h => ⟨h.mem, ?_, ?_, h.bow, h.stern⟩, fun _ _ h => h⟩
  · exact Tab.sortedFrom_filter _ _ _ h.dict
  · exact Tab.sortedFrom_filter _ _ _ h.dictBytes

theorem endTrial_keeps (h : Half) (hk : Keeps ex s0 s) : Keeps ex s0 (endTrial s h) := by
  unfold endTrial
  repeat' first
    | with_reducible assumption
    | with_reducible apply resetHalf_keeps
    | with_reducible apply modHalf_keeps
    | with_reducible refine Keeps.ite (fun _ => ?_) (fun _ => ?_)
    | with_reducible exact fun _ => ⟨fun h => h, fun h => h⟩
    | split
    | with_reducible exact Keeps.of_snd (by assumption) (by assumption)

end Sys2Proof.Machine
end

