-- ==== Sys2Proof/Laws/KeepsSafeState.lean ====
section
/-! SUPPORT. What no operation of Machine/SafeState.lean disturbs. -/
namespace Sys2Proof.Machine

variable {ex : Option Half} {s0 s : State}

theorem modSafety_keeps (h : Half) (f : Safety → Safety) (hk : Keeps ex s0 s) : Keeps ex s0 (State.modSafety s h f) := by
  unfold State.modSafety
  repeat' first
    | with_reducible assumption
    | with_reducible apply modHalf_keeps
    | with_reducible refine Keeps.ite (fun _ => ?_) (fun _ => ?_)
    | with_reducible exact fun _ => ⟨fun h => h, fun h => h⟩
    | split
    | with_reducible exact Keeps.of_snd (by assumption) (by assumption)

theorem setCan_keeps (h : Half) (c : Nat) (k : Can) (hk : Keeps ex s0 s) : Keeps ex s0 (State.setCan s h c k) := by
  unfold State.setCan
  repeat' first
    | with_reducible assumption
    | with_reducible apply modHalf_keeps
    | with_reducible refine Keeps.ite (fun _ => ?_) (fun _ => ?_)
    | with_reducible exact fun _ => ⟨fun h => h, fun h => h⟩
    | exact fun x => ⟨fun h => h, fun h => TablesWf.cans (x := x) h (Tab.sortedFrom_set _ _ _ _)⟩
    | split
    | with_reducible exact Keeps.of_snd (by assumption) (by assumption)

theorem putSafeCan_keeps (h : Half) (c : Nat) (about : Half) (f : CanFrame) (hk : Keeps ex s0 s) : Keeps ex s0 (putSafeCan s h c about f) := by
  unfold putSafeCan
  repeat' first
    | with_reducible assumption
    | with_reducible apply setCan_keeps
    | with_reducible refine Keeps.ite (fun _ => ?_) (fun _ => ?_)
    | split
    | with_reducible exact Keeps.of_snd (by assumption) (by assumption)
    | with_reducible refine Keeps.elsewhere (Eq.refl _) ?_ ⟨fun h => h, fun h => h⟩ ⟨fun h => h, fun h => h⟩

theorem putSafeEth_keeps (h : Half) (bs : List Byte) (t : Time) (p : Nat) (hk : Keeps ex s0 s) : Keeps ex s0 (putSafeEth h bs t s p) := by
  unfold putSafeEth
  repeat' first
    | with_reducible assumption
    | with_reducible apply modHalf_keeps
    | with_reducible refine Keeps.ite (fun _ => ?_) (fun _ => ?_)
    | with_reducible exact fun _ => ⟨fun h => h, fun h => h⟩
    | split
    | with_reducible exact Keeps.of_snd (by assumption) (by assumption)

theorem safetyMessage_keeps (h : Half) (about : Half) (proxy : Bool) (cause : Nat) (t : Time) (hk : Keeps ex s0 s) : Keeps ex s0 (State.safetyMessage s h about proxy cause t) := by
  unfold State.safetyMessage
  repeat' first
    | with_reducible assumption
    | extract_lets
    | with_reducible apply modSafety_keeps
    | with_reducible apply putSafeCan_keeps
    | with_reducible apply putSafeEth_keeps
    | with_reducible refine Keeps.ite (fun _ => ?_) (fun _ => ?_)
    | with_reducible refine Keeps.foldl ?_ (fun t x ht => ?_)
    | with_reducible refine Keeps.foldl_snd ?_ (fun t x ht => ?_)
    | with_reducible refine Keeps.foldl_fst ?_ (fun t x ht => ?_)
    | with_reducible refine Keeps.foldl_trd ?_ (fun t x ht => ?_)
    | split
    | with_reducible exact Keeps.of_snd (by assumption) (by assumption)

theorem assertFaultN_keeps (h : Half) (hk : Keeps ex s0 s) : Keeps ex s0 (State.assertFaultN s h) := by
  unfold State.assertFaultN
  repeat' first
    | with_reducible assumption
    | with_reducible apply emit_keeps
    | with_reducible apply modHalf_keeps
    | with_reducible apply msix_keeps
    | with_reducible refine Keeps.ite (fun _ => ?_) (fun _ => ?_)
    | with_reducible exact fun _ => ⟨fun h => h, fun h => h⟩
    | with_reducible exact fun _ => ⟨fun _ => Eq.refl _, fun h => h⟩
    | split
    | with_reducible exact Keeps.of_snd (by assumption) (by assumption)

theorem enterSafe_keeps (h : Half) (cause : Nat) (hk : Keeps ex s0 s) : Keeps ex s0 (State.enterSafe s h cause) := by
  unfold State.enterSafe
  repeat' first
    | with_reducible assumption
    | extract_lets
    | with_reducible apply assertFaultN_keeps
    | with_reducible apply safetyMessage_keeps
    | with_reducible apply modHalf_keeps
    | with_reducible apply msix_keeps
    | with_reducible apply observe_keeps
    | with_reducible apply setNum_keeps
    | with_reducible apply endTrial_keeps
    | with_reducible refine Keeps.ite (fun _ => ?_) (fun _ => ?_)
    | with_reducible exact fun _ => ⟨fun h => h, fun h => h⟩
    | with_reducible exact fun _ => ⟨fun _ => Eq.refl _, fun h => h⟩
    | split
    | with_reducible exact Keeps.of_snd (by assumption) (by assumption)
    | dsimp +zetaDelta only

theorem tellPoison_keeps (g : Half) (who : Option Nat) (hk : Keeps ex s0 s) : Keeps ex s0 (State.tellPoison s g who) := by
  unfold State.tellPoison
  repeat' first
    | with_reducible assumption
    | extract_lets
    | with_reducible apply modHalf_keeps
    | with_reducible refine Keeps.ite (fun _ => ?_) (fun _ => ?_)
    | with_reducible exact fun _ => ⟨fun h => h, fun h => h⟩
    | split
    | with_reducible exact Keeps.of_snd (by assumption) (by assumption)

theorem poisonLine_keeps (g : Half) (line : Nat) (how : Nat) (hk : Keeps ex s0 s) : Keeps ex s0 (State.poisonLine s g line how) := by
  unfold State.poisonLine
  repeat' first
    | with_reducible assumption
    | extract_lets
    | with_reducible apply enterSafe_keeps
    | with_reducible apply bump_keeps
    | with_reducible apply modHalf_keeps
    | with_reducible apply observe_keeps
    | with_reducible apply setNum_keeps
    | with_reducible refine Keeps.ite (fun _ => ?_) (fun _ => ?_)
    | with_reducible exact fun _ => ⟨fun h => h, fun h => h⟩
    | split
    | with_reducible exact Keeps.of_snd (by assumption) (by assumption)
    | with_reducible refine Keeps.elsewhere (Eq.refl _) ?_ ⟨fun h => h, fun h => h⟩ ⟨fun h => h, fun h => h⟩

theorem takeCodeword_keeps (line : Nat) (e : Tab Nat) (f : Tab Nat) (hk : Keeps ex s0 s) : Keeps ex s0 (State.takeCodeword s line e f) := by
  unfold State.takeCodeword
  split
  · exact hk
  · extract_lets mem
    refine hk.trans ⟨Eq.refl _, Eq.refl _, Eq.refl _, Nat.le_refl _, List.prefix_rfl, fun h => ⟨?_, h.dict, h.dictBytes, h.bow, h.stern⟩, fun _ _ h => h⟩
    have hf : ∀ (l : List Nat) (m : Tab Byte), Memory.wf m = true → Memory.wf (l.foldl (fun m j =>
        memSet m (line + j) (memGet m (line + j) ^^^ BitVec.ofNat 8 (Tab.get 0 e j ^^^ Tab.get 0 f j))) m) = true := by
      intro l
      induction l with
      | nil => exact fun _ h => h
      | cons x l ih => exact fun m hm => ih _ (memSet_wf _ _ _ hm)
    exact hf _ _ h.mem

theorem decodeLine_keeps (g : Half) (who : Option Nat) (line : Nat) (how : Nat) (hk : Keeps ex s0 s) : Keeps ex s0 (State.decodeLine s g who line how).2 := by
  unfold State.decodeLine
  repeat' first
    | with_reducible assumption
    | extract_lets
    | with_reducible apply poisonLine_keeps
    | with_reducible apply takeCodeword_keeps
    | with_reducible apply tellPoison_keeps
    | with_reducible apply bump_keeps
    | with_reducible apply observe_keeps
    | with_reducible refine Keeps.ite (fun _ => ?_) (fun _ => ?_)
    | with_reducible refine Keeps.ite_snd (fun _ => ?_) (fun _ => ?_)
    | with_reducible refine Keeps.ite_fst (fun _ => ?_) (fun _ => ?_)
    | split
    | with_reducible exact Keeps.of_snd (by assumption) (by assumption)
    | with_reducible apply Keeps.mk_fst
    | with_reducible apply Keeps.mk_snd

theorem decodeWord_keeps (who : Option (Half × Nat)) (word : Nat) (hk : Keeps ex s0 s) : Keeps ex s0 (State.decodeWord s who word).2 := by
  unfold State.decodeWord
  repeat' first
    | with_reducible assumption
    | extract_lets
    | with_reducible apply bump_keeps
    | with_reducible apply observe_keeps
    | with_reducible refine Keeps.ite (fun _ => ?_) (fun _ => ?_)
    | with_reducible refine Keeps.ite_snd (fun _ => ?_) (fun _ => ?_)
    | with_reducible refine Keeps.ite_fst (fun _ => ?_) (fun _ => ?_)
    | split
    | with_reducible exact Keeps.of_snd (by assumption) (by assumption)
    | with_reducible apply Keeps.mk_fst
    | with_reducible apply Keeps.mk_snd
    | dsimp +zetaDelta only

theorem decodeHits_keeps (who : Option (Half × Nat)) (how : Nat) (hit : Nat → Nat → Bool) (hk : Keeps ex s0 s) : Keeps ex s0 (decodeHits s who how hit).2 := by
  unfold decodeHits
  extract_lets line r1 r2
  have hl : ∀ r l, Keeps ex s0 r.2 → Keeps ex s0 (line r l).2 := by
    intro r l hr
    simp only [line]
    split
    · split
      · exact decodeLine_keeps _ _ _ _ hr
      · exact hr
    · exact hr
  have h1 : Keeps ex s0 r1.2 := Keeps.foldl_snd hk (fun t x ht => hl _ _ ht)
  have h2 : Keeps ex s0 r2.2 := Keeps.foldl_snd h1 (fun t x ht => hl _ _ ht)
  refine Keeps.foldl_snd h2 (fun t x ht => ?_)
  split
  · exact decodeWord_keeps _ _ ht
  · exact ht

theorem poisonWrite_keeps (line : Nat) (hk : Keeps ex s0 s) : Keeps ex s0 (State.poisonWrite s line) := by
  unfold State.poisonWrite
  repeat' first
    | with_reducible assumption
    | with_reducible refine Keeps.ite (fun _ => ?_) (fun _ => ?_)
    | with_reducible refine Keeps.foldl ?_ (fun t x ht => ?_)
    | with_reducible refine Keeps.foldl_snd ?_ (fun t x ht => ?_)
    | with_reducible refine Keeps.foldl_fst ?_ (fun t x ht => ?_)
    | with_reducible refine Keeps.foldl_trd ?_ (fun t x ht => ?_)
    | split
    | with_reducible exact Keeps.of_snd (by assumption) (by assumption)
    | with_reducible refine Keeps.elsewhere (Eq.refl _) ?_ ⟨fun h => h, fun h => h⟩ ⟨fun h => h, fun h => h⟩

theorem poisonRange_keeps (a : Nat) (n : Nat) (hk : Keeps ex s0 s) : Keeps ex s0 (State.poisonRange s a n) := by
  unfold State.poisonRange
  repeat' first
    | with_reducible assumption
    | with_reducible apply poisonWrite_keeps
    | with_reducible refine Keeps.ite (fun _ => ?_) (fun _ => ?_)
    | with_reducible refine Keeps.foldl ?_ (fun t x ht => ?_)
    | with_reducible refine Keeps.foldl_snd ?_ (fun t x ht => ?_)
    | with_reducible refine Keeps.foldl_fst ?_ (fun t x ht => ?_)
    | with_reducible refine Keeps.foldl_trd ?_ (fun t x ht => ?_)
    | split
    | with_reducible exact Keeps.of_snd (by assumption) (by assumption)

theorem readCheck_keeps (a : Nat) (n : Nat) (hk : Keeps ex s0 s) : Keeps ex s0 (State.readCheck s a n).2 := by
  unfold State.readCheck
  repeat' first
    | with_reducible assumption
    | with_reducible apply decodeHits_keeps
    | with_reducible refine Keeps.ite (fun _ => ?_) (fun _ => ?_)
    | with_reducible refine Keeps.ite_snd (fun _ => ?_) (fun _ => ?_)
    | with_reducible refine Keeps.ite_fst (fun _ => ?_) (fun _ => ?_)
    | split
    | with_reducible exact Keeps.of_snd (by assumption) (by assumption)
    | with_reducible apply Keeps.mk_fst
    | with_reducible apply Keeps.mk_snd

theorem mergeWrite_keeps (a : Nat) (bs : List Byte) (hk : Keeps ex s0 s) : Keeps ex s0 (State.mergeWrite s a bs) := by
  unfold State.mergeWrite
  repeat' first
    | with_reducible assumption
    | extract_lets
    | with_reducible apply decodeHits_keeps
    | with_reducible apply write_keeps
    | with_reducible refine Keeps.ite (fun _ => ?_) (fun _ => ?_)
    | split
    | with_reducible exact Keeps.of_snd (by assumption) (by assumption)

end Sys2Proof.Machine
end

