-- ==== Sys2Proof/Laws/KeepsManifestOps.lean ====
section
/-! SUPPORT. What no operation of Machine/ManifestOps.lean disturbs. -/
namespace Sys2Proof.Machine

variable {ex : Option Half} {s0 s : State}

theorem takePages_keeps (h : Half) (c : Nat) (ps : List Nat) (hk : Keeps ex s0 s) : Keeps ex s0 (takePages s h c ps) := by
  unfold takePages
  repeat' first
    | with_reducible assumption
    | with_reducible apply modHalf_keeps
    | with_reducible refine Keeps.ite (fun _ => ?_) (fun _ => ?_)
    | with_reducible refine Keeps.foldl ?_ (fun t x ht => ?_)
    | with_reducible refine Keeps.foldl_snd ?_ (fun t x ht => ?_)
    | with_reducible refine Keeps.foldl_fst ?_ (fun t x ht => ?_)
    | with_reducible refine Keeps.foldl_trd ?_ (fun t x ht => ?_)
    | with_reducible exact fun _ => ⟨fun h => h, fun h => h⟩
    | exact fun x => ⟨fun h => h, fun h => TablesWf.pages (x := x) h (Tab.sortedFrom_foldl _ _ _ (fun _ _ => Tab.sortedFrom_set _ _ _ _))⟩
    | split
    | with_reducible exact Keeps.of_snd (by assumption) (by assumption)

theorem readSlot_keeps (h : Half) (e : MEntry) (i : Nat) (hk : Keeps ex s0 s) : Keeps ex s0 (readSlot s h e i).2 := by
  unfold readSlot
  repeat' first
    | with_reducible assumption
    | extract_lets
    | with_reducible apply readCheck_keeps
    | with_reducible refine Keeps.ite (fun _ => ?_) (fun _ => ?_)
    | with_reducible refine Keeps.ite_snd (fun _ => ?_) (fun _ => ?_)
    | with_reducible refine Keeps.ite_fst (fun _ => ?_) (fun _ => ?_)
    | split
    | with_reducible exact Keeps.of_snd (by assumption) (by assumption)
    | with_reducible apply Keeps.mk_fst
    | with_reducible apply Keeps.mk_snd

theorem modStream_keeps (h : Half) (e : Nat) (L : Nat) (f : Nat → MEntry → MEntry) (hk : Keeps ex s0 s) : Keeps ex s0 (modStream s h e L f) := by
  unfold modStream
  repeat' first
    | with_reducible assumption
    | with_reducible apply setMentry_keeps
    | with_reducible refine Keeps.ite (fun _ => ?_) (fun _ => ?_)
    | with_reducible refine Keeps.foldl ?_ (fun t x ht => ?_)
    | with_reducible refine Keeps.foldl_snd ?_ (fun t x ht => ?_)
    | with_reducible refine Keeps.foldl_fst ?_ (fun t x ht => ?_)
    | with_reducible refine Keeps.foldl_trd ?_ (fun t x ht => ?_)
    | split
    | with_reducible exact Keeps.of_snd (by assumption) (by assumption)

theorem appendPages_keeps (h : Half) (e : Nat) (L : Nat) (start : Nat) (per : Nat) (ps : List Nat) (hk : Keeps ex s0 s) : Keeps ex s0 (appendPages s h e L start per ps) := by
  unfold appendPages
  repeat' first
    | with_reducible assumption
    | with_reducible apply mergeWrite_keeps
    | with_reducible refine Keeps.ite (fun _ => ?_) (fun _ => ?_)
    | with_reducible refine Keeps.foldl ?_ (fun t x ht => ?_)
    | with_reducible refine Keeps.foldl_snd ?_ (fun t x ht => ?_)
    | with_reducible refine Keeps.foldl_fst ?_ (fun t x ht => ?_)
    | with_reducible refine Keeps.foldl_trd ?_ (fun t x ht => ?_)
    | split
    | with_reducible exact Keeps.of_snd (by assumption) (by assumption)

theorem deferPages_keeps (h : Half) (e : Nat) (ps : List Nat) (hk : Keeps ex s0 s) : Keeps ex s0 (deferPages s h e ps) := by
  unfold deferPages
  repeat' first
    | with_reducible assumption
    | extract_lets
    | with_reducible apply modHalf_keeps
    | with_reducible refine Keeps.ite (fun _ => ?_) (fun _ => ?_)
    | with_reducible exact fun _ => ⟨fun h => h, fun h => h⟩
    | split
    | with_reducible exact Keeps.of_snd (by assumption) (by assumption)

theorem trimStream_keeps (h : Half) (e : Nat) (L : Nat) (keep : Nat) (held : Nat) (hk : Keeps ex s0 s) : Keeps ex s0 (trimStream s h e L keep held) := by
  unfold trimStream
  repeat' first
    | with_reducible assumption
    | extract_lets
    | with_reducible apply deferPages_keeps
    | with_reducible apply readSlot_keeps
    | with_reducible apply mergeWrite_keeps
    | with_reducible refine Keeps.ite (fun _ => ?_) (fun _ => ?_)
    | with_reducible refine Keeps.foldl ?_ (fun t x ht => ?_)
    | with_reducible refine Keeps.foldl_snd ?_ (fun t x ht => ?_)
    | with_reducible refine Keeps.foldl_fst ?_ (fun t x ht => ?_)
    | with_reducible refine Keeps.foldl_trd ?_ (fun t x ht => ?_)
    | split
    | with_reducible exact Keeps.of_snd (by assumption) (by assumption)

theorem clearPassed_keeps (h : Half) (cause : Option Nat) (hk : Keeps ex s0 s) : Keeps ex s0 (clearPassed s h cause) := by
  unfold clearPassed
  repeat' first
    | with_reducible assumption
    | with_reducible apply modHalf_keeps
    | with_reducible refine Keeps.ite (fun _ => ?_) (fun _ => ?_)
    | with_reducible exact fun _ => ⟨fun h => h, fun h => h⟩
    | split
    | with_reducible exact Keeps.of_snd (by assumption) (by assumption)

theorem rollbackStreams_keeps (h : Half) (n : Nat) (hk : Keeps ex s0 s) : Keeps ex s0 (rollbackStreams s h n) := by
  unfold rollbackStreams
  repeat' first
    | with_reducible assumption
    | extract_lets
    | with_reducible apply modStream_keeps
    | with_reducible apply trimStream_keeps
    | with_reducible refine Keeps.ite (fun _ => ?_) (fun _ => ?_)
    | with_reducible refine Keeps.foldl ?_ (fun t x ht => ?_)
    | with_reducible refine Keeps.foldl_snd ?_ (fun t x ht => ?_)
    | with_reducible refine Keeps.foldl_fst ?_ (fun t x ht => ?_)
    | with_reducible refine Keeps.foldl_trd ?_ (fun t x ht => ?_)
    | split
    | with_reducible exact Keeps.of_snd (by assumption) (by assumption)

theorem returnPages_keeps (h : Half) (hk : Keeps ex s0 s) : Keeps ex s0 (returnPages s h) := by
  unfold returnPages
  repeat' first
    | with_reducible assumption
    | extract_lets
    | with_reducible apply clearPassed_keeps
    | with_reducible apply modHalf_keeps
    | with_reducible refine Keeps.ite (fun _ => ?_) (fun _ => ?_)
    | with_reducible refine Keeps.foldl ?_ (fun t x ht => ?_)
    | with_reducible refine Keeps.foldl_snd ?_ (fun t x ht => ?_)
    | with_reducible refine Keeps.foldl_fst ?_ (fun t x ht => ?_)
    | with_reducible refine Keeps.foldl_trd ?_ (fun t x ht => ?_)
    | with_reducible exact fun _ => ⟨fun h => h, fun h => h⟩
    | exact fun x => ⟨fun h => h, fun h => TablesWf.pages (x := x) h (Tab.sortedFrom_foldl _ _ _ (fun _ _ => Tab.sortedFrom_erase _ _ _))⟩
    | split
    | with_reducible exact Keeps.of_snd (by assumption) (by assumption)

theorem hostDiscard_keeps (h : Half) (hk : Keeps ex s0 s) : Keeps ex s0 (hostDiscard s h) := by
  unfold hostDiscard
  repeat' first
    | with_reducible assumption
    | with_reducible apply modHalf_keeps
    | with_reducible refine Keeps.ite (fun _ => ?_) (fun _ => ?_)
    | with_reducible exact fun _ => ⟨fun h => h, fun h => h⟩
    | split
    | with_reducible exact Keeps.of_snd (by assumption) (by assumption)

theorem engineWrite_keeps (h : Half) (a : Nat) (bs : List Byte) (hk : Keeps ex s0 s) : Keeps ex s0 (engineWrite s h a bs) := by
  unfold engineWrite
  repeat' first
    | with_reducible assumption
    | with_reducible apply hostDiscard_keeps
    | with_reducible apply hostWrite_keeps
    | with_reducible apply mergeWrite_keeps
    | with_reducible refine Keeps.ite (fun _ => ?_) (fun _ => ?_)
    | split
    | with_reducible exact Keeps.of_snd (by assumption) (by assumption)

theorem buildOne_keeps (h : Half) (ctx m budget dflt list cap step : Nat) (b : Build) (e : Nat) (hk : Keeps ex s0 b.s) : Keeps ex s0 (buildOne h ctx m budget dflt list cap step b e).s := by
  unfold buildOne
  extract_lets
  split
  · exact hk
  · split
    · exact hk
    · split
      · exact hk
      · split
        · exact engineWrite_keeps _ _ _ hk
        · split
          · exact engineWrite_keeps _ _ _ (modStream_keeps _ _ _ _ hk)
          · exact engineWrite_keeps _ _ _ (modStream_keeps _ _ _ _ (appendPages_keeps _ _ _ _ _ _ (takePages_keeps _ _ _ hk)))

theorem manStep_keeps (h : Half) (ctx : Option Nat) (r : Nat) (hk : Keeps ex s0 s) : Keeps ex s0 (manStep s h ctx r).1 := by
  unfold manStep
  extract_lets
  with_reducible apply Keeps.mk_fst
  with_reducible refine Keeps.foldl ?_ (fun t x ht => ?_)
  · have hb : ∀ (l : List Nat) (c1 c2 c3 c4 c5 c6 c7 : Nat) (b : Build), Keeps ex s0 b.s → Keeps ex s0 (l.foldl (buildOne h c1 c2 c3 c4 c5 c6 c7) b).s := by
      intro l
      induction l with
      | nil => exact fun _ _ _ _ _ _ _ _ h => h
      | cons x l ih => exact fun _ _ _ _ _ _ _ b h => ih _ _ _ _ _ _ _ _ (buildOne_keeps _ _ _ _ _ _ _ _ b _ h)
    have h0 := modHalf_keeps h (fun y => { y with stepNo := ((s.half h).stepNo + 1) % 2 ^ 32 }) hk fun _ => ⟨fun h => h, fun h => h⟩
    with_reducible refine Keeps.ite (fun _ => ?_) (fun _ => ?_)
    · exact hb _ _ _ _ _ _ _ _ _ h0
    · with_reducible apply engineWrite_keeps
      exact hb _ _ _ _ _ _ _ _ _ h0
  · extract_lets
    with_reducible refine Keeps.ite (fun _ => ht) (fun _ => ?_)
    with_reducible apply observe_keeps
    exact ht

theorem copyToken_keeps (h : Half) (e : Nat) (L : Nat) (m : Nat) (src : Nat) (dst : Nat) (hk : Keeps ex s0 s) : Keeps ex s0 (copyToken s h e L m src dst) := by
  unfold copyToken
  repeat' first
    | with_reducible assumption
    | extract_lets
    | with_reducible apply mergeWrite_keeps
    | with_reducible apply poisonRange_keeps
    | with_reducible apply readCheck_keeps
    | with_reducible refine Keeps.ite (fun _ => ?_) (fun _ => ?_)
    | with_reducible refine Keeps.foldl ?_ (fun t x ht => ?_)
    | with_reducible refine Keeps.foldl_snd ?_ (fun t x ht => ?_)
    | with_reducible refine Keeps.foldl_fst ?_ (fun t x ht => ?_)
    | with_reducible refine Keeps.foldl_trd ?_ (fun t x ht => ?_)
    | split
    | with_reducible exact Keeps.of_snd (by assumption) (by assumption)

theorem acceptOne_keeps (h : Half) (ctx : Option Nat) (a : Nat) (hk : Keeps ex s0 s) : Keeps ex s0 (acceptOne s h ctx a).2.2 := by
  unfold acceptOne
  repeat' first
    | with_reducible assumption
    | extract_lets
    | with_reducible apply copyToken_keeps
    | with_reducible apply engineWrite_keeps
    | with_reducible apply modStream_keeps
    | with_reducible apply trimStream_keeps
    | with_reducible refine Keeps.ite (fun _ => ?_) (fun _ => ?_)
    | with_reducible refine Keeps.ite_snd (fun _ => ?_) (fun _ => ?_)
    | with_reducible refine Keeps.ite_fst (fun _ => ?_) (fun _ => ?_)
    | with_reducible refine Keeps.foldl ?_ (fun t x ht => ?_)
    | with_reducible refine Keeps.foldl_snd ?_ (fun t x ht => ?_)
    | with_reducible refine Keeps.foldl_fst ?_ (fun t x ht => ?_)
    | with_reducible refine Keeps.foldl_trd ?_ (fun t x ht => ?_)
    | split
    | with_reducible exact Keeps.of_snd (by assumption) (by assumption)
    | with_reducible apply Keeps.mk_fst
    | with_reducible apply Keeps.mk_snd
    | dsimp +zetaDelta only

theorem manAccept_keeps (h : Half) (ctx : Option Nat) (r : Nat) (hk : Keeps ex s0 s) : Keeps ex s0 (manAccept s h ctx r).1 := by
  unfold manAccept
  repeat' first
    | with_reducible assumption
    | extract_lets
    | with_reducible apply acceptOne_keeps
    | with_reducible apply readCheck_keeps
    | with_reducible refine Keeps.ite (fun _ => ?_) (fun _ => ?_)
    | with_reducible refine Keeps.ite_snd (fun _ => ?_) (fun _ => ?_)
    | with_reducible refine Keeps.ite_fst (fun _ => ?_) (fun _ => ?_)
    | with_reducible refine Keeps.foldl ?_ (fun t x ht => ?_)
    | with_reducible refine Keeps.foldl_snd ?_ (fun t x ht => ?_)
    | with_reducible refine Keeps.foldl_fst ?_ (fun t x ht => ?_)
    | with_reducible refine Keeps.foldl_trd ?_ (fun t x ht => ?_)
    | split
    | with_reducible exact Keeps.of_snd (by assumption) (by assumption)
    | with_reducible apply Keeps.mk_fst
    | with_reducible apply Keeps.mk_snd

theorem manAnswer_keeps (op : Nat) (status : Nat) (hk : Keeps ex s0 s) : Keeps ex s0 (manAnswer s op status).1 := by
  unfold manAnswer
  repeat' first
    | with_reducible assumption
    | with_reducible refine Keeps.ite (fun _ => ?_) (fun _ => ?_)
    | with_reducible refine Keeps.ite_snd (fun _ => ?_) (fun _ => ?_)
    | with_reducible refine Keeps.ite_fst (fun _ => ?_) (fun _ => ?_)
    | split
    | with_reducible exact Keeps.of_snd (by assumption) (by assumption)
    | with_reducible apply Keeps.mk_fst
    | with_reducible apply Keeps.mk_snd

theorem manPropose_keeps (h : Half) (r : Nat) (e : Nat) (m : MEntry) (hk : Keeps ex s0 s) : Keeps ex s0 (manPropose s h r e m).1 := by
  unfold manPropose
  repeat' first
    | with_reducible assumption
    | with_reducible apply manAnswer_keeps
    | with_reducible apply modStream_keeps
    | with_reducible refine Keeps.ite (fun _ => ?_) (fun _ => ?_)
    | with_reducible refine Keeps.ite_snd (fun _ => ?_) (fun _ => ?_)
    | with_reducible refine Keeps.ite_fst (fun _ => ?_) (fun _ => ?_)
    | split
    | with_reducible exact Keeps.of_snd (by assumption) (by assumption)
    | with_reducible apply Keeps.mk_fst
    | with_reducible apply Keeps.mk_snd

theorem manAppend_keeps (h : Half) (r : Nat) (e : Nat) (m : MEntry) (hk : Keeps ex s0 s) : Keeps ex s0 (manAppend s h r e m).1 := by
  unfold manAppend
  repeat' first
    | with_reducible assumption
    | extract_lets
    | with_reducible apply appendPages_keeps
    | with_reducible apply manAnswer_keeps
    | with_reducible apply modStream_keeps
    | with_reducible apply takePages_keeps
    | with_reducible refine Keeps.ite (fun _ => ?_) (fun _ => ?_)
    | with_reducible refine Keeps.ite_snd (fun _ => ?_) (fun _ => ?_)
    | with_reducible refine Keeps.ite_fst (fun _ => ?_) (fun _ => ?_)
    | split
    | with_reducible exact Keeps.of_snd (by assumption) (by assumption)
    | with_reducible apply Keeps.mk_fst
    | with_reducible apply Keeps.mk_snd

theorem manFinish_keeps (h : Half) (e : Nat) (m : MEntry) (hk : Keeps ex s0 s) : Keeps ex s0 (manFinish s h e m).1 := by
  unfold manFinish
  repeat' first
    | with_reducible assumption
    | with_reducible apply manAnswer_keeps
    | with_reducible apply modStream_keeps
    | with_reducible refine Keeps.ite (fun _ => ?_) (fun _ => ?_)
    | with_reducible refine Keeps.ite_snd (fun _ => ?_) (fun _ => ?_)
    | with_reducible refine Keeps.ite_fst (fun _ => ?_) (fun _ => ?_)
    | split
    | with_reducible exact Keeps.of_snd (by assumption) (by assumption)
    | with_reducible apply Keeps.mk_fst
    | with_reducible apply Keeps.mk_snd

theorem manResume_keeps (h : Half) (e : Nat) (m : MEntry) (hk : Keeps ex s0 s) : Keeps ex s0 (manResume s h e m).1 := by
  unfold manResume
  repeat' first
    | with_reducible assumption
    | with_reducible apply manAnswer_keeps
    | with_reducible apply modStream_keeps
    | with_reducible refine Keeps.ite (fun _ => ?_) (fun _ => ?_)
    | with_reducible refine Keeps.ite_snd (fun _ => ?_) (fun _ => ?_)
    | with_reducible refine Keeps.ite_fst (fun _ => ?_) (fun _ => ?_)
    | split
    | with_reducible exact Keeps.of_snd (by assumption) (by assumption)
    | with_reducible apply Keeps.mk_fst
    | with_reducible apply Keeps.mk_snd

theorem manRelease_keeps (h : Half) (e : Nat) (m : MEntry) (hk : Keeps ex s0 s) : Keeps ex s0 (manRelease s h e m).1 := by
  unfold manRelease
  repeat' first
    | with_reducible assumption
    | extract_lets
    | with_reducible apply clearPassed_keeps
    | with_reducible apply deferPages_keeps
    | with_reducible apply manAnswer_keeps
    | with_reducible apply modStream_keeps
    | with_reducible apply trimStream_keeps
    | with_reducible refine Keeps.ite (fun _ => ?_) (fun _ => ?_)
    | with_reducible refine Keeps.ite_snd (fun _ => ?_) (fun _ => ?_)
    | with_reducible refine Keeps.ite_fst (fun _ => ?_) (fun _ => ?_)
    | with_reducible refine Keeps.foldl ?_ (fun t x ht => ?_)
    | with_reducible refine Keeps.foldl_snd ?_ (fun t x ht => ?_)
    | with_reducible refine Keeps.foldl_fst ?_ (fun t x ht => ?_)
    | with_reducible refine Keeps.foldl_trd ?_ (fun t x ht => ?_)
    | split
    | with_reducible exact Keeps.of_snd (by assumption) (by assumption)
    | with_reducible apply Keeps.mk_fst
    | with_reducible apply Keeps.mk_snd

theorem manServe_keeps (h : Half) (ctx : Option Nat) (r : Nat) (hk : Keeps ex s0 s) : Keeps ex s0 (manServe s h ctx r).1 := by
  unfold manServe
  repeat' first
    | with_reducible assumption
    | extract_lets
    | with_reducible apply manAccept_keeps
    | with_reducible apply manAnswer_keeps
    | with_reducible apply manAppend_keeps
    | with_reducible apply manFinish_keeps
    | with_reducible apply manPropose_keeps
    | with_reducible apply manRelease_keeps
    | with_reducible apply manResume_keeps
    | with_reducible apply manStep_keeps
    | with_reducible refine Keeps.ite (fun _ => ?_) (fun _ => ?_)
    | with_reducible refine Keeps.ite_snd (fun _ => ?_) (fun _ => ?_)
    | with_reducible refine Keeps.ite_fst (fun _ => ?_) (fun _ => ?_)
    | split
    | with_reducible exact Keeps.of_snd (by assumption) (by assumption)
    | with_reducible apply Keeps.mk_fst
    | with_reducible apply Keeps.mk_snd
    | dsimp +zetaDelta only

theorem manRequest_keeps (h : Half) (ctx : Option Nat) (r : Nat) (hk : Keeps ex s0 s) : Keeps ex s0 (manRequest s h ctx r).2 := by
  unfold manRequest
  repeat' first
    | with_reducible assumption
    | extract_lets
    | with_reducible apply engineWrite_keeps
    | with_reducible apply manServe_keeps
    | with_reducible refine Keeps.ite (fun _ => ?_) (fun _ => ?_)
    | with_reducible refine Keeps.ite_snd (fun _ => ?_) (fun _ => ?_)
    | with_reducible refine Keeps.ite_fst (fun _ => ?_) (fun _ => ?_)
    | split
    | with_reducible exact Keeps.of_snd (by assumption) (by assumption)
    | with_reducible apply Keeps.mk_fst
    | with_reducible apply Keeps.mk_snd

end Sys2Proof.Machine
end

