-- ==== Sys2Proof/Laws/Tables.lean ====
section
/-! SUPPORT. Cores, contexts, queues, semaphores and Manifest entries after an update of one of them. -/
namespace Sys2Proof.Machine

/-- The entry written reads as written, every other of the half as before. -/
theorem core_setCore (s : State) (h : Half) (i j : Nat) (k : CoreSt) (hw : TablesWf (s.half h)) :
    (s.setCore h i k).core h j = if j = i then k else s.core h j := by
  cases h <;> exact Tab.get_set_sorted coreFree _ i j k hw.2.2.2.1

theorem core_setCore_ne (s : State) (h : Half) (i j : Nat) (k : CoreSt) (hij : j ≠ i) : (s.setCore h i k).core h j = s.core h j := by
  cases h <;> exact Tab.get_set_ne coreFree _ i j k hij

@[simp] theorem core_setCore_other (s : State) (h : Half) (i j : Nat) (k : CoreSt) : (s.setCore h i k).core h.other j = s.core h.other j := by
  cases h <;> rfl

@[simp] theorem core_setCtx (s : State) (h g : Half) (i j : Nat) (k : Ctx) : (s.setCtx h i k).core g j = s.core g j := by cases h <;> cases g <;> rfl
@[simp] theorem core_setQuay (s : State) (h g : Half) (i j : Nat) (k : Quay) : (s.setQuay h i k).core g j = s.core g j := by cases h <;> cases g <;> rfl
@[simp] theorem core_setSem (s : State) (h g : Half) (i j : Nat) (k : Sem) : (s.setSem h i k).core g j = s.core g j := by cases h <;> cases g <;> rfl
@[simp] theorem core_setMentry (s : State) (h g : Half) (i j : Nat) (k : MEntry) : (s.setMentry h i k).core g j = s.core g j := by cases h <;> cases g <;> rfl
@[simp] theorem core_setNum (s : State) (g : Half) (i j v n : Nat) : (s.setNum i j v).core g n = s.core g n := rfl
@[simp] theorem core_emit (s : State) (g : Half) (x : Output) (n : Nat) : (s.emit x).core g n = s.core g n := rfl
@[simp] theorem core_write (s : State) (g : Half) (a : Nat) (bs : List Byte) (n : Nat) : (s.write a bs).core g n = s.core g n := rfl

/-- The entry written reads as written, every other of the half as before. -/
theorem ctx_setCtx (s : State) (h : Half) (i j : Nat) (k : Ctx) (hw : TablesWf (s.half h)) :
    (s.setCtx h i k).ctx h j = if j = i then k else s.ctx h j := by
  cases h <;> exact Tab.get_set_sorted ctxReset _ i j k hw.2.1

theorem ctx_setCtx_ne (s : State) (h : Half) (i j : Nat) (k : Ctx) (hij : j ≠ i) : (s.setCtx h i k).ctx h j = s.ctx h j := by
  cases h <;> exact Tab.get_set_ne ctxReset _ i j k hij

@[simp] theorem ctx_setCtx_other (s : State) (h : Half) (i j : Nat) (k : Ctx) : (s.setCtx h i k).ctx h.other j = s.ctx h.other j := by
  cases h <;> rfl

@[simp] theorem ctx_setCore (s : State) (h g : Half) (i j : Nat) (k : CoreSt) : (s.setCore h i k).ctx g j = s.ctx g j := by cases h <;> cases g <;> rfl
@[simp] theorem ctx_setQuay (s : State) (h g : Half) (i j : Nat) (k : Quay) : (s.setQuay h i k).ctx g j = s.ctx g j := by cases h <;> cases g <;> rfl
@[simp] theorem ctx_setSem (s : State) (h g : Half) (i j : Nat) (k : Sem) : (s.setSem h i k).ctx g j = s.ctx g j := by cases h <;> cases g <;> rfl
@[simp] theorem ctx_setMentry (s : State) (h g : Half) (i j : Nat) (k : MEntry) : (s.setMentry h i k).ctx g j = s.ctx g j := by cases h <;> cases g <;> rfl
@[simp] theorem ctx_setNum (s : State) (g : Half) (i j v n : Nat) : (s.setNum i j v).ctx g n = s.ctx g n := rfl
@[simp] theorem ctx_emit (s : State) (g : Half) (x : Output) (n : Nat) : (s.emit x).ctx g n = s.ctx g n := rfl
@[simp] theorem ctx_write (s : State) (g : Half) (a : Nat) (bs : List Byte) (n : Nat) : (s.write a bs).ctx g n = s.ctx g n := rfl

/-- The entry written reads as written, every other of the half as before. -/
theorem quay_setQuay (s : State) (h : Half) (i j : Nat) (k : Quay) (hw : TablesWf (s.half h)) :
    (s.setQuay h i k).quay h j = if j = i then k else s.quay h j := by
  cases h <;> exact Tab.get_set_sorted quayReset _ i j k hw.1

theorem quay_setQuay_ne (s : State) (h : Half) (i j : Nat) (k : Quay) (hij : j ≠ i) : (s.setQuay h i k).quay h j = s.quay h j := by
  cases h <;> exact Tab.get_set_ne quayReset _ i j k hij

@[simp] theorem quay_setQuay_other (s : State) (h : Half) (i j : Nat) (k : Quay) : (s.setQuay h i k).quay h.other j = s.quay h.other j := by
  cases h <;> rfl

@[simp] theorem quay_setCore (s : State) (h g : Half) (i j : Nat) (k : CoreSt) : (s.setCore h i k).quay g j = s.quay g j := by cases h <;> cases g <;> rfl
@[simp] theorem quay_setCtx (s : State) (h g : Half) (i j : Nat) (k : Ctx) : (s.setCtx h i k).quay g j = s.quay g j := by cases h <;> cases g <;> rfl
@[simp] theorem quay_setSem (s : State) (h g : Half) (i j : Nat) (k : Sem) : (s.setSem h i k).quay g j = s.quay g j := by cases h <;> cases g <;> rfl
@[simp] theorem quay_setMentry (s : State) (h g : Half) (i j : Nat) (k : MEntry) : (s.setMentry h i k).quay g j = s.quay g j := by cases h <;> cases g <;> rfl
@[simp] theorem quay_setNum (s : State) (g : Half) (i j v n : Nat) : (s.setNum i j v).quay g n = s.quay g n := rfl
@[simp] theorem quay_emit (s : State) (g : Half) (x : Output) (n : Nat) : (s.emit x).quay g n = s.quay g n := rfl
@[simp] theorem quay_write (s : State) (g : Half) (a : Nat) (bs : List Byte) (n : Nat) : (s.write a bs).quay g n = s.quay g n := rfl

/-- The entry written reads as written, every other of the half as before. -/
theorem sem_setSem (s : State) (h : Half) (i j : Nat) (k : Sem) (hw : TablesWf (s.half h)) :
    (s.setSem h i k).sem h j = if j = i then k else s.sem h j := by
  cases h <;> exact Tab.get_set_sorted semFree _ i j k hw.2.2.1

theorem sem_setSem_ne (s : State) (h : Half) (i j : Nat) (k : Sem) (hij : j ≠ i) : (s.setSem h i k).sem h j = s.sem h j := by
  cases h <;> exact Tab.get_set_ne semFree _ i j k hij

@[simp] theorem sem_setSem_other (s : State) (h : Half) (i j : Nat) (k : Sem) : (s.setSem h i k).sem h.other j = s.sem h.other j := by
  cases h <;> rfl

@[simp] theorem sem_setCore (s : State) (h g : Half) (i j : Nat) (k : CoreSt) : (s.setCore h i k).sem g j = s.sem g j := by cases h <;> cases g <;> rfl
@[simp] theorem sem_setCtx (s : State) (h g : Half) (i j : Nat) (k : Ctx) : (s.setCtx h i k).sem g j = s.sem g j := by cases h <;> cases g <;> rfl
@[simp] theorem sem_setQuay (s : State) (h g : Half) (i j : Nat) (k : Quay) : (s.setQuay h i k).sem g j = s.sem g j := by cases h <;> cases g <;> rfl
@[simp] theorem sem_setMentry (s : State) (h g : Half) (i j : Nat) (k : MEntry) : (s.setMentry h i k).sem g j = s.sem g j := by cases h <;> cases g <;> rfl
@[simp] theorem sem_setNum (s : State) (g : Half) (i j v n : Nat) : (s.setNum i j v).sem g n = s.sem g n := rfl
@[simp] theorem sem_emit (s : State) (g : Half) (x : Output) (n : Nat) : (s.emit x).sem g n = s.sem g n := rfl
@[simp] theorem sem_write (s : State) (g : Half) (a : Nat) (bs : List Byte) (n : Nat) : (s.write a bs).sem g n = s.sem g n := rfl

/-- The entry written reads as written, every other of the half as before. -/
theorem mentry_setMentry (s : State) (h : Half) (i j : Nat) (k : MEntry) (hw : TablesWf (s.half h)) :
    (s.setMentry h i k).mentry h j = if j = i then k else s.mentry h j := by
  cases h <;> exact Tab.get_set_sorted mentryReset _ i j k hw.2.2.2.2.1

theorem mentry_setMentry_ne (s : State) (h : Half) (i j : Nat) (k : MEntry) (hij : j ≠ i) : (s.setMentry h i k).mentry h j = s.mentry h j := by
  cases h <;> exact Tab.get_set_ne mentryReset _ i j k hij

@[simp] theorem mentry_setMentry_other (s : State) (h : Half) (i j : Nat) (k : MEntry) : (s.setMentry h i k).mentry h.other j = s.mentry h.other j := by
  cases h <;> rfl

@[simp] theorem mentry_setCore (s : State) (h g : Half) (i j : Nat) (k : CoreSt) : (s.setCore h i k).mentry g j = s.mentry g j := by cases h <;> cases g <;> rfl
@[simp] theorem mentry_setCtx (s : State) (h g : Half) (i j : Nat) (k : Ctx) : (s.setCtx h i k).mentry g j = s.mentry g j := by cases h <;> cases g <;> rfl
@[simp] theorem mentry_setQuay (s : State) (h g : Half) (i j : Nat) (k : Quay) : (s.setQuay h i k).mentry g j = s.mentry g j := by cases h <;> cases g <;> rfl
@[simp] theorem mentry_setSem (s : State) (h g : Half) (i j : Nat) (k : Sem) : (s.setSem h i k).mentry g j = s.mentry g j := by cases h <;> cases g <;> rfl
@[simp] theorem mentry_setNum (s : State) (g : Half) (i j v n : Nat) : (s.setNum i j v).mentry g n = s.mentry g n := rfl
@[simp] theorem mentry_emit (s : State) (g : Half) (x : Output) (n : Nat) : (s.emit x).mentry g n = s.mentry g n := rfl
@[simp] theorem mentry_write (s : State) (g : Half) (a : Nat) (bs : List Byte) (n : Nat) : (s.write a bs).mentry g n = s.mentry g n := rfl

@[simp] theorem half_setCore_other (s : State) (h : Half) (i : Nat) (k : CoreSt) : (s.setCore h i k).half h.other = s.half h.other := by cases h <;> rfl
@[simp] theorem num_setCore (s : State) (h : Half) (i : Nat) (k : CoreSt) (a b : Nat) : (s.setCore h i k).num a b = s.num a b := by cases h <;> rfl
@[simp] theorem byte_setCore (s : State) (h : Half) (i : Nat) (k : CoreSt) (a : Nat) : (s.setCore h i k).byte a = s.byte a := by cases h <;> rfl
@[simp] theorem half_setCtx_other (s : State) (h : Half) (i : Nat) (k : Ctx) : (s.setCtx h i k).half h.other = s.half h.other := by cases h <;> rfl
@[simp] theorem num_setCtx (s : State) (h : Half) (i : Nat) (k : Ctx) (a b : Nat) : (s.setCtx h i k).num a b = s.num a b := by cases h <;> rfl
@[simp] theorem byte_setCtx (s : State) (h : Half) (i : Nat) (k : Ctx) (a : Nat) : (s.setCtx h i k).byte a = s.byte a := by cases h <;> rfl
@[simp] theorem half_setQuay_other (s : State) (h : Half) (i : Nat) (k : Quay) : (s.setQuay h i k).half h.other = s.half h.other := by cases h <;> rfl
@[simp] theorem num_setQuay (s : State) (h : Half) (i : Nat) (k : Quay) (a b : Nat) : (s.setQuay h i k).num a b = s.num a b := by cases h <;> rfl
@[simp] theorem byte_setQuay (s : State) (h : Half) (i : Nat) (k : Quay) (a : Nat) : (s.setQuay h i k).byte a = s.byte a := by cases h <;> rfl
@[simp] theorem half_setSem_other (s : State) (h : Half) (i : Nat) (k : Sem) : (s.setSem h i k).half h.other = s.half h.other := by cases h <;> rfl
@[simp] theorem num_setSem (s : State) (h : Half) (i : Nat) (k : Sem) (a b : Nat) : (s.setSem h i k).num a b = s.num a b := by cases h <;> rfl
@[simp] theorem byte_setSem (s : State) (h : Half) (i : Nat) (k : Sem) (a : Nat) : (s.setSem h i k).byte a = s.byte a := by cases h <;> rfl
@[simp] theorem half_setMentry_other (s : State) (h : Half) (i : Nat) (k : MEntry) : (s.setMentry h i k).half h.other = s.half h.other := by cases h <;> rfl
@[simp] theorem num_setMentry (s : State) (h : Half) (i : Nat) (k : MEntry) (a b : Nat) : (s.setMentry h i k).num a b = s.num a b := by cases h <;> rfl
@[simp] theorem byte_setMentry (s : State) (h : Half) (i : Nat) (k : MEntry) (a : Nat) : (s.setMentry h i k).byte a = s.byte a := by cases h <;> rfl
@[simp] theorem core_modHalf (s : State) (h g : Half) (f : HalfState → HalfState) (n : Nat) (hf : ∀ x, (f x).cores = x.cores) :
    (s.modHalf h f).core g n = s.core g n := by
  cases h <;> cases g <;> simp [State.core, State.modHalf, State.setHalf, State.half, hf]
@[simp] theorem ctx_modHalf (s : State) (h g : Half) (f : HalfState → HalfState) (n : Nat) (hf : ∀ x, (f x).ctxs = x.ctxs) :
    (s.modHalf h f).ctx g n = s.ctx g n := by
  cases h <;> cases g <;> simp [State.ctx, State.modHalf, State.setHalf, State.half, hf]
@[simp] theorem quay_modHalf (s : State) (h g : Half) (f : HalfState → HalfState) (n : Nat) (hf : ∀ x, (f x).queues = x.queues) :
    (s.modHalf h f).quay g n = s.quay g n := by
  cases h <;> cases g <;> simp [State.quay, State.modHalf, State.setHalf, State.half, hf]
@[simp] theorem sem_modHalf (s : State) (h g : Half) (f : HalfState → HalfState) (n : Nat) (hf : ∀ x, (f x).sems = x.sems) :
    (s.modHalf h f).sem g n = s.sem g n := by
  cases h <;> cases g <;> simp [State.sem, State.modHalf, State.setHalf, State.half, hf]
@[simp] theorem mentry_modHalf (s : State) (h g : Half) (f : HalfState → HalfState) (n : Nat) (hf : ∀ x, (f x).manifest = x.manifest) :
    (s.modHalf h f).mentry g n = s.mentry g n := by
  cases h <;> cases g <;> simp [State.mentry, State.modHalf, State.setHalf, State.half, hf]
@[simp] theorem half_setCore (s : State) (h : Half) (i : Nat) (k : CoreSt) :
    (s.setCore h i k).half h = { s.half h with cores := Tab.set coreFree (s.half h).cores i k } := by cases h <;> rfl
@[simp] theorem half_setCtx (s : State) (h : Half) (i : Nat) (k : Ctx) :
    (s.setCtx h i k).half h = { s.half h with ctxs := Tab.set ctxReset (s.half h).ctxs i k } := by cases h <;> rfl
@[simp] theorem half_setQuay (s : State) (h : Half) (i : Nat) (k : Quay) :
    (s.setQuay h i k).half h = { s.half h with queues := Tab.set quayReset (s.half h).queues i k } := by cases h <;> rfl
@[simp] theorem half_setSem (s : State) (h : Half) (i : Nat) (k : Sem) :
    (s.setSem h i k).half h = { s.half h with sems := Tab.set semFree (s.half h).sems i k } := by cases h <;> rfl
@[simp] theorem half_setMentry (s : State) (h : Half) (i : Nat) (k : MEntry) :
    (s.setMentry h i k).half h = { s.half h with manifest := Tab.set mentryReset (s.half h).manifest i k } := by cases h <;> rfl
theorem half_atTime_same (s : State) (h : Half) (u : Time) :
    (s.atTime h u).half h = { s.half h with tt := ((s.atTime h u).half h).tt, phase := ((s.atTime h u).half h).phase } := by
  unfold State.atTime
  dsimp only
  split
  · cases h <;> rfl
  · rfl

end Sys2Proof.Machine
end

