-- ==== Sys2Proof/Laws/Manifest.lean ====
section
/-! SUPPORT. What the operations of the Manifest engine do: entries of a stream, index slots, pages. -/
namespace Sys2Proof.Machine

/-- `t` is `s` with another Manifest in half `h`. -/
def SetManifest (s t : State) (h : Half) : Prop := t = s.modHalf h (fun x => { x with manifest := (t.half h).manifest })

theorem SetManifest.rfl' (s : State) (h : Half) : SetManifest s s h := by
  unfold SetManifest; cases h <;> rfl

theorem SetManifest.trans {s t u : State} {h : Half} (a : SetManifest s t h) (b : SetManifest t u h) : SetManifest s u h := by
  unfold SetManifest at *; rw [b, a]; cases h <;> rfl

theorem SetManifest.set {s t : State} {h : Half} (a : SetManifest s t h) (e : Nat) (x : MEntry) : SetManifest s (t.setMentry h e x) h :=
  a.trans (by unfold SetManifest; cases h <;> rfl)

theorem modStream_only (s : State) (h : Half) (e L : Nat) (f : Nat → MEntry → MEntry) : SetManifest s (modStream s h e L f) h := by
  induction L with
  | zero => exact .rfl' _ _
  | succ n ih =>
    unfold modStream at *
    rw [List.range_succ, List.foldl_append]
    exact ih.set _ _

theorem modStream_wf (s : State) (h : Half) (e L : Nat) (f : Nat → MEntry → MEntry) (hw : StoresWf s) : StoresWf (modStream s h e L f) :=
  (modStream_keeps (ex := none) h e L f Keeps.rfl).wf hw

theorem modStream_set (s : State) (h : Half) (e L : Nat) (f : Nat → MEntry → MEntry) (hw : StoresWf s) :
    StreamSet s (modStream s h e L f) h e L f := by
  induction L with
  | zero => exact ⟨fun j hj => absurd hj (Nat.not_lt_zero _), fun _ _ => rfl⟩
  | succ n ih =>
    have hs : modStream s h e (n + 1) f
        = (modStream s h e n f).setMentry h (e + n) (f n ((modStream s h e n f).mentry h (e + n))) := by
      simp only [modStream, List.range_succ, List.foldl_append, List.foldl_cons, List.foldl_nil]
    have hw' := (modStream_wf s h e n f hw).half h
    constructor
    · intro j hj
      rw [hs, mentry_setMentry _ _ _ _ _ hw']
      by_cases hjn : j = n
      · subst hjn; rw [if_pos rfl, ih.2 _ (Or.inr (Nat.le_refl _))]
      · rw [if_neg (by omega)]; exact ih.1 j (by omega)
    · intro k hk
      rw [hs, mentry_setMentry _ _ _ _ _ hw', if_neg (by omega)]
      exact ih.2 k (by omega)

/-- Reads of clean memory find nothing (R240, R249, R258). -/
theorem decodeHits_clean (s : State) (who : Option (Half × Nat)) (how : Nat) (hit : Nat → Nat → Bool) (hc : cleanMem s) :
    decodeHits s who how hit = (true, s) := by
  obtain ⟨h1, h2, h3⟩ := hc
  simp only [decodeHits, h1, h2, h3, List.foldl_nil]

theorem readCheck_clean (s : State) (a n : Nat) (hc : cleanMem s) : s.readCheck a n = (true, s) := decodeHits_clean s _ _ _ hc

theorem mergeWrite_clean (s : State) (a : Nat) (bs : List Byte) (hc : cleanMem s) : s.mergeWrite a bs = s.write a bs := by
  simp only [State.mergeWrite, decodeHits_clean s _ _ _ hc, if_true]

/-- A write of the engines to memory. -/
theorem engineWrite_mem (s : State) (h : Half) (a : Nat) (bs : List Byte) (hm : inMemory s a = true) (hc : cleanMem s) :
    engineWrite s h a bs = s.write a bs := by
  unfold engineWrite; unfold inMemory at hm
  cases hr : s.region a <;> rw [hr] at hm <;> first | exact mergeWrite_clean s a bs hc | cases hm

/-- A write of the engines changes memory only where it goes. -/
theorem engineWrite_out (s : State) (h : Half) (a b : Nat) (bs : List Byte) (hc : cleanMem s) (hb : b < a ∨ a + bs.length ≤ b) :
    (engineWrite s h a bs).byte b = s.byte b := by
  have hhost : ∀ (bs : List Byte) (a : Nat) (s : State), (s.hostWrite a bs).byte b = s.byte b := by
    intro bs
    induction bs with
    | nil => intro a s; rfl
    | cons x xs ih => intro a s; exact (ih _ _).trans rfl
  unfold engineWrite
  split
  · split
    · exact hhost _ _ _
    · unfold hostDiscard State.modHalf; cases h <;> rfl
  · rw [mergeWrite_clean s a bs hc]; exact memGet_memWrite_out _ _ _ _ hb
  · rw [mergeWrite_clean s a bs hc]; exact memGet_memWrite_out _ _ _ _ hb
  · rfl

theorem natLe_length (n v : Nat) : (natLe n v).length = n := by
  induction n generalizing v with
  | zero => rfl
  | succ n ih => simp only [natLe, List.length_cons, ih]

theorem manResp_length (a b c d e f : Nat) : (manResp a b c d e f).length = 32 := natLe_length _ _

/-- The context of a request owns the entry. -/
def ownedBy (ctx : Option Nat) (m : MEntry) : Bool :=
  match ctx with
  | none => true
  | some n => m.context == n

theorem ownedBy_iff (ctx : Option Nat) (m : MEntry) : ownedBy ctx m = true ↔ ctx = none ∨ ctx = some m.context := by
  cases ctx with
  | none => simp [ownedBy]
  | some n =>
    constructor
    · intro hx; exact Or.inr (congrArg some (eq_of_beq hx).symm)
    · rintro (hx | hx)
      · cases hx
      · cases hx; exact beq_self_eq_true _

/-- A well-formed request is carried out and answered. -/
theorem manRow_served (s : State) (h : Half) (src : Src) (ctx : Option Nat) (r : Nat) (op : Nat → Bool) (hop : op (fld r 7 0) = true)
    (hs : srcCtx s h src = some ctx) (hb : manBad s h r = false) :
    manRow s h src r op = engineWrite (manServe s h ctx r).1 h (fld r 255 208) (manServe s h ctx r).2 := by
  simp only [manRow, hop, hs, manRequest, hb]
  cases ctx <;> rfl

/-- A request on a lead of its own generation reaches its operation. -/
theorem manServe_lead (s : State) (h : Half) (ctx : Option Nat) (r : Nat) (h1 : fld r 7 0 ≠ 1) (h3 : fld r 7 0 ≠ 3)
    (hl : (s.mentry h (fld r 71 59)).layer = 0) (ho : ctx = none ∨ ctx = some (s.mentry h (fld r 71 59)).context)
    (hg : fld r 87 72 = (s.mentry h (fld r 71 59)).gen) :
    manServe s h ctx r =
      (if fld r 7 0 = 2 then manPropose s h r (fld r 71 59) (s.mentry h (fld r 71 59))
       else if fld r 7 0 = 4 then manAppend s h r (fld r 71 59) (s.mentry h (fld r 71 59))
       else if fld r 7 0 = 5 then manFinish s h (fld r 71 59) (s.mentry h (fld r 71 59))
       else if fld r 7 0 = 6 then manResume s h (fld r 71 59) (s.mentry h (fld r 71 59))
       else manRelease s h (fld r 71 59) (s.mentry h (fld r 71 59))) := by
  have ho' := (ownedBy_iff ctx (s.mentry h (fld r 71 59))).2 ho
  unfold manServe
  simp only [h1, h3, if_false, hl, hg]
  rw [if_neg (by
    rintro (hx | hx)
    · exact hx rfl
    · cases ctx with
      | none => cases hx
      | some n => simp only [ownedBy] at ho'; simp only [ho'] at hx; cases hx)]
  simp only [ne_eq, not_true_eq_false, if_false]

end Sys2Proof.Machine
end

