-- ==== Sys2Proof/Laws/Deliver.lean ====
section
/-! SUPPORT. What fetch and issue come to for a core that is ready for its next command. -/
namespace Sys2Proof.Machine

theorem Tab.mem_of_find {α : Type} (t : Tab α) (k : Nat) (v : α) (h : t.find k = some v) : (k, v) ∈ t := by
  induction t with
  | nil => simp [Tab.find] at h
  | cons p t ih =>
    obtain ⟨k', v'⟩ := p
    simp only [Tab.find] at h
    split at h
    · simp_all
    · exact List.mem_cons_of_mem _ (ih h)

theorem Tab.find_some_key {α : Type} (t : Tab α) (k : Nat) (v : α) (h : t.find k = some v) : k ∈ t.map Prod.fst := by
  have := Tab.mem_of_find t k v h
  exact List.mem_map.mpr ⟨(k, v), this, rfl⟩

/-- In memory that reads as good the reads and part writes of a command find no error. -/
theorem decodeCmd_clean (s : State) (h : Half) (c : Nat) (reads writes : List (Nat × Nat)) (hc : cleanMem s) :
    decodeCmd s h c reads writes = (true, s) := decodeHits_clean _ _ _ _ hc

/-- With every window empty there is nothing to issue. -/
theorem core_window_nil (s : State) (h : Half) (hq : ∀ p ∈ (s.half h).cores, p.2.window = []) (c : Nat) : (s.core h c).window = [] := by
  unfold State.core Tab.get
  cases e : (s.half h).cores.find c with
  | none => rfl
  | some k => exact hq (c, k) (Tab.mem_of_find _ _ _ e)

theorem issueOne_empty (s : State) (h : Half) (c : Nat) (hw : (s.core h c).window = []) : issueOne s h c = s := by
  unfold issueOne
  simp only [hw]
  split <;> rfl

theorem foldl_fixed {α β : Type} (l : List β) (f : α → β → α) (a : α) (hf : ∀ b, f a b = a) : l.foldl f a = a := by
  induction l with
  | nil => rfl
  | cons b l ih => rw [List.foldl_cons, hf, ih]

theorem issueRound_quiet (s : State) (h : Half) (hq : ∀ p ∈ (s.half h).cores, p.2.window = []) : issueRound s h = s :=
  foldl_fixed _ _ _ (fun c => issueOne_empty s h c (core_window_nil s h hq c))

/-- A round over cores of which only `c` has a command, which issues into a state where none has. -/
theorem issueRound_single (l : List Nat) (s t : State) (h : Half) (c : Nat) (hi : issueOne s h c = t)
    (hs : ∀ k, k ≠ c → (s.core h k).window = []) (ht : ∀ p ∈ (t.half h).cores, p.2.window = []) (hc : c ∈ l) :
    l.foldl (fun (s : State) c => issueOne s h c) s = t := by
  induction l with
  | nil => simp at hc
  | cons p l ih =>
    rw [List.foldl_cons]
    by_cases e : p = c
    · rw [e, hi]
      exact foldl_fixed l _ t (fun q => issueOne_empty t h q (core_window_nil t h ht q))
    · rw [issueOne_empty s h p (hs _ e)]
      refine ih ?_
      rcases List.mem_cons.mp hc with hc | hc
      · exact absurd hc.symm e
      · exact hc

theorem coreClass_le (s : State) (h : Half) (k : CoreSt) : coreClass s h k < 4 := by
  unfold coreClass
  split <;> omega

/-- Every core in use has its turn in a round. -/
theorem issueOrder_mem (s : State) (h : Half) (c : Nat) (hc : c ∈ (s.half h).cores.map Prod.fst) : c ∈ issueOrder s h := by
  obtain ⟨p, hp, rfl⟩ := List.mem_map.mp hc
  exact List.mem_flatMap.mpr ⟨coreClass s h p.2, List.mem_range.mpr (coreClass_le s h p.2),
    List.mem_map.mpr ⟨p, List.mem_filter.mpr ⟨hp, beq_self_eq_true _⟩, rfl⟩⟩

theorem core_mem (s : State) (h : Half) (c : Nat) (hc : s.core h c ≠ coreFree) : c ∈ (s.half h).cores.map Prod.fst := by
  unfold State.core Tab.get at hc
  cases e : (s.half h).cores.find c with
  | none => rw [e] at hc; exact absurd rfl hc
  | some k => exact Tab.find_some_key _ _ _ e

variable {s : State} {h : Half} {c n d : Nat}

theorem fetched_core (hr : CoreIdle s h c n d) : (fetched s h c d).core h c
    = { s.core h c with fetch := (s.core h c).fetch + cmdBytes d, window := [cmdAt s h c d] } := by
  have hw : TablesWf (s.half h) := match h, hr.tables with
    | .bow, w => w.bow
    | .stern, w => w.stern
  rw [fetched, core_setCore _ _ _ _ _ hw, if_pos rfl, core_window_nil s h hr.quiet c]
  rfl

/-- A core that is ready issues its next descriptor. -/
theorem issueOne_ready (hr : CoreReady s h c n d) :
    issueOne (fetched s h c d) h c = issueCmd (taken s h c d) h c (cmdAt s h c d) := by
  obtain ⟨h1, h2, h3⟩ := hr.running
  have hf := fetched_core hr.toCoreIdle
  have hp : pickCmd (fetched s h c d) h c = some (0, cmdAt s h c d) := by
    simp only [pickCmd, hf, List.take, List.length_cons, List.length_nil, List.range_succ, List.range_zero, List.nil_append,
      List.zip_cons_cons, List.zip_nil_left, List.find?_cons, canIssue, hr.empty, List.map_nil, List.any_nil, Bool.not_false,
      Bool.and_true, List.isEmpty_nil, beq_self_eq_true, Bool.or_true, Bool.and_false]
    simp
  simp only [issueOne, headBad, hf, hr.ctx, h1, h2, h3, hr.good, hp, Option.isNone_some, Option.isSome_none, Bool.or_self,
    Bool.false_eq_true, if_false, List.eraseIdx, taken]

/-- A core that is idle and meets a descriptor that breaks a rule ends its context. -/
theorem issueOne_bad (hr : CoreIdle s h c n d) (hb : cmdBad (fetched s h c d) h c (cmdAt s h c d) = true) :
    issueOne (fetched s h c d) h c = faultCtx (fetched s h c d) h n := by
  obtain ⟨h1, h2, h3⟩ := hr.running
  simp only [issueOne, headBad, fetched_core hr, hr.ctx, h1, h2, h3, hb, Option.isNone_some, Option.isSome_none, Bool.or_self,
    Bool.false_eq_true, if_false, if_true, Option.getD_some]

/-- Fetch of a descriptor by an idle core whose look at it leaves no command waiting anywhere: nothing more happens (R103, R107). -/
theorem deliver_single (hr : CoreIdle s h c n d) (want : Nat → Bool) (hw : want d = true) (t : State)
    (hi : issueOne (fetched s h c d) h c = t) (hq : ∀ p ∈ (t.half h).cores, p.2.window = []) :
    deliver s h c d want = t := by
  obtain ⟨h1, h2, h3⟩ := hr.running
  have hroom : ¬ (s.core h c).fetch + cmdBytes d > (s.core h c).streamLen := Nat.not_lt.mpr hr.room
  have hst : (s.ctx h n).startT.isNone = false := by
    have := hr.started
    cases e : (s.ctx h n).startT with
    | none => rw [e] at this; cases this
    | some x => rfl
  have hd : deliver s h c d want = pump (fetched s h c d) h := by
    simp only [deliver, fetchEnds, hr.code, hr.ctx, hr.noHold, h1, h3, core_window_nil s h hr.quiet c, List.any_nil, Option.isSome_none, Bool.or_self,
      Bool.false_eq_true, if_false, hw, Bool.not_true, Bool.and_false, hroom, hst, fetched, cmdAt]
  rw [hd]
  have hround : issueRound (fetched s h c d) h = t := by
    refine issueRound_single _ _ _ h c hi ?_ hq (issueOrder_mem _ _ _ (core_mem _ h c ?_))
    · intro k hk
      rw [fetched, core_setCore_ne _ _ _ _ _ hk]
      exact core_window_nil s h hr.quiet k
    · rw [fetched_core hr]
      intro e
      exact absurd (congrArg CoreSt.window e) (by simp [coreFree])
  have fuel (l : List Nat) (a : Nat) (ha : 1 ≤ a) : 1 ≤ l.foldl (· + ·) a := by
    induction l generalizing a with
    | nil => exact ha
    | cons x l ih => exact ih _ (Nat.le_trans ha (Nat.le_add_right a x))
  unfold pump
  obtain ⟨m, hm⟩ := Nat.exists_eq_add_of_le' (fuel (((fetched s h c d).half h).cores.map (fun p => p.2.window.length)) 1 (Nat.le_refl 1))
  simp only [hm, List.range_succ_eq_map, List.foldl_cons, hround]
  exact foldl_fixed _ _ _ (fun _ => issueRound_quiet _ h hq)

/-- Fetch of a descriptor by a core that is ready: the command issues, and nothing else does (R103, R107). -/
theorem deliver_ready (hr : CoreReady s h c n d) (want : Nat → Bool) (hw : want d = true)
    (hq : ∀ p ∈ ((issueCmd (taken s h c d) h c (cmdAt s h c d)).half h).cores, p.2.window = []) :
    deliver s h c d want = issueCmd (taken s h c d) h c (cmdAt s h c d) :=
  deliver_single hr.toCoreIdle want hw _ (issueOne_ready hr) hq

end Sys2Proof.Machine
end

