-- ==== Sys2Proof/Laws/Dict.lean ====
section
/-! SUPPORT. Lemmas about dictionary requests: a message reads back as it was sent, and what a served write comes to. -/
namespace Sys2Proof.Machine

theorem leNat_natLe (n v : Nat) : leNat (natLe n v) = v % 256 ^ n := by
  induction n generalizing v with
  | zero => simp [natLe, leNat, Nat.mod_one]
  | succ n ih =>
    simp only [natLe, leNat, ih, BitVec.toNat_ofNat]
    have e : 256 ^ (n + 1) = 256 * 256 ^ n := by rw [Nat.pow_succ, Nat.mul_comm]
    have e8 : (2 : Nat) ^ 8 = 256 := by decide
    rw [e, Nat.mod_mul, e8]

/-- A request that was sent whole is read back. -/
theorem parseMsg_msgBytes (op sub idx ofs : Nat) (data : List Byte) (h1 : op < 256) (h2 : sub < 256) (h3 : idx < 65536)
    (h4 : ofs < 2 ^ 32) (h5 : data.length < 65536) :
    parseMsg (msgBytes ⟨op, sub, idx, ofs, data⟩) = some ⟨op, sub, idx, ofs, data⟩ := by
  have e : msgBytes ⟨op, sub, idx, ofs, data⟩ = natLe 1 op ++ (natLe 1 sub ++ (natLe 2 idx ++ (natLe 2 0 ++
      (natLe 2 data.length ++ (natLe 4 ofs ++ data))))) := by simp [msgBytes, List.append_assoc]
  have k (a b c d f g : Byte) (i j l m n o : Byte) :
      ([a] ++ ([b] ++ ([c, d] ++ ([f, g] ++ ([i, j] ++ ([l, m, n, o] ++ data)))))) =
        a :: b :: c :: d :: f :: g :: i :: j :: l :: m :: n :: o :: data := rfl
  have w1 (v : Nat) : natLe 1 v = [BitVec.ofNat 8 v] := rfl
  have w2 (v : Nat) : natLe 2 v = [BitVec.ofNat 8 v, BitVec.ofNat 8 (v / 256)] := rfl
  have w4 (v : Nat) : natLe 4 v = [BitVec.ofNat 8 v, BitVec.ofNat 8 (v / 256), BitVec.ofNat 8 (v / 256 / 256),
    BitVec.ofNat 8 (v / 256 / 256 / 256)] := rfl
  rw [e]
  simp only [w1, w2, w4, k, parseMsg, bytesNat, List.drop_succ_cons, List.drop_zero, List.take_succ_cons, List.take_zero, leNat,
    List.length_cons, BitVec.toNat_ofNat]
  have l1 : data.length % 2 ^ 8 + 256 * (data.length / 256 % 2 ^ 8 + 256 * 0) = data.length := by omega
  have l2 : idx % 2 ^ 8 + 256 * (idx / 256 % 2 ^ 8 + 256 * 0) = idx := by omega
  have l3 : ofs % 2 ^ 8 + 256 * (ofs / 256 % 2 ^ 8 + 256 * (ofs / 256 / 256 % 2 ^ 8 + 256 * (ofs / 256 / 256 / 256 % 2 ^ 8 + 256 * 0))) = ofs := by omega
  have l4 : op % 2 ^ 8 + 256 * 0 = op := by omega
  have l5 : sub % 2 ^ 8 + 256 * 0 = sub := by omega
  rw [l1, l2, l3, l4, l5]
  simp
  omega

/-- A request that half `h` itself serves is carried out here and answered. -/
theorem takeRequest_here (s : State) (h : Half) (r : Req) (bs : List Byte) (m : Msg) (a : DAddr) (e : Entry)
    (hp : parseMsg bs = some m) (ho : 1 ≤ m.op ∧ m.op ≤ 3) (hs : Serves s h r m.idx) (he : entryAt s m.idx m.sub = some (a, e)) :
    takeRequest s h r bs = answerNow h r m (serveHere s h r m a e) := by
  have o : ¬ (m.op < 1 ∨ 3 < m.op) := by omega
  rcases hs.here with hh | hh <;>
    simp only [takeRequest, serveMsg, hs.on, hs.new, hp, he, hh, o, Bool.not_true, Bool.false_eq_true, if_false, if_true]

/-- A write of a WO entry that half `h` serves acts at once and is answered (R404). -/
theorem writeReq_wo (s : State) (h : Half) (r : Req) (idx sub ofs : Nat) (data : List Byte) (a : DAddr) (e : Entry) (p : Nat)
    (hw : Writes s h r idx sub) (he : entryAt s idx sub = some (a, e)) (he2 : entryOf idx sub = some (a, e, p)) (hacc : e.acc = .wo)
    (hv : valueOk a e ofs data = true) (hb : a.base ≠ 0x2B00 ∨ transportBit r = 0)
    (h2 : sub < 256) (h3 : idx < 65536) (h4 : ofs < 2 ^ 32) (h5 : data.length < 65536) :
    writeReq s h r idx sub ofs data
      = wrote (writeWO s h r a ofs data).2 h r idx sub ofs data (writeWO s h r a ofs data).1 := by
  have hg : (holderOf idx).getD h = h := by rcases hw.serves.here with x | x <;> rw [x] <;> rfl
  have hb' : ¬ (a.base = 0x2B00 ∧ transportBit r ≠ 0) := by
    rcases hb with x | x
    · exact fun y => x y.1
    · exact fun y => y.2 x
  unfold writeReq
  rw [writeMsg, takeRequest_here s h r _ _ a e (parseMsg_msgBytes 2 sub idx ofs data (by omega) h2 h3 h4 h5) (by simp) hw.serves he]
  simp only [serveHere, serveWrite, hacc, hg, hw.allowed, hv, hb', isString, he2, wrote, answerNow, Bool.not_true, Bool.false_eq_true,
    and_false, if_false, reduceCtorEq, or_self]

end Sys2Proof.Machine
end

