-- ==== Sys2Proof/Laws/KeepsCtxOps.lean ====
section
/-! SUPPORT. What no operation of Machine/CtxOps.lean disturbs. -/
namespace Sys2Proof.Machine

variable {ex : Option Half} {s0 s : State}

theorem semRelease_keeps (h : Half) (i : Nat) (hk : Keeps ex s0 s) : Keeps ex s0 (semRelease s h i).1 := by
  unfold semRelease
  repeat' first
    | with_reducible assumption
    | extract_lets
    | with_reducible apply setCore_keeps
    | with_reducible apply setCtx_keeps
    | with_reducible apply setSem_keeps
    | with_reducible refine Keeps.ite (fun _ => ?_) (fun _ => ?_)
    | with_reducible refine Keeps.ite_snd (fun _ => ?_) (fun _ => ?_)
    | with_reducible refine Keeps.ite_fst (fun _ => ?_) (fun _ => ?_)
    | split
    | with_reducible exact Keeps.of_snd (by assumption) (by assumption)
    | with_reducible apply Keeps.mk_fst
    | with_reducible apply Keeps.mk_snd

theorem dropCores_keeps (h : Half) (n : Nat) (hk : Keeps ex s0 s) : Keeps ex s0 (dropCores s h n) := by
  unfold dropCores
  repeat' first
    | with_reducible assumption
    | with_reducible apply modHalf_keeps
    | with_reducible refine Keeps.ite (fun _ => ?_) (fun _ => ?_)
    | with_reducible exact fun _ => ⟨fun h => h, fun h => h⟩
    | exact fun x => ⟨fun h => h, fun h => TablesWf.cores (x := x) h (Tab.sortedFrom_filter _ _ _)⟩
    | split
    | with_reducible exact Keeps.of_snd (by assumption) (by assumption)

theorem dropWaiter_keeps (h : Half) (n : Nat) (hk : Keeps ex s0 s) : Keeps ex s0 (dropWaiter s h n) := by
  unfold dropWaiter
  repeat' first
    | with_reducible assumption
    | with_reducible apply modHalf_keeps
    | with_reducible refine Keeps.ite (fun _ => ?_) (fun _ => ?_)
    | with_reducible exact fun _ => ⟨fun h => h, fun h => h⟩
    | exact fun x => ⟨fun h => h, fun h => TablesWf.sems (x := x) h (fun ht => Tab.sortedFrom_filter _ _ _ (Tab.sortedFrom_map _ _ _ (fun _ => Eq.refl _) ht))⟩
    | split
    | with_reducible exact Keeps.of_snd (by assumption) (by assumption)
    | with_reducible refine Keeps.elsewhere (Eq.refl _) ?_ ⟨fun h => h, fun h => h⟩ ⟨fun h => h, fun h => h⟩

theorem noteDeadline_keeps (h : Half) (q : Nat) (endT : Time) (deadline : Time) (hk : Keeps ex s0 s) : Keeps ex s0 (noteDeadline s h q endT deadline) := by
  unfold noteDeadline
  repeat' first
    | with_reducible assumption
    | extract_lets
    | with_reducible apply observe_keeps
    | with_reducible refine Keeps.ite (fun _ => ?_) (fun _ => ?_)
    | split
    | with_reducible exact Keeps.of_snd (by assumption) (by assumption)

theorem dropPending_keeps (handle : Nat) (seq : Nat) (hk : Keeps ex s0 s) : Keeps ex s0 (dropPending s handle seq) := by
  unfold dropPending
  repeat' first
    | with_reducible assumption
    | extract_lets
    | with_reducible apply modHalf_keeps
    | with_reducible refine Keeps.ite (fun _ => ?_) (fun _ => ?_)
    | with_reducible exact fun _ => ⟨fun h => h, fun h => h⟩
    | split
    | with_reducible exact Keeps.of_snd (by assumption) (by assumption)

theorem dropSem_keeps (h : Half) (held : Option Nat) (cls status : Nat) (hk : Keeps ex s0 s) : Keeps ex s0 (dropSem s h held cls status).1 := by
  cases held with
  | none => exact hk
  | some i => exact Keeps.ite (fun _ => semRelease_keeps _ _ hk) (fun _ => observe_keeps _ _ _ _ _ _ _ (semRelease_keeps _ _ hk))

theorem endTicketN_keeps (fuel : Nat) (h : Half) (n : Nat) (status : Nat) (hk : Keeps ex s0 s) : Keeps ex s0 (endTicketN fuel s h n status) := by
  induction fuel generalizing s n status with
  | zero => exact hk
  | succ fuel ih =>
    unfold endTicketN
    dsimp only
    split
    · exact hk
    · refine Keeps.ite (fun _ => hk) (fun _ => ?_)
      refine Keeps.foldl (clearPassed_keeps _ _ (noteDeadline_keeps _ _ _ _ (setCtx_keeps _ _ _ (modHalf_keeps _ _ (dropPending_keeps _ _ ?_) fun _ => ⟨fun h => h, fun h => h⟩)))) (fun _ _ ht => ih _ _ ht)
      have h1 := dropSem_keeps h (s.ctx h n).sem (s.ctx h n).cls status (setCtx_keeps h n { (dropWaiter (dropCores s h n) h n).ctx h n with sem := none } (dropWaiter_keeps h n (dropCores_keeps h n hk)))
      exact Keeps.ite (fun _ => rollbackStreams_keeps _ _ h1) (fun _ => h1)

theorem endTicket_keeps (h : Half) (n : Nat) (status : Nat) (hk : Keeps ex s0 s) : Keeps ex s0 (endTicket s h n status) := by
  unfold endTicket
  repeat' first
    | with_reducible assumption
    | with_reducible apply endTicketN_keeps
    | with_reducible refine Keeps.ite (fun _ => ?_) (fun _ => ?_)
    | split
    | with_reducible exact Keeps.of_snd (by assumption) (by assumption)

theorem faultCtx_keeps (h : Half) (n : Nat) (hk : Keeps ex s0 s) : Keeps ex s0 (faultCtx s h n) := by
  unfold faultCtx
  repeat' first
    | with_reducible assumption
    | with_reducible apply endTicket_keeps
    | with_reducible refine Keeps.ite (fun _ => ?_) (fun _ => ?_)
    | split
    | with_reducible exact Keeps.of_snd (by assumption) (by assumption)

theorem endUnrun_keeps (h : Half) (q : Nat) (k : Nat) (seq : Nat) (handle : Nat) (status : Nat) (deadline : Time) (notify : Bool) (part : Bool) (hk : Keeps ex s0 s) : Keeps ex s0 (endUnrun s h q k seq handle status deadline notify part) := by
  unfold endUnrun
  repeat' first
    | with_reducible assumption
    | extract_lets
    | with_reducible apply dropPending_keeps
    | with_reducible apply noteDeadline_keeps
    | with_reducible apply modHalf_keeps
    | with_reducible refine Keeps.ite (fun _ => ?_) (fun _ => ?_)
    | with_reducible exact fun _ => ⟨fun h => h, fun h => h⟩
    | split
    | with_reducible exact Keeps.of_snd (by assumption) (by assumption)

theorem writeRecord_keeps (h : Half) (q : Nat) (hk : Keeps ex s0 s) : Keeps ex s0 (writeRecord s h q) := by
  unfold writeRecord
  repeat' first
    | with_reducible assumption
    | extract_lets
    | with_reducible apply modHalf_keeps
    | with_reducible apply msix_keeps
    | with_reducible apply setCtx_keeps
    | with_reducible apply setQuay_keeps
    | with_reducible apply clearPassed_keeps
    | with_reducible apply engineWrite_keeps
    | with_reducible refine Keeps.ite (fun _ => ?_) (fun _ => ?_)
    | with_reducible exact fun _ => ⟨fun h => h, fun h => h⟩
    | split
    | with_reducible exact Keeps.of_snd (by assumption) (by assumption)
    | dsimp +zetaDelta only

theorem spill_keeps (place : Nat → Nat) (room : Nat) (bs : List Byte) (hk : Keeps ex s0 s) : Keeps ex s0 (spill s place room bs).2 := by
  unfold spill
  repeat' first
    | with_reducible assumption
    | extract_lets
    | with_reducible apply free_keeps
    | with_reducible apply write_keeps
    | with_reducible refine Keeps.ite (fun _ => ?_) (fun _ => ?_)
    | with_reducible refine Keeps.ite_snd (fun _ => ?_) (fun _ => ?_)
    | with_reducible refine Keeps.ite_fst (fun _ => ?_) (fun _ => ?_)
    | with_reducible refine Keeps.foldl ?_ (fun t x ht => ?_)
    | with_reducible refine Keeps.foldl_snd ?_ (fun t x ht => ?_)
    | with_reducible refine Keeps.foldl_fst ?_ (fun t x ht => ?_)
    | with_reducible refine Keeps.foldl_trd ?_ (fun t x ht => ?_)
    | split
    | with_reducible exact Keeps.of_snd (by assumption) (by assumption)
    | with_reducible apply Keeps.mk_fst
    | with_reducible apply Keeps.mk_snd

theorem spillSave_keeps (h : Half) (n : Nat) (bs : List Byte) (hk : Keeps ex s0 s) : Keeps ex s0 (spillSave s h n bs).2 := by
  unfold spillSave
  repeat' first
    | with_reducible assumption
    | with_reducible apply spill_keeps
    | with_reducible refine Keeps.ite (fun _ => ?_) (fun _ => ?_)
    | with_reducible refine Keeps.ite_snd (fun _ => ?_) (fun _ => ?_)
    | with_reducible refine Keeps.ite_fst (fun _ => ?_) (fun _ => ?_)
    | split
    | with_reducible exact Keeps.of_snd (by assumption) (by assumption)
    | with_reducible apply Keeps.mk_fst
    | with_reducible apply Keeps.mk_snd

theorem drainOne_keeps (h : Half) (n : Nat) (v : SavedCore) (hk : Keeps ex s0 s) : Keeps ex s0 (drainOne s h n v) := by
  unfold drainOne
  repeat' first
    | with_reducible assumption
    | extract_lets
    | with_reducible apply spillSave_keeps
    | with_reducible apply setCtx_keeps
    | with_reducible refine Keeps.ite (fun _ => ?_) (fun _ => ?_)
    | split
    | with_reducible exact Keeps.of_snd (by assumption) (by assumption)

theorem drainSets_keeps (h : Half) (n : Nat) (cl : Option Nat) (hk : Keeps ex s0 s) : Keeps ex s0 (drainSets s h n cl) := by
  unfold drainSets
  repeat' first
    | with_reducible assumption
    | with_reducible apply drainOne_keeps
    | with_reducible refine Keeps.ite (fun _ => ?_) (fun _ => ?_)
    | with_reducible refine Keeps.foldl ?_ (fun t x ht => ?_)
    | with_reducible refine Keeps.foldl_snd ?_ (fun t x ht => ?_)
    | with_reducible refine Keeps.foldl_fst ?_ (fun t x ht => ?_)
    | with_reducible refine Keeps.foldl_trd ?_ (fun t x ht => ?_)
    | split
    | with_reducible exact Keeps.of_snd (by assumption) (by assumption)

theorem unload_keeps (h : Half) (n : Nat) (runnable : Bool) (hk : Keeps ex s0 s) : Keeps ex s0 (unload s h n runnable) := by
  unfold unload
  extract_lets o s1 s2
  exact setCtx_keeps _ _ _ (drainSets_keeps _ _ _ (Keeps.skip (spillSave_keeps _ _ _ (free_keeps hk)) (Nat.le_add_right _ _)))

theorem evictRunning_keeps (h : Half) (n : Nat) (hk : Keeps ex s0 s) : Keeps ex s0 (evictRunning s h n) := by
  unfold evictRunning
  repeat' first
    | with_reducible assumption
    | extract_lets
    | with_reducible apply modHalf_keeps
    | with_reducible apply setCtx_keeps
    | with_reducible refine Keeps.ite (fun _ => ?_) (fun _ => ?_)
    | with_reducible exact fun _ => ⟨fun h => h, fun h => h⟩
    | exact fun x => ⟨fun h => h, fun h => TablesWf.cores (x := x) h (Tab.sortedFrom_map _ _ _ (fun _ => by first | exact Eq.refl _ | (split <;> exact Eq.refl _)))⟩
    | split
    | with_reducible exact Keeps.of_snd (by assumption) (by assumption)
    | with_reducible refine Keeps.elsewhere (Eq.refl _) ?_ ⟨fun h => h, fun h => h⟩ ⟨fun h => h, fun h => h⟩

theorem freeSlot_keeps (h : Half) (cls : Nat) (cl : Nat) (hk : Keeps ex s0 s) : Keeps ex s0 (freeSlot s h cls cl).2 := by
  unfold freeSlot
  repeat' first
    | with_reducible assumption
    | extract_lets
    | with_reducible apply evictRunning_keeps
    | with_reducible apply unload_keeps
    | with_reducible refine Keeps.ite (fun _ => ?_) (fun _ => ?_)
    | with_reducible refine Keeps.ite_snd (fun _ => ?_) (fun _ => ?_)
    | with_reducible refine Keeps.ite_fst (fun _ => ?_) (fun _ => ?_)
    | split
    | with_reducible exact Keeps.of_snd (by assumption) (by assumption)
    | with_reducible apply Keeps.mk_fst
    | with_reducible apply Keeps.mk_snd

theorem freeSlots_keeps (h : Half) (cls : Nat) (p : Prog) (hk : Keeps ex s0 s) : Keeps ex s0 (freeSlots s h cls p).2 := by
  unfold freeSlots
  repeat' first
    | with_reducible assumption
    | with_reducible apply freeSlot_keeps
    | with_reducible refine Keeps.ite (fun _ => ?_) (fun _ => ?_)
    | with_reducible refine Keeps.ite_snd (fun _ => ?_) (fun _ => ?_)
    | with_reducible refine Keeps.ite_fst (fun _ => ?_) (fun _ => ?_)
    | with_reducible refine Keeps.foldl ?_ (fun t x ht => ?_)
    | with_reducible refine Keeps.foldl_snd ?_ (fun t x ht => ?_)
    | with_reducible refine Keeps.foldl_fst ?_ (fun t x ht => ?_)
    | with_reducible refine Keeps.foldl_trd ?_ (fun t x ht => ?_)
    | split
    | with_reducible exact Keeps.of_snd (by assumption) (by assumption)
    | with_reducible apply Keeps.mk_fst
    | with_reducible apply Keeps.mk_snd

theorem stampRan_keeps (h : Half) (n : Nat) (hk : Keeps ex s0 s) : Keeps ex s0 (stampRan s h n) := by
  unfold stampRan
  repeat' first
    | with_reducible assumption
    | extract_lets
    | with_reducible apply modHalf_keeps
    | with_reducible apply setCtx_keeps
    | with_reducible refine Keeps.ite (fun _ => ?_) (fun _ => ?_)
    | with_reducible exact fun _ => ⟨fun h => h, fun h => h⟩
    | split
    | with_reducible exact Keeps.of_snd (by assumption) (by assumption)
    | with_reducible refine Keeps.elsewhere (Eq.refl _) ?_ ⟨fun h => h, fun h => h⟩ ⟨fun h => h, fun h => h⟩

theorem admitStream_keeps (h : Half) (n : Nat) (cls : Nat) (m : Nat) (seq : Nat) (ps : List Nat) (hk : Keeps ex s0 s) : ∀ a t, admitStream s h n cls m seq ps = some (a, t) → Keeps ex s0 t := by
  intro a t ht
  unfold admitStream at ht
  extract_lets at ht
  split at ht
  · cases ht
  · extract_lets at ht
    injection ht with ht
    injection ht with _ ht
    subst ht
    with_reducible refine Keeps.foldl ?_ (fun t x ht => ?_)
    · exact modStream_keeps _ _ _ _ hk
    · exact write_keeps _ _ ht

theorem admitAll_keeps (h : Half) (n : Nat) (cls : Nat) (m : Nat) (seq : Nat) (a : Nat) (hk : Keeps ex s0 s) : ∀ l t, admitAll s h n cls m seq a = some (l, t) → Keeps ex s0 t := by
  intro l t ht
  unfold admitAll at ht
  split at ht
  · injection ht with ht
    injection ht with _ ht
    subst ht
    exact hk
  · extract_lets at ht
    split at ht
    · cases ht
    · rename_i ps _
      have hf : ∀ (L : Nat) (is : List Nat) (r : Option (List Nat × State)), (∀ a t, r = some (a, t) → Keeps ex s0 t) →
          ∀ a t, is.foldl (fun (r : Option (List Nat × State)) i =>
            match r with
            | none => none
            | some (hs, s) => (admitStream s h n cls m seq ((ps.drop (i * L)).take L)).map (fun o => (hs ++ [o.1], o.2))) r
              = some (a, t) → Keeps ex s0 t := by
        intro L is
        induction is with
        | nil => exact fun r hr => hr
        | cons i is ih =>
          refine fun r hr => ih _ ?_
          intro a t h1
          cases r with
          | none => cases h1
          | some p =>
            obtain ⟨⟨o1, o2⟩, ho, h2⟩ := Option.map_eq_some_iff.mp h1
            injection h2 with _ h2
            subst h2
            exact admitStream_keeps _ _ _ _ _ _ (hr _ _ (Eq.refl _)) _ _ ho
      refine hf _ _ _ ?_ _ _ ht
      intro a t h1
      injection h1 with h1
      injection h1 with _ h1
      subst h1
      exact takePages_keeps _ _ _ hk

theorem resumeCtx_keeps (h : Half) (n : Nat) (hk : Keeps ex s0 s) : Keeps ex s0 (resumeCtx s h n).2 := by
  unfold resumeCtx
  repeat' first
    | with_reducible assumption
    | extract_lets
    | with_reducible apply faultCtx_keeps
    | with_reducible apply freeSlots_keeps
    | with_reducible apply setCtx_keeps
    | with_reducible refine Keeps.ite (fun _ => ?_) (fun _ => ?_)
    | with_reducible refine Keeps.ite_snd (fun _ => ?_) (fun _ => ?_)
    | with_reducible refine Keeps.ite_fst (fun _ => ?_) (fun _ => ?_)
    | split
    | with_reducible exact Keeps.of_snd (by assumption) (by assumption)
    | with_reducible apply Keeps.mk_fst
    | with_reducible apply Keeps.mk_snd
    | dsimp +zetaDelta only

theorem passOver_keeps (h : Half) (q : Nat) (cause : Option Nat) (hk : Keeps ex s0 s) : Keeps ex s0 (passOver s h q cause) := by
  unfold passOver
  repeat' first
    | with_reducible assumption
    | with_reducible apply modHalf_keeps
    | with_reducible refine Keeps.ite (fun _ => ?_) (fun _ => ?_)
    | with_reducible exact fun _ => ⟨fun h => h, fun h => h⟩
    | split
    | with_reducible exact Keeps.of_snd (by assumption) (by assumption)

theorem advanceHead_keeps (h : Half) (q : Nat) (hk : Keeps ex s0 s) : Keeps ex s0 (advanceHead s h q) := by
  unfold advanceHead
  repeat' first
    | with_reducible assumption
    | extract_lets
    | with_reducible apply setQuay_keeps
    | with_reducible refine Keeps.ite (fun _ => ?_) (fun _ => ?_)
    | split
    | with_reducible exact Keeps.of_snd (by assumption) (by assumption)

theorem takeTicket_keeps (h : Half) (q : Nat) (hk : Keeps ex s0 s) : Keeps ex s0 (takeTicket s h q).2 := by
  unfold takeTicket
  extract_lets y n x a reach o s1 tk seq handle deadline notify unrun args b s2
  refine Keeps.ite_snd (fun _ => passOver_keeps _ _ _ hk) (fun _ => ?_)
  have h1 : Keeps ex s0 s1 := by
    show Keeps ex s0 (if reach then s.readCheck a 64 else (false, s)).2
    exact Keeps.ite_snd (fun _ => readCheck_keeps _ _ hk) (fun _ => hk)
  have hu : ∀ t st, Keeps ex s0 t → Keeps ex s0 (unrun t st).2 := fun t st ht =>
    endUnrun_keeps _ _ _ _ _ _ _ _ _ (advanceHead_keeps _ _ ht)
  refine Keeps.ite_snd (fun _ => hu _ _ h1) (fun _ => Keeps.ite_snd (fun _ => hu _ _ h1) (fun _ => ?_))
  split
  · exact hu _ _ h1
  · extract_lets cores
    refine Keeps.ite_snd (fun _ => hu _ _ h1) (fun _ => Keeps.ite_snd (fun _ => hu _ _ h1) (fun _ => Keeps.ite_snd (fun _ => endUnrun_keeps _ _ _ _ _ _ _ _ _ (advanceHead_keeps _ _ h1)) (fun _ => ?_)))
    have h2 : Keeps ex s0 s2 := readCheck_keeps _ _ h1
    refine Keeps.ite_snd (fun _ => hu _ _ h2) (fun _ => ?_)
    split
    · exact passOver_keeps _ _ _ h2
    · rename_i ha
      extract_lets r
      have h3 : Keeps ex s0 r.2 := freeSlots_keeps _ _ _ (admitAll_keeps _ _ _ _ _ _ h2 _ _ ha)
      refine Keeps.ite_snd (fun _ => freeSlots_keeps _ _ _ h2) (fun _ => ?_)
      exact setCtx_keeps _ _ _ (advanceHead_keeps _ _ h3)

theorem dispatchClass_keeps (h : Half) (cls : Nat) (hk : Keeps ex s0 s) : Keeps ex s0 (dispatchClass s h cls).2 := by
  unfold dispatchClass
  repeat' first
    | with_reducible assumption
    | with_reducible apply resumeCtx_keeps
    | with_reducible apply takeTicket_keeps
    | with_reducible apply modHalf_keeps
    | with_reducible refine Keeps.ite (fun _ => ?_) (fun _ => ?_)
    | with_reducible refine Keeps.ite_snd (fun _ => ?_) (fun _ => ?_)
    | with_reducible refine Keeps.ite_fst (fun _ => ?_) (fun _ => ?_)
    | with_reducible exact fun _ => ⟨fun h => h, fun h => h⟩
    | split
    | with_reducible exact Keeps.of_snd (by assumption) (by assumption)
    | with_reducible apply Keeps.mk_fst
    | with_reducible apply Keeps.mk_snd

theorem dispatchChoice_keeps (h : Half) (hk : Keeps ex s0 s) : Keeps ex s0 (dispatchChoice s h) := by
  unfold dispatchChoice
  exact Keeps.foldl_snd hk (fun _ _ ht => Keeps.ite_snd (fun _ => ht) (fun _ => dispatchClass_keeps _ _ ht))

theorem startOnCore_keeps (h : Half) (c : Nat) (n : Nat) (tk : Ticket) (r : PerCore) (hk : Keeps ex s0 s) : Keeps ex s0 (startOnCore s h c n tk r).2 := by
  unfold startOnCore
  extract_lets
  apply setCore_keeps
  apply write_keeps
  exact (readCheck_keeps _ _ hk).trans ⟨Eq.refl _, Eq.refl _, Eq.refl _, Nat.le_refl _, List.prefix_rfl, fun h => ⟨memClear_wf _ _ _ h.mem, h.dict, h.dictBytes, h.bow, h.stern⟩, fun _ _ h => h⟩

theorem applyPending_keeps (h : Half) (n : Nat) (tk : Ticket) (hk : Keeps ex s0 s) : Keeps ex s0 (applyPending s h n tk) := by
  unfold applyPending
  repeat' first
    | with_reducible assumption
    | extract_lets
    | with_reducible apply modHalf_keeps
    | with_reducible apply setCtx_keeps
    | with_reducible refine Keeps.ite (fun _ => ?_) (fun _ => ?_)
    | with_reducible refine Keeps.foldl ?_ (fun t x ht => ?_)
    | with_reducible refine Keeps.foldl_snd ?_ (fun t x ht => ?_)
    | with_reducible refine Keeps.foldl_fst ?_ (fun t x ht => ?_)
    | with_reducible refine Keeps.foldl_trd ?_ (fun t x ht => ?_)
    | with_reducible exact fun _ => ⟨fun h => h, fun h => h⟩
    | split
    | with_reducible exact Keeps.of_snd (by assumption) (by assumption)

theorem markLate_keeps (h : Half) (c : Nat) (n : Nat) (hk : Keeps ex s0 s) : Keeps ex s0 (markLate s h c n) := by
  unfold markLate
  repeat' first
    | with_reducible assumption
    | extract_lets
    | with_reducible apply setCtx_keeps
    | with_reducible refine Keeps.ite (fun _ => ?_) (fun _ => ?_)
    | split
    | with_reducible exact Keeps.of_snd (by assumption) (by assumption)

theorem handover_keeps (h : Half) (c : Nat) (hk : Keeps ex s0 s) : Keeps ex s0 (handover s h c) := by
  unfold handover
  repeat' first
    | with_reducible assumption
    | extract_lets
    | with_reducible apply applyPending_keeps
    | with_reducible apply faultCtx_keeps
    | with_reducible apply markLate_keeps
    | with_reducible apply stampRan_keeps
    | with_reducible apply startOnCore_keeps
    | with_reducible apply setCore_keeps
    | with_reducible apply setCtx_keeps
    | with_reducible apply setNum_keeps
    | with_reducible refine Keeps.ite (fun _ => ?_) (fun _ => ?_)
    | split
    | with_reducible exact Keeps.of_snd (by assumption) (by assumption)
    | dsimp +zetaDelta only

theorem abortJudge_keeps (h : Half) (ctx : Option Nat) (r : Nat) (hk : Keeps ex s0 s) : Keeps ex s0 (abortJudge s h ctx r).2 := by
  unfold abortJudge
  repeat' first
    | with_reducible assumption
    | extract_lets
    | with_reducible apply endTicket_keeps
    | with_reducible apply readCheck_keeps
    | with_reducible apply setQuay_keeps
    | with_reducible refine Keeps.ite (fun _ => ?_) (fun _ => ?_)
    | with_reducible refine Keeps.ite_snd (fun _ => ?_) (fun _ => ?_)
    | with_reducible refine Keeps.ite_fst (fun _ => ?_) (fun _ => ?_)
    | with_reducible refine Keeps.foldl ?_ (fun t x ht => ?_)
    | with_reducible refine Keeps.foldl_snd ?_ (fun t x ht => ?_)
    | with_reducible refine Keeps.foldl_fst ?_ (fun t x ht => ?_)
    | with_reducible refine Keeps.foldl_trd ?_ (fun t x ht => ?_)
    | split
    | with_reducible exact Keeps.of_snd (by assumption) (by assumption)
    | with_reducible apply Keeps.mk_fst
    | with_reducible apply Keeps.mk_snd
    | dsimp +zetaDelta only

theorem abortRequest_keeps (h : Half) (ctx : Option Nat) (r : Nat) (hk : Keeps ex s0 s) : Keeps ex s0 (abortRequest s h ctx r).2 := by
  unfold abortRequest
  repeat' first
    | with_reducible assumption
    | extract_lets
    | with_reducible apply abortJudge_keeps
    | with_reducible apply engineWrite_keeps
    | with_reducible refine Keeps.ite (fun _ => ?_) (fun _ => ?_)
    | with_reducible refine Keeps.ite_snd (fun _ => ?_) (fun _ => ?_)
    | with_reducible refine Keeps.ite_fst (fun _ => ?_) (fun _ => ?_)
    | split
    | with_reducible exact Keeps.of_snd (by assumption) (by assumption)
    | with_reducible apply Keeps.mk_fst
    | with_reducible apply Keeps.mk_snd

theorem noteDiscard_keeps (h : Half) (key : Nat) (row : Nat) (hk : Keeps ex s0 s) : Keeps ex s0 (noteDiscard s h key row) := by
  unfold noteDiscard
  repeat' first
    | with_reducible assumption
    | with_reducible apply observe_keeps
    | with_reducible refine Keeps.ite (fun _ => ?_) (fun _ => ?_)
    | split
    | with_reducible exact Keeps.of_snd (by assumption) (by assumption)

theorem ringDoorbell_keeps (h : Half) (q : Nat) (w : Nat) (hk : Keeps ex s0 s) : Keeps ex s0 (ringDoorbell s h q w) := by
  unfold ringDoorbell
  repeat' first
    | with_reducible assumption
    | extract_lets
    | with_reducible apply noteDiscard_keeps
    | with_reducible apply setQuay_keeps
    | with_reducible refine Keeps.ite (fun _ => ?_) (fun _ => ?_)
    | split
    | with_reducible exact Keeps.of_snd (by assumption) (by assumption)

end Sys2Proof.Machine
end

