-- ==== Sys2Proof/Laws/KeepsLinkOps.lean ====
section
/-! SUPPORT. What no operation of Machine/LinkOps.lean disturbs. -/
namespace Sys2Proof.Machine

variable {ex : Option Half} {s0 s : State}

theorem putLink_keeps (h : Half) (p : Port) (l : Link) (hk : Keeps ex s0 s) : Keeps ex s0 (putLink s h p l) := by
  unfold putLink
  repeat' first
    | with_reducible assumption
    | extract_lets
    | with_reducible apply emit_keeps
    | with_reducible apply setLink_keeps
    | with_reducible refine Keeps.ite (fun _ => ?_) (fun _ => ?_)
    | with_reducible refine Keeps.foldl ?_ (fun t x ht => ?_)
    | with_reducible refine Keeps.foldl_snd ?_ (fun t x ht => ?_)
    | with_reducible refine Keeps.foldl_fst ?_ (fun t x ht => ?_)
    | with_reducible refine Keeps.foldl_trd ?_ (fun t x ht => ?_)
    | split
    | with_reducible exact Keeps.of_snd (by assumption) (by assumption)

theorem hearPartner_keeps (h : Half) (p : Port) (hk : Keeps ex s0 s) : Keeps ex s0 (hearPartner s h p) := by
  unfold hearPartner
  repeat' first
    | with_reducible assumption
    | extract_lets
    | with_reducible apply putLink_keeps
    | with_reducible refine Keeps.ite (fun _ => ?_) (fun _ => ?_)
    | split
    | with_reducible exact Keeps.of_snd (by assumption) (by assumption)

theorem freeBuffers_keeps (h : Half) (p : Port) (m : LinkMsg) (hk : Keeps ex s0 s) : Keeps ex s0 (freeBuffers s h p m) := by
  unfold freeBuffers
  repeat' first
    | with_reducible assumption
    | extract_lets
    | with_reducible apply emit_keeps
    | with_reducible apply setLink_keeps
    | with_reducible refine Keeps.ite (fun _ => ?_) (fun _ => ?_)
    | split
    | with_reducible exact Keeps.of_snd (by assumption) (by assumption)

theorem sendMsg_keeps (h : Half) (p : Port) (m : LinkMsg) (hk : Keeps ex s0 s) : Keeps ex s0 (sendMsg s h p m) := by
  unfold sendMsg
  repeat' first
    | with_reducible assumption
    | extract_lets
    | with_reducible apply putLink_keeps
    | with_reducible refine Keeps.ite (fun _ => ?_) (fun _ => ?_)
    | split
    | with_reducible exact Keeps.of_snd (by assumption) (by assumption)

theorem returnCredit_keeps (h : Half) (p : Port) (m : LinkMsg) (hk : Keeps ex s0 s) : Keeps ex s0 (returnCredit s h p m) := by
  unfold returnCredit
  repeat' first
    | with_reducible assumption
    | extract_lets
    | with_reducible apply putLink_keeps
    | with_reducible refine Keeps.ite (fun _ => ?_) (fun _ => ?_)
    | split
    | with_reducible exact Keeps.of_snd (by assumption) (by assumption)

theorem sendFerry_keeps (h : Half) (ms : List LinkMsg) (hk : Keeps ex s0 s) : Keeps ex s0 (sendFerry s h ms) := by
  unfold sendFerry
  repeat' first
    | with_reducible assumption
    | extract_lets
    | with_reducible apply putLink_keeps
    | with_reducible refine Keeps.ite (fun _ => ?_) (fun _ => ?_)
    | split
    | with_reducible exact Keeps.of_snd (by assumption) (by assumption)

theorem sendDict_keeps (h : Half) (m : DictMsg) (hk : Keeps ex s0 s) : Keeps ex s0 (sendDict s h m) := by
  unfold sendDict
  repeat' first
    | with_reducible assumption
    | with_reducible apply sendFerry_keeps
    | with_reducible refine Keeps.ite (fun _ => ?_) (fun _ => ?_)
    | split
    | with_reducible exact Keeps.of_snd (by assumption) (by assumption)

theorem sendFrameMsg_keeps (h : Half) (f : FrameMsg) (hk : Keeps ex s0 s) : Keeps ex s0 (sendFrameMsg s h f) := by
  unfold sendFrameMsg
  repeat' first
    | with_reducible assumption
    | with_reducible apply sendFerry_keeps
    | with_reducible refine Keeps.ite (fun _ => ?_) (fun _ => ?_)
    | split
    | with_reducible exact Keeps.of_snd (by assumption) (by assumption)

end Sys2Proof.Machine
end

