-- ==== Sys2Proof/Laws/KeepsUnitOps.lean ====
section
/-! SUPPORT. What no operation of Machine/UnitOps.lean disturbs. -/
namespace Sys2Proof.Machine

variable {ex : Option Half} {s0 s : State}

theorem setRoll_keeps (h : Half) (c : Nat) (r : Roll) (hk : Keeps ex s0 s) : Keeps ex s0 (State.setRoll s h c r) := by
  unfold State.setRoll
  repeat' first
    | with_reducible assumption
    | with_reducible apply modHalf_keeps
    | with_reducible apply setNum_keeps
    | with_reducible refine Keeps.ite (fun _ => ?_) (fun _ => ?_)
    | with_reducible exact fun _ => ⟨fun h => h, fun h => h⟩
    | exact fun x => ⟨fun h => h, fun h => TablesWf.roll (x := x) h (Tab.sortedFrom_set _ _ _ _)⟩
    | split
    | with_reducible exact Keeps.of_snd (by assumption) (by assumption)

theorem writeService_keeps (h : Half) (kind : Nat) (c : Nat) (spare : Nat) (pos : Nat) (t : Time) (hk : Keeps ex s0 s) : Keeps ex s0 (writeService s h kind c spare pos t) := by
  unfold writeService
  repeat' first
    | with_reducible assumption
    | with_reducible apply modHalf_keeps
    | with_reducible refine Keeps.ite (fun _ => ?_) (fun _ => ?_)
    | with_reducible exact fun _ => ⟨fun h => h, fun h => h⟩
    | split
    | with_reducible exact Keeps.of_snd (by assumption) (by assumption)

theorem compactService_keeps (h : Half) (hk : Keeps ex s0 s) : Keeps ex s0 (compactService s h) := by
  unfold compactService
  repeat' first
    | with_reducible assumption
    | extract_lets
    | with_reducible apply writeService_keeps
    | with_reducible apply modHalf_keeps
    | with_reducible refine Keeps.ite (fun _ => ?_) (fun _ => ?_)
    | with_reducible refine Keeps.foldl ?_ (fun t x ht => ?_)
    | with_reducible refine Keeps.foldl_snd ?_ (fun t x ht => ?_)
    | with_reducible refine Keeps.foldl_fst ?_ (fun t x ht => ?_)
    | with_reducible refine Keeps.foldl_trd ?_ (fun t x ht => ?_)
    | with_reducible exact fun _ => ⟨fun h => h, fun h => h⟩
    | split
    | with_reducible exact Keeps.of_snd (by assumption) (by assumption)

theorem appendService_keeps (h : Half) (kind : Nat) (c : Nat) (spare : Nat) (pos : Nat) (hk : Keeps ex s0 s) : Keeps ex s0 (appendService s h kind c spare pos) := by
  unfold appendService
  repeat' first
    | with_reducible assumption
    | extract_lets
    | with_reducible apply compactService_keeps
    | with_reducible apply writeService_keeps
    | with_reducible refine Keeps.ite (fun _ => ?_) (fun _ => ?_)
    | split
    | with_reducible exact Keeps.of_snd (by assumption) (by assumption)
    | dsimp +zetaDelta only

theorem retireCore_keeps (h : Half) (c : Nat) (hk : Keeps ex s0 s) : Keeps ex s0 (retireCore s h c) := by
  unfold retireCore
  repeat' first
    | with_reducible assumption
    | extract_lets
    | with_reducible apply setRoll_keeps
    | with_reducible apply appendService_keeps
    | with_reducible apply enterSafe_keeps
    | with_reducible apply modHalf_keeps
    | with_reducible apply setNum_keeps
    | with_reducible apply faultCtx_keeps
    | with_reducible refine Keeps.ite (fun _ => ?_) (fun _ => ?_)
    | with_reducible refine Keeps.foldl ?_ (fun t x ht => ?_)
    | with_reducible refine Keeps.foldl_snd ?_ (fun t x ht => ?_)
    | with_reducible refine Keeps.foldl_fst ?_ (fun t x ht => ?_)
    | with_reducible refine Keeps.foldl_trd ?_ (fun t x ht => ?_)
    | with_reducible exact fun _ => ⟨fun h => h, fun h => h⟩
    | exact fun x => ⟨fun h => h, fun h => TablesWf.springs (x := x) h (Tab.sortedFrom_erase _ _ _)⟩
    | split
    | with_reducible exact Keeps.of_snd (by assumption) (by assumption)
    | with_reducible refine Keeps.elsewhere (Eq.refl _) ?_ ⟨fun h => h, fun h => h⟩ ⟨fun h => h, fun h => h⟩

theorem recordMapping_keeps (h : Half) (c : Nat) (i : Nat) (q : Nat) (hk : Keeps ex s0 s) : Keeps ex s0 (recordMapping s h c i q) := by
  unfold recordMapping
  repeat' first
    | with_reducible assumption
    | extract_lets
    | with_reducible apply appendService_keeps
    | with_reducible refine Keeps.ite (fun _ => ?_) (fun _ => ?_)
    | split
    | with_reducible exact Keeps.of_snd (by assumption) (by assumption)
    | dsimp +zetaDelta only

theorem mapNow_keeps (h : Half) (c : Nat) (i : Nat) (q : Nat) (hk : Keeps ex s0 s) : Keeps ex s0 (mapNow s h c i q) := by
  unfold mapNow
  repeat' first
    | with_reducible assumption
    | extract_lets
    | with_reducible apply setRoll_keeps
    | with_reducible apply observe_keeps
    | with_reducible refine Keeps.ite (fun _ => ?_) (fun _ => ?_)
    | split
    | with_reducible exact Keeps.of_snd (by assumption) (by assumption)
    | dsimp +zetaDelta only

theorem markBad_keeps (h : Half) (c : Nat) (i : Nat) (q : Nat) (hk : Keeps ex s0 s) : Keeps ex s0 (markBad s h c i q) := by
  unfold markBad
  repeat' first
    | with_reducible assumption
    | extract_lets
    | with_reducible apply setRoll_keeps
    | with_reducible apply appendService_keeps
    | with_reducible apply observe_keeps
    | with_reducible refine Keeps.ite (fun _ => ?_) (fun _ => ?_)
    | split
    | with_reducible exact Keeps.of_snd (by assumption) (by assumption)

theorem startPass_keeps (h : Half) (c : Nat) (hk : Keeps ex s0 s) : Keeps ex s0 (startPass s h c) := by
  unfold startPass
  repeat' first
    | with_reducible assumption
    | extract_lets
    | with_reducible apply setRoll_keeps
    | with_reducible apply observe_keeps
    | with_reducible apply setNum_keeps
    | with_reducible refine Keeps.ite (fun _ => ?_) (fun _ => ?_)
    | split
    | with_reducible exact Keeps.of_snd (by assumption) (by assumption)

theorem startPasses_keeps (h : Half) (hk : Keeps ex s0 s) : Keeps ex s0 (startPasses s h) := by
  unfold startPasses
  repeat' first
    | with_reducible assumption
    | with_reducible apply startPass_keeps
    | with_reducible refine Keeps.ite (fun _ => ?_) (fun _ => ?_)
    | with_reducible refine Keeps.foldl ?_ (fun t x ht => ?_)
    | with_reducible refine Keeps.foldl_snd ?_ (fun t x ht => ?_)
    | with_reducible refine Keeps.foldl_fst ?_ (fun t x ht => ?_)
    | with_reducible refine Keeps.foldl_trd ?_ (fun t x ht => ?_)
    | split
    | with_reducible exact Keeps.of_snd (by assumption) (by assumption)

theorem stopPasses_keeps (h : Half) (hk : Keeps ex s0 s) : Keeps ex s0 (stopPasses s h) := by
  unfold stopPasses
  repeat' first
    | with_reducible assumption
    | with_reducible apply setRoll_keeps
    | with_reducible apply setNum_keeps
    | with_reducible refine Keeps.ite (fun _ => ?_) (fun _ => ?_)
    | with_reducible refine Keeps.foldl ?_ (fun t x ht => ?_)
    | with_reducible refine Keeps.foldl_snd ?_ (fun t x ht => ?_)
    | with_reducible refine Keeps.foldl_fst ?_ (fun t x ht => ?_)
    | with_reducible refine Keeps.foldl_trd ?_ (fun t x ht => ?_)
    | split
    | with_reducible exact Keeps.of_snd (by assumption) (by assumption)
    | with_reducible refine Keeps.elsewhere (Eq.refl _) ?_ ⟨fun h => h, fun h => h⟩ ⟨fun h => h, fun h => h⟩

theorem mapTestSpare_keeps (h : Half) (c : Nat) (i : Nat) (q : Nat) (hk : Keeps ex s0 s) : Keeps ex s0 (mapTestSpare s h c i q) := by
  unfold mapTestSpare
  repeat' first
    | with_reducible assumption
    | extract_lets
    | with_reducible apply setRoll_keeps
    | with_reducible apply mapNow_keeps
    | with_reducible apply startPass_keeps
    | with_reducible refine Keeps.ite (fun _ => ?_) (fun _ => ?_)
    | split
    | with_reducible exact Keeps.of_snd (by assumption) (by assumption)
    | with_reducible refine Keeps.elsewhere (Eq.refl _) ?_ ⟨fun h => h, fun h => h⟩ ⟨fun h => h, fun h => h⟩

theorem retirePosition_keeps (h : Half) (c : Nat) (q : Nat) (hk : Keeps ex s0 s) : Keeps ex s0 (retirePosition s h c q) := by
  unfold retirePosition
  repeat' first
    | with_reducible assumption
    | extract_lets
    | with_reducible apply setRoll_keeps
    | with_reducible apply mapTestSpare_keeps
    | with_reducible apply recordMapping_keeps
    | with_reducible apply retireCore_keeps
    | with_reducible refine Keeps.ite (fun _ => ?_) (fun _ => ?_)
    | split
    | with_reducible exact Keeps.of_snd (by assumption) (by assumption)

theorem promiseAnew_keeps (h : Half) (c : Nat) (i : Nat) (hk : Keeps ex s0 s) : Keeps ex s0 (promiseAnew s h c i) := by
  unfold promiseAnew
  repeat' first
    | with_reducible assumption
    | extract_lets
    | with_reducible apply setRoll_keeps
    | with_reducible apply appendService_keeps
    | with_reducible apply retireCore_keeps
    | with_reducible refine Keeps.ite (fun _ => ?_) (fun _ => ?_)
    | split
    | with_reducible exact Keeps.of_snd (by assumption) (by assumption)

theorem armMapping_keeps (h : Half) (c : Nat) (hk : Keeps ex s0 s) : Keeps ex s0 (armMapping s h c) := by
  unfold armMapping
  repeat' first
    | with_reducible assumption
    | extract_lets
    | with_reducible apply setRoll_keeps
    | with_reducible refine Keeps.ite (fun _ => ?_) (fun _ => ?_)
    | split
    | with_reducible exact Keeps.of_snd (by assumption) (by assumption)

theorem mapArmed_keeps (h : Half) (c : Nat) (hk : Keeps ex s0 s) : Keeps ex s0 (mapArmed s h c) := by
  unfold mapArmed
  repeat' first
    | with_reducible assumption
    | with_reducible apply mapNow_keeps
    | with_reducible refine Keeps.ite (fun _ => ?_) (fun _ => ?_)
    | with_reducible refine Keeps.foldl ?_ (fun t x ht => ?_)
    | with_reducible refine Keeps.foldl_snd ?_ (fun t x ht => ?_)
    | with_reducible refine Keeps.foldl_fst ?_ (fun t x ht => ?_)
    | with_reducible refine Keeps.foldl_trd ?_ (fun t x ht => ?_)
    | split
    | with_reducible exact Keeps.of_snd (by assumption) (by assumption)

theorem swapPoint_keeps (h : Half) (c : Nat) (hk : Keeps ex s0 s) : Keeps ex s0 (swapPoint s h c) := by
  unfold swapPoint
  repeat' first
    | with_reducible assumption
    | extract_lets
    | with_reducible apply setRoll_keeps
    | with_reducible apply mapArmed_keeps
    | with_reducible apply mapTestSpare_keeps
    | with_reducible refine Keeps.ite (fun _ => ?_) (fun _ => ?_)
    | split
    | with_reducible exact Keeps.of_snd (by assumption) (by assumption)

theorem showUnit_keeps (h : Half) (c : Nat) (unit : Nat) (suspect : Bool) (hk : Keeps ex s0 s) : Keeps ex s0 (showUnit s h c unit suspect) := by
  unfold showUnit
  repeat' first
    | with_reducible assumption
    | extract_lets
    | with_reducible apply setNum_keeps
    | with_reducible refine Keeps.ite (fun _ => ?_) (fun _ => ?_)
    | split
    | with_reducible exact Keeps.of_snd (by assumption) (by assumption)

theorem retireUnit_keeps (h : Half) (c : Nat) (unit : Nat) (hk : Keeps ex s0 s) : Keeps ex s0 (retireUnit s h c unit) := by
  unfold retireUnit
  repeat' first
    | with_reducible assumption
    | with_reducible apply retireCore_keeps
    | with_reducible apply retirePosition_keeps
    | with_reducible apply showUnit_keeps
    | with_reducible refine Keeps.ite (fun _ => ?_) (fun _ => ?_)
    | split
    | with_reducible exact Keeps.of_snd (by assumption) (by assumption)

theorem invalidMark_keeps (h : Half) (t : Time) (hk : Keeps ex s0 s) : Keeps ex s0 (invalidMark s h t) := by
  unfold invalidMark
  repeat' first
    | with_reducible assumption
    | with_reducible apply bump_keeps
    | with_reducible apply setNum_keeps
    | with_reducible apply sendDict_keeps
    | with_reducible refine Keeps.ite (fun _ => ?_) (fun _ => ?_)
    | split
    | with_reducible exact Keeps.of_snd (by assumption) (by assumption)

theorem setSuspect_keeps (h : Half) (key : Nat) (f : Option Nat) (hk : Keeps ex s0 s) : Keeps ex s0 (setSuspect s h key f) := by
  unfold setSuspect
  repeat' first
    | with_reducible assumption
    | with_reducible apply modHalf_keeps
    | with_reducible refine Keeps.ite (fun _ => ?_) (fun _ => ?_)
    | with_reducible exact fun _ => ⟨fun h => h, fun h => h⟩
    | split
    | with_reducible exact Keeps.of_snd (by assumption) (by assumption)

theorem disagree_keeps (h : Half) (c : Nat) (unit : Nat) (row : Nat) (hk : Keeps ex s0 s) : Keeps ex s0 (disagree s h c unit row) := by
  unfold disagree
  repeat' first
    | with_reducible assumption
    | extract_lets
    | with_reducible apply invalidMark_keeps
    | with_reducible apply retireUnit_keeps
    | with_reducible apply setSuspect_keeps
    | with_reducible apply showUnit_keeps
    | with_reducible apply observe_keeps
    | with_reducible apply setCtx_keeps
    | with_reducible refine Keeps.ite (fun _ => ?_) (fun _ => ?_)
    | split
    | with_reducible exact Keeps.of_snd (by assumption) (by assumption)
    | dsimp +zetaDelta only

theorem fabricFail_keeps (h : Half) (hk : Keeps ex s0 s) : Keeps ex s0 (fabricFail s h) := by
  unfold fabricFail
  repeat' first
    | with_reducible assumption
    | extract_lets
    | with_reducible apply invalidMark_keeps
    | with_reducible apply setSuspect_keeps
    | with_reducible apply enterSafe_keeps
    | with_reducible apply observe_keeps
    | with_reducible refine Keeps.ite (fun _ => ?_) (fun _ => ?_)
    | split
    | with_reducible exact Keeps.of_snd (by assumption) (by assumption)

theorem takeFabric_keeps (h : Half) (c : Nat) (hk : Keeps ex s0 s) : Keeps ex s0 (takeFabric s h c) := by
  unfold takeFabric
  repeat' first
    | with_reducible assumption
    | with_reducible apply fabricFail_keeps
    | with_reducible refine Keeps.ite (fun _ => ?_) (fun _ => ?_)
    | split
    | with_reducible exact Keeps.of_snd (by assumption) (by assumption)
    | with_reducible refine Keeps.elsewhere (Eq.refl _) ?_ ⟨fun h => h, fun h => h⟩ ⟨fun h => h, fun h => h⟩

theorem ageSuspects_keeps (h : Half) (hk : Keeps ex s0 s) : Keeps ex s0 (ageSuspects s h) := by
  unfold ageSuspects
  repeat' first
    | with_reducible assumption
    | extract_lets
    | with_reducible apply setSuspect_keeps
    | with_reducible apply showUnit_keeps
    | with_reducible refine Keeps.ite (fun _ => ?_) (fun _ => ?_)
    | with_reducible refine Keeps.foldl ?_ (fun t x ht => ?_)
    | with_reducible refine Keeps.foldl_snd ?_ (fun t x ht => ?_)
    | with_reducible refine Keeps.foldl_fst ?_ (fun t x ht => ?_)
    | with_reducible refine Keeps.foldl_trd ?_ (fun t x ht => ?_)
    | split
    | with_reducible exact Keeps.of_snd (by assumption) (by assumption)

end Sys2Proof.Machine
end

