-- ==== Sys2Proof/Laws/KeepsAccess.lean ====
section
/-! SUPPORT. What no operation of Machine/Access.lean disturbs. -/
namespace Sys2Proof.Machine

variable {ex : Option Half} {s0 s : State}

theorem decodeCmd_keeps (h : Half) (c : Nat) (reads : List (Nat × Nat)) (writes : List (Nat × Nat)) (hk : Keeps ex s0 s) : Keeps ex s0 (decodeCmd s h c reads writes).2 := by
  unfold decodeCmd
  repeat' first
    | with_reducible assumption
    | with_reducible apply decodeHits_keeps
    | with_reducible refine Keeps.ite (fun _ => ?_) (fun _ => ?_)
    | with_reducible refine Keeps.ite_snd (fun _ => ?_) (fun _ => ?_)
    | with_reducible refine Keeps.ite_fst (fun _ => ?_) (fun _ => ?_)
    | split
    | with_reducible exact Keeps.of_snd (by assumption) (by assumption)
    | with_reducible apply Keeps.mk_fst
    | with_reducible apply Keeps.mk_snd

theorem sendRequest_keeps (h : Half) (c : Nat) (cid : Nat) (n : Nat) (kind : XferKind) (a : Nat) (f : LinkMsg → LinkMsg) (mk : MsgKind) (lines : Nat) (hk : Keeps ex s0 s) : Keeps ex s0 (sendRequest s h c cid n kind a f mk lines) := by
  unfold sendRequest
  repeat' first
    | with_reducible assumption
    | extract_lets
    | with_reducible apply modHalf_keeps
    | with_reducible apply sendMsg_keeps
    | with_reducible refine Keeps.ite (fun _ => ?_) (fun _ => ?_)
    | with_reducible exact fun _ => ⟨fun h => h, fun h => h⟩
    | split
    | with_reducible exact Keeps.of_snd (by assumption) (by assumption)

theorem sendReads_keeps (h : Half) (c : Nat) (cid : Nat) (n : Nat) (lines : List Nat) (hk : Keeps ex s0 s) : Keeps ex s0 (sendReads s h c cid n lines) := by
  unfold sendReads
  repeat' first
    | with_reducible assumption
    | with_reducible apply sendRequest_keeps
    | with_reducible refine Keeps.ite (fun _ => ?_) (fun _ => ?_)
    | with_reducible refine Keeps.foldl ?_ (fun t x ht => ?_)
    | with_reducible refine Keeps.foldl_snd ?_ (fun t x ht => ?_)
    | with_reducible refine Keeps.foldl_fst ?_ (fun t x ht => ?_)
    | with_reducible refine Keeps.foldl_trd ?_ (fun t x ht => ?_)
    | split
    | with_reducible exact Keeps.of_snd (by assumption) (by assumption)

theorem sendWrite_keeps (h : Half) (c : Nat) (cid : Nat) (n : Nat) (a : Nat) (bs : List Byte) (hk : Keeps ex s0 s) : Keeps ex s0 (sendWrite s h c cid n a bs) := by
  unfold sendWrite
  repeat' first
    | with_reducible assumption
    | extract_lets
    | with_reducible apply sendRequest_keeps
    | with_reducible refine Keeps.ite (fun _ => ?_) (fun _ => ?_)
    | with_reducible refine Keeps.foldl ?_ (fun t x ht => ?_)
    | with_reducible refine Keeps.foldl_snd ?_ (fun t x ht => ?_)
    | with_reducible refine Keeps.foldl_fst ?_ (fun t x ht => ?_)
    | with_reducible refine Keeps.foldl_trd ?_ (fun t x ht => ?_)
    | split
    | with_reducible exact Keeps.of_snd (by assumption) (by assumption)

theorem cmdWrite_keeps (h : Half) (c : Nat) (cid : Nat) (n : Nat) (a : Nat) (bs : List Byte) (hk : Keeps ex s0 s) : Keeps ex s0 (cmdWrite s h c cid n a bs) := by
  unfold cmdWrite
  repeat' first
    | with_reducible assumption
    | with_reducible apply sendWrite_keeps
    | with_reducible apply write_keeps
    | with_reducible apply engineWrite_keeps
    | with_reducible refine Keeps.ite (fun _ => ?_) (fun _ => ?_)
    | split
    | with_reducible exact Keeps.of_snd (by assumption) (by assumption)

theorem ctlWrite_keeps (h : Half) (n : Nat) (o : Nat) (bs : List Byte) (hk : Keeps ex s0 s) : Keeps ex s0 (ctlWrite s h n o bs).2 := by
  unfold ctlWrite
  repeat' first
    | with_reducible assumption
    | extract_lets
    | with_reducible apply abortRequest_keeps
    | with_reducible apply manRequest_keeps
    | with_reducible apply noteDiscard_keeps
    | with_reducible apply ringDoorbell_keeps
    | with_reducible refine Keeps.ite (fun _ => ?_) (fun _ => ?_)
    | with_reducible refine Keeps.ite_snd (fun _ => ?_) (fun _ => ?_)
    | with_reducible refine Keeps.ite_fst (fun _ => ?_) (fun _ => ?_)
    | split
    | with_reducible exact Keeps.of_snd (by assumption) (by assumption)
    | with_reducible apply Keeps.mk_fst
    | with_reducible apply Keeps.mk_snd

theorem ctlWrites_keeps (h : Half) (n : Nat) (o : Nat) (bs : List Byte) (hk : Keeps ex s0 s) : Keeps ex s0 (ctlWrites s h n o bs).2 := by
  unfold ctlWrites
  repeat' first
    | with_reducible assumption
    | with_reducible apply ctlWrite_keeps
    | with_reducible refine Keeps.ite (fun _ => ?_) (fun _ => ?_)
    | with_reducible refine Keeps.ite_snd (fun _ => ?_) (fun _ => ?_)
    | with_reducible refine Keeps.ite_fst (fun _ => ?_) (fun _ => ?_)
    | with_reducible refine Keeps.foldl ?_ (fun t x ht => ?_)
    | with_reducible refine Keeps.foldl_snd ?_ (fun t x ht => ?_)
    | with_reducible refine Keeps.foldl_fst ?_ (fun t x ht => ?_)
    | with_reducible refine Keeps.foldl_trd ?_ (fun t x ht => ?_)
    | split
    | with_reducible exact Keeps.of_snd (by assumption) (by assumption)
    | with_reducible apply Keeps.mk_fst
    | with_reducible apply Keeps.mk_snd

end Sys2Proof.Machine
end

