-- ==== Sys2Proof/Laws/KeepsCmdBase.lean ====
section
/-! SUPPORT. What no operation of Machine/CmdBase.lean disturbs. -/
namespace Sys2Proof.Machine

variable {ex : Option Half} {s0 s : State}

theorem bufWrite_keeps (e : Env) (i : Nat) (o : Nat) (bs : List Byte) (hk : Keeps ex s0 s) : Keeps ex s0 (bufWrite s e i o bs) := by
  unfold bufWrite
  repeat' first
    | with_reducible assumption
    | with_reducible apply write_keeps
    | with_reducible refine Keeps.ite (fun _ => ?_) (fun _ => ?_)
    | split
    | with_reducible exact Keeps.of_snd (by assumption) (by assumption)

theorem addFlags_keeps (h : Half) (n : Nat) (st : Stat) (hk : Keeps ex s0 s) : Keeps ex s0 (addFlags s h n st) := by
  unfold addFlags
  repeat' first
    | with_reducible assumption
    | extract_lets
    | with_reducible apply setCtx_keeps
    | with_reducible refine Keeps.ite (fun _ => ?_) (fun _ => ?_)
    | split
    | with_reducible exact Keeps.of_snd (by assumption) (by assumption)

theorem markEmpty_keeps (h : Half) (n : Nat) (hk : Keeps ex s0 s) : Keeps ex s0 (markEmpty s h n) := by
  unfold markEmpty
  repeat' first
    | with_reducible assumption
    | extract_lets
    | with_reducible apply setCtx_keeps
    | with_reducible refine Keeps.ite (fun _ => ?_) (fun _ => ?_)
    | split
    | with_reducible exact Keeps.of_snd (by assumption) (by assumption)

theorem mergeStat_keeps (e : Env) (i : Nat) (tgt : Fmt) (st : Stat) (hk : Keeps ex s0 s) : Keeps ex s0 (mergeStat s e i tgt st) := by
  unfold mergeStat
  repeat' first
    | with_reducible assumption
    | extract_lets
    | with_reducible apply bufWrite_keeps
    | with_reducible apply observe_keeps
    | with_reducible refine Keeps.ite (fun _ => ?_) (fun _ => ?_)
    | split
    | with_reducible exact Keeps.of_snd (by assumption) (by assumption)
    | dsimp +zetaDelta only

end Sys2Proof.Machine
end

