-- ==== Sys2Proof/Laws/KeepsGang.lean ====
section
/-! SUPPORT. What no operation of Machine/Gang.lean disturbs. -/
namespace Sys2Proof.Machine

variable {ex : Option Half} {s0 s : State}

theorem runLoadw_keeps (e : Env) (hk : Keeps ex s0 s) : Keeps ex s0 (runLoadw s e) := by
  unfold runLoadw
  repeat' first
    | with_reducible assumption
    | extract_lets
    | with_reducible apply setCore_keeps
    | with_reducible apply armMapping_keeps
    | with_reducible refine Keeps.ite (fun _ => ?_) (fun _ => ?_)
    | split
    | with_reducible exact Keeps.of_snd (by assumption) (by assumption)

theorem runStream_keeps (e : Env) (hk : Keeps ex s0 s) : Keeps ex s0 (runStream s e) := by
  unfold runStream
  repeat' first
    | with_reducible assumption
    | extract_lets
    | with_reducible apply setCore_keeps
    | with_reducible apply swapPoint_keeps
    | with_reducible refine Keeps.ite (fun _ => ?_) (fun _ => ?_)
    | split
    | with_reducible exact Keeps.of_snd (by assumption) (by assumption)
    | with_reducible refine Keeps.elsewhere (Eq.refl _) ?_ ⟨fun h => h, fun h => h⟩ ⟨fun h => h, fun h => h⟩
    | dsimp +zetaDelta only

theorem runRequant_keeps (e : Env) (r : Run) (f : Flight) (hk : Keeps ex s0 s) : Keeps ex s0 (runRequant s e r f) := by
  unfold runRequant
  repeat' first
    | with_reducible assumption
    | extract_lets
    | with_reducible apply setCore_keeps
    | with_reducible apply addFlags_keeps
    | with_reducible apply bufWrite_keeps
    | with_reducible apply mergeStat_keeps
    | with_reducible refine Keeps.ite (fun _ => ?_) (fun _ => ?_)
    | with_reducible refine Keeps.foldl ?_ (fun t x ht => ?_)
    | with_reducible refine Keeps.foldl_snd ?_ (fun t x ht => ?_)
    | with_reducible refine Keeps.foldl_fst ?_ (fun t x ht => ?_)
    | with_reducible refine Keeps.foldl_trd ?_ (fun t x ht => ?_)
    | split
    | with_reducible exact Keeps.of_snd (by assumption) (by assumption)
    | dsimp +zetaDelta only

theorem gangClear_keeps (h : Half) (c : Nat) (hk : Keeps ex s0 s) : Keeps ex s0 (gangClear s h c) := by
  unfold gangClear
  repeat' first
    | with_reducible assumption
    | extract_lets
    | with_reducible apply setCore_keeps
    | with_reducible refine Keeps.ite (fun _ => ?_) (fun _ => ?_)
    | split
    | with_reducible exact Keeps.of_snd (by assumption) (by assumption)

theorem runConv_keeps (e : Env) (hk : Keeps ex s0 s) : Keeps ex s0 (runConv s e) := by
  unfold runConv
  repeat' first
    | with_reducible assumption
    | extract_lets
    | with_reducible apply gangClear_keeps
    | with_reducible apply addFlags_keeps
    | with_reducible apply bufWrite_keeps
    | with_reducible apply markEmpty_keeps
    | with_reducible apply mergeStat_keeps
    | with_reducible refine Keeps.ite (fun _ => ?_) (fun _ => ?_)
    | with_reducible refine Keeps.foldl ?_ (fun t x ht => ?_)
    | with_reducible refine Keeps.foldl_snd ?_ (fun t x ht => ?_)
    | with_reducible refine Keeps.foldl_fst ?_ (fun t x ht => ?_)
    | with_reducible refine Keeps.foldl_trd ?_ (fun t x ht => ?_)
    | split
    | with_reducible exact Keeps.of_snd (by assumption) (by assumption)

end Sys2Proof.Machine
end

