-- ==== Sys2Proof/Laws/KeepsImages.lean ====
section
/-! SUPPORT. What no operation of Machine/Images.lean disturbs. -/
namespace Sys2Proof.Machine

variable {ex : Option Half} {s0 s : State}

theorem moveRow_keeps (e : Env) (r : Nat × Nat × Nat) (hk : Keeps ex s0 s) : Keeps ex s0 (moveRow s e r).2 := by
  unfold moveRow
  repeat' first
    | with_reducible assumption
    | extract_lets
    | with_reducible apply write_keeps
    | with_reducible apply cmdWrite_keeps
    | with_reducible apply ctlWrites_keeps
    | with_reducible refine Keeps.ite (fun _ => ?_) (fun _ => ?_)
    | with_reducible refine Keeps.ite_snd (fun _ => ?_) (fun _ => ?_)
    | with_reducible refine Keeps.ite_fst (fun _ => ?_) (fun _ => ?_)
    | split
    | with_reducible exact Keeps.of_snd (by assumption) (by assumption)
    | with_reducible apply Keeps.mk_fst
    | with_reducible apply Keeps.mk_snd

theorem runMove_keeps (e : Env) (got : Tab Byte) (hk : Keeps ex s0 s) : Keeps ex s0 (runMove s e got).2 := by
  have hf : ∀ (l : List (Nat × Nat × Nat)) (r : (Bool × State) × Tab Byte), Keeps ex s0 r.1.2 → Keeps ex s0 (l.foldl (fun (r : (Bool × State) × Tab Byte) row =>
      if r.1.1 then r
      else (moveRow r.1.2 { e with rd := cmdByte r.1.2 e.h r.2 } row, moveGot r.1.2 { e with rd := cmdByte r.1.2 e.h r.2 } r.2 row)) r).1.2 := by
    intro l
    induction l with
    | nil => exact fun _ h => h
    | cons x l ih =>
      intro r hr
      refine ih _ ?_
      dsimp only
      split
      · exact hr
      · exact moveRow_keeps _ _ hr
  exact hf _ _ hk

theorem runCrop_keeps (e : Env) (hk : Keeps ex s0 s) : Keeps ex s0 (runCrop s e) := by
  unfold runCrop
  repeat' first
    | with_reducible assumption
    | extract_lets
    | with_reducible apply addFlags_keeps
    | with_reducible apply bufWrite_keeps
    | with_reducible refine Keeps.ite (fun _ => ?_) (fun _ => ?_)
    | with_reducible refine Keeps.foldl ?_ (fun t x ht => ?_)
    | with_reducible refine Keeps.foldl_snd ?_ (fun t x ht => ?_)
    | with_reducible refine Keeps.foldl_fst ?_ (fun t x ht => ?_)
    | with_reducible refine Keeps.foldl_trd ?_ (fun t x ht => ?_)
    | split
    | with_reducible exact Keeps.of_snd (by assumption) (by assumption)
    | dsimp +zetaDelta only

theorem runPool_keeps (e : Env) (hk : Keeps ex s0 s) : Keeps ex s0 (runPool s e) := by
  unfold runPool
  repeat' first
    | with_reducible assumption
    | extract_lets
    | with_reducible apply addFlags_keeps
    | with_reducible apply bufWrite_keeps
    | with_reducible apply markEmpty_keeps
    | with_reducible refine Keeps.ite (fun _ => ?_) (fun _ => ?_)
    | with_reducible refine Keeps.foldl ?_ (fun t x ht => ?_)
    | with_reducible refine Keeps.foldl_snd ?_ (fun t x ht => ?_)
    | with_reducible refine Keeps.foldl_fst ?_ (fun t x ht => ?_)
    | with_reducible refine Keeps.foldl_trd ?_ (fun t x ht => ?_)
    | split
    | with_reducible exact Keeps.of_snd (by assumption) (by assumption)

end Sys2Proof.Machine
end

