-- ==== Sys2Proof/Laws/KeepsAttn.lean ====
section
/-! SUPPORT. What no operation of Machine/Attn.lean disturbs. -/
namespace Sys2Proof.Machine

variable {ex : Option Half} {s0 s : State}

theorem freeBytes_keeps (n : Nat) (hk : Keeps ex s0 s) : Keeps ex s0 (freeBytes s n).2 := by
  exact hk.trans ⟨Eq.refl _, Eq.refl _, Eq.refl _, Nat.le_add_right _ _, List.prefix_rfl, fun h => ⟨h.mem, h.dict, h.dictBytes, h.bow, h.stern⟩, fun _ _ h => h⟩

theorem runAttn_keeps (e : Env) (hk : Keeps ex s0 s) : Keeps ex s0 (runAttn s e) := by
  unfold runAttn
  repeat' first
    | with_reducible assumption
    | extract_lets
    | with_reducible apply freeBytes_keeps
    | with_reducible apply addFlags_keeps
    | with_reducible apply bufWrite_keeps
    | with_reducible apply gangClear_keeps
    | with_reducible apply mergeStat_keeps
    | with_reducible refine Keeps.ite (fun _ => ?_) (fun _ => ?_)
    | with_reducible refine Keeps.foldl ?_ (fun t x ht => ?_)
    | with_reducible refine Keeps.foldl_snd ?_ (fun t x ht => ?_)
    | with_reducible refine Keeps.foldl_fst ?_ (fun t x ht => ?_)
    | with_reducible refine Keeps.foldl_trd ?_ (fun t x ht => ?_)
    | split
    | with_reducible exact Keeps.of_snd (by assumption) (by assumption)
    | with_reducible refine Keeps.elsewhere (Eq.refl _) ?_ ⟨fun h => h, fun h => h⟩ ⟨fun h => h, fun h => h⟩
    | dsimp +zetaDelta only

end Sys2Proof.Machine
end

