-- ==== Sys2Proof/Laws/KeepsVecCmd.lean ====
section
/-! SUPPORT. What no operation of Machine/VecCmd.lean disturbs. -/
namespace Sys2Proof.Machine

variable {ex : Option Half} {s0 s : State}

theorem runVec_keeps (e : Env) (hk : Keeps ex s0 s) : Keeps ex s0 (runVec s e) := by
  unfold runVec
  repeat' first
    | with_reducible assumption
    | extract_lets
    | with_reducible apply addFlags_keeps
    | with_reducible apply bufWrite_keeps
    | with_reducible refine Keeps.ite (fun _ => ?_) (fun _ => ?_)
    | with_reducible refine Keeps.foldl ?_ (fun t x ht => ?_)
    | with_reducible refine Keeps.foldl_snd ?_ (fun t x ht => ?_)
    | with_reducible refine Keeps.foldl_fst ?_ (fun t x ht => ?_)
    | with_reducible refine Keeps.foldl_trd ?_ (fun t x ht => ?_)
    | split
    | with_reducible exact Keeps.of_snd (by assumption) (by assumption)

end Sys2Proof.Machine
end

