-- ==== Sys2Proof/Laws/KeepsCheckers.lean ====
section
/-! SUPPORT. What no operation of Machine/Checkers.lean disturbs. -/
namespace Sys2Proof.Machine

variable {ex : Option Half} {s0 s : State}



end Sys2Proof.Machine
end

