-- ==== Sys2Proof/Laws/KeepsIssue.lean ====
section
/-! SUPPORT. What no operation of Machine/Issue.lean disturbs. -/
namespace Sys2Proof.Machine

variable {ex : Option Half} {s0 s : State}

theorem mapFlight_keeps (h : Half) (c : Nat) (cid : Nat) (f : Flight → Flight) (hk : Keeps ex s0 s) : Keeps ex s0 (mapFlight s h c cid f) := by
  unfold mapFlight
  repeat' first
    | with_reducible assumption
    | extract_lets
    | with_reducible apply setCore_keeps
    | with_reducible refine Keeps.ite (fun _ => ?_) (fun _ => ?_)
    | split
    | with_reducible exact Keeps.of_snd (by assumption) (by assumption)

theorem spoil_keeps (e : Env) (hk : Keeps ex s0 s) : Keeps ex s0 (spoil s e) := by
  unfold spoil
  extract_lets s1 k mine n
  have h1 : Keeps ex s0 s1 := by
    with_reducible refine Keeps.foldl hk (fun t x ht => ?_)
    split
    · split
      · exact write_keeps _ _ (freeBytes_keeps _ ht)
      · exact ht
    · exact ht
  exact (setCore_keeps _ _ _ h1).skip (by simp)

theorem findUpsets_keeps (u : State) (e : Env) (hk : Keeps ex s0 s) : Keeps ex s0 (findUpsets u s e) := by
  unfold findUpsets
  refine Keeps.ite (fun _ => hk) (fun _ => ?_)
  refine Keeps.foldl (Keeps.ite (fun _ => hk) (fun _ => spoil_keeps _ (free_keeps hk))) (fun t x ht => ?_)
  split
  · have h1 : Keeps ex s0 { t with upsets := t.upsets.erase x.1 } := Keeps.elsewhere (Eq.refl _) ht ⟨fun h => h, fun h => h⟩ ⟨fun h => h, fun h => h⟩
    exact disagree_keeps _ _ _ _ (Keeps.ite (fun _ => setNum_keeps _ _ _ h1) (fun _ => h1))
  · exact ht

theorem movePrefix_keeps (e : Env) (cut : Nat) (hk : Keeps ex s0 s) : Keeps ex s0 (movePrefix s e cut) := by
  unfold movePrefix
  repeat' first
    | with_reducible assumption
    | extract_lets
    | with_reducible apply free_keeps
    | with_reducible apply moveRow_keeps
    | with_reducible refine Keeps.ite (fun _ => ?_) (fun _ => ?_)
    | with_reducible refine Keeps.foldl ?_ (fun t x ht => ?_)
    | with_reducible refine Keeps.foldl_snd ?_ (fun t x ht => ?_)
    | with_reducible refine Keeps.foldl_fst ?_ (fun t x ht => ?_)
    | with_reducible refine Keeps.foldl_trd ?_ (fun t x ht => ?_)
    | split
    | with_reducible exact Keeps.of_snd (by assumption) (by assumption)

theorem execFault_keeps (e : Env) (hk : Keeps ex s0 s) : Keeps ex s0 (execFault s e) := by
  unfold execFault
  repeat' first
    | with_reducible assumption
    | with_reducible apply movePrefix_keeps
    | with_reducible apply faultCtx_keeps
    | with_reducible refine Keeps.ite (fun _ => ?_) (fun _ => ?_)
    | split
    | with_reducible exact Keeps.of_snd (by assumption) (by assumption)

theorem fabricFault_keeps (e : Env) (hk : Keeps ex s0 s) : Keeps ex s0 (fabricFault s e) := by
  unfold fabricFault
  repeat' first
    | with_reducible assumption
    | extract_lets
    | with_reducible apply movePrefix_keeps
    | with_reducible apply faultCtx_keeps
    | with_reducible apply takeFabric_keeps
    | with_reducible refine Keeps.ite (fun _ => ?_) (fun _ => ?_)
    | split
    | with_reducible exact Keeps.of_snd (by assumption) (by assumption)

theorem runCmd_keeps (e : Env) (got : Tab Byte) (hk : Keeps ex s0 s) : Keeps ex s0 (runCmd s e got).2 := by
  unfold runCmd
  repeat' first
    | with_reducible assumption
    | with_reducible apply runAttn_keeps
    | with_reducible apply runConv_keeps
    | with_reducible apply runCrop_keeps
    | with_reducible apply runLoadw_keeps
    | with_reducible apply runMove_keeps
    | with_reducible apply runPool_keeps
    | with_reducible apply runStream_keeps
    | with_reducible apply runVec_keeps
    | with_reducible refine Keeps.ite (fun _ => ?_) (fun _ => ?_)
    | with_reducible refine Keeps.ite_snd (fun _ => ?_) (fun _ => ?_)
    | with_reducible refine Keeps.ite_fst (fun _ => ?_) (fun _ => ?_)
    | split
    | with_reducible exact Keeps.of_snd (by assumption) (by assumption)
    | with_reducible apply Keeps.mk_fst
    | with_reducible apply Keeps.mk_snd

theorem advanceCmd_keeps (h : Half) (c : Nat) (cid : Nat) (hk : Keeps ex s0 s) : Keeps ex s0 (advanceCmd s h c cid) := by
  unfold advanceCmd
  repeat' first
    | with_reducible assumption
    | extract_lets
    | with_reducible apply execFault_keeps
    | with_reducible apply fabricFault_keeps
    | with_reducible apply findUpsets_keeps
    | with_reducible apply mapFlight_keeps
    | with_reducible apply runCmd_keeps
    | with_reducible apply decodeCmd_keeps
    | with_reducible apply endTicket_keeps
    | with_reducible apply faultCtx_keeps
    | with_reducible apply sendReads_keeps
    | with_reducible refine Keeps.ite (fun _ => ?_) (fun _ => ?_)
    | split
    | with_reducible exact Keeps.of_snd (by assumption) (by assumption)

theorem inFlight_keeps (h : Half) (c : Nat) (cmd : Cmd) (hk : Keeps ex s0 s) : Keeps ex s0 (inFlight s h c cmd) := by
  unfold inFlight
  repeat' first
    | with_reducible assumption
    | extract_lets
    | with_reducible apply modHalf_keeps
    | with_reducible apply setCore_keeps
    | with_reducible refine Keeps.ite (fun _ => ?_) (fun _ => ?_)
    | with_reducible exact fun _ => ⟨fun h => h, fun h => h⟩
    | split
    | with_reducible exact Keeps.of_snd (by assumption) (by assumption)

theorem startCmd_keeps (h : Half) (c : Nat) (cmd : Cmd) (hk : Keeps ex s0 s) : Keeps ex s0 (startCmd s h c cmd) := by
  unfold startCmd
  repeat' first
    | with_reducible assumption
    | with_reducible apply advanceCmd_keeps
    | with_reducible apply inFlight_keeps
    | with_reducible refine Keeps.ite (fun _ => ?_) (fun _ => ?_)
    | split
    | with_reducible exact Keeps.of_snd (by assumption) (by assumption)

theorem takeMooring_keeps (h : Half) (c : Nat) (cmd : Cmd) (hk : Keeps ex s0 s) : Keeps ex s0 (takeMooring s h c cmd) := by
  unfold takeMooring
  repeat' first
    | with_reducible assumption
    | extract_lets
    | with_reducible apply setCore_keeps
    | with_reducible refine Keeps.ite (fun _ => ?_) (fun _ => ?_)
    | split
    | with_reducible exact Keeps.of_snd (by assumption) (by assumption)

theorem takeWaiting_keeps (h : Half) (hk : Keeps ex s0 s) : Keeps ex s0 (takeWaiting s h) := by
  unfold takeWaiting
  repeat' first
    | with_reducible assumption
    | extract_lets
    | with_reducible apply takeMooring_keeps
    | with_reducible refine Keeps.ite (fun _ => ?_) (fun _ => ?_)
    | with_reducible refine Keeps.foldl ?_ (fun t x ht => ?_)
    | with_reducible refine Keeps.foldl_snd ?_ (fun t x ht => ?_)
    | with_reducible refine Keeps.foldl_fst ?_ (fun t x ht => ?_)
    | with_reducible refine Keeps.foldl_trd ?_ (fun t x ht => ?_)
    | split
    | with_reducible exact Keeps.of_snd (by assumption) (by assumption)

theorem waitAt_keeps (h : Half) (c : Nat) (cmd : Cmd) (hk : Keeps ex s0 s) : Keeps ex s0 (waitAt s h c cmd) := by
  unfold waitAt
  repeat' first
    | with_reducible assumption
    | extract_lets
    | with_reducible apply setCore_keeps
    | with_reducible apply stampRan_keeps
    | with_reducible refine Keeps.ite (fun _ => ?_) (fun _ => ?_)
    | split
    | with_reducible exact Keeps.of_snd (by assumption) (by assumption)

theorem faultAll_keeps (h : Half) (ns : List Nat) (hk : Keeps ex s0 s) : Keeps ex s0 (faultAll s h ns) := by
  unfold faultAll
  repeat' first
    | with_reducible assumption
    | with_reducible apply faultCtx_keeps
    | with_reducible refine Keeps.ite (fun _ => ?_) (fun _ => ?_)
    | with_reducible refine Keeps.foldl ?_ (fun t x ht => ?_)
    | with_reducible refine Keeps.foldl_snd ?_ (fun t x ht => ?_)
    | with_reducible refine Keeps.foldl_fst ?_ (fun t x ht => ?_)
    | with_reducible refine Keeps.foldl_trd ?_ (fun t x ht => ?_)
    | split
    | with_reducible exact Keeps.of_snd (by assumption) (by assumption)

theorem issueGate_keeps (h : Half) (c : Nat) (cmd : Cmd) (hk : Keeps ex s0 s) : Keeps ex s0 (issueGate s h c cmd) := by
  unfold issueGate
  repeat' first
    | with_reducible assumption
    | extract_lets
    | with_reducible apply takeMooring_keeps
    | with_reducible apply waitAt_keeps
    | with_reducible refine Keeps.ite (fun _ => ?_) (fun _ => ?_)
    | split
    | with_reducible exact Keeps.of_snd (by assumption) (by assumption)

theorem issueSem_keeps (h : Half) (c : Nat) (cmd : Cmd) (hk : Keeps ex s0 s) : Keeps ex s0 (issueSem s h c cmd) := by
  unfold issueSem
  repeat' first
    | with_reducible assumption
    | extract_lets
    | with_reducible apply faultAll_keeps
    | with_reducible apply takeMooring_keeps
    | with_reducible apply waitAt_keeps
    | with_reducible apply setCtx_keeps
    | with_reducible apply setSem_keeps
    | with_reducible apply semRelease_keeps
    | with_reducible refine Keeps.ite (fun _ => ?_) (fun _ => ?_)
    | split
    | with_reducible exact Keeps.of_snd (by assumption) (by assumption)
    | with_reducible refine Keeps.elsewhere (Eq.refl _) ?_ ⟨fun h => h, fun h => h⟩ ⟨fun h => h, fun h => h⟩

theorem issueMoor_keeps (h : Half) (c : Nat) (cmd : Cmd) (hk : Keeps ex s0 s) : Keeps ex s0 (issueMoor s h c cmd) := by
  unfold issueMoor
  repeat' first
    | with_reducible assumption
    | with_reducible apply takeMooring_keeps
    | with_reducible refine Keeps.ite (fun _ => ?_) (fun _ => ?_)
    | split
    | with_reducible exact Keeps.of_snd (by assumption) (by assumption)

theorem orByte_keeps (a : Nat) (bit : Nat) (hk : Keeps ex s0 s) : Keeps ex s0 (orByte s a bit) := by
  unfold orByte
  repeat' first
    | with_reducible assumption
    | with_reducible apply write_keeps
    | with_reducible refine Keeps.ite (fun _ => ?_) (fun _ => ?_)
    | split
    | with_reducible exact Keeps.of_snd (by assumption) (by assumption)

theorem sendCounter_keeps (e : Env) (value : Nat) (hk : Keeps ex s0 s) : Keeps ex s0 (sendCounter s e value) := by
  unfold sendCounter
  repeat' first
    | with_reducible assumption
    | with_reducible apply sendRequest_keeps
    | with_reducible refine Keeps.ite (fun _ => ?_) (fun _ => ?_)
    | split
    | with_reducible exact Keeps.of_snd (by assumption) (by assumption)

theorem issueTally_keeps (h : Half) (c : Nat) (cmd : Cmd) (hk : Keeps ex s0 s) : Keeps ex s0 (issueTally s h c cmd) := by
  unfold issueTally
  repeat' first
    | with_reducible assumption
    | extract_lets
    | with_reducible apply fabricFault_keeps
    | with_reducible apply orByte_keeps
    | with_reducible apply sendCounter_keeps
    | with_reducible apply modHalf_keeps
    | with_reducible apply setCore_keeps
    | with_reducible apply setCtx_keeps
    | with_reducible apply decodeCmd_keeps
    | with_reducible apply endTicket_keeps
    | with_reducible apply faultCtx_keeps
    | with_reducible apply sendRequest_keeps
    | with_reducible refine Keeps.ite (fun _ => ?_) (fun _ => ?_)
    | with_reducible exact fun _ => ⟨fun h => h, fun h => h⟩
    | split
    | with_reducible exact Keeps.of_snd (by assumption) (by assumption)
    | dsimp +zetaDelta only

theorem issueEnd_keeps (h : Half) (c : Nat) (hk : Keeps ex s0 s) : Keeps ex s0 (issueEnd s h c) := by
  unfold issueEnd
  repeat' first
    | with_reducible assumption
    | extract_lets
    | with_reducible apply setCore_keeps
    | with_reducible apply setCtx_keeps
    | with_reducible apply endTicket_keeps
    | with_reducible refine Keeps.ite (fun _ => ?_) (fun _ => ?_)
    | split
    | with_reducible exact Keeps.of_snd (by assumption) (by assumption)

theorem issueCmd_keeps (h : Half) (c : Nat) (cmd : Cmd) (hk : Keeps ex s0 s) : Keeps ex s0 (issueCmd s h c cmd) := by
  unfold issueCmd
  repeat' first
    | with_reducible assumption
    | with_reducible apply issueEnd_keeps
    | with_reducible apply issueGate_keeps
    | with_reducible apply issueMoor_keeps
    | with_reducible apply issueSem_keeps
    | with_reducible apply issueTally_keeps
    | with_reducible apply startCmd_keeps
    | with_reducible refine Keeps.ite (fun _ => ?_) (fun _ => ?_)
    | split
    | with_reducible exact Keeps.of_snd (by assumption) (by assumption)

theorem issueOne_keeps (h : Half) (c : Nat) (hk : Keeps ex s0 s) : Keeps ex s0 (issueOne s h c) := by
  unfold issueOne
  repeat' first
    | with_reducible assumption
    | extract_lets
    | with_reducible apply issueCmd_keeps
    | with_reducible apply setCore_keeps
    | with_reducible apply faultCtx_keeps
    | with_reducible refine Keeps.ite (fun _ => ?_) (fun _ => ?_)
    | split
    | with_reducible exact Keeps.of_snd (by assumption) (by assumption)

theorem issueRound_keeps (h : Half) (hk : Keeps ex s0 s) : Keeps ex s0 (issueRound s h) := by
  unfold issueRound
  repeat' first
    | with_reducible assumption
    | with_reducible apply issueOne_keeps
    | with_reducible refine Keeps.ite (fun _ => ?_) (fun _ => ?_)
    | with_reducible refine Keeps.foldl ?_ (fun t x ht => ?_)
    | with_reducible refine Keeps.foldl_snd ?_ (fun t x ht => ?_)
    | with_reducible refine Keeps.foldl_fst ?_ (fun t x ht => ?_)
    | with_reducible refine Keeps.foldl_trd ?_ (fun t x ht => ?_)
    | split
    | with_reducible exact Keeps.of_snd (by assumption) (by assumption)

theorem pump_keeps (h : Half) (hk : Keeps ex s0 s) : Keeps ex s0 (pump s h) := by
  unfold pump
  repeat' first
    | with_reducible assumption
    | extract_lets
    | with_reducible apply issueRound_keeps
    | with_reducible refine Keeps.ite (fun _ => ?_) (fun _ => ?_)
    | with_reducible refine Keeps.foldl ?_ (fun t x ht => ?_)
    | with_reducible refine Keeps.foldl_snd ?_ (fun t x ht => ?_)
    | with_reducible refine Keeps.foldl_fst ?_ (fun t x ht => ?_)
    | with_reducible refine Keeps.foldl_trd ?_ (fun t x ht => ?_)
    | split
    | with_reducible exact Keeps.of_snd (by assumption) (by assumption)

theorem deliver_keeps (h : Half) (c : Nat) (d : Nat) (want : Nat → Bool) (hk : Keeps ex s0 s) : Keeps ex s0 (deliver s h c d want) := by
  unfold deliver
  repeat' first
    | with_reducible assumption
    | extract_lets
    | with_reducible apply pump_keeps
    | with_reducible apply setCore_keeps
    | with_reducible apply setCtx_keeps
    | with_reducible apply decodeCmd_keeps
    | with_reducible apply faultCtx_keeps
    | with_reducible refine Keeps.ite (fun _ => ?_) (fun _ => ?_)
    | split
    | with_reducible exact Keeps.of_snd (by assumption) (by assumption)
    | dsimp +zetaDelta only

theorem completeCmd_keeps (h : Half) (c : Nat) (i : Nat) (hk : Keeps ex s0 s) : Keeps ex s0 (completeCmd s h c i) := by
  unfold completeCmd
  repeat' first
    | with_reducible assumption
    | extract_lets
    | with_reducible apply pump_keeps
    | with_reducible apply takeWaiting_keeps
    | with_reducible apply setCore_keeps
    | with_reducible refine Keeps.ite (fun _ => ?_) (fun _ => ?_)
    | split
    | with_reducible exact Keeps.of_snd (by assumption) (by assumption)

theorem saveDone_keeps (h : Half) (c : Nat) (hk : Keeps ex s0 s) : Keeps ex s0 (saveDone s h c) := by
  unfold saveDone
  repeat' first
    | with_reducible assumption
    | extract_lets
    | with_reducible apply setCore_keeps
    | with_reducible apply setCtx_keeps
    | with_reducible apply setNum_keeps
    | with_reducible apply decodeCmd_keeps
    | with_reducible apply faultCtx_keeps
    | with_reducible apply spill_keeps
    | with_reducible apply stampRan_keeps
    | with_reducible apply unload_keeps
    | with_reducible refine Keeps.ite (fun _ => ?_) (fun _ => ?_)
    | with_reducible refine Keeps.foldl ?_ (fun t x ht => ?_)
    | with_reducible refine Keeps.foldl_snd ?_ (fun t x ht => ?_)
    | with_reducible refine Keeps.foldl_fst ?_ (fun t x ht => ?_)
    | with_reducible refine Keeps.foldl_trd ?_ (fun t x ht => ?_)
    | split
    | with_reducible exact Keeps.of_snd (by assumption) (by assumption)
    | dsimp +zetaDelta only

theorem savedCheck_keeps (h : Half) (n : Nat) (v : SavedCore) (hk : Keeps ex s0 s) : Keeps ex s0 (savedCheck s h n v).2 := by
  unfold savedCheck
  repeat' first
    | with_reducible assumption
    | with_reducible apply decodeHits_keeps
    | with_reducible refine Keeps.ite (fun _ => ?_) (fun _ => ?_)
    | with_reducible refine Keeps.ite_snd (fun _ => ?_) (fun _ => ?_)
    | with_reducible refine Keeps.ite_fst (fun _ => ?_) (fun _ => ?_)
    | split
    | with_reducible exact Keeps.of_snd (by assumption) (by assumption)
    | with_reducible apply Keeps.mk_fst
    | with_reducible apply Keeps.mk_snd

theorem reloadSwap_keeps (h : Half) (v : SavedCore) (hk : Keeps ex s0 s) : Keeps ex s0 (reloadSwap s h v) := by
  unfold reloadSwap
  repeat' first
    | with_reducible assumption
    | with_reducible apply spill_keeps
    | with_reducible refine Keeps.ite (fun _ => ?_) (fun _ => ?_)
    | split
    | with_reducible exact Keeps.of_snd (by assumption) (by assumption)

theorem restoreDone_keeps (h : Half) (c : Nat) (hk : Keeps ex s0 s) : Keeps ex s0 (restoreDone s h c) := by
  unfold restoreDone
  repeat' first
    | with_reducible assumption
    | extract_lets
    | with_reducible apply pump_keeps
    | with_reducible apply reloadSwap_keeps
    | with_reducible apply savedCheck_keeps
    | with_reducible apply setCore_keeps
    | with_reducible apply setCtx_keeps
    | with_reducible apply write_keeps
    | with_reducible apply faultCtx_keeps
    | with_reducible apply runLoadw_keeps
    | with_reducible apply startOnCore_keeps
    | with_reducible refine Keeps.ite (fun _ => ?_) (fun _ => ?_)
    | with_reducible refine Keeps.foldl ?_ (fun t x ht => ?_)
    | with_reducible refine Keeps.foldl_snd ?_ (fun t x ht => ?_)
    | with_reducible refine Keeps.foldl_fst ?_ (fun t x ht => ?_)
    | with_reducible refine Keeps.foldl_trd ?_ (fun t x ht => ?_)
    | split
    | with_reducible exact Keeps.of_snd (by assumption) (by assumption)
    | dsimp +zetaDelta only

end Sys2Proof.Machine
end

