-- ==== Sys2Proof/Laws/KeepsCoreCmds.lean ====
section
/-! SUPPORT. What no operation of Machine/CoreCmds.lean disturbs. -/
namespace Sys2Proof.Machine

variable {ex : Option Half} {s0 s : State}

theorem execMove_keeps (h : Half) (c : Nat) (d : BitVec 256) (hk : Keeps ex s0 s) : ∀ u, execMove h c d s = .next u → Keeps ex s0 u := by
  intro u ht
  unfold execMove at ht
  have hu := Host.Outcome.next.inj ht
  clear ht
  subst hu
  repeat' first
    | with_reducible assumption
    | with_reducible apply deliver_keeps
    | with_reducible refine Keeps.ite (fun _ => ?_) (fun _ => ?_)
    | split
    | with_reducible exact Keeps.of_snd (by assumption) (by assumption)

theorem execS2c2_keeps (h : Half) (c : Nat) (d : BitVec 256) (hk : Keeps ex s0 s) : ∀ u, execS2c2 h c d s = .next u → Keeps ex s0 u := by
  intro u ht
  unfold execS2c2 at ht
  have hu := Host.Outcome.next.inj ht
  clear ht
  subst hu
  repeat' first
    | with_reducible assumption
    | with_reducible apply deliver_keeps
    | with_reducible refine Keeps.ite (fun _ => ?_) (fun _ => ?_)
    | split
    | with_reducible exact Keeps.of_snd (by assumption) (by assumption)

theorem execS2c4_keeps (h : Half) (c : Nat) (d : BitVec 256) (hk : Keeps ex s0 s) : ∀ u, execS2c4 h c d s = .next u → Keeps ex s0 u := by
  intro u ht
  unfold execS2c4 at ht
  have hu := Host.Outcome.next.inj ht
  clear ht
  subst hu
  repeat' first
    | with_reducible assumption
    | with_reducible apply deliver_keeps
    | with_reducible refine Keeps.ite (fun _ => ?_) (fun _ => ?_)
    | split
    | with_reducible exact Keeps.of_snd (by assumption) (by assumption)

theorem execC2s2_keeps (h : Half) (c : Nat) (d : BitVec 256) (hk : Keeps ex s0 s) : ∀ u, execC2s2 h c d s = .next u → Keeps ex s0 u := by
  intro u ht
  unfold execC2s2 at ht
  have hu := Host.Outcome.next.inj ht
  clear ht
  subst hu
  repeat' first
    | with_reducible assumption
    | with_reducible apply deliver_keeps
    | with_reducible refine Keeps.ite (fun _ => ?_) (fun _ => ?_)
    | split
    | with_reducible exact Keeps.of_snd (by assumption) (by assumption)

theorem execC2s4_keeps (h : Half) (c : Nat) (d : BitVec 256) (hk : Keeps ex s0 s) : ∀ u, execC2s4 h c d s = .next u → Keeps ex s0 u := by
  intro u ht
  unfold execC2s4 at ht
  have hu := Host.Outcome.next.inj ht
  clear ht
  subst hu
  repeat' first
    | with_reducible assumption
    | with_reducible apply deliver_keeps
    | with_reducible refine Keeps.ite (fun _ => ?_) (fun _ => ?_)
    | split
    | with_reducible exact Keeps.of_snd (by assumption) (by assumption)

theorem execFill_keeps (h : Half) (c : Nat) (d : BitVec 256) (hk : Keeps ex s0 s) : ∀ u, execFill h c d s = .next u → Keeps ex s0 u := by
  intro u ht
  unfold execFill at ht
  have hu := Host.Outcome.next.inj ht
  clear ht
  subst hu
  repeat' first
    | with_reducible assumption
    | with_reducible apply deliver_keeps
    | with_reducible refine Keeps.ite (fun _ => ?_) (fun _ => ?_)
    | split
    | with_reducible exact Keeps.of_snd (by assumption) (by assumption)

theorem execLoadw_keeps (h : Half) (c : Nat) (d : BitVec 256) (hk : Keeps ex s0 s) : ∀ u, execLoadw h c d s = .next u → Keeps ex s0 u := by
  intro u ht
  unfold execLoadw at ht
  have hu := Host.Outcome.next.inj ht
  clear ht
  subst hu
  repeat' first
    | with_reducible assumption
    | with_reducible apply deliver_keeps
    | with_reducible refine Keeps.ite (fun _ => ?_) (fun _ => ?_)
    | split
    | with_reducible exact Keeps.of_snd (by assumption) (by assumption)

theorem execStream_keeps (h : Half) (c : Nat) (d : BitVec 256) (hk : Keeps ex s0 s) : ∀ u, execStream h c d s = .next u → Keeps ex s0 u := by
  intro u ht
  unfold execStream at ht
  have hu := Host.Outcome.next.inj ht
  clear ht
  subst hu
  repeat' first
    | with_reducible assumption
    | with_reducible apply deliver_keeps
    | with_reducible refine Keeps.ite (fun _ => ?_) (fun _ => ?_)
    | split
    | with_reducible exact Keeps.of_snd (by assumption) (by assumption)

theorem requantiseFront_keeps (h : Half) (c : Nat) (hk : Keeps ex s0 s) : Keeps ex s0 (requantiseFront s h c) := by
  unfold requantiseFront
  repeat' first
    | with_reducible assumption
    | extract_lets
    | with_reducible apply runRequant_keeps
    | with_reducible refine Keeps.ite (fun _ => ?_) (fun _ => ?_)
    | split
    | with_reducible exact Keeps.of_snd (by assumption) (by assumption)

theorem execRequantiseTile_keeps (h : Half) (c : Nat) (hk : Keeps ex s0 s) : ∀ u, execRequantiseTile h c s = .next u → Keeps ex s0 u := by
  intro u ht
  unfold execRequantiseTile at ht
  have hu := Host.Outcome.next.inj ht
  clear ht
  subst hu
  repeat' first
    | with_reducible assumption
    | with_reducible apply requantiseFront_keeps
    | with_reducible refine Keeps.ite (fun _ => ?_) (fun _ => ?_)
    | split
    | with_reducible exact Keeps.of_snd (by assumption) (by assumption)

theorem execConv_keeps (h : Half) (c : Nat) (d : BitVec 512) (hk : Keeps ex s0 s) : ∀ u, execConv h c d s = .next u → Keeps ex s0 u := by
  intro u ht
  unfold execConv at ht
  have hu := Host.Outcome.next.inj ht
  clear ht
  subst hu
  repeat' first
    | with_reducible assumption
    | with_reducible apply deliver_keeps
    | with_reducible refine Keeps.ite (fun _ => ?_) (fun _ => ?_)
    | split
    | with_reducible exact Keeps.of_snd (by assumption) (by assumption)

theorem execCrop_keeps (h : Half) (c : Nat) (d : BitVec 256) (hk : Keeps ex s0 s) : ∀ u, execCrop h c d s = .next u → Keeps ex s0 u := by
  intro u ht
  unfold execCrop at ht
  have hu := Host.Outcome.next.inj ht
  clear ht
  subst hu
  repeat' first
    | with_reducible assumption
    | with_reducible apply deliver_keeps
    | with_reducible refine Keeps.ite (fun _ => ?_) (fun _ => ?_)
    | split
    | with_reducible exact Keeps.of_snd (by assumption) (by assumption)

theorem execPool_keeps (h : Half) (c : Nat) (d : BitVec 256) (hk : Keeps ex s0 s) : ∀ u, execPool h c d s = .next u → Keeps ex s0 u := by
  intro u ht
  unfold execPool at ht
  have hu := Host.Outcome.next.inj ht
  clear ht
  subst hu
  repeat' first
    | with_reducible assumption
    | with_reducible apply deliver_keeps
    | with_reducible refine Keeps.ite (fun _ => ?_) (fun _ => ?_)
    | split
    | with_reducible exact Keeps.of_snd (by assumption) (by assumption)

theorem execVec_keeps (h : Half) (c : Nat) (d : BitVec 256) (hk : Keeps ex s0 s) : ∀ u, execVec h c d s = .next u → Keeps ex s0 u := by
  intro u ht
  unfold execVec at ht
  have hu := Host.Outcome.next.inj ht
  clear ht
  subst hu
  repeat' first
    | with_reducible assumption
    | with_reducible apply deliver_keeps
    | with_reducible refine Keeps.ite (fun _ => ?_) (fun _ => ?_)
    | split
    | with_reducible exact Keeps.of_snd (by assumption) (by assumption)

theorem execAttn_keeps (h : Half) (c : Nat) (d : BitVec 512) (hk : Keeps ex s0 s) : ∀ u, execAttn h c d s = .next u → Keeps ex s0 u := by
  intro u ht
  unfold execAttn at ht
  have hu := Host.Outcome.next.inj ht
  clear ht
  subst hu
  repeat' first
    | with_reducible assumption
    | with_reducible apply deliver_keeps
    | with_reducible refine Keeps.ite (fun _ => ?_) (fun _ => ?_)
    | split
    | with_reducible exact Keeps.of_snd (by assumption) (by assumption)

theorem execSemAcquire_keeps (h : Half) (c : Nat) (d : BitVec 256) (hk : Keeps ex s0 s) : ∀ u, execSemAcquire h c d s = .next u → Keeps ex s0 u := by
  intro u ht
  unfold execSemAcquire at ht
  have hu := Host.Outcome.next.inj ht
  clear ht
  subst hu
  repeat' first
    | with_reducible assumption
    | with_reducible apply deliver_keeps
    | with_reducible refine Keeps.ite (fun _ => ?_) (fun _ => ?_)
    | split
    | with_reducible exact Keeps.of_snd (by assumption) (by assumption)

theorem execSemRelease_keeps (h : Half) (c : Nat) (d : BitVec 256) (hk : Keeps ex s0 s) : ∀ u, execSemRelease h c d s = .next u → Keeps ex s0 u := by
  intro u ht
  unfold execSemRelease at ht
  have hu := Host.Outcome.next.inj ht
  clear ht
  subst hu
  repeat' first
    | with_reducible assumption
    | with_reducible apply deliver_keeps
    | with_reducible refine Keeps.ite (fun _ => ?_) (fun _ => ?_)
    | split
    | with_reducible exact Keeps.of_snd (by assumption) (by assumption)

theorem execGate_keeps (h : Half) (c : Nat) (d : BitVec 256) (hk : Keeps ex s0 s) : ∀ u, execGate h c d s = .next u → Keeps ex s0 u := by
  intro u ht
  unfold execGate at ht
  have hu := Host.Outcome.next.inj ht
  clear ht
  subst hu
  repeat' first
    | with_reducible assumption
    | with_reducible apply deliver_keeps
    | with_reducible refine Keeps.ite (fun _ => ?_) (fun _ => ?_)
    | split
    | with_reducible exact Keeps.of_snd (by assumption) (by assumption)

theorem openGate_keeps (h : Half) (c : Nat) (hk : Keeps ex s0 s) : Keeps ex s0 (openGate s h c) := by
  unfold openGate
  repeat' first
    | with_reducible assumption
    | extract_lets
    | with_reducible apply setCore_keeps
    | with_reducible apply pump_keeps
    | with_reducible refine Keeps.ite (fun _ => ?_) (fun _ => ?_)
    | split
    | with_reducible exact Keeps.of_snd (by assumption) (by assumption)

theorem execGateOpen_keeps (h : Half) (c : Nat) (t : Time) (hk : Keeps ex s0 s) : ∀ u, execGateOpen h c t s = .next u → Keeps ex s0 u := by
  intro u ht
  unfold execGateOpen at ht
  have hu := Host.Outcome.next.inj ht
  clear ht
  subst hu
  repeat' first
    | with_reducible assumption
    | with_reducible apply openGate_keeps
    | with_reducible apply atTime_keeps
    | with_reducible refine Keeps.ite (fun _ => ?_) (fun _ => ?_)
    | split
    | with_reducible exact Keeps.of_snd (by assumption) (by assumption)

theorem execMoor_keeps (h : Half) (c : Nat) (d : BitVec 256) (hk : Keeps ex s0 s) : ∀ u, execMoor h c d s = .next u → Keeps ex s0 u := by
  intro u ht
  unfold execMoor at ht
  have hu := Host.Outcome.next.inj ht
  clear ht
  subst hu
  repeat' first
    | with_reducible assumption
    | with_reducible apply deliver_keeps
    | with_reducible refine Keeps.ite (fun _ => ?_) (fun _ => ?_)
    | split
    | with_reducible exact Keeps.of_snd (by assumption) (by assumption)

theorem execContextSaveDone_keeps (h : Half) (c : Nat) (hk : Keeps ex s0 s) : ∀ u, execContextSaveDone h c s = .next u → Keeps ex s0 u := by
  intro u ht
  unfold execContextSaveDone at ht
  have hu := Host.Outcome.next.inj ht
  clear ht
  subst hu
  repeat' first
    | with_reducible assumption
    | with_reducible apply saveDone_keeps
    | with_reducible apply takeWaiting_keeps
    | with_reducible refine Keeps.ite (fun _ => ?_) (fun _ => ?_)
    | split
    | with_reducible exact Keeps.of_snd (by assumption) (by assumption)

theorem execContextRestore_keeps (h : Half) (c : Nat) (hk : Keeps ex s0 s) : ∀ u, execContextRestore h c s = .next u → Keeps ex s0 u := by
  intro u ht
  unfold execContextRestore at ht
  have hu := Host.Outcome.next.inj ht
  clear ht
  subst hu
  repeat' first
    | with_reducible assumption
    | with_reducible apply restoreDone_keeps
    | with_reducible refine Keeps.ite (fun _ => ?_) (fun _ => ?_)
    | split
    | with_reducible exact Keeps.of_snd (by assumption) (by assumption)

theorem execTally_keeps (h : Half) (c : Nat) (d : BitVec 256) (hk : Keeps ex s0 s) : ∀ u, execTally h c d s = .next u → Keeps ex s0 u := by
  intro u ht
  unfold execTally at ht
  have hu := Host.Outcome.next.inj ht
  clear ht
  subst hu
  repeat' first
    | with_reducible assumption
    | with_reducible apply deliver_keeps
    | with_reducible refine Keeps.ite (fun _ => ?_) (fun _ => ?_)
    | split
    | with_reducible exact Keeps.of_snd (by assumption) (by assumption)

theorem execEndCmd_keeps (h : Half) (c : Nat) (d : BitVec 256) (hk : Keeps ex s0 s) : ∀ u, execEndCmd h c d s = .next u → Keeps ex s0 u := by
  intro u ht
  unfold execEndCmd at ht
  have hu := Host.Outcome.next.inj ht
  clear ht
  subst hu
  repeat' first
    | with_reducible assumption
    | with_reducible apply deliver_keeps
    | with_reducible refine Keeps.ite (fun _ => ?_) (fun _ => ?_)
    | split
    | with_reducible exact Keeps.of_snd (by assumption) (by assumption)

theorem execCommandComplete_keeps (h : Half) (c : Nat) (k : Nat) (hk : Keeps ex s0 s) : ∀ u, execCommandComplete h c k s = .next u → Keeps ex s0 u := by
  intro u ht
  unfold execCommandComplete at ht
  have hu := Host.Outcome.next.inj ht
  clear ht
  subst hu
  repeat' first
    | with_reducible assumption
    | with_reducible apply completeCmd_keeps
    | with_reducible refine Keeps.ite (fun _ => ?_) (fun _ => ?_)
    | split
    | with_reducible exact Keeps.of_snd (by assumption) (by assumption)

theorem lbistFail_keeps (h : Half) (c : Nat) (i : Nat) (hk : Keeps ex s0 s) : Keeps ex s0 (lbistFail s h c i) := by
  unfold lbistFail
  repeat' first
    | with_reducible assumption
    | extract_lets
    | with_reducible apply setRoll_keeps
    | with_reducible apply markBad_keeps
    | with_reducible apply promiseAnew_keeps
    | with_reducible apply startPass_keeps
    | with_reducible refine Keeps.ite (fun _ => ?_) (fun _ => ?_)
    | split
    | with_reducible exact Keeps.of_snd (by assumption) (by assumption)
    | with_reducible refine Keeps.elsewhere (Eq.refl _) ?_ ⟨fun h => h, fun h => h⟩ ⟨fun h => h, fun h => h⟩

theorem execLbistEnd_keeps (h : Half) (c : Nat) (pass : Bool) (hk : Keeps ex s0 s) : ∀ u, execLbistEnd h c pass s = .next u → Keeps ex s0 u := by
  intro u ht
  unfold execLbistEnd at ht
  extract_lets at ht
  have hu := Host.Outcome.next.inj ht
  clear ht
  subst hu
  repeat' first
    | with_reducible assumption
    | extract_lets
    | with_reducible apply lbistFail_keeps
    | with_reducible apply setNum_keeps
    | with_reducible apply setRoll_keeps
    | with_reducible refine Keeps.ite (fun _ => ?_) (fun _ => ?_)
    | split
    | with_reducible exact Keeps.of_snd (by assumption) (by assumption)

theorem execRollPassEnd_keeps (h : Half) (c : Nat) (hk : Keeps ex s0 s) : ∀ u, execRollPassEnd h c s = .next u → Keeps ex s0 u := by
  intro u ht
  unfold execRollPassEnd at ht
  extract_lets at ht
  have hu := Host.Outcome.next.inj ht
  clear ht
  subst hu
  repeat' first
    | with_reducible assumption
    | extract_lets
    | with_reducible apply setNum_keeps
    | with_reducible apply setRoll_keeps
    | with_reducible apply startPass_keeps
    | with_reducible refine Keeps.ite (fun _ => ?_) (fun _ => ?_)
    | split
    | with_reducible exact Keeps.of_snd (by assumption) (by assumption)

end Sys2Proof.Machine
end

