-- ==== Sys2Proof/Laws/KeepsQueueCmds.lean ====
section
/-! SUPPORT. What no operation of Machine/QueueCmds.lean disturbs. -/
namespace Sys2Proof.Machine

variable {ex : Option Half} {s0 s : State}

theorem wakeIdle_keeps (h : Half) (hk : Keeps ex s0 s) : Keeps ex s0 (wakeIdle s h) := by
  unfold wakeIdle
  repeat' first
    | with_reducible assumption
    | with_reducible apply setNum_keeps
    | with_reducible refine Keeps.ite (fun _ => ?_) (fun _ => ?_)
    | split
    | with_reducible exact Keeps.of_snd (by assumption) (by assumption)

theorem execDoorbell_keeps (h : Half) (src : Src) (ofs : Nat) (bs : List Byte) (hk : Keeps ex s0 s) : ∀ u, execDoorbell h src ofs bs s = .next u → Keeps ex s0 u := by
  intro u ht
  unfold execDoorbell at ht
  have hu := Host.Outcome.next.inj ht
  clear ht
  subst hu
  repeat' first
    | with_reducible assumption
    | with_reducible apply wakeIdle_keeps
    | with_reducible apply noteDiscard_keeps
    | with_reducible apply ringDoorbell_keeps
    | with_reducible refine Keeps.ite (fun _ => ?_) (fun _ => ?_)
    | split
    | with_reducible exact Keeps.of_snd (by assumption) (by assumption)

theorem execDispatchChoice_keeps (h : Half) (hk : Keeps ex s0 s) : ∀ u, execDispatchChoice h s = .next u → Keeps ex s0 u := by
  intro u ht
  unfold execDispatchChoice at ht
  have hu := Host.Outcome.next.inj ht
  clear ht
  subst hu
  repeat' first
    | with_reducible assumption
    | with_reducible apply dispatchChoice_keeps
    | with_reducible apply takeWaiting_keeps
    | with_reducible refine Keeps.ite (fun _ => ?_) (fun _ => ?_)
    | split
    | with_reducible exact Keeps.of_snd (by assumption) (by assumption)

theorem execCoreHandover_keeps (h : Half) (c : Nat) (hk : Keeps ex s0 s) : ∀ u, execCoreHandover h c s = .next u → Keeps ex s0 u := by
  intro u ht
  unfold execCoreHandover at ht
  have hu := Host.Outcome.next.inj ht
  clear ht
  subst hu
  repeat' first
    | with_reducible assumption
    | with_reducible apply wakeIdle_keeps
    | with_reducible apply handover_keeps
    | with_reducible apply takeWaiting_keeps
    | with_reducible refine Keeps.ite (fun _ => ?_) (fun _ => ?_)
    | split
    | with_reducible exact Keeps.of_snd (by assumption) (by assumption)

theorem makeRunnable_keeps (h : Half) (n : Nat) (hk : Keeps ex s0 s) : Keeps ex s0 (makeRunnable s h n) := by
  unfold makeRunnable
  repeat' first
    | with_reducible assumption
    | extract_lets
    | with_reducible apply wakeIdle_keeps
    | with_reducible apply setCtx_keeps
    | with_reducible refine Keeps.ite (fun _ => ?_) (fun _ => ?_)
    | split
    | with_reducible exact Keeps.of_snd (by assumption) (by assumption)

theorem execContextRunnable_keeps (h : Half) (n : Nat) (t : Time) (hk : Keeps ex s0 s) : ∀ u, execContextRunnable h n t s = .next u → Keeps ex s0 u := by
  intro u ht
  unfold execContextRunnable at ht
  have hu := Host.Outcome.next.inj ht
  clear ht
  subst hu
  repeat' first
    | with_reducible assumption
    | with_reducible apply makeRunnable_keeps
    | with_reducible apply atTime_keeps
    | with_reducible refine Keeps.ite (fun _ => ?_) (fun _ => ?_)
    | split
    | with_reducible exact Keeps.of_snd (by assumption) (by assumption)

theorem execSwapDrain_keeps (h : Half) (cl : Nat) (hk : Keeps ex s0 s) : ∀ u, execSwapDrain h cl s = .next u → Keeps ex s0 u := by
  intro u ht
  unfold execSwapDrain at ht
  have hu := Host.Outcome.next.inj ht
  clear ht
  subst hu
  repeat' first
    | with_reducible assumption
    | with_reducible apply drainSets_keeps
    | with_reducible refine Keeps.ite (fun _ => ?_) (fun _ => ?_)
    | split
    | with_reducible exact Keeps.of_snd (by assumption) (by assumption)

theorem execCompletionRecord_keeps (h : Half) (q : Nat) (hk : Keeps ex s0 s) : ∀ u, execCompletionRecord h q s = .next u → Keeps ex s0 u := by
  intro u ht
  unfold execCompletionRecord at ht
  have hu := Host.Outcome.next.inj ht
  clear ht
  subst hu
  repeat' first
    | with_reducible assumption
    | with_reducible apply writeRecord_keeps
    | with_reducible refine Keeps.ite (fun _ => ?_) (fun _ => ?_)
    | split
    | with_reducible exact Keeps.of_snd (by assumption) (by assumption)

theorem execAbort_keeps (h : Half) (src : Src) (r : BitVec 128) (hk : Keeps ex s0 s) : ∀ u, execAbort h src r s = .next u → Keeps ex s0 u := by
  intro u ht
  unfold execAbort at ht
  have hu := Host.Outcome.next.inj ht
  clear ht
  subst hu
  repeat' first
    | with_reducible assumption
    | extract_lets
    | with_reducible apply abortRequest_keeps
    | with_reducible apply faultCtx_keeps
    | with_reducible refine Keeps.ite (fun _ => ?_) (fun _ => ?_)
    | with_reducible refine Keeps.ite_snd (fun _ => ?_) (fun _ => ?_)
    | with_reducible refine Keeps.ite_fst (fun _ => ?_) (fun _ => ?_)
    | split
    | with_reducible exact Keeps.of_snd (by assumption) (by assumption)
    | with_reducible apply Keeps.mk_fst
    | with_reducible apply Keeps.mk_snd

theorem discardBar0_keeps (h : Half) (o : Nat) (hk : Keeps ex s0 s) : Keeps ex s0 (discardBar0 s h o) := by
  unfold discardBar0
  repeat' first
    | with_reducible assumption
    | with_reducible apply observe_keeps
    | with_reducible refine Keeps.ite (fun _ => ?_) (fun _ => ?_)
    | split
    | with_reducible exact Keeps.of_snd (by assumption) (by assumption)

theorem writeQuay_keeps (h : Half) (q : Nat) (ofs : Nat) (bs : List Byte) (hk : Keeps ex s0 s) : Keeps ex s0 (writeQuay s h q ofs bs) := by
  unfold writeQuay
  repeat' first
    | with_reducible assumption
    | extract_lets
    | with_reducible apply modHalf_keeps
    | with_reducible apply setQuay_keeps
    | with_reducible refine Keeps.ite (fun _ => ?_) (fun _ => ?_)
    | with_reducible exact fun _ => ⟨fun h => h, fun h => h⟩
    | split
    | with_reducible exact Keeps.of_snd (by assumption) (by assumption)

theorem execQuayDescriptorWrite_keeps (h : Half) (q : Nat) (ofs : Nat) (bs : List Byte) (hk : Keeps ex s0 s) : ∀ u, execQuayDescriptorWrite h q ofs bs s = .next u → Keeps ex s0 u := by
  intro u ht
  unfold execQuayDescriptorWrite at ht
  have hu := Host.Outcome.next.inj ht
  clear ht
  subst hu
  repeat' first
    | with_reducible assumption
    | with_reducible apply discardBar0_keeps
    | with_reducible apply writeQuay_keeps
    | with_reducible refine Keeps.ite (fun _ => ?_) (fun _ => ?_)
    | split
    | with_reducible exact Keeps.of_snd (by assumption) (by assumption)

theorem writeCtxEntry_keeps (h : Half) (n : Nat) (ofs : Nat) (bs : List Byte) (hk : Keeps ex s0 s) : Keeps ex s0 (writeCtxEntry s h n ofs bs) := by
  unfold writeCtxEntry
  repeat' first
    | with_reducible assumption
    | extract_lets
    | with_reducible apply setCtx_keeps
    | with_reducible refine Keeps.ite (fun _ => ?_) (fun _ => ?_)
    | split
    | with_reducible exact Keeps.of_snd (by assumption) (by assumption)

theorem execContextEntryWrite_keeps (h : Half) (n : Nat) (ofs : Nat) (bs : List Byte) (hk : Keeps ex s0 s) : ∀ u, execContextEntryWrite h n ofs bs s = .next u → Keeps ex s0 u := by
  intro u ht
  unfold execContextEntryWrite at ht
  have hu := Host.Outcome.next.inj ht
  clear ht
  subst hu
  repeat' first
    | with_reducible assumption
    | with_reducible apply discardBar0_keeps
    | with_reducible apply writeCtxEntry_keeps
    | with_reducible refine Keeps.ite (fun _ => ?_) (fun _ => ?_)
    | split
    | with_reducible exact Keeps.of_snd (by assumption) (by assumption)

theorem manRow_keeps (h : Half) (src : Src) (r : Nat) (op : Nat → Bool) (hk : Keeps ex s0 s) : Keeps ex s0 (manRow s h src r op) := by
  unfold manRow
  repeat' first
    | with_reducible assumption
    | extract_lets
    | with_reducible apply faultCtx_keeps
    | with_reducible apply manRequest_keeps
    | with_reducible refine Keeps.ite (fun _ => ?_) (fun _ => ?_)
    | split
    | with_reducible exact Keeps.of_snd (by assumption) (by assumption)

theorem execStep_keeps (h : Half) (src : Src) (r : BitVec 256) (hk : Keeps ex s0 s) : ∀ u, execStep h src r s = .next u → Keeps ex s0 u := by
  intro u ht
  unfold execStep at ht
  have hu := Host.Outcome.next.inj ht
  clear ht
  subst hu
  repeat' first
    | with_reducible assumption
    | with_reducible apply manRow_keeps
    | with_reducible refine Keeps.ite (fun _ => ?_) (fun _ => ?_)
    | split
    | with_reducible exact Keeps.of_snd (by assumption) (by assumption)

theorem execPropose_keeps (h : Half) (src : Src) (r : BitVec 256) (hk : Keeps ex s0 s) : ∀ u, execPropose h src r s = .next u → Keeps ex s0 u := by
  intro u ht
  unfold execPropose at ht
  have hu := Host.Outcome.next.inj ht
  clear ht
  subst hu
  repeat' first
    | with_reducible assumption
    | with_reducible apply manRow_keeps
    | with_reducible refine Keeps.ite (fun _ => ?_) (fun _ => ?_)
    | split
    | with_reducible exact Keeps.of_snd (by assumption) (by assumption)

theorem execAccept_keeps (h : Half) (src : Src) (r : BitVec 256) (hk : Keeps ex s0 s) : ∀ u, execAccept h src r s = .next u → Keeps ex s0 u := by
  intro u ht
  unfold execAccept at ht
  have hu := Host.Outcome.next.inj ht
  clear ht
  subst hu
  repeat' first
    | with_reducible assumption
    | with_reducible apply manRow_keeps
    | with_reducible refine Keeps.ite (fun _ => ?_) (fun _ => ?_)
    | split
    | with_reducible exact Keeps.of_snd (by assumption) (by assumption)

theorem execAppend_keeps (h : Half) (src : Src) (r : BitVec 256) (hk : Keeps ex s0 s) : ∀ u, execAppend h src r s = .next u → Keeps ex s0 u := by
  intro u ht
  unfold execAppend at ht
  have hu := Host.Outcome.next.inj ht
  clear ht
  subst hu
  repeat' first
    | with_reducible assumption
    | with_reducible apply manRow_keeps
    | with_reducible refine Keeps.ite (fun _ => ?_) (fun _ => ?_)
    | split
    | with_reducible exact Keeps.of_snd (by assumption) (by assumption)

theorem execFinish_keeps (h : Half) (src : Src) (r : BitVec 256) (hk : Keeps ex s0 s) : ∀ u, execFinish h src r s = .next u → Keeps ex s0 u := by
  intro u ht
  unfold execFinish at ht
  have hu := Host.Outcome.next.inj ht
  clear ht
  subst hu
  repeat' first
    | with_reducible assumption
    | with_reducible apply manRow_keeps
    | with_reducible refine Keeps.ite (fun _ => ?_) (fun _ => ?_)
    | split
    | with_reducible exact Keeps.of_snd (by assumption) (by assumption)

theorem execResume_keeps (h : Half) (src : Src) (r : BitVec 256) (hk : Keeps ex s0 s) : ∀ u, execResume h src r s = .next u → Keeps ex s0 u := by
  intro u ht
  unfold execResume at ht
  have hu := Host.Outcome.next.inj ht
  clear ht
  subst hu
  repeat' first
    | with_reducible assumption
    | with_reducible apply manRow_keeps
    | with_reducible refine Keeps.ite (fun _ => ?_) (fun _ => ?_)
    | split
    | with_reducible exact Keeps.of_snd (by assumption) (by assumption)

theorem execRelease_keeps (h : Half) (src : Src) (r : BitVec 256) (hk : Keeps ex s0 s) : ∀ u, execRelease h src r s = .next u → Keeps ex s0 u := by
  intro u ht
  unfold execRelease at ht
  have hu := Host.Outcome.next.inj ht
  clear ht
  subst hu
  repeat' first
    | with_reducible assumption
    | with_reducible apply manRow_keeps
    | with_reducible refine Keeps.ite (fun _ => ?_) (fun _ => ?_)
    | split
    | with_reducible exact Keeps.of_snd (by assumption) (by assumption)

theorem execPageReturn_keeps (h : Half) (hk : Keeps ex s0 s) : ∀ u, execPageReturn h s = .next u → Keeps ex s0 u := by
  intro u ht
  unfold execPageReturn at ht
  have hu := Host.Outcome.next.inj ht
  clear ht
  subst hu
  repeat' first
    | with_reducible assumption
    | with_reducible apply returnPages_keeps
    | with_reducible refine Keeps.ite (fun _ => ?_) (fun _ => ?_)
    | split
    | with_reducible exact Keeps.of_snd (by assumption) (by assumption)

theorem execPerBankRefresh_keeps (u0 : Half) (u1 : Nat) (u2 : Nat) (hk : Keeps ex s0 s) : ∀ u, execPerBankRefresh u0 u1 u2 s = .next u → Keeps ex s0 u := by
  intro u ht
  unfold execPerBankRefresh at ht
  have hu := Host.Outcome.next.inj ht
  clear ht
  subst hu
  repeat' first
    | with_reducible assumption
    | with_reducible refine Keeps.ite (fun _ => ?_) (fun _ => ?_)
    | split
    | with_reducible exact Keeps.of_snd (by assumption) (by assumption)

theorem execRfm_keeps (u0 : Half) (u1 : Nat) (u2 : Nat) (hk : Keeps ex s0 s) : ∀ u, execRfm u0 u1 u2 s = .next u → Keeps ex s0 u := by
  intro u ht
  unfold execRfm at ht
  have hu := Host.Outcome.next.inj ht
  clear ht
  subst hu
  repeat' first
    | with_reducible assumption
    | with_reducible refine Keeps.ite (fun _ => ?_) (fun _ => ?_)
    | split
    | with_reducible exact Keeps.of_snd (by assumption) (by assumption)

theorem scrubLine_keeps (h : Half) (line : Nat) (hk : Keeps ex s0 s) : Keeps ex s0 (scrubLine s h line) := by
  unfold scrubLine
  repeat' first
    | with_reducible assumption
    | extract_lets
    | with_reducible apply decodeLine_keeps
    | with_reducible refine Keeps.ite (fun _ => ?_) (fun _ => ?_)
    | split
    | with_reducible exact Keeps.of_snd (by assumption) (by assumption)
    | with_reducible refine Keeps.elsewhere (Eq.refl _) ?_ ⟨fun h => h, fun h => h⟩ ⟨fun h => h, fun h => h⟩

theorem execPatrolScrub_keeps (h : Half) (g : Nat) (t : Time) (hk : Keeps ex s0 s) : ∀ u, execPatrolScrub h g t s = .next u → Keeps ex s0 u := by
  intro u ht
  unfold execPatrolScrub at ht
  extract_lets at ht
  have hu := Host.Outcome.next.inj ht
  clear ht
  subst hu
  repeat' first
    | with_reducible assumption
    | extract_lets
    | with_reducible apply scrubLine_keeps
    | with_reducible apply atTime_keeps
    | with_reducible apply setNum_keeps
    | with_reducible refine Keeps.ite (fun _ => ?_) (fun _ => ?_)
    | with_reducible refine Keeps.foldl ?_ (fun t x ht => ?_)
    | with_reducible refine Keeps.foldl_snd ?_ (fun t x ht => ?_)
    | with_reducible refine Keeps.foldl_fst ?_ (fun t x ht => ?_)
    | with_reducible refine Keeps.foldl_trd ?_ (fun t x ht => ?_)
    | split
    | with_reducible exact Keeps.of_snd (by assumption) (by assumption)

theorem execRetraining_keeps (h : Half) (ch : Nat) (ok : Bool) (hk : Keeps ex s0 s) : ∀ u, execRetraining h ch ok s = .next u → Keeps ex s0 u := by
  intro u ht
  unfold execRetraining at ht
  have hu := Host.Outcome.next.inj ht
  clear ht
  subst hu
  repeat' first
    | with_reducible assumption
    | extract_lets
    | with_reducible apply bump_keeps
    | with_reducible apply enterSafe_keeps
    | with_reducible apply modHalf_keeps
    | with_reducible refine Keeps.ite (fun _ => ?_) (fun _ => ?_)
    | with_reducible exact fun _ => ⟨fun h => h, fun h => h⟩
    | split
    | with_reducible exact Keeps.of_snd (by assumption) (by assumption)
    | dsimp +zetaDelta only

end Sys2Proof.Machine
end

