-- ==== Sys2Proof/Laws/KeepsTimeCmds.lean ====
section
/-! SUPPORT. What no operation of Machine/TimeCmds.lean disturbs. -/
namespace Sys2Proof.Machine

variable {ex : Option Half} {s0 s : State}

theorem setTimeState_keeps (h : Half) (v : Nat) (hk : Keeps ex s0 s) : Keeps ex s0 (setTimeState s h v) := by
  unfold setTimeState
  repeat' first
    | with_reducible assumption
    | with_reducible apply setNum_keeps
    | with_reducible refine Keeps.ite (fun _ => ?_) (fun _ => ?_)
    | split
    | with_reducible exact Keeps.of_snd (by assumption) (by assumption)

theorem setGood_keeps (h : Half) (n : Nat) (hk : Keeps ex s0 s) : Keeps ex s0 (setGood s h n) := by
  unfold setGood
  repeat' first
    | with_reducible assumption
    | with_reducible apply modHalf_keeps
    | with_reducible refine Keeps.ite (fun _ => ?_) (fun _ => ?_)
    | with_reducible exact fun _ => ⟨fun h => h, fun h => h⟩
    | split
    | with_reducible exact Keeps.of_snd (by assumption) (by assumption)

theorem timeRecord_keeps (h : Half) (value : Nat) (ns : Int) (hk : Keeps ex s0 s) : Keeps ex s0 (timeRecord s h value ns) := by
  unfold timeRecord
  repeat' first
    | with_reducible assumption
    | with_reducible apply msix_keeps
    | with_reducible apply observe_keeps
    | with_reducible refine Keeps.ite (fun _ => ?_) (fun _ => ?_)
    | split
    | with_reducible exact Keeps.of_snd (by assumption) (by assumption)

theorem enterHoldover_keeps (h : Half) (hk : Keeps ex s0 s) : Keeps ex s0 (enterHoldover s h) := by
  unfold enterHoldover
  repeat' first
    | with_reducible assumption
    | with_reducible apply setGood_keeps
    | with_reducible apply setTimeState_keeps
    | with_reducible apply timeRecord_keeps
    | with_reducible refine Keeps.ite (fun _ => ?_) (fun _ => ?_)
    | split
    | with_reducible exact Keeps.of_snd (by assumption) (by assumption)

theorem newStepId_keeps  (hk : Keeps ex s0 s) : Keeps ex s0 (newStepId s) := by
  unfold newStepId
  repeat' first
    | with_reducible assumption
    | with_reducible apply setNum_keeps
    | with_reducible refine Keeps.ite (fun _ => ?_) (fun _ => ?_)
    | split
    | with_reducible exact Keeps.of_snd (by assumption) (by assumption)
    | with_reducible refine Keeps.elsewhere (Eq.refl _) ?_ ⟨fun h => h, fun h => h⟩ ⟨fun h => h, fun h => h⟩

theorem takeGm_keeps (h : Half) (identity : Nat) (port : Nat) (hk : Keeps ex s0 s) : Keeps ex s0 (takeGm s h identity port) := by
  unfold takeGm
  repeat' first
    | with_reducible assumption
    | extract_lets
    | with_reducible apply newStepId_keeps
    | with_reducible apply setGood_keeps
    | with_reducible apply timeRecord_keeps
    | with_reducible apply setNum_keeps
    | with_reducible refine Keeps.ite (fun _ => ?_) (fun _ => ?_)
    | split
    | with_reducible exact Keeps.of_snd (by assumption) (by assumption)
    | dsimp +zetaDelta only

theorem chooseGm_keeps (h : Half) (hk : Keeps ex s0 s) : Keeps ex s0 (chooseGm s h) := by
  unfold chooseGm
  repeat' first
    | with_reducible assumption
    | extract_lets
    | with_reducible apply takeGm_keeps
    | with_reducible apply setNum_keeps
    | with_reducible refine Keeps.ite (fun _ => ?_) (fun _ => ?_)
    | split
    | with_reducible exact Keeps.of_snd (by assumption) (by assumption)

theorem keepCounter_keeps (h : Half) (hk : Keeps ex s0 s) : Keeps ex s0 (keepCounter s h) := by
  unfold keepCounter
  repeat' first
    | with_reducible assumption
    | with_reducible apply modHalf_keeps
    | with_reducible refine Keeps.ite (fun _ => ?_) (fun _ => ?_)
    | with_reducible exact fun _ => ⟨fun h => h, fun h => h⟩
    | split
    | with_reducible exact Keeps.of_snd (by assumption) (by assumption)

theorem takeLead_keeps (h : Half) (hk : Keeps ex s0 s) : Keeps ex s0 (takeLead s h) := by
  unfold takeLead
  repeat' first
    | with_reducible assumption
    | extract_lets
    | with_reducible apply chooseGm_keeps
    | with_reducible apply enterHoldover_keeps
    | with_reducible apply keepCounter_keeps
    | with_reducible apply setTimeState_keeps
    | with_reducible refine Keeps.ite (fun _ => ?_) (fun _ => ?_)
    | split
    | with_reducible exact Keeps.of_snd (by assumption) (by assumption)
    | dsimp +zetaDelta only

theorem alignTime_keeps  (hk : Keeps ex s0 s) : Keeps ex s0 (alignTime s) := by
  unfold alignTime
  repeat' first
    | with_reducible assumption
    | extract_lets
    | with_reducible apply modHalf_keeps
    | with_reducible refine Keeps.ite (fun _ => ?_) (fun _ => ?_)
    | with_reducible exact fun _ => ⟨fun h => h, fun h => h⟩
    | split
    | with_reducible exact Keeps.of_snd (by assumption) (by assumption)
    | dsimp +zetaDelta only

theorem slew_keeps (h : Half) (offset : Int) (hk : Keeps ex s0 s) : Keeps ex s0 (slew s h offset) := by
  unfold slew
  repeat' first
    | with_reducible assumption
    | with_reducible apply setNum_keeps
    | with_reducible refine Keeps.ite (fun _ => ?_) (fun _ => ?_)
    | split
    | with_reducible exact Keeps.of_snd (by assumption) (by assumption)

theorem shiftTime_keeps (d : Time) (hk : Keeps ex s0 s) : Keeps ex s0 (shiftTime s d) := by
  unfold shiftTime
  repeat' first
    | with_reducible assumption
    | with_reducible refine Keeps.ite (fun _ => ?_) (fun _ => ?_)
    | split
    | with_reducible exact Keeps.of_snd (by assumption) (by assumption)
    | with_reducible refine Keeps.elsewhere (Eq.refl _) ?_ ⟨fun h => h, fun h => h⟩ ⟨fun h => h, fun h => h⟩

theorem takeSync_keeps (h : Half) (offset : Int) (hk : Keeps ex s0 s) : Keeps ex s0 (takeSync s h offset) := by
  unfold takeSync
  repeat' first
    | with_reducible assumption
    | extract_lets
    | with_reducible apply newStepId_keeps
    | with_reducible apply setGood_keeps
    | with_reducible apply setTimeState_keeps
    | with_reducible apply slew_keeps
    | with_reducible apply timeRecord_keeps
    | with_reducible apply modHalf_keeps
    | with_reducible apply setNum_keeps
    | with_reducible refine Keeps.ite (fun _ => ?_) (fun _ => ?_)
    | with_reducible exact fun _ => ⟨fun h => h, fun h => h⟩
    | split
    | with_reducible exact Keeps.of_snd (by assumption) (by assumption)
    | dsimp +zetaDelta only

theorem execSync_keeps (h : Half) (port : Nat) (gm : Time) (t : Time) (hk : Keeps ex s0 s) : ∀ u, execSync h port gm t s = .next u → Keeps ex s0 u := by
  intro u ht
  unfold execSync at ht
  extract_lets at ht
  have hu := Host.Outcome.next.inj ht
  clear ht
  subst hu
  repeat' first
    | with_reducible assumption
    | extract_lets
    | with_reducible apply takeSync_keeps
    | with_reducible apply atTime_keeps
    | with_reducible apply modHalf_keeps
    | with_reducible refine Keeps.ite (fun _ => ?_) (fun _ => ?_)
    | with_reducible exact fun _ => ⟨fun h => h, fun h => h⟩
    | split
    | with_reducible exact Keeps.of_snd (by assumption) (by assumption)

theorem execSyncReceiptTimeout_keeps (h : Half) (hk : Keeps ex s0 s) : ∀ u, execSyncReceiptTimeout h s = .next u → Keeps ex s0 u := by
  intro u ht
  unfold execSyncReceiptTimeout at ht
  have hu := Host.Outcome.next.inj ht
  clear ht
  subst hu
  repeat' first
    | with_reducible assumption
    | with_reducible apply enterHoldover_keeps
    | with_reducible refine Keeps.ite (fun _ => ?_) (fun _ => ?_)
    | split
    | with_reducible exact Keeps.of_snd (by assumption) (by assumption)

theorem execAnnounceReceiptTimeout_keeps (h : Half) (hk : Keeps ex s0 s) : ∀ u, execAnnounceReceiptTimeout h s = .next u → Keeps ex s0 u := by
  intro u ht
  unfold execAnnounceReceiptTimeout at ht
  extract_lets at ht
  have hu := Host.Outcome.next.inj ht
  clear ht
  subst hu
  repeat' first
    | with_reducible assumption
    | extract_lets
    | with_reducible apply enterHoldover_keeps
    | with_reducible apply modHalf_keeps
    | with_reducible apply setNum_keeps
    | with_reducible refine Keeps.ite (fun _ => ?_) (fun _ => ?_)
    | with_reducible exact fun _ => ⟨fun h => h, fun h => h⟩
    | split
    | with_reducible exact Keeps.of_snd (by assumption) (by assumption)

theorem execAnnounce_keeps (h : Half) (port : Nat) (a : Announce) (hk : Keeps ex s0 s) : ∀ u, execAnnounce h port a s = .next u → Keeps ex s0 u := by
  intro u ht
  unfold execAnnounce at ht
  have hu := Host.Outcome.next.inj ht
  clear ht
  subst hu
  repeat' first
    | with_reducible assumption
    | with_reducible apply chooseGm_keeps
    | with_reducible apply modHalf_keeps
    | with_reducible refine Keeps.ite (fun _ => ?_) (fun _ => ?_)
    | with_reducible exact fun _ => ⟨fun h => h, fun h => h⟩
    | split
    | with_reducible exact Keeps.of_snd (by assumption) (by assumption)

theorem execPdelay_keeps (h : Half) (port : Nat) (t1 : Time) (t2 : Time) (t3 : Time) (t4 : Time) (hk : Keeps ex s0 s) : ∀ u, execPdelay h port t1 t2 t3 t4 s = .next u → Keeps ex s0 u := by
  intro u ht
  unfold execPdelay at ht
  have hu := Host.Outcome.next.inj ht
  clear ht
  subst hu
  repeat' first
    | with_reducible assumption
    | with_reducible apply setNum_keeps
    | with_reducible refine Keeps.ite (fun _ => ?_) (fun _ => ?_)
    | split
    | with_reducible exact Keeps.of_snd (by assumption) (by assumption)

theorem execSyncSend_keeps (h : Half) (port : Nat) (t : Time) (hk : Keeps ex s0 s) : ∀ u, execSyncSend h port t s = .next u → Keeps ex s0 u := by
  intro u ht
  unfold execSyncSend at ht
  extract_lets at ht
  have hu := Host.Outcome.next.inj ht
  clear ht
  subst hu
  repeat' first
    | with_reducible assumption
    | extract_lets
    | with_reducible apply atTime_keeps
    | with_reducible apply emit_keeps
    | with_reducible refine Keeps.ite (fun _ => ?_) (fun _ => ?_)
    | split
    | with_reducible exact Keeps.of_snd (by assumption) (by assumption)

theorem acceptStep_keeps (h : Half) (v : Nat) (hk : Keeps ex s0 s) : Keeps ex s0 (acceptStep s h v).2 := by
  unfold acceptStep
  repeat' first
    | with_reducible assumption
    | extract_lets
    | with_reducible refine Keeps.ite (fun _ => ?_) (fun _ => ?_)
    | with_reducible refine Keeps.ite_snd (fun _ => ?_) (fun _ => ?_)
    | with_reducible refine Keeps.ite_fst (fun _ => ?_) (fun _ => ?_)
    | split
    | with_reducible exact Keeps.of_snd (by assumption) (by assumption)
    | with_reducible refine Keeps.elsewhere (Eq.refl _) ?_ ⟨fun h => h, fun h => h⟩ ⟨fun h => h, fun h => h⟩
    | with_reducible apply Keeps.mk_fst
    | with_reducible apply Keeps.mk_snd

theorem setLoop_keeps (h : Half) (n : Nat) (l : Loop) (hk : Keeps ex s0 s) : Keeps ex s0 (State.setLoop s h n l) := by
  unfold State.setLoop
  repeat' first
    | with_reducible assumption
    | with_reducible apply modHalf_keeps
    | with_reducible refine Keeps.ite (fun _ => ?_) (fun _ => ?_)
    | with_reducible exact fun _ => ⟨fun h => h, fun h => h⟩
    | exact fun x => ⟨fun h => h, fun h => TablesWf.loops (x := x) h (Tab.sortedFrom_set _ _ _ _)⟩
    | split
    | with_reducible exact Keeps.of_snd (by assumption) (by assumption)

theorem skipSamples_keeps (h : Half) (t : Time) (d : Int) (n : Nat) (hk : Keeps ex s0 s) : Keeps ex s0 (skipSamples s h t d n) := by
  unfold skipSamples
  repeat' first
    | with_reducible assumption
    | extract_lets
    | with_reducible apply setLoop_keeps
    | with_reducible apply bump_keeps
    | with_reducible refine Keeps.ite (fun _ => ?_) (fun _ => ?_)
    | split
    | with_reducible exact Keeps.of_snd (by assumption) (by assumption)

theorem applyStep_keeps  (hk : Keeps ex s0 s) : Keeps ex s0 (applyStep s) := by
  unfold applyStep
  repeat' first
    | with_reducible assumption
    | extract_lets
    | with_reducible apply setGood_keeps
    | with_reducible apply setTimeState_keeps
    | with_reducible apply shiftTime_keeps
    | with_reducible apply skipSamples_keeps
    | with_reducible apply observe_keeps
    | with_reducible apply setNum_keeps
    | with_reducible refine Keeps.ite (fun _ => ?_) (fun _ => ?_)
    | with_reducible refine Keeps.foldl ?_ (fun t x ht => ?_)
    | with_reducible refine Keeps.foldl_snd ?_ (fun t x ht => ?_)
    | with_reducible refine Keeps.foldl_fst ?_ (fun t x ht => ?_)
    | with_reducible refine Keeps.foldl_trd ?_ (fun t x ht => ?_)
    | split
    | with_reducible exact Keeps.of_snd (by assumption) (by assumption)
    | with_reducible refine Keeps.elsewhere (Eq.refl _) ?_ ⟨fun h => h, fun h => h⟩ ⟨fun h => h, fun h => h⟩

theorem execStepApply_keeps (t : Time) (hk : Keeps ex s0 s) : ∀ u, execStepApply t s = .next u → Keeps ex s0 u := by
  intro u ht
  unfold execStepApply at ht
  have hu := Host.Outcome.next.inj ht
  clear ht
  subst hu
  repeat' first
    | with_reducible assumption
    | with_reducible apply applyStep_keeps
    | with_reducible apply atTime_keeps
    | with_reducible refine Keeps.ite (fun _ => ?_) (fun _ => ?_)
    | split
    | with_reducible exact Keeps.of_snd (by assumption) (by assumption)

theorem execTimeSend_keeps (h : Half) (t : Time) (hk : Keeps ex s0 s) : ∀ u, execTimeSend h t s = .next u → Keeps ex s0 u := by
  intro u ht
  unfold execTimeSend at ht
  extract_lets at ht
  have hu := Host.Outcome.next.inj ht
  clear ht
  subst hu
  repeat' first
    | with_reducible assumption
    | extract_lets
    | with_reducible apply atTime_keeps
    | with_reducible apply modHalf_keeps
    | with_reducible refine Keeps.ite (fun _ => ?_) (fun _ => ?_)
    | with_reducible exact fun _ => ⟨fun h => h, fun h => h⟩
    | split
    | with_reducible exact Keeps.of_snd (by assumption) (by assumption)

theorem execTime_keeps (h : Half) (t : Time) (hk : Keeps ex s0 s) : ∀ u, execTime h t s = .next u → Keeps ex s0 u := by
  intro u ht
  unfold execTime at ht
  extract_lets at ht
  have hu := Host.Outcome.next.inj ht
  clear ht
  subst hu
  repeat' first
    | with_reducible assumption
    | extract_lets
    | with_reducible apply setTimeState_keeps
    | with_reducible apply slew_keeps
    | with_reducible apply atTime_keeps
    | with_reducible apply modHalf_keeps
    | with_reducible apply setLink_keeps
    | with_reducible apply setNum_keeps
    | with_reducible refine Keeps.ite (fun _ => ?_) (fun _ => ?_)
    | with_reducible exact fun _ => ⟨fun h => h, fun h => h⟩
    | split
    | with_reducible exact Keeps.of_snd (by assumption) (by assumption)
    | dsimp +zetaDelta only

end Sys2Proof.Machine
end

