-- ==== Sys2Proof/Laws/KeepsHalfOps.lean ====
section
/-! SUPPORT. What no operation of Machine/HalfOps.lean disturbs. -/
namespace Sys2Proof.Machine

variable {ex : Option Half} {s0 s : State}

theorem setPeer_keeps (h : Half) (v : Nat) (hk : Keeps ex s0 s) : Keeps ex s0 (setPeer s h v) := by
  unfold setPeer
  repeat' first
    | with_reducible assumption
    | with_reducible apply modHalf_keeps
    | with_reducible apply msix_keeps
    | with_reducible refine Keeps.ite (fun _ => ?_) (fun _ => ?_)
    | with_reducible exact fun _ => ⟨fun h => h, fun h => h⟩
    | split
    | with_reducible exact Keeps.of_snd (by assumption) (by assumption)

theorem openLoops_keeps (h : Half) (hk : Keeps ex s0 s) : Keeps ex s0 (openLoops s h) := by
  unfold openLoops
  repeat' first
    | with_reducible assumption
    | with_reducible apply setNum_keeps
    | with_reducible refine Keeps.ite (fun _ => ?_) (fun _ => ?_)
    | with_reducible refine Keeps.foldl ?_ (fun t x ht => ?_)
    | with_reducible refine Keeps.foldl_snd ?_ (fun t x ht => ?_)
    | with_reducible refine Keeps.foldl_fst ?_ (fun t x ht => ?_)
    | with_reducible refine Keeps.foldl_trd ?_ (fun t x ht => ?_)
    | split
    | with_reducible exact Keeps.of_snd (by assumption) (by assumption)

theorem setPower_keeps (h : Half) (v : Nat) (hk : Keeps ex s0 s) : Keeps ex s0 (setPower s h v) := by
  unfold setPower
  repeat' first
    | with_reducible assumption
    | with_reducible apply setNum_keeps
    | with_reducible apply showDevicePower_keeps
    | with_reducible refine Keeps.ite (fun _ => ?_) (fun _ => ?_)
    | split
    | with_reducible exact Keeps.of_snd (by assumption) (by assumption)

theorem forcedNap_keeps (h : Half) (hk : Keeps ex s0 s) : Keeps ex s0 (forcedNap s h) := by
  unfold forcedNap
  extract_lets a
  apply setPower_keeps
  apply stopPasses_keeps
  apply clearClusters_keeps
  refine modHalf_keeps _ _ hk fun x => ⟨fun h => h, fun h => ?_⟩
  obtain ⟨_, _, _, _, _, _, hr, hl, hc, ht, hp, ho, hn, hs⟩ := h
  exact ⟨Eq.refl _, Eq.refl _, Eq.refl _, Eq.refl _, Eq.refl _, Eq.refl _, hr, hl, hc, ht, hp, ho, Tab.sortedFrom_map _ _ _ (fun _ => Eq.refl _) hn, hs⟩

theorem endOutstanding_keeps (h : Half) (status : Nat) (hit : Xfer → Bool) (hk : Keeps ex s0 s) : Keeps ex s0 (endOutstanding s h status hit) := by
  unfold endOutstanding
  repeat' first
    | with_reducible assumption
    | extract_lets
    | with_reducible apply modHalf_keeps
    | with_reducible apply setCtx_keeps
    | with_reducible apply endTicket_keeps
    | with_reducible refine Keeps.ite (fun _ => ?_) (fun _ => ?_)
    | with_reducible refine Keeps.foldl ?_ (fun t x ht => ?_)
    | with_reducible refine Keeps.foldl_snd ?_ (fun t x ht => ?_)
    | with_reducible refine Keeps.foldl_fst ?_ (fun t x ht => ?_)
    | with_reducible refine Keeps.foldl_trd ?_ (fun t x ht => ?_)
    | with_reducible exact fun _ => ⟨fun h => h, fun h => h⟩
    | split
    | with_reducible exact Keeps.of_snd (by assumption) (by assumption)
    | dsimp +zetaDelta only

theorem spoilSent_keeps (ms : List LinkMsg) (hk : Keeps ex s0 s) : Keeps ex s0 (spoilSent s ms) := by
  unfold spoilSent
  with_reducible refine Keeps.foldl hk (fun t x ht => ?_)
  extract_lets n
  with_reducible refine Keeps.foldl ht (fun t x ht => ?_)
  extract_lets r
  have h1 : Keeps ex s0 r.2 := free_keeps ht
  exact h1.trans ⟨Eq.refl _, Eq.refl _, Eq.refl _, Nat.le_refl _, List.prefix_rfl, fun h => ⟨memSet_wf _ _ _ h.mem, h.dict, h.dictBytes, h.bow, h.stern⟩, fun _ _ h => h⟩

theorem endNaming_keeps (h : Half) (hk : Keeps ex s0 s) : Keeps ex s0 (endNaming s h) := by
  unfold endNaming
  repeat' first
    | with_reducible assumption
    | with_reducible apply endTicket_keeps
    | with_reducible refine Keeps.ite (fun _ => ?_) (fun _ => ?_)
    | with_reducible refine Keeps.foldl ?_ (fun t x ht => ?_)
    | with_reducible refine Keeps.foldl_snd ?_ (fun t x ht => ?_)
    | with_reducible refine Keeps.foldl_fst ?_ (fun t x ht => ?_)
    | with_reducible refine Keeps.foldl_trd ?_ (fun t x ht => ?_)
    | split
    | with_reducible exact Keeps.of_snd (by assumption) (by assumption)

theorem lifeboatInForce_keeps (h : Half) (hk : Keeps ex s0 s) : Keeps ex s0 (lifeboatInForce s h) := by
  unfold lifeboatInForce
  repeat' first
    | with_reducible assumption
    | extract_lets
    | with_reducible apply modHalf_keeps
    | with_reducible apply setNum_keeps
    | with_reducible refine Keeps.ite (fun _ => ?_) (fun _ => ?_)
    | with_reducible exact fun _ => ⟨fun h => h, fun h => h⟩
    | split
    | with_reducible exact Keeps.of_snd (by assumption) (by assumption)

theorem lifeboatQueues_keeps (h : Half) (hk : Keeps ex s0 s) : Keeps ex s0 (lifeboatQueues s h) := by
  unfold lifeboatQueues
  repeat' first
    | with_reducible assumption
    | extract_lets
    | with_reducible apply setQuay_keeps
    | with_reducible apply ringDoorbell_keeps
    | with_reducible apply wakeIdle_keeps
    | with_reducible refine Keeps.ite (fun _ => ?_) (fun _ => ?_)
    | with_reducible refine Keeps.foldl ?_ (fun t x ht => ?_)
    | with_reducible refine Keeps.foldl_snd ?_ (fun t x ht => ?_)
    | with_reducible refine Keeps.foldl_fst ?_ (fun t x ht => ?_)
    | with_reducible refine Keeps.foldl_trd ?_ (fun t x ht => ?_)
    | split
    | with_reducible exact Keeps.of_snd (by assumption) (by assumption)
    | with_reducible refine Keeps.elsewhere (Eq.refl _) ?_ ⟨fun h => h, fun h => h⟩ ⟨fun h => h, fun h => h⟩

theorem startNap_keeps (h : Half) (kind : Nat) (hk : Keeps ex s0 s) : Keeps ex s0 (startNap s h kind) := by
  unfold startNap
  repeat' first
    | with_reducible assumption
    | extract_lets
    | with_reducible apply modHalf_keeps
    | with_reducible refine Keeps.ite (fun _ => ?_) (fun _ => ?_)
    | with_reducible exact fun _ => ⟨fun h => h, fun h => h⟩
    | exact fun x => ⟨fun h => h, fun h => TablesWf.cores (x := x) h (Tab.sortedFrom_map _ _ _ (fun _ => by first | exact Eq.refl _ | (split <;> exact Eq.refl _)))⟩
    | split
    | with_reducible exact Keeps.of_snd (by assumption) (by assumption)
    | with_reducible refine Keeps.elsewhere (Eq.refl _) ?_ ⟨fun h => h, fun h => h⟩ ⟨fun h => h, fun h => h⟩

theorem lifeboatRun_keeps (h : Half) (hk : Keeps ex s0 s) : Keeps ex s0 (lifeboatRun s h) := by
  unfold lifeboatRun
  repeat' first
    | with_reducible assumption
    | extract_lets
    | with_reducible apply lifeboatInForce_keeps
    | with_reducible apply lifeboatQueues_keeps
    | with_reducible apply startNap_keeps
    | with_reducible apply takeWaiting_keeps
    | with_reducible apply wakeIdle_keeps
    | with_reducible refine Keeps.ite (fun _ => ?_) (fun _ => ?_)
    | split
    | with_reducible exact Keeps.of_snd (by assumption) (by assumption)

theorem lifeboatStart_keeps (h : Half) (planned : Bool) (cause : Nat) (hk : Keeps ex s0 s) : Keeps ex s0 (lifeboatStart s h planned cause) := by
  unfold lifeboatStart
  repeat' first
    | with_reducible assumption
    | extract_lets
    | with_reducible apply endNaming_keeps
    | with_reducible apply lifeboatRun_keeps
    | with_reducible apply modHalf_keeps
    | with_reducible apply safetyMessage_keeps
    | with_reducible refine Keeps.ite (fun _ => ?_) (fun _ => ?_)
    | with_reducible exact fun _ => ⟨fun h => h, fun h => h⟩
    | split
    | with_reducible exact Keeps.of_snd (by assumption) (by assumption)
    | dsimp +zetaDelta only

theorem lifeboatDigestOk_keeps (h : Half) (hk : Keeps ex s0 s) : Keeps ex s0 (lifeboatDigestOk s h).2 := by
  unfold lifeboatDigestOk
  repeat' first
    | with_reducible assumption
    | extract_lets
    | with_reducible apply readCheck_keeps
    | with_reducible refine Keeps.ite (fun _ => ?_) (fun _ => ?_)
    | with_reducible refine Keeps.ite_snd (fun _ => ?_) (fun _ => ?_)
    | with_reducible refine Keeps.ite_fst (fun _ => ?_) (fun _ => ?_)
    | split
    | with_reducible exact Keeps.of_snd (by assumption) (by assumption)
    | with_reducible apply Keeps.mk_fst
    | with_reducible apply Keeps.mk_snd

theorem judgeLost_keeps (h : Half) (cause : Nat) (hk : Keeps ex s0 s) : Keeps ex s0 (judgeLost s h cause) := by
  unfold judgeLost
  repeat' first
    | with_reducible assumption
    | extract_lets
    | with_reducible apply endNaming_keeps
    | with_reducible apply endOutstanding_keeps
    | with_reducible apply forcedNap_keeps
    | with_reducible apply lifeboatStart_keeps
    | with_reducible apply setPeer_keeps
    | with_reducible apply emit_keeps
    | with_reducible apply modHalf_keeps
    | with_reducible apply takeLead_keeps
    | with_reducible refine Keeps.ite (fun _ => ?_) (fun _ => ?_)
    | with_reducible exact fun _ => ⟨fun h => h, fun h => h⟩
    | split
    | with_reducible exact Keeps.of_snd (by assumption) (by assumption)

theorem ferryEndFails_keeps (g : Half) (hk : Keeps ex s0 s) : Keeps ex s0 (ferryEndFails s g) := by
  unfold ferryEndFails
  repeat' first
    | with_reducible assumption
    | extract_lets
    | with_reducible apply spoilSent_keeps
    | with_reducible apply modHalf_keeps
    | with_reducible apply msix_keeps
    | with_reducible apply observe_keeps
    | with_reducible apply setLink_keeps
    | with_reducible apply takeLead_keeps
    | with_reducible refine Keeps.ite (fun _ => ?_) (fun _ => ?_)
    | with_reducible exact fun _ => ⟨fun h => h, fun h => h⟩
    | split
    | with_reducible exact Keeps.of_snd (by assumption) (by assumption)

theorem ferryFailed_keeps (h : Half) (hk : Keeps ex s0 s) : Keeps ex s0 (ferryFailed s h) := by
  unfold ferryFailed
  repeat' first
    | with_reducible assumption
    | extract_lets
    | with_reducible apply endOutstanding_keeps
    | with_reducible apply ferryEndFails_keeps
    | with_reducible apply judgeLost_keeps
    | with_reducible apply enterSafe_keeps
    | with_reducible refine Keeps.ite (fun _ => ?_) (fun _ => ?_)
    | split
    | with_reducible exact Keeps.of_snd (by assumption) (by assumption)
    | dsimp +zetaDelta only

theorem enterService_keeps (h : Half) (hk : Keeps (some h) s0 s) : Keeps (some h) s0 (enterService s h) := by
  unfold enterService
  refine Keeps.ite (fun _ => modHalf_keeps_but _ _ hk (fun _ h => h)) (fun _ => ?_)
  extract_lets a b c
  apply setPeer_keeps
  have h1 : Keeps (some h) s0 b := modHalf_keeps_but _ _ (setPower_keeps _ _ (setNum_keeps _ _ _ hk)) (fun x h => TablesWf.springs (x := x) h (fun _ => Eq.refl _))
  simp only [c]
  with_reducible refine Keeps.ite (fun _ => ?_) (fun _ => h1)
  exact setPeer_keeps _ _ h1

end Sys2Proof.Machine
end

