-- ==== Sys2Proof/Laws/KeepsLinkCmds.lean ====
section
/-! SUPPORT. What no operation of Machine/LinkCmds.lean disturbs. -/
namespace Sys2Proof.Machine

variable {ex : Option Half} {s0 s : State}

theorem storeDiscard_keeps (h : Half) (hk : Keeps ex s0 s) : Keeps ex s0 (storeDiscard s h) := by
  unfold storeDiscard
  repeat' first
    | with_reducible assumption
    | with_reducible apply modHalf_keeps
    | with_reducible refine Keeps.ite (fun _ => ?_) (fun _ => ?_)
    | with_reducible exact fun _ => ⟨fun h => h, fun h => h⟩
    | split
    | with_reducible exact Keeps.of_snd (by assumption) (by assumption)

theorem bar4Piece_keeps (h : Half) (a : Nat) (bs : List Byte) (hk : Keeps ex s0 s) : Keeps ex s0 (bar4Piece s h a bs) := by
  unfold bar4Piece
  repeat' first
    | with_reducible assumption
    | extract_lets
    | with_reducible apply storeDiscard_keeps
    | with_reducible apply decodeLine_keeps
    | with_reducible apply write_keeps
    | with_reducible refine Keeps.ite (fun _ => ?_) (fun _ => ?_)
    | split
    | with_reducible exact Keeps.of_snd (by assumption) (by assumption)

theorem execBar4Write_keeps (h : Half) (ofs : Nat) (bs : List Byte) (hk : Keeps ex s0 s) : ∀ u, execBar4Write h ofs bs s = .next u → Keeps ex s0 u := by
  intro u ht
  unfold execBar4Write at ht
  have hu := Host.Outcome.next.inj ht
  clear ht
  subst hu
  repeat' first
    | with_reducible assumption
    | extract_lets
    | with_reducible apply bar4Piece_keeps
    | with_reducible refine Keeps.ite (fun _ => ?_) (fun _ => ?_)
    | with_reducible refine Keeps.ite_snd (fun _ => ?_) (fun _ => ?_)
    | with_reducible refine Keeps.ite_fst (fun _ => ?_) (fun _ => ?_)
    | with_reducible refine Keeps.foldl ?_ (fun t x ht => ?_)
    | with_reducible refine Keeps.foldl_snd ?_ (fun t x ht => ?_)
    | with_reducible refine Keeps.foldl_fst ?_ (fun t x ht => ?_)
    | with_reducible refine Keeps.foldl_trd ?_ (fun t x ht => ?_)
    | split
    | with_reducible exact Keeps.of_snd (by assumption) (by assumption)
    | with_reducible apply Keeps.mk_fst
    | with_reducible apply Keeps.mk_snd

theorem execBar4Read_keeps (h : Half) (ofs : Nat) (n : Nat) (hk : Keeps ex s0 s) : ∀ u, execBar4Read h ofs n s = .next u → Keeps ex s0 u := by
  intro u ht
  unfold execBar4Read at ht
  have hu := Host.Outcome.next.inj ht
  clear ht
  subst hu
  repeat' first
    | with_reducible assumption
    | extract_lets
    | with_reducible apply decodeLine_keeps
    | with_reducible apply emit_keeps
    | with_reducible refine Keeps.ite (fun _ => ?_) (fun _ => ?_)
    | with_reducible refine Keeps.ite_snd (fun _ => ?_) (fun _ => ?_)
    | with_reducible refine Keeps.ite_fst (fun _ => ?_) (fun _ => ?_)
    | with_reducible refine Keeps.foldl ?_ (fun t x ht => ?_)
    | with_reducible refine Keeps.foldl_snd ?_ (fun t x ht => ?_)
    | with_reducible refine Keeps.foldl_fst ?_ (fun t x ht => ?_)
    | with_reducible refine Keeps.foldl_trd ?_ (fun t x ht => ?_)
    | split
    | with_reducible exact Keeps.of_snd (by assumption) (by assumption)
    | with_reducible apply Keeps.mk_fst
    | with_reducible apply Keeps.mk_snd

theorem sendPending_keeps (h : Half) (v : Nat) (hk : Keeps ex s0 s) : Keeps ex s0 (sendPending s h v) := by
  unfold sendPending
  repeat' first
    | with_reducible assumption
    | extract_lets
    | with_reducible apply modHalf_keeps
    | with_reducible apply msix_keeps
    | with_reducible refine Keeps.ite (fun _ => ?_) (fun _ => ?_)
    | with_reducible exact fun _ => ⟨fun h => h, fun h => h⟩
    | split
    | with_reducible exact Keeps.of_snd (by assumption) (by assumption)

theorem writeMsix_keeps (h : Half) (o : Nat) (bs : List Byte) (hk : Keeps ex s0 s) : Keeps ex s0 (writeMsix s h o bs) := by
  unfold writeMsix
  repeat' first
    | with_reducible assumption
    | extract_lets
    | with_reducible apply sendPending_keeps
    | with_reducible apply modHalf_keeps
    | with_reducible refine Keeps.ite (fun _ => ?_) (fun _ => ?_)
    | with_reducible refine Keeps.foldl ?_ (fun t x ht => ?_)
    | with_reducible refine Keeps.foldl_snd ?_ (fun t x ht => ?_)
    | with_reducible refine Keeps.foldl_fst ?_ (fun t x ht => ?_)
    | with_reducible refine Keeps.foldl_trd ?_ (fun t x ht => ?_)
    | with_reducible exact fun _ => ⟨fun h => h, fun h => h⟩
    | split
    | with_reducible exact Keeps.of_snd (by assumption) (by assumption)

theorem writeMailbox_keeps (h : Half) (o : Nat) (bs : List Byte) (hk : Keeps ex s0 s) : Keeps ex s0 (writeMailbox s h o bs) := by
  unfold writeMailbox
  repeat' first
    | with_reducible assumption
    | extract_lets
    | with_reducible apply modHalf_keeps
    | with_reducible refine Keeps.ite (fun _ => ?_) (fun _ => ?_)
    | with_reducible refine Keeps.foldl ?_ (fun t x ht => ?_)
    | with_reducible refine Keeps.foldl_snd ?_ (fun t x ht => ?_)
    | with_reducible refine Keeps.foldl_fst ?_ (fun t x ht => ?_)
    | with_reducible refine Keeps.foldl_trd ?_ (fun t x ht => ?_)
    | with_reducible exact fun _ => ⟨fun h => h, fun h => h⟩
    | split
    | with_reducible exact Keeps.of_snd (by assumption) (by assumption)

theorem writeBar0_keeps (h : Half) (o : Nat) (bs : List Byte) (hk : Keeps ex s0 s) : Keeps ex s0 (writeBar0 s h o bs) := by
  unfold writeBar0
  repeat' first
    | with_reducible assumption
    | with_reducible apply writeMailbox_keeps
    | with_reducible apply writeMsix_keeps
    | with_reducible apply abortRequest_keeps
    | with_reducible apply discardBar0_keeps
    | with_reducible apply manRequest_keeps
    | with_reducible apply writeCtxEntry_keeps
    | with_reducible apply writeQuay_keeps
    | with_reducible refine Keeps.ite (fun _ => ?_) (fun _ => ?_)
    | split
    | with_reducible exact Keeps.of_snd (by assumption) (by assumption)

theorem bar0Read_keeps (h : Half) (o : Nat) (n : Nat) (hk : Keeps ex s0 s) : Keeps ex s0 (bar0Read s h o n).2 := by
  unfold bar0Read
  repeat' first
    | with_reducible assumption
    | with_reducible apply discardBar0_keeps
    | with_reducible refine Keeps.ite (fun _ => ?_) (fun _ => ?_)
    | with_reducible refine Keeps.ite_snd (fun _ => ?_) (fun _ => ?_)
    | with_reducible refine Keeps.ite_fst (fun _ => ?_) (fun _ => ?_)
    | split
    | with_reducible exact Keeps.of_snd (by assumption) (by assumption)
    | with_reducible apply Keeps.mk_fst
    | with_reducible apply Keeps.mk_snd

theorem execBar0Write_keeps (h : Half) (ofs : Nat) (bs : List Byte) (hk : Keeps ex s0 s) : ∀ u, execBar0Write h ofs bs s = .next u → Keeps ex s0 u := by
  intro u ht
  unfold execBar0Write at ht
  have hu := Host.Outcome.next.inj ht
  clear ht
  subst hu
  repeat' first
    | with_reducible assumption
    | with_reducible apply writeBar0_keeps
    | with_reducible refine Keeps.ite (fun _ => ?_) (fun _ => ?_)
    | split
    | with_reducible exact Keeps.of_snd (by assumption) (by assumption)

theorem execMsixUnmask_keeps (h : Half) (v : Nat) (hk : Keeps ex s0 s) : ∀ u, execMsixUnmask h v s = .next u → Keeps ex s0 u := by
  intro u ht
  unfold execMsixUnmask at ht
  have hu := Host.Outcome.next.inj ht
  clear ht
  subst hu
  repeat' first
    | with_reducible assumption
    | with_reducible apply writeMsix_keeps
    | with_reducible refine Keeps.ite (fun _ => ?_) (fun _ => ?_)
    | split
    | with_reducible exact Keeps.of_snd (by assumption) (by assumption)

theorem endHostReads_keeps (h : Half) (hk : Keeps ex s0 s) : Keeps ex s0 (endHostReads s h) := by
  unfold endHostReads
  repeat' first
    | with_reducible assumption
    | extract_lets
    | with_reducible apply faultCtx_keeps
    | with_reducible refine Keeps.ite (fun _ => ?_) (fun _ => ?_)
    | with_reducible refine Keeps.foldl ?_ (fun t x ht => ?_)
    | with_reducible refine Keeps.foldl_snd ?_ (fun t x ht => ?_)
    | with_reducible refine Keeps.foldl_fst ?_ (fun t x ht => ?_)
    | with_reducible refine Keeps.foldl_trd ?_ (fun t x ht => ?_)
    | split
    | with_reducible exact Keeps.of_snd (by assumption) (by assumption)

theorem linkLost_keeps (h : Half) (perst : Bool) (hk : Keeps ex s0 s) : Keeps ex s0 (linkLost s h perst) := by
  unfold linkLost
  repeat' first
    | with_reducible assumption
    | extract_lets
    | with_reducible apply endHostReads_keeps
    | with_reducible apply bump_keeps
    | with_reducible apply modHalf_keeps
    | with_reducible apply observe_keeps
    | with_reducible refine Keeps.ite (fun _ => ?_) (fun _ => ?_)
    | with_reducible exact fun _ => ⟨fun h => h, fun h => h⟩
    | split
    | with_reducible exact Keeps.of_snd (by assumption) (by assumption)
    | dsimp +zetaDelta only

theorem execHdPerstN_keeps (h : Half) (hk : Keeps ex s0 s) : ∀ u, execHdPerstN h s = .next u → Keeps ex s0 u := by
  intro u ht
  unfold execHdPerstN at ht
  have hu := Host.Outcome.next.inj ht
  clear ht
  subst hu
  repeat' first
    | with_reducible assumption
    | with_reducible apply linkLost_keeps
    | with_reducible refine Keeps.ite (fun _ => ?_) (fun _ => ?_)
    | split
    | with_reducible exact Keeps.of_snd (by assumption) (by assumption)

theorem execLinkDown_keeps (h : Half) (hk : Keeps ex s0 s) : ∀ u, execLinkDown h s = .next u → Keeps ex s0 u := by
  intro u ht
  unfold execLinkDown at ht
  have hu := Host.Outcome.next.inj ht
  clear ht
  subst hu
  repeat' first
    | with_reducible assumption
    | with_reducible apply linkLost_keeps
    | with_reducible refine Keeps.ite (fun _ => ?_) (fun _ => ?_)
    | split
    | with_reducible exact Keeps.of_snd (by assumption) (by assumption)

theorem execHdPerstNRelease_keeps (h : Half) (hk : Keeps ex s0 s) : ∀ u, execHdPerstNRelease h s = .next u → Keeps ex s0 u := by
  intro u ht
  unfold execHdPerstNRelease at ht
  have hu := Host.Outcome.next.inj ht
  clear ht
  subst hu
  repeat' first
    | with_reducible assumption
    | with_reducible apply modHalf_keeps
    | with_reducible refine Keeps.ite (fun _ => ?_) (fun _ => ?_)
    | with_reducible exact fun _ => ⟨fun h => h, fun h => h⟩
    | split
    | with_reducible exact Keeps.of_snd (by assumption) (by assumption)

theorem execLinkUp_keeps (h : Half) (hk : Keeps ex s0 s) : ∀ u, execLinkUp h s = .next u → Keeps ex s0 u := by
  intro u ht
  unfold execLinkUp at ht
  extract_lets at ht
  have hu := Host.Outcome.next.inj ht
  clear ht
  subst hu
  repeat' first
    | with_reducible assumption
    | extract_lets
    | with_reducible apply modHalf_keeps
    | with_reducible refine Keeps.ite (fun _ => ?_) (fun _ => ?_)
    | with_reducible exact fun _ => ⟨fun h => h, fun h => h⟩
    | split
    | with_reducible exact Keeps.of_snd (by assumption) (by assumption)

theorem execHalfState_keeps (h : Half) (hk : Keeps ex s0 s) : ∀ u, execHalfState h s = .next u → Keeps ex s0 u := by
  intro u ht
  unfold execHalfState at ht
  have hu := Host.Outcome.next.inj ht
  clear ht
  subst hu
  repeat' first
    | with_reducible assumption
    | with_reducible apply emit_keeps
    | with_reducible refine Keeps.ite (fun _ => ?_) (fun _ => ?_)
    | split
    | with_reducible exact Keeps.of_snd (by assumption) (by assumption)

theorem execHostAlive_keeps (h : Half) (count : Nat) (hk : Keeps ex s0 s) : ∀ u, execHostAlive h count s = .next u → Keeps ex s0 u := by
  intro u ht
  unfold execHostAlive at ht
  have hu := Host.Outcome.next.inj ht
  clear ht
  subst hu
  repeat' first
    | with_reducible assumption
    | with_reducible apply modHalf_keeps
    | with_reducible refine Keeps.ite (fun _ => ?_) (fun _ => ?_)
    | with_reducible exact fun _ => ⟨fun h => h, fun h => h⟩
    | split
    | with_reducible exact Keeps.of_snd (by assumption) (by assumption)

theorem execHostHeartbeatMiss_keeps (h : Half) (hk : Keeps ex s0 s) : ∀ u, execHostHeartbeatMiss h s = .next u → Keeps ex s0 u := by
  intro u ht
  unfold execHostHeartbeatMiss at ht
  have hu := Host.Outcome.next.inj ht
  clear ht
  subst hu
  repeat' first
    | with_reducible assumption
    | with_reducible apply bump_keeps
    | with_reducible refine Keeps.ite (fun _ => ?_) (fun _ => ?_)
    | split
    | with_reducible exact Keeps.of_snd (by assumption) (by assumption)

theorem execHostCplTimeout_keeps (h : Half) (c : Nat) (k : Nat) (u3 : CplError) (hk : Keeps ex s0 s) : ∀ u, execHostCplTimeout h c k u3 s = .next u → Keeps ex s0 u := by
  intro u ht
  unfold execHostCplTimeout at ht
  extract_lets at ht
  have hu := Host.Outcome.next.inj ht
  clear ht
  subst hu
  repeat' first
    | with_reducible assumption
    | extract_lets
    | with_reducible apply modHalf_keeps
    | with_reducible apply faultCtx_keeps
    | with_reducible refine Keeps.ite (fun _ => ?_) (fun _ => ?_)
    | with_reducible exact fun _ => ⟨fun h => h, fun h => h⟩
    | split
    | with_reducible exact Keeps.of_snd (by assumption) (by assumption)

theorem execAdapterRetry_keeps (h : Half) (hk : Keeps ex s0 s) : ∀ u, execAdapterRetry h s = .next u → Keeps ex s0 u := by
  intro u ht
  unfold execAdapterRetry at ht
  have hu := Host.Outcome.next.inj ht
  clear ht
  subst hu
  repeat' first
    | with_reducible assumption
    | with_reducible apply bump_keeps
    | with_reducible refine Keeps.ite (fun _ => ?_) (fun _ => ?_)
    | split
    | with_reducible exact Keeps.of_snd (by assumption) (by assumption)

theorem cfgWrite_keeps (h : Half) (o : Nat) (b : Byte) (hk : Keeps ex s0 s) : Keeps ex s0 (cfgWrite s h o b) := by
  unfold cfgWrite
  repeat' first
    | with_reducible assumption
    | extract_lets
    | with_reducible apply modHalf_keeps
    | with_reducible refine Keeps.ite (fun _ => ?_) (fun _ => ?_)
    | with_reducible exact fun _ => ⟨fun h => h, fun h => h⟩
    | split
    | with_reducible exact Keeps.of_snd (by assumption) (by assumption)

theorem execConfigurationRequest_keeps (h : Half) (wr : Bool) (ofs : Nat) (bs : List Byte) (hk : Keeps ex s0 s) : ∀ u, execConfigurationRequest h wr ofs bs s = .next u → Keeps ex s0 u := by
  intro u ht
  unfold execConfigurationRequest at ht
  have hu := Host.Outcome.next.inj ht
  clear ht
  subst hu
  repeat' first
    | with_reducible assumption
    | extract_lets
    | with_reducible apply cfgWrite_keeps
    | with_reducible apply sendPending_keeps
    | with_reducible apply emit_keeps
    | with_reducible apply modHalf_keeps
    | with_reducible refine Keeps.ite (fun _ => ?_) (fun _ => ?_)
    | with_reducible refine Keeps.ite_snd (fun _ => ?_) (fun _ => ?_)
    | with_reducible refine Keeps.ite_fst (fun _ => ?_) (fun _ => ?_)
    | with_reducible refine Keeps.foldl ?_ (fun t x ht => ?_)
    | with_reducible refine Keeps.foldl_snd ?_ (fun t x ht => ?_)
    | with_reducible refine Keeps.foldl_fst ?_ (fun t x ht => ?_)
    | with_reducible refine Keeps.foldl_trd ?_ (fun t x ht => ?_)
    | with_reducible exact fun _ => ⟨fun h => h, fun h => h⟩
    | split
    | with_reducible exact Keeps.of_snd (by assumption) (by assumption)
    | with_reducible apply Keeps.mk_fst
    | with_reducible apply Keeps.mk_snd

theorem takeMsg_keeps (h : Half) (p : Port) (m : LinkMsg) (hk : Keeps ex s0 s) : Keeps ex s0 (takeMsg s h p m) := by
  unfold takeMsg
  repeat' first
    | with_reducible assumption
    | extract_lets
    | with_reducible apply setLink_keeps
    | with_reducible apply freeBuffers_keeps
    | with_reducible apply hearPartner_keeps
    | with_reducible apply returnCredit_keeps
    | with_reducible refine Keeps.ite (fun _ => ?_) (fun _ => ?_)
    | split
    | with_reducible exact Keeps.of_snd (by assumption) (by assumption)
    | dsimp +zetaDelta only

theorem respond_keeps (h : Half) (p : Port) (m : LinkMsg) (kind : MsgKind) (status : Nat) (poison : Bool) (data : List Byte) (hk : Keeps ex s0 s) : Keeps ex s0 (respond s h p m kind status poison data) := by
  unfold respond
  repeat' first
    | with_reducible assumption
    | with_reducible apply sendMsg_keeps
    | with_reducible refine Keeps.ite (fun _ => ?_) (fun _ => ?_)
    | split
    | with_reducible exact Keeps.of_snd (by assumption) (by assumption)

theorem forwardRequest_keeps (h : Half) (m : LinkMsg) (d : Nat) (hk : Keeps ex s0 s) : Keeps ex s0 (forwardRequest s h m d) := by
  unfold forwardRequest
  repeat' first
    | with_reducible assumption
    | with_reducible apply respond_keeps
    | with_reducible apply sendMsg_keeps
    | with_reducible refine Keeps.ite (fun _ => ?_) (fun _ => ?_)
    | split
    | with_reducible exact Keeps.of_snd (by assumption) (by assumption)

theorem execRdReq_keeps (h : Half) (p : Port) (m : LinkMsg) (hk : Keeps ex s0 s) : ∀ u, execRdReq h p m s = .next u → Keeps ex s0 u := by
  intro u ht
  unfold execRdReq at ht
  have hu := Host.Outcome.next.inj ht
  clear ht
  subst hu
  repeat' first
    | with_reducible assumption
    | extract_lets
    | with_reducible apply forwardRequest_keeps
    | with_reducible apply respond_keeps
    | with_reducible apply takeMsg_keeps
    | with_reducible apply decodeHits_keeps
    | with_reducible apply takeFabric_keeps
    | with_reducible refine Keeps.ite (fun _ => ?_) (fun _ => ?_)
    | with_reducible refine Keeps.ite_snd (fun _ => ?_) (fun _ => ?_)
    | with_reducible refine Keeps.ite_fst (fun _ => ?_) (fun _ => ?_)
    | split
    | with_reducible exact Keeps.of_snd (by assumption) (by assumption)
    | with_reducible apply Keeps.mk_fst
    | with_reducible apply Keeps.mk_snd

theorem writeLine_keeps (m : LinkMsg) (j : Nat) (hk : Keeps ex s0 s) : Keeps ex s0 (writeLine s m j).2 := by
  unfold writeLine
  repeat' first
    | with_reducible assumption
    | extract_lets
    | with_reducible apply poisonWrite_keeps
    | with_reducible apply write_keeps
    | with_reducible apply decodeHits_keeps
    | with_reducible refine Keeps.ite (fun _ => ?_) (fun _ => ?_)
    | with_reducible refine Keeps.ite_snd (fun _ => ?_) (fun _ => ?_)
    | with_reducible refine Keeps.ite_fst (fun _ => ?_) (fun _ => ?_)
    | with_reducible refine Keeps.foldl ?_ (fun t x ht => ?_)
    | with_reducible refine Keeps.foldl_snd ?_ (fun t x ht => ?_)
    | with_reducible refine Keeps.foldl_fst ?_ (fun t x ht => ?_)
    | with_reducible refine Keeps.foldl_trd ?_ (fun t x ht => ?_)
    | split
    | with_reducible exact Keeps.of_snd (by assumption) (by assumption)
    | with_reducible apply Keeps.mk_fst
    | with_reducible apply Keeps.mk_snd

theorem linkDoorbell_keeps (g : Half) (o : Nat) (m : LinkMsg) (hk : Keeps ex s0 s) : Keeps ex s0 (linkDoorbell s g o m) := by
  unfold linkDoorbell
  repeat' first
    | with_reducible assumption
    | extract_lets
    | with_reducible apply noteDiscard_keeps
    | with_reducible apply ringDoorbell_keeps
    | with_reducible apply wakeIdle_keeps
    | with_reducible refine Keeps.ite (fun _ => ?_) (fun _ => ?_)
    | split
    | with_reducible exact Keeps.of_snd (by assumption) (by assumption)

theorem execWr_keeps (h : Half) (p : Port) (m : LinkMsg) (hk : Keeps ex s0 s) : ∀ u, execWr h p m s = .next u → Keeps ex s0 u := by
  intro u ht
  unfold execWr at ht
  have hu := Host.Outcome.next.inj ht
  clear ht
  subst hu
  repeat' first
    | with_reducible assumption
    | extract_lets
    | with_reducible apply forwardRequest_keeps
    | with_reducible apply linkDoorbell_keeps
    | with_reducible apply respond_keeps
    | with_reducible apply takeMsg_keeps
    | with_reducible apply writeLine_keeps
    | with_reducible apply takeFabric_keeps
    | with_reducible refine Keeps.ite (fun _ => ?_) (fun _ => ?_)
    | with_reducible refine Keeps.ite_snd (fun _ => ?_) (fun _ => ?_)
    | with_reducible refine Keeps.ite_fst (fun _ => ?_) (fun _ => ?_)
    | with_reducible refine Keeps.foldl ?_ (fun t x ht => ?_)
    | with_reducible refine Keeps.foldl_snd ?_ (fun t x ht => ?_)
    | with_reducible refine Keeps.foldl_fst ?_ (fun t x ht => ?_)
    | with_reducible refine Keeps.foldl_trd ?_ (fun t x ht => ?_)
    | split
    | with_reducible exact Keeps.of_snd (by assumption) (by assumption)
    | with_reducible apply Keeps.mk_fst
    | with_reducible apply Keeps.mk_snd

theorem execOr8_keeps (h : Half) (p : Port) (m : LinkMsg) (hk : Keeps ex s0 s) : ∀ u, execOr8 h p m s = .next u → Keeps ex s0 u := by
  intro u ht
  unfold execOr8 at ht
  have hu := Host.Outcome.next.inj ht
  clear ht
  subst hu
  repeat' first
    | with_reducible assumption
    | extract_lets
    | with_reducible apply forwardRequest_keeps
    | with_reducible apply respond_keeps
    | with_reducible apply takeMsg_keeps
    | with_reducible apply write_keeps
    | with_reducible apply decodeHits_keeps
    | with_reducible apply takeFabric_keeps
    | with_reducible refine Keeps.ite (fun _ => ?_) (fun _ => ?_)
    | with_reducible refine Keeps.ite_snd (fun _ => ?_) (fun _ => ?_)
    | with_reducible refine Keeps.ite_fst (fun _ => ?_) (fun _ => ?_)
    | split
    | with_reducible exact Keeps.of_snd (by assumption) (by assumption)
    | with_reducible apply Keeps.mk_fst
    | with_reducible apply Keeps.mk_snd

theorem takeResponse_keeps (h : Half) (p : Port) (m : LinkMsg) (hk : Keeps ex s0 s) : Keeps ex s0 (takeResponse s h p m) := by
  unfold takeResponse
  repeat' first
    | with_reducible assumption
    | extract_lets
    | with_reducible apply takeMsg_keeps
    | with_reducible apply returnCredit_keeps
    | with_reducible refine Keeps.ite (fun _ => ?_) (fun _ => ?_)
    | split
    | with_reducible exact Keeps.of_snd (by assumption) (by assumption)

theorem takeAnswer_keeps (h : Half) (p : Port) (m : LinkMsg) (f : State → Xfer → State) (hk : Keeps ex s0 s)
    (hf : ∀ t x, Keeps ex s0 t → Keeps ex s0 (f t x)) : Keeps ex s0 (takeAnswer s h p m f) := by
  unfold takeAnswer
  dsimp only
  have h1 := takeResponse_keeps h p m hk
  refine Keeps.ite (fun _ => sendFerry_keeps _ _ h1) (fun _ => ?_)
  split
  · exact h1
  · exact hf _ _ (modHalf_keeps _ _ h1 fun _ => ⟨fun h => h, fun h => h⟩)

theorem fillRead_keeps (g : Half) (f : Xfer) (data : List Byte) (hk : Keeps ex s0 s) : Keeps ex s0 (fillRead s g f data) := by
  unfold fillRead
  repeat' first
    | with_reducible assumption
    | extract_lets
    | with_reducible apply advanceCmd_keeps
    | with_reducible apply mapFlight_keeps
    | with_reducible refine Keeps.ite (fun _ => ?_) (fun _ => ?_)
    | with_reducible refine Keeps.foldl ?_ (fun t x ht => ?_)
    | with_reducible refine Keeps.foldl_snd ?_ (fun t x ht => ?_)
    | with_reducible refine Keeps.foldl_fst ?_ (fun t x ht => ?_)
    | with_reducible refine Keeps.foldl_trd ?_ (fun t x ht => ?_)
    | split
    | with_reducible exact Keeps.of_snd (by assumption) (by assumption)

theorem execRdData_keeps (h : Half) (p : Port) (m : LinkMsg) (hk : Keeps ex s0 s) : ∀ u, execRdData h p m s = .next u → Keeps ex s0 u := by
  intro u ht
  unfold execRdData at ht
  have hu := Host.Outcome.next.inj ht
  clear ht
  subst hu
  repeat' first
    | with_reducible assumption
    | with_reducible apply fillRead_keeps
    | with_reducible refine takeAnswer_keeps _ _ _ _ ?_ (fun t x ht => ?_)
    | with_reducible apply tellPoison_keeps
    | with_reducible apply faultCtx_keeps
    | with_reducible refine Keeps.ite (fun _ => ?_) (fun _ => ?_)
    | split
    | with_reducible exact Keeps.of_snd (by assumption) (by assumption)

theorem execWrAck_keeps (h : Half) (p : Port) (m : LinkMsg) (hk : Keeps ex s0 s) : ∀ u, execWrAck h p m s = .next u → Keeps ex s0 u := by
  intro u ht
  unfold execWrAck at ht
  have hu := Host.Outcome.next.inj ht
  clear ht
  subst hu
  repeat' first
    | with_reducible assumption
    | with_reducible refine takeAnswer_keeps _ _ _ _ ?_ (fun t x ht => ?_)
    | with_reducible apply faultCtx_keeps
    | with_reducible refine Keeps.ite (fun _ => ?_) (fun _ => ?_)
    | split
    | with_reducible exact Keeps.of_snd (by assumption) (by assumption)

theorem execOrAck_keeps (h : Half) (p : Port) (m : LinkMsg) (hk : Keeps ex s0 s) : ∀ u, execOrAck h p m s = .next u → Keeps ex s0 u := by
  intro u ht
  unfold execOrAck at ht
  have hu := Host.Outcome.next.inj ht
  clear ht
  subst hu
  repeat' first
    | with_reducible assumption
    | extract_lets
    | with_reducible refine takeAnswer_keeps _ _ _ _ ?_ (fun t x ht => ?_)
    | with_reducible apply setCtx_keeps
    | with_reducible apply faultCtx_keeps
    | with_reducible refine Keeps.ite (fun _ => ?_) (fun _ => ?_)
    | split
    | with_reducible exact Keeps.of_snd (by assumption) (by assumption)

theorem execCounter_keeps (h : Half) (m : LinkMsg) (hk : Keeps ex s0 s) : ∀ u, execCounter h m s = .next u → Keeps ex s0 u := by
  intro u ht
  unfold execCounter at ht
  have hu := Host.Outcome.next.inj ht
  clear ht
  subst hu
  repeat' first
    | with_reducible assumption
    | extract_lets
    | with_reducible apply respond_keeps
    | with_reducible apply takeMsg_keeps
    | with_reducible apply modHalf_keeps
    | with_reducible apply setCtx_keeps
    | with_reducible refine Keeps.ite (fun _ => ?_) (fun _ => ?_)
    | with_reducible exact fun _ => ⟨fun h => h, fun h => h⟩
    | split
    | with_reducible exact Keeps.of_snd (by assumption) (by assumption)

theorem execCounterAck_keeps (h : Half) (m : LinkMsg) (hk : Keeps ex s0 s) : ∀ u, execCounterAck h m s = .next u → Keeps ex s0 u := by
  intro u ht
  unfold execCounterAck at ht
  have hu := Host.Outcome.next.inj ht
  clear ht
  subst hu
  repeat' first
    | with_reducible assumption
    | with_reducible refine takeAnswer_keeps _ _ _ _ ?_ (fun t x ht => ?_)
    | with_reducible refine Keeps.ite (fun _ => ?_) (fun _ => ?_)
    | split
    | with_reducible exact Keeps.of_snd (by assumption) (by assumption)

theorem setLinkState_keeps (h : Half) (p : Port) (f : Link → Link) (hk : Keeps ex s0 s) : Keeps ex s0 (setLinkState s h p f) := by
  unfold setLinkState
  repeat' first
    | with_reducible assumption
    | extract_lets
    | with_reducible apply msix_keeps
    | with_reducible apply putLink_keeps
    | with_reducible apply showSignatures_keeps
    | with_reducible refine Keeps.ite (fun _ => ?_) (fun _ => ?_)
    | split
    | with_reducible exact Keeps.of_snd (by assumption) (by assumption)

theorem bothEnds_keeps (h : Half) (p : Port) (f : State → Half → State) (hk : Keeps ex s0 s) (hf : ∀ t g, Keeps ex s0 t → Keeps ex s0 (f t g)) : Keeps ex s0 (bothEnds s h p f) := by
  unfold bothEnds
  split
  · exact hf _ _ (hf _ _ hk)
  · exact hf _ _ hk

theorem causewayFailed_keeps (h : Half) (p : Port) (hk : Keeps ex s0 s) : Keeps ex s0 (causewayFailed s h p) := by
  unfold causewayFailed
  repeat' first
    | with_reducible assumption
    | extract_lets
    | with_reducible apply setLinkState_keeps
    | with_reducible apply observe_keeps
    | with_reducible apply endOutstanding_keeps
    | with_reducible apply sendFerry_keeps
    | with_reducible refine Keeps.ite (fun _ => ?_) (fun _ => ?_)
    | split
    | with_reducible exact Keeps.of_snd (by assumption) (by assumption)

theorem linkFailed_keeps (h : Half) (p : Port) (hk : Keeps ex s0 s) : Keeps ex s0 (linkFailed s h p) := by
  unfold linkFailed
  repeat' first
    | with_reducible assumption
    | with_reducible apply causewayFailed_keeps
    | with_reducible apply ferryFailed_keeps
    | with_reducible refine Keeps.ite (fun _ => ?_) (fun _ => ?_)
    | split
    | with_reducible exact Keeps.of_snd (by assumption) (by assumption)

theorem enterRetrain_keeps (h : Half) (p : Port) (hk : Keeps ex s0 s) : Keeps ex s0 (enterRetrain s h p) := by
  unfold enterRetrain
  repeat' first
    | with_reducible assumption
    | extract_lets
    | with_reducible refine bothEnds_keeps _ _ _ ?_ (fun t g ht => ?_)
    | with_reducible apply setLinkState_keeps
    | with_reducible apply bump_keeps
    | with_reducible apply observe_keeps
    | with_reducible refine Keeps.ite (fun _ => ?_) (fun _ => ?_)
    | split
    | with_reducible exact Keeps.of_snd (by assumption) (by assumption)

theorem execNak_keeps (h : Half) (p : Port) (seq : Nat) (hk : Keeps ex s0 s) : ∀ u, execNak h p seq s = .next u → Keeps ex s0 u := by
  intro u ht
  unfold execNak at ht
  extract_lets at ht
  have hu := Host.Outcome.next.inj ht
  clear ht
  subst hu
  repeat' first
    | with_reducible assumption
    | extract_lets
    | with_reducible apply enterRetrain_keeps
    | with_reducible apply bump_keeps
    | with_reducible apply observe_keeps
    | with_reducible apply setLink_keeps
    | with_reducible refine Keeps.ite (fun _ => ?_) (fun _ => ?_)
    | with_reducible refine Keeps.ite_snd (fun _ => ?_) (fun _ => ?_)
    | with_reducible refine Keeps.ite_fst (fun _ => ?_) (fun _ => ?_)
    | split
    | with_reducible exact Keeps.of_snd (by assumption) (by assumption)
    | with_reducible refine Keeps.elsewhere (Eq.refl _) ?_ ⟨fun h => h, fun h => h⟩ ⟨fun h => h, fun h => h⟩
    | with_reducible apply Keeps.mk_fst
    | with_reducible apply Keeps.mk_snd
    | dsimp +zetaDelta only

theorem execFlitCrcFailure_keeps (h : Half) (p : Port) (seq : Nat) (hk : Keeps ex s0 s) : ∀ u, execFlitCrcFailure h p seq s = .next u → Keeps ex s0 u := by
  intro u ht
  unfold execFlitCrcFailure at ht
  extract_lets at ht
  have hu := Host.Outcome.next.inj ht
  clear ht
  subst hu
  repeat' first
    | with_reducible assumption
    | extract_lets
    | with_reducible apply emit_keeps
    | with_reducible apply setLink_keeps
    | with_reducible refine Keeps.ite (fun _ => ?_) (fun _ => ?_)
    | split
    | with_reducible exact Keeps.of_snd (by assumption) (by assumption)

theorem execRetrain_keeps (h : Half) (p : Port) (hk : Keeps ex s0 s) : ∀ u, execRetrain h p s = .next u → Keeps ex s0 u := by
  intro u ht
  unfold execRetrain at ht
  have hu := Host.Outcome.next.inj ht
  clear ht
  subst hu
  repeat' first
    | with_reducible assumption
    | with_reducible apply enterRetrain_keeps
    | with_reducible refine Keeps.ite (fun _ => ?_) (fun _ => ?_)
    | split
    | with_reducible exact Keeps.of_snd (by assumption) (by assumption)

theorem execRetrainDone_keeps (h : Half) (p : Port) (ok : Bool) (hk : Keeps ex s0 s) : ∀ u, execRetrainDone h p ok s = .next u → Keeps ex s0 u := by
  intro u ht
  unfold execRetrainDone at ht
  have hu := Host.Outcome.next.inj ht
  clear ht
  subst hu
  repeat' first
    | with_reducible assumption
    | extract_lets
    | with_reducible refine bothEnds_keeps _ _ _ ?_ (fun t g ht => ?_)
    | with_reducible apply linkFailed_keeps
    | with_reducible apply setLinkState_keeps
    | with_reducible apply setLink_keeps
    | with_reducible refine Keeps.ite (fun _ => ?_) (fun _ => ?_)
    | split
    | with_reducible exact Keeps.of_snd (by assumption) (by assumption)
    | with_reducible refine Keeps.elsewhere (Eq.refl _) ?_ ⟨fun h => h, fun h => h⟩ ⟨fun h => h, fun h => h⟩

theorem measureDelay_keeps (h : Half) (hk : Keeps ex s0 s) : Keeps ex s0 (measureDelay s h) := by
  unfold measureDelay
  repeat' first
    | with_reducible assumption
    | extract_lets
    | with_reducible apply free_keeps
    | with_reducible apply setNum_keeps
    | with_reducible refine Keeps.ite (fun _ => ?_) (fun _ => ?_)
    | split
    | with_reducible exact Keeps.of_snd (by assumption) (by assumption)

theorem ferryTrained_keeps  (hk : Keeps ex s0 s) : Keeps ex s0 (ferryTrained s) := by
  unfold ferryTrained
  repeat' first
    | with_reducible assumption
    | extract_lets
    | with_reducible apply measureDelay_keeps
    | with_reducible apply setLinkState_keeps
    | with_reducible apply alignTime_keeps
    | with_reducible refine Keeps.ite (fun _ => ?_) (fun _ => ?_)
    | split
    | with_reducible exact Keeps.of_snd (by assumption) (by assumption)

theorem execTrainingDone_keeps (h : Half) (p : Port) (dev : Nat) (sig : BitVec 32) (hk : Keeps ex s0 s) : ∀ u, execTrainingDone h p dev sig s = .next u → Keeps ex s0 u := by
  intro u ht
  unfold execTrainingDone at ht
  extract_lets at ht
  have hu := Host.Outcome.next.inj ht
  clear ht
  subst hu
  repeat' first
    | with_reducible assumption
    | extract_lets
    | with_reducible apply ferryTrained_keeps
    | with_reducible apply setLinkState_keeps
    | with_reducible apply bump_keeps
    | with_reducible apply setNum_keeps
    | with_reducible refine Keeps.ite (fun _ => ?_) (fun _ => ?_)
    | split
    | with_reducible exact Keeps.of_snd (by assumption) (by assumption)

theorem execHeartbeatSend_keeps (h : Half) (p : Port) (t : Time) (hk : Keeps ex s0 s) : ∀ u, execHeartbeatSend h p t s = .next u → Keeps ex s0 u := by
  intro u ht
  unfold execHeartbeatSend at ht
  extract_lets at ht
  have hu := Host.Outcome.next.inj ht
  clear ht
  subst hu
  repeat' first
    | with_reducible assumption
    | extract_lets
    | with_reducible apply atTime_keeps
    | with_reducible apply emit_keeps
    | with_reducible apply modHalf_keeps
    | with_reducible apply setLink_keeps
    | with_reducible refine Keeps.ite (fun _ => ?_) (fun _ => ?_)
    | with_reducible exact fun _ => ⟨fun h => h, fun h => h⟩
    | split
    | with_reducible exact Keeps.of_snd (by assumption) (by assumption)

theorem ferryBeat_keeps (h : Half) (hk : Keeps ex s0 s) : Keeps ex s0 (ferryBeat h s) := by
  unfold ferryBeat
  repeat' first
    | with_reducible assumption
    | extract_lets
    | with_reducible apply modHalf_keeps
    | with_reducible apply judgeLost_keeps
    | with_reducible refine Keeps.ite (fun _ => ?_) (fun _ => ?_)
    | with_reducible exact fun _ => ⟨fun h => h, fun h => h⟩
    | split
    | with_reducible exact Keeps.of_snd (by assumption) (by assumption)

theorem causewayBeat_keeps (h : Half) (p : Port) (hk : Keeps ex s0 s) : Keeps ex s0 (causewayBeat s h p) := by
  unfold causewayBeat
  repeat' first
    | with_reducible assumption
    | extract_lets
    | with_reducible apply bump_keeps
    | with_reducible apply free_keeps
    | with_reducible apply setLink_keeps
    | with_reducible apply hearPartner_keeps
    | with_reducible refine Keeps.ite (fun _ => ?_) (fun _ => ?_)
    | split
    | with_reducible exact Keeps.of_snd (by assumption) (by assumption)
    | with_reducible refine Keeps.elsewhere (Eq.refl _) ?_ ⟨fun h => h, fun h => h⟩ ⟨fun h => h, fun h => h⟩

theorem execHeartbeat_keeps (h : Half) (p : Port) (hk : Keeps ex s0 s) : ∀ u, execHeartbeat h p s = .next u → Keeps ex s0 u := by
  intro u ht
  unfold execHeartbeat at ht
  extract_lets at ht
  have hu := Host.Outcome.next.inj ht
  clear ht
  subst hu
  repeat' first
    | with_reducible assumption
    | extract_lets
    | with_reducible apply causewayBeat_keeps
    | with_reducible apply ferryBeat_keeps
    | with_reducible refine Keeps.ite (fun _ => ?_) (fun _ => ?_)
    | split
    | with_reducible exact Keeps.of_snd (by assumption) (by assumption)

theorem execHeartbeatMiss_keeps (h : Half) (p : Port) (hk : Keeps ex s0 s) : ∀ u, execHeartbeatMiss h p s = .next u → Keeps ex s0 u := by
  intro u ht
  unfold execHeartbeatMiss at ht
  extract_lets at ht
  have hu := Host.Outcome.next.inj ht
  clear ht
  subst hu
  repeat' first
    | with_reducible assumption
    | extract_lets
    | with_reducible apply linkFailed_keeps
    | with_reducible apply bump_keeps
    | with_reducible apply setLink_keeps
    | with_reducible refine Keeps.ite (fun _ => ?_) (fun _ => ?_)
    | split
    | with_reducible exact Keeps.of_snd (by assumption) (by assumption)
    | dsimp +zetaDelta only

end Sys2Proof.Machine
end

