-- ==== Sys2Proof/Laws/KeepsOutOps.lean ====
section
/-! SUPPORT. What no operation of Machine/OutOps.lean disturbs. -/
namespace Sys2Proof.Machine

variable {ex : Option Half} {s0 s : State}

theorem noteBudget_keeps (h : Half) (key : Nat) (missed : Bool) (hk : Keeps ex s0 s) : Keeps ex s0 (noteBudget s h key missed) := by
  unfold noteBudget
  repeat' first
    | with_reducible assumption
    | extract_lets
    | with_reducible apply enterSafe_keeps
    | with_reducible apply modHalf_keeps
    | with_reducible refine Keeps.ite (fun _ => ?_) (fun _ => ?_)
    | with_reducible exact fun _ => ⟨fun h => h, fun h => h⟩
    | split
    | with_reducible exact Keeps.of_snd (by assumption) (by assumption)
    | dsimp +zetaDelta only

theorem noteAge_keeps (h : Half) (key : Nat) (age : Int) (hk : Keeps ex s0 s) : Keeps ex s0 (noteAge s h key age) := by
  unfold noteAge
  repeat' first
    | with_reducible assumption
    | with_reducible apply observe_keeps
    | with_reducible refine Keeps.ite (fun _ => ?_) (fun _ => ?_)
    | split
    | with_reducible exact Keeps.of_snd (by assumption) (by assumption)

theorem checkDeadline_keeps (h : Half) (key : Nat) (leave : Time) (srcT : Time) (budget : Nat) (hk : Keeps ex s0 s) : Keeps ex s0 (checkDeadline s h key leave srcT budget) := by
  unfold checkDeadline
  repeat' first
    | with_reducible assumption
    | with_reducible apply noteAge_keeps
    | with_reducible apply noteBudget_keeps
    | with_reducible refine Keeps.ite (fun _ => ?_) (fun _ => ?_)
    | split
    | with_reducible exact Keeps.of_snd (by assumption) (by assumption)

theorem riseAlive_keeps (h : Half) (n : Nat) (hk : Keeps ex s0 s) : Keeps ex s0 (riseAlive s h n) := by
  unfold riseAlive
  repeat' first
    | with_reducible assumption
    | extract_lets
    | with_reducible apply setLoop_keeps
    | with_reducible refine Keeps.ite (fun _ => ?_) (fun _ => ?_)
    | split
    | with_reducible exact Keeps.of_snd (by assumption) (by assumption)

theorem takeSignal_keeps (i : Nat) (bs : List Byte) (t : Time) (hk : Keeps ex s0 s) : Keeps ex s0 (takeSignal s i bs t) := by
  unfold takeSignal
  repeat' first
    | with_reducible assumption
    | extract_lets
    | with_reducible apply bump_keeps
    | with_reducible apply setNum_keeps
    | with_reducible refine Keeps.ite (fun _ => ?_) (fun _ => ?_)
    | split
    | with_reducible exact Keeps.of_snd (by assumption) (by assumption)

theorem takeSignals_keeps (h : Half) (hit : Nat → Bool) (bs : List Byte) (t : Time) (hk : Keeps ex s0 s) : Keeps ex s0 (takeSignals s h hit bs t) := by
  unfold takeSignals
  repeat' first
    | with_reducible assumption
    | with_reducible apply takeSignal_keeps
    | with_reducible refine Keeps.ite (fun _ => ?_) (fun _ => ?_)
    | with_reducible refine Keeps.foldl ?_ (fun t x ht => ?_)
    | with_reducible refine Keeps.foldl_snd ?_ (fun t x ht => ?_)
    | with_reducible refine Keeps.foldl_fst ?_ (fun t x ht => ?_)
    | with_reducible refine Keeps.foldl_trd ?_ (fun t x ht => ?_)
    | split
    | with_reducible exact Keeps.of_snd (by assumption) (by assumption)

end Sys2Proof.Machine
end

