-- ==== Sys2Proof/Laws/KeepsSwitchCmds.lean ====
section
/-! SUPPORT. What no operation of Machine/SwitchCmds.lean disturbs. -/
namespace Sys2Proof.Machine

variable {ex : Option Half} {s0 s : State}

theorem frerPass_keeps (h : Half) (bs : List Byte) (hk : Keeps ex s0 s) : Keeps ex s0 (frerPass s h bs).2 := by
  unfold frerPass
  repeat' first
    | with_reducible assumption
    | extract_lets
    | with_reducible apply modHalf_keeps
    | with_reducible refine Keeps.ite (fun _ => ?_) (fun _ => ?_)
    | with_reducible refine Keeps.ite_snd (fun _ => ?_) (fun _ => ?_)
    | with_reducible refine Keeps.ite_fst (fun _ => ?_) (fun _ => ?_)
    | with_reducible exact fun _ => ⟨fun h => h, fun h => h⟩
    | split
    | with_reducible exact Keeps.of_snd (by assumption) (by assumption)
    | with_reducible apply Keeps.mk_fst
    | with_reducible apply Keeps.mk_snd

theorem execFrerReset_keeps (h : Half) (e : Nat) (hk : Keeps ex s0 s) : ∀ u, execFrerReset h e s = .next u → Keeps ex s0 u := by
  intro u ht
  unfold execFrerReset at ht
  have hu := Host.Outcome.next.inj ht
  clear ht
  subst hu
  repeat' first
    | with_reducible assumption
    | with_reducible apply modHalf_keeps
    | with_reducible refine Keeps.ite (fun _ => ?_) (fun _ => ?_)
    | with_reducible exact fun _ => ⟨fun h => h, fun h => h⟩
    | split
    | with_reducible exact Keeps.of_snd (by assumption) (by assumption)

theorem deliverFrame_keeps (h : Half) (port : Nat) (bs : List Byte) (t : Time) (hk : Keeps ex s0 s) : Keeps ex s0 (deliverFrame s h port bs t) := by
  unfold deliverFrame
  repeat' first
    | with_reducible assumption
    | extract_lets
    | with_reducible apply mergeWrite_keeps
    | with_reducible apply modHalf_keeps
    | with_reducible apply takeSignals_keeps
    | with_reducible refine Keeps.ite (fun _ => ?_) (fun _ => ?_)
    | with_reducible exact fun _ => ⟨fun h => h, fun h => h⟩
    | split
    | with_reducible exact Keeps.of_snd (by assumption) (by assumption)
    | dsimp +zetaDelta only

theorem crossFerry_keeps (h : Half) (f : FrameMsg) (hk : Keeps ex s0 s) : Keeps ex s0 (crossFerry s h f) := by
  unfold crossFerry
  repeat' first
    | with_reducible assumption
    | with_reducible apply sendFrameMsg_keeps
    | with_reducible refine Keeps.ite (fun _ => ?_) (fun _ => ?_)
    | split
    | with_reducible exact Keeps.of_snd (by assumption) (by assumption)

theorem setWaiting_keeps (h : Half) (p : Nat) (tc : Nat) (es : List Egress) (hk : Keeps ex s0 s) : Keeps ex s0 (setWaiting s h p tc es) := by
  unfold setWaiting
  repeat' first
    | with_reducible assumption
    | with_reducible apply modHalf_keeps
    | with_reducible refine Keeps.ite (fun _ => ?_) (fun _ => ?_)
    | with_reducible exact fun _ => ⟨fun h => h, fun h => h⟩
    | split
    | with_reducible exact Keeps.of_snd (by assumption) (by assumption)

theorem putOut_keeps (h : Half) (p : Nat) (e : Egress) (t : Time) (hk : Keeps ex s0 s) : Keeps ex s0 (putOut s h p e t) := by
  unfold putOut
  repeat' first
    | with_reducible assumption
    | with_reducible apply crossFerry_keeps
    | with_reducible apply deliverFrame_keeps
    | with_reducible apply emit_keeps
    | with_reducible refine Keeps.ite (fun _ => ?_) (fun _ => ?_)
    | split
    | with_reducible exact Keeps.of_snd (by assumption) (by assumption)

theorem bridge_keeps (h : Half) (p : Nat) (e : Egress) (t : Time) (hk : Keeps ex s0 s) : Keeps ex s0 (bridge s h p e t) := by
  unfold bridge
  repeat' first
    | with_reducible assumption
    | extract_lets
    | with_reducible apply putOut_keeps
    | with_reducible apply setWaiting_keeps
    | with_reducible refine Keeps.ite (fun _ => ?_) (fun _ => ?_)
    | split
    | with_reducible exact Keeps.of_snd (by assumption) (by assumption)

theorem forward_keeps (h : Half) (inPort : Nat) (ports : List Nat) (bs : List Byte) (ingress : Time) (t : Time) (hk : Keeps ex s0 s) : Keeps ex s0 (forward s h inPort ports bs ingress t) := by
  unfold forward
  repeat' first
    | with_reducible assumption
    | with_reducible apply bridge_keeps
    | with_reducible refine Keeps.ite (fun _ => ?_) (fun _ => ?_)
    | with_reducible refine Keeps.foldl ?_ (fun t x ht => ?_)
    | with_reducible refine Keeps.foldl_snd ?_ (fun t x ht => ?_)
    | with_reducible refine Keeps.foldl_fst ?_ (fun t x ht => ?_)
    | with_reducible refine Keeps.foldl_trd ?_ (fun t x ht => ?_)
    | split
    | with_reducible exact Keeps.of_snd (by assumption) (by assumption)

theorem releaseAt_keeps (h : Half) (tc : Nat) (t : Time) (p : Nat) (hk : Keeps ex s0 s) : Keeps ex s0 (releaseAt s h tc t p) := by
  unfold releaseAt
  repeat' first
    | with_reducible assumption
    | with_reducible apply putOut_keeps
    | with_reducible apply setWaiting_keeps
    | with_reducible refine Keeps.ite (fun _ => ?_) (fun _ => ?_)
    | split
    | with_reducible exact Keeps.of_snd (by assumption) (by assumption)

theorem admitFrame_keeps (h : Half) (port : Nat) (bs : List Byte) (ingress : Time) (t : Time) (hk : Keeps ex s0 s) : Keeps ex s0 (admitFrame s h port bs ingress t) := by
  unfold admitFrame
  repeat' first
    | with_reducible assumption
    | extract_lets
    | with_reducible apply forward_keeps
    | with_reducible apply frerPass_keeps
    | with_reducible apply bump_keeps
    | with_reducible refine Keeps.ite (fun _ => ?_) (fun _ => ?_)
    | split
    | with_reducible exact Keeps.of_snd (by assumption) (by assumption)

theorem answerArp_keeps (u : State) (h : Half) (port : Nat) (bs : List Byte) (t : Time) (hk : Keeps ex s0 s) : Keeps ex s0 (answerArp u s h port bs t) := by
  unfold answerArp
  exact Keeps.ite (fun _ => bridge_keeps _ _ _ _ hk) (fun _ => hk)

theorem execFrameIngress_keeps (h : Half) (port : Nat) (bs : List Byte) (fcs : Bool) (t : Time) (hk : Keeps ex s0 s) : ∀ u, execFrameIngress h port bs fcs t s = .next u → Keeps ex s0 u := by
  intro u ht
  unfold execFrameIngress at ht
  extract_lets at ht
  have hu := Host.Outcome.next.inj ht
  clear ht
  subst hu
  repeat' first
    | with_reducible assumption
    | extract_lets
    | with_reducible apply admitFrame_keeps
    | with_reducible apply answerArp_keeps
    | with_reducible apply atTime_keeps
    | with_reducible apply bump_keeps
    | with_reducible refine Keeps.ite (fun _ => ?_) (fun _ => ?_)
    | split
    | with_reducible exact Keeps.of_snd (by assumption) (by assumption)

theorem queueFrame_keeps (h : Half) (f : TxFrame) (hk : Keeps ex s0 s) : Keeps ex s0 (queueFrame s h f) := by
  unfold queueFrame
  repeat' first
    | with_reducible assumption
    | with_reducible apply modHalf_keeps
    | with_reducible refine Keeps.ite (fun _ => ?_) (fun _ => ?_)
    | with_reducible exact fun _ => ⟨fun h => h, fun h => h⟩
    | split
    | with_reducible exact Keeps.of_snd (by assumption) (by assumption)

theorem execFrame_keeps (h : Half) (t : Time) (hk : Keeps ex s0 s) : ∀ u, execFrame h t s = .next u → Keeps ex s0 u := by
  intro u ht
  unfold execFrame at ht
  extract_lets at ht
  have hu := Host.Outcome.next.inj ht
  clear ht
  subst hu
  repeat' first
    | with_reducible assumption
    | extract_lets
    | with_reducible apply admitFrame_keeps
    | with_reducible apply queueFrame_keeps
    | with_reducible apply atTime_keeps
    | with_reducible apply takeMsg_keeps
    | with_reducible refine Keeps.ite (fun _ => ?_) (fun _ => ?_)
    | with_reducible refine Keeps.ite_snd (fun _ => ?_) (fun _ => ?_)
    | with_reducible refine Keeps.ite_fst (fun _ => ?_) (fun _ => ?_)
    | split
    | with_reducible exact Keeps.of_snd (by assumption) (by assumption)
    | with_reducible apply Keeps.mk_fst
    | with_reducible apply Keeps.mk_snd

theorem txWriteBack_keeps (a : Nat) (doneT : Time) (status : Nat) (hk : Keeps ex s0 s) : Keeps ex s0 (txWriteBack s a doneT status) := by
  unfold txWriteBack
  repeat' first
    | with_reducible assumption
    | extract_lets
    | with_reducible apply mergeWrite_keeps
    | with_reducible refine Keeps.ite (fun _ => ?_) (fun _ => ?_)
    | split
    | with_reducible exact Keeps.of_snd (by assumption) (by assumption)

theorem takeTx_keeps (h : Half) (tc : Nat) (a : Nat) (d : Nat) (hk : Keeps ex s0 s) : Keeps ex s0 (takeTx s h tc a d) := by
  unfold takeTx
  repeat' first
    | with_reducible assumption
    | extract_lets
    | with_reducible apply crossFerry_keeps
    | with_reducible apply queueFrame_keeps
    | with_reducible apply modHalf_keeps
    | with_reducible refine Keeps.ite (fun _ => ?_) (fun _ => ?_)
    | with_reducible exact fun _ => ⟨fun h => h, fun h => h⟩
    | split
    | with_reducible exact Keeps.of_snd (by assumption) (by assumption)
    | dsimp +zetaDelta only

theorem execTxDescriptorTake_keeps (h : Half) (tc : Nat) (t : Time) (hk : Keeps ex s0 s) : ∀ u, execTxDescriptorTake h tc t s = .next u → Keeps ex s0 u := by
  intro u ht
  unfold execTxDescriptorTake at ht
  extract_lets at ht
  have hu := Host.Outcome.next.inj ht
  clear ht
  subst hu
  repeat' first
    | with_reducible assumption
    | extract_lets
    | with_reducible apply takeTx_keeps
    | with_reducible apply txWriteBack_keeps
    | with_reducible apply atTime_keeps
    | with_reducible apply modHalf_keeps
    | with_reducible apply readCheck_keeps
    | with_reducible refine Keeps.ite (fun _ => ?_) (fun _ => ?_)
    | with_reducible refine Keeps.ite_snd (fun _ => ?_) (fun _ => ?_)
    | with_reducible refine Keeps.ite_fst (fun _ => ?_) (fun _ => ?_)
    | with_reducible exact fun _ => ⟨fun h => h, fun h => h⟩
    | split
    | with_reducible exact Keeps.of_snd (by assumption) (by assumption)
    | with_reducible apply Keeps.mk_fst
    | with_reducible apply Keeps.mk_snd

theorem execGclCycleStart_keeps (h : Half) (port : Nat) (t : Time) (hk : Keeps ex s0 s) : ∀ u, execGclCycleStart h port t s = .next u → Keeps ex s0 u := by
  intro u ht
  unfold execGclCycleStart at ht
  extract_lets at ht
  have hu := Host.Outcome.next.inj ht
  clear ht
  subst hu
  repeat' first
    | with_reducible assumption
    | extract_lets
    | with_reducible apply atTime_keeps
    | with_reducible apply modHalf_keeps
    | with_reducible refine Keeps.ite (fun _ => ?_) (fun _ => ?_)
    | with_reducible exact fun _ => ⟨fun h => h, fun h => h⟩
    | split
    | with_reducible exact Keeps.of_snd (by assumption) (by assumption)

theorem dropTx_keeps (h : Half) (f : TxFrame) (hk : Keeps ex s0 s) : Keeps ex s0 (dropTx s h f) := by
  unfold dropTx
  repeat' first
    | with_reducible assumption
    | with_reducible apply modHalf_keeps
    | with_reducible refine Keeps.ite (fun _ => ?_) (fun _ => ?_)
    | with_reducible exact fun _ => ⟨fun h => h, fun h => h⟩
    | split
    | with_reducible exact Keeps.of_snd (by assumption) (by assumption)

theorem doneTx_keeps (f : TxFrame) (doneT : Time) (status : Nat) (hk : Keeps ex s0 s) : Keeps ex s0 (doneTx s f doneT status) := by
  unfold doneTx
  repeat' first
    | with_reducible assumption
    | with_reducible apply txWriteBack_keeps
    | with_reducible refine Keeps.ite (fun _ => ?_) (fun _ => ?_)
    | split
    | with_reducible exact Keeps.of_snd (by assumption) (by assumption)

theorem sendFrame_keeps (h : Half) (f : TxFrame) (ports : List Nat) (t : Time) (hk : Keeps ex s0 s) : Keeps ex s0 (sendFrame s h f ports t) := by
  unfold sendFrame
  repeat' first
    | with_reducible assumption
    | extract_lets
    | with_reducible apply doneTx_keeps
    | with_reducible apply dropTx_keeps
    | with_reducible apply putOut_keeps
    | with_reducible apply checkDeadline_keeps
    | with_reducible apply riseAlive_keeps
    | with_reducible refine Keeps.ite (fun _ => ?_) (fun _ => ?_)
    | with_reducible refine Keeps.foldl ?_ (fun t x ht => ?_)
    | with_reducible refine Keeps.foldl_snd ?_ (fun t x ht => ?_)
    | with_reducible refine Keeps.foldl_fst ?_ (fun t x ht => ?_)
    | with_reducible refine Keeps.foldl_trd ?_ (fun t x ht => ?_)
    | split
    | with_reducible exact Keeps.of_snd (by assumption) (by assumption)
    | dsimp +zetaDelta only

theorem dropFrame_keeps (h : Half) (f : TxFrame) (t : Time) (status : Nat) (late : Bool) (hk : Keeps ex s0 s) : Keeps ex s0 (dropFrame s h f t status late) := by
  unfold dropFrame
  repeat' first
    | with_reducible assumption
    | extract_lets
    | with_reducible apply doneTx_keeps
    | with_reducible apply dropTx_keeps
    | with_reducible apply bump_keeps
    | with_reducible apply noteAge_keeps
    | with_reducible apply noteBudget_keeps
    | with_reducible refine Keeps.ite (fun _ => ?_) (fun _ => ?_)
    | split
    | with_reducible exact Keeps.of_snd (by assumption) (by assumption)
    | dsimp +zetaDelta only

theorem launchFrame_keeps (h : Half) (f : TxFrame) (t : Time) (hk : Keeps ex s0 s) : Keeps ex s0 (launchFrame s h f t) := by
  unfold launchFrame
  repeat' first
    | with_reducible assumption
    | extract_lets
    | with_reducible apply doneTx_keeps
    | with_reducible apply dropFrame_keeps
    | with_reducible apply dropTx_keeps
    | with_reducible apply sendFrame_keeps
    | with_reducible apply bump_keeps
    | with_reducible apply free_keeps
    | with_reducible refine Keeps.ite (fun _ => ?_) (fun _ => ?_)
    | split
    | with_reducible exact Keeps.of_snd (by assumption) (by assumption)

theorem execLaunch_keeps (h : Half) (tc : Nat) (t : Time) (hk : Keeps ex s0 s) : ∀ u, execLaunch h tc t s = .next u → Keeps ex s0 u := by
  intro u ht
  unfold execLaunch at ht
  extract_lets at ht
  have hu := Host.Outcome.next.inj ht
  clear ht
  subst hu
  repeat' first
    | with_reducible assumption
    | extract_lets
    | with_reducible apply launchFrame_keeps
    | with_reducible apply releaseAt_keeps
    | with_reducible apply atTime_keeps
    | with_reducible refine Keeps.ite (fun _ => ?_) (fun _ => ?_)
    | with_reducible refine Keeps.foldl ?_ (fun t x ht => ?_)
    | with_reducible refine Keeps.foldl_snd ?_ (fun t x ht => ?_)
    | with_reducible refine Keeps.foldl_fst ?_ (fun t x ht => ?_)
    | with_reducible refine Keeps.foldl_trd ?_ (fun t x ht => ?_)
    | split
    | with_reducible exact Keeps.of_snd (by assumption) (by assumption)

end Sys2Proof.Machine
end

