-- ==== Sys2Proof/Laws/KeepsSensorCmds.lean ====
section
/-! SUPPORT. What no operation of Machine/SensorCmds.lean disturbs. -/
namespace Sys2Proof.Machine

variable {ex : Option Half} {s0 s : State}

theorem setCam_keeps (h : Half) (port : Nat) (v : Nat) (k : Option CamFrame) (hk : Keeps ex s0 s) : Keeps ex s0 (State.setCam s h port v k) := by
  unfold State.setCam
  refine modHalf_keeps _ _ hk fun x => ⟨fun h => h, fun h => TablesWf.cams (x := x) h fun ht => ?_⟩
  cases k
  · exact Tab.sortedFrom_erase _ _ _ ht
  · exact Tab.sortedFrom_insert _ _ _ _ ht (by simp)

theorem setLine_keeps (h : Half) (port : Nat) (v : Nat) (n : Nat) (hk : Keeps ex s0 s) : Keeps ex s0 (setLine s h port v n) := by
  unfold setLine
  repeat' first
    | with_reducible assumption
    | with_reducible apply modHalf_keeps
    | with_reducible refine Keeps.ite (fun _ => ?_) (fun _ => ?_)
    | with_reducible exact fun _ => ⟨fun h => h, fun h => h⟩
    | exact fun x => ⟨fun h => h, fun h => TablesWf.lineCtr (x := x) h (Tab.sortedFrom_set _ _ _ _)⟩
    | split
    | with_reducible exact Keeps.of_snd (by assumption) (by assumption)

theorem camWrite_keeps (h : Half) (a : Nat) (bs : List Byte) (hk : Keeps ex s0 s) : Keeps ex s0 (camWrite s h a bs) := by
  unfold camWrite
  repeat' first
    | with_reducible assumption
    | with_reducible apply mergeWrite_keeps
    | with_reducible refine Keeps.ite (fun _ => ?_) (fun _ => ?_)
    | split
    | with_reducible exact Keeps.of_snd (by assumption) (by assumption)

theorem endFrame_keeps (h : Half) (port : Nat) (v : Nat) (tFe : Time) (force : Bool) (hk : Keeps ex s0 s) : Keeps ex s0 (endFrame s h port v tFe force) := by
  unfold endFrame
  repeat' first
    | with_reducible assumption
    | extract_lets
    | with_reducible apply setCam_keeps
    | with_reducible apply camWrite_keeps
    | with_reducible apply setLine_keeps
    | with_reducible refine Keeps.ite (fun _ => ?_) (fun _ => ?_)
    | split
    | with_reducible exact Keeps.of_snd (by assumption) (by assumption)
    | dsimp +zetaDelta only

theorem fixBoundary_keeps (h : Half) (ctr : Nat) (tFs : Time) (hk : Keeps ex s0 s) : Keeps ex s0 (fixBoundary s h ctr tFs) := by
  unfold fixBoundary
  repeat' first
    | with_reducible assumption
    | extract_lets
    | with_reducible apply sendDict_keeps
    | with_reducible refine Keeps.ite (fun _ => ?_) (fun _ => ?_)
    | split
    | with_reducible exact Keeps.of_snd (by assumption) (by assumption)
    | with_reducible refine Keeps.elsewhere (Eq.refl _) ?_ ⟨fun h => h, fun h => h⟩ ⟨fun h => h, fun h => h⟩

theorem camDiscard_keeps (h : Half) (port : Nat) (hk : Keeps ex s0 s) : Keeps ex s0 (camDiscard s h port) := by
  unfold camDiscard
  repeat' first
    | with_reducible assumption
    | with_reducible apply bump_keeps
    | with_reducible refine Keeps.ite (fun _ => ?_) (fun _ => ?_)
    | split
    | with_reducible exact Keeps.of_snd (by assumption) (by assumption)

theorem camHeader_keeps (h : Half) (port : Nat) (ecc : Ecc) (go : State → State) (hk : Keeps ex s0 s)
    (hf : ∀ t, Keeps ex s0 t → Keeps ex s0 (go t)) : Keeps ex s0 (camHeader s h port ecc go) := by
  unfold camHeader
  refine Keeps.ite (fun _ => hk) (fun _ => ?_)
  cases ecc with
  | good => exact hf _ hk
  | corrected => exact hf _ (bump_keeps _ _ _ hk)
  | bad => exact camDiscard_keeps _ _ hk

theorem startFrame_keeps (h : Half) (port : Nat) (vc : Nat) (no : Nat) (t : Time) (hk : Keeps ex s0 s) : Keeps ex s0 (startFrame h port vc no t s) := by
  unfold startFrame
  repeat' first
    | with_reducible assumption
    | extract_lets
    | with_reducible apply setCam_keeps
    | with_reducible apply camDiscard_keeps
    | with_reducible apply camWrite_keeps
    | with_reducible apply endFrame_keeps
    | with_reducible apply fixBoundary_keeps
    | with_reducible apply setLine_keeps
    | with_reducible apply setNum_keeps
    | with_reducible refine Keeps.ite (fun _ => ?_) (fun _ => ?_)
    | split
    | with_reducible exact Keeps.of_snd (by assumption) (by assumption)

theorem execFrameStart_keeps (h : Half) (port : Nat) (vc : Nat) (no : Nat) (ecc : Ecc) (t : Time) (hk : Keeps ex s0 s) : ∀ u, execFrameStart h port vc no ecc t s = .next u → Keeps ex s0 u := by
  intro u ht
  unfold execFrameStart at ht
  have hu := Host.Outcome.next.inj ht
  clear ht
  subst hu
  repeat' first
    | with_reducible assumption
    | with_reducible refine camHeader_keeps _ _ _ _ ?_ (fun t ht => ?_)
    | with_reducible apply startFrame_keeps
    | with_reducible apply atTime_keeps
    | with_reducible refine Keeps.ite (fun _ => ?_) (fun _ => ?_)
    | split
    | with_reducible exact Keeps.of_snd (by assumption) (by assumption)

theorem storeLine_keeps (h : Half) (port : Nat) (v : Nat) (k : CamFrame) (hk : Keeps ex s0 s) : Keeps ex s0 (storeLine s h port v k) := by
  unfold storeLine
  repeat' first
    | with_reducible assumption
    | extract_lets
    | with_reducible apply camWrite_keeps
    | with_reducible apply setLine_keeps
    | with_reducible refine Keeps.ite (fun _ => ?_) (fun _ => ?_)
    | split
    | with_reducible exact Keeps.of_snd (by assumption) (by assumption)
    | dsimp +zetaDelta only

theorem takeRow_keeps (h : Half) (port : Nat) (vc : Nat) (dt : Nat) (bs : List Byte) (crc : Bool) (t : Time) (hk : Keeps ex s0 s) : Keeps ex s0 (takeRow h port vc dt bs crc t s) := by
  unfold takeRow
  repeat' first
    | with_reducible assumption
    | extract_lets
    | with_reducible apply setCam_keeps
    | with_reducible apply camDiscard_keeps
    | with_reducible apply storeLine_keeps
    | with_reducible apply bump_keeps
    | with_reducible refine Keeps.ite (fun _ => ?_) (fun _ => ?_)
    | split
    | with_reducible exact Keeps.of_snd (by assumption) (by assumption)
    | dsimp +zetaDelta only

theorem execLine_keeps (h : Half) (port : Nat) (vc : Nat) (dt : Nat) (bs : List Byte) (crc : Bool) (ecc : Ecc) (t : Time) (hk : Keeps ex s0 s) : ∀ u, execLine h port vc dt bs crc ecc t s = .next u → Keeps ex s0 u := by
  intro u ht
  unfold execLine at ht
  have hu := Host.Outcome.next.inj ht
  clear ht
  subst hu
  repeat' first
    | with_reducible assumption
    | with_reducible refine camHeader_keeps _ _ _ _ ?_ (fun t ht => ?_)
    | with_reducible apply takeRow_keeps
    | with_reducible apply atTime_keeps
    | with_reducible refine Keeps.ite (fun _ => ?_) (fun _ => ?_)
    | split
    | with_reducible exact Keeps.of_snd (by assumption) (by assumption)

theorem takeEmbedded_keeps (h : Half) (port : Nat) (vc : Nat) (bs : List Byte) (t : Time) (hk : Keeps ex s0 s) : Keeps ex s0 (takeEmbedded h port vc bs t s) := by
  unfold takeEmbedded
  repeat' first
    | with_reducible assumption
    | extract_lets
    | with_reducible apply setCam_keeps
    | with_reducible apply camDiscard_keeps
    | with_reducible apply camWrite_keeps
    | with_reducible refine Keeps.ite (fun _ => ?_) (fun _ => ?_)
    | split
    | with_reducible exact Keeps.of_snd (by assumption) (by assumption)

theorem execEmbeddedData_keeps (h : Half) (port : Nat) (vc : Nat) (bs : List Byte) (ecc : Ecc) (t : Time) (hk : Keeps ex s0 s) : ∀ u, execEmbeddedData h port vc bs ecc t s = .next u → Keeps ex s0 u := by
  intro u ht
  unfold execEmbeddedData at ht
  have hu := Host.Outcome.next.inj ht
  clear ht
  subst hu
  repeat' first
    | with_reducible assumption
    | with_reducible refine camHeader_keeps _ _ _ _ ?_ (fun t ht => ?_)
    | with_reducible apply takeEmbedded_keeps
    | with_reducible apply atTime_keeps
    | with_reducible refine Keeps.ite (fun _ => ?_) (fun _ => ?_)
    | split
    | with_reducible exact Keeps.of_snd (by assumption) (by assumption)

theorem takeEnd_keeps (h : Half) (port : Nat) (vc : Nat) (t : Time) (hk : Keeps ex s0 s) : Keeps ex s0 (takeEnd h port vc t s) := by
  unfold takeEnd
  repeat' first
    | with_reducible assumption
    | with_reducible apply camDiscard_keeps
    | with_reducible apply endFrame_keeps
    | with_reducible refine Keeps.ite (fun _ => ?_) (fun _ => ?_)
    | split
    | with_reducible exact Keeps.of_snd (by assumption) (by assumption)

theorem execFrameEnd_keeps (h : Half) (port : Nat) (vc : Nat) (ecc : Ecc) (t : Time) (hk : Keeps ex s0 s) : ∀ u, execFrameEnd h port vc ecc t s = .next u → Keeps ex s0 u := by
  intro u ht
  unfold execFrameEnd at ht
  have hu := Host.Outcome.next.inj ht
  clear ht
  subst hu
  repeat' first
    | with_reducible assumption
    | with_reducible refine camHeader_keeps _ _ _ _ ?_ (fun t ht => ?_)
    | with_reducible apply takeEnd_keeps
    | with_reducible apply atTime_keeps
    | with_reducible refine Keeps.ite (fun _ => ?_) (fun _ => ?_)
    | split
    | with_reducible exact Keeps.of_snd (by assumption) (by assumption)

theorem endFrameFree_keeps (h : Half) (port : Nat) (v : Nat) (force : Bool) (hk : Keeps ex s0 s) : Keeps ex s0 (endFrameFree s h port v force) := by
  unfold endFrameFree
  repeat' first
    | with_reducible assumption
    | extract_lets
    | with_reducible apply endFrame_keeps
    | with_reducible apply free_keeps
    | with_reducible refine Keeps.ite (fun _ => ?_) (fun _ => ?_)
    | split
    | with_reducible exact Keeps.of_snd (by assumption) (by assumption)

theorem execFrameTimeout_keeps (h : Half) (port : Nat) (v : Nat) (t : Time) (hk : Keeps ex s0 s) : ∀ u, execFrameTimeout h port v t s = .next u → Keeps ex s0 u := by
  intro u ht
  unfold execFrameTimeout at ht
  extract_lets at ht
  have hu := Host.Outcome.next.inj ht
  clear ht
  subst hu
  repeat' first
    | with_reducible assumption
    | extract_lets
    | with_reducible apply endFrameFree_keeps
    | with_reducible apply atTime_keeps
    | with_reducible refine Keeps.ite (fun _ => ?_) (fun _ => ?_)
    | split
    | with_reducible exact Keeps.of_snd (by assumption) (by assumption)

theorem setTrig_keeps (h : Half) (k : Nat) (x : Trig) (hk : Keeps ex s0 s) : Keeps ex s0 (State.setTrig s h k x) := by
  unfold State.setTrig
  repeat' first
    | with_reducible assumption
    | with_reducible apply modHalf_keeps
    | with_reducible refine Keeps.ite (fun _ => ?_) (fun _ => ?_)
    | with_reducible exact fun _ => ⟨fun h => h, fun h => h⟩
    | exact fun x => ⟨fun h => h, fun h => TablesWf.trigs (x := x) h (Tab.sortedFrom_set _ _ _ _)⟩
    | split
    | with_reducible exact Keeps.of_snd (by assumption) (by assumption)

theorem execTriggerInstant_keeps (h : Half) (k : Nat) (t : Time) (hk : Keeps ex s0 s) : ∀ u, execTriggerInstant h k t s = .next u → Keeps ex s0 u := by
  intro u ht
  unfold execTriggerInstant at ht
  extract_lets at ht
  have hu := Host.Outcome.next.inj ht
  clear ht
  subst hu
  repeat' first
    | with_reducible assumption
    | extract_lets
    | with_reducible apply setTrig_keeps
    | with_reducible apply atTime_keeps
    | with_reducible apply bump_keeps
    | with_reducible apply emit_keeps
    | with_reducible apply setNum_keeps
    | with_reducible refine Keeps.ite (fun _ => ?_) (fun _ => ?_)
    | split
    | with_reducible exact Keeps.of_snd (by assumption) (by assumption)
    | dsimp +zetaDelta only

theorem execTriggerPulseEnd_keeps (h : Half) (k : Nat) (t : Time) (hk : Keeps ex s0 s) : ∀ u, execTriggerPulseEnd h k t s = .next u → Keeps ex s0 u := by
  intro u ht
  unfold execTriggerPulseEnd at ht
  extract_lets at ht
  have hu := Host.Outcome.next.inj ht
  clear ht
  subst hu
  repeat' first
    | with_reducible assumption
    | extract_lets
    | with_reducible apply setTrig_keeps
    | with_reducible apply atTime_keeps
    | with_reducible apply emit_keeps
    | with_reducible refine Keeps.ite (fun _ => ?_) (fun _ => ?_)
    | split
    | with_reducible exact Keeps.of_snd (by assumption) (by assumption)

theorem execCaptureEdge_keeps (h : Half) (k : Nat) (rising : Bool) (t : Time) (hk : Keeps ex s0 s) : ∀ u, execCaptureEdge h k rising t s = .next u → Keeps ex s0 u := by
  intro u ht
  unfold execCaptureEdge at ht
  extract_lets at ht
  have hu := Host.Outcome.next.inj ht
  clear ht
  subst hu
  repeat' first
    | with_reducible assumption
    | extract_lets
    | with_reducible apply camWrite_keeps
    | with_reducible apply atTime_keeps
    | with_reducible apply bump_keeps
    | with_reducible apply modHalf_keeps
    | with_reducible apply setNum_keeps
    | with_reducible refine Keeps.ite (fun _ => ?_) (fun _ => ?_)
    | with_reducible exact fun _ => ⟨fun h => h, fun h => h⟩
    | exact fun x => ⟨fun h => h, fun h => TablesWf.caps (x := x) h (fun ht => Tab.sortedFrom_insert _ _ _ _ ht (by simp))⟩
    | split
    | with_reducible exact Keeps.of_snd (by assumption) (by assumption)
    | dsimp +zetaDelta only

end Sys2Proof.Machine
end

