-- ==== Sys2Proof/Laws/KeepsLoopCmds.lean ====
section
/-! SUPPORT. What no operation of Machine/LoopCmds.lean disturbs. -/
namespace Sys2Proof.Machine

variable {ex : Option Half} {s0 s : State}

theorem engineRead_keeps (h : Half) (a : Nat) (n : Nat) (hk : Keeps ex s0 s) : Keeps ex s0 (engineRead s h a n).2 := by
  unfold engineRead
  repeat' first
    | with_reducible assumption
    | extract_lets
    | with_reducible apply readCheck_keeps
    | with_reducible apply freeBytes_keeps
    | with_reducible refine Keeps.ite (fun _ => ?_) (fun _ => ?_)
    | with_reducible refine Keeps.ite_snd (fun _ => ?_) (fun _ => ?_)
    | with_reducible refine Keeps.ite_fst (fun _ => ?_) (fun _ => ?_)
    | split
    | with_reducible exact Keeps.of_snd (by assumption) (by assumption)
    | with_reducible apply Keeps.mk_fst
    | with_reducible apply Keeps.mk_snd

theorem readPoints_keeps (h : Half) (n : Nat) (t : Time) (hk : Keeps ex s0 s) : Keeps ex s0 (readPoints s h n t).2 := by
  unfold readPoints
  repeat' first
    | with_reducible assumption
    | extract_lets
    | with_reducible apply engineRead_keeps
    | with_reducible apply freeBytes_keeps
    | with_reducible refine Keeps.ite (fun _ => ?_) (fun _ => ?_)
    | with_reducible refine Keeps.ite_snd (fun _ => ?_) (fun _ => ?_)
    | with_reducible refine Keeps.ite_fst (fun _ => ?_) (fun _ => ?_)
    | split
    | with_reducible exact Keeps.of_snd (by assumption) (by assumption)
    | with_reducible apply Keeps.mk_fst
    | with_reducible apply Keeps.mk_snd
    | dsimp +zetaDelta only

theorem readSetpoint_keeps (h : Half) (n : Nat) (hits : List (Nat × Nat)) (t : Time) (hk : Keeps ex s0 s) : Keeps ex s0 (readSetpoint s h n hits t).2 := by
  unfold readSetpoint
  repeat' first
    | with_reducible assumption
    | with_reducible apply readPoints_keeps
    | with_reducible apply bump_keeps
    | with_reducible refine Keeps.ite (fun _ => ?_) (fun _ => ?_)
    | with_reducible refine Keeps.ite_snd (fun _ => ?_) (fun _ => ?_)
    | with_reducible refine Keeps.ite_fst (fun _ => ?_) (fun _ => ?_)
    | split
    | with_reducible exact Keeps.of_snd (by assumption) (by assumption)
    | with_reducible apply Keeps.mk_fst
    | with_reducible apply Keeps.mk_snd

theorem tripLoop_keeps (h : Half) (n : Nat) (cause : Nat) (hk : Keeps ex s0 s) : Keeps ex s0 (tripLoop s h n cause) := by
  unfold tripLoop
  repeat' first
    | with_reducible assumption
    | with_reducible apply modSafety_keeps
    | with_reducible apply setNum_keeps
    | with_reducible refine Keeps.ite (fun _ => ?_) (fun _ => ?_)
    | split
    | with_reducible exact Keeps.of_snd (by assumption) (by assumption)

theorem closeLoop_keeps (h : Half) (n : Nat) (hk : Keeps ex s0 s) : Keeps ex s0 (closeLoop s h n) := by
  unfold closeLoop
  repeat' first
    | with_reducible assumption
    | extract_lets
    | with_reducible apply setLoop_keeps
    | with_reducible apply setNum_keeps
    | with_reducible refine Keeps.ite (fun _ => ?_) (fun _ => ?_)
    | split
    | with_reducible exact Keeps.of_snd (by assumption) (by assumption)

theorem openLoopNow_keeps (h : Half) (n : Nat) (hk : Keeps ex s0 s) : Keeps ex s0 (openLoopNow s h n) := by
  unfold openLoopNow
  repeat' first
    | with_reducible assumption
    | with_reducible apply setNum_keeps
    | with_reducible refine Keeps.ite (fun _ => ?_) (fun _ => ?_)
    | split
    | with_reducible exact Keeps.of_snd (by assumption) (by assumption)

theorem superviseLoop_keeps (h : Half) (n : Nat) (stale : Bool) (expired : Bool) (v : List F32) (hk : Keeps ex s0 s) : Keeps ex s0 (superviseLoop s h n stale expired v) := by
  unfold superviseLoop
  repeat' first
    | with_reducible assumption
    | extract_lets
    | with_reducible apply tripLoop_keeps
    | with_reducible apply setLoop_keeps
    | with_reducible apply setNum_keeps
    | with_reducible refine Keeps.ite (fun _ => ?_) (fun _ => ?_)
    | split
    | with_reducible exact Keeps.of_snd (by assumption) (by assumption)
    | dsimp +zetaDelta only

theorem encodeField_keeps (u : F32) (scale : F32) (ofs : F32) (w : Nat) (signed : Bool) (hk : Keeps ex s0 s) : Keeps ex s0 (encodeField s u scale ofs w signed).2 := by
  unfold encodeField
  repeat' first
    | with_reducible assumption
    | extract_lets
    | with_reducible apply free_keeps
    | with_reducible refine Keeps.ite (fun _ => ?_) (fun _ => ?_)
    | with_reducible refine Keeps.ite_snd (fun _ => ?_) (fun _ => ?_)
    | with_reducible refine Keeps.ite_fst (fun _ => ?_) (fun _ => ?_)
    | split
    | with_reducible exact Keeps.of_snd (by assumption) (by assumption)
    | with_reducible apply Keeps.mk_fst
    | with_reducible apply Keeps.mk_snd
    | dsimp +zetaDelta only

theorem queueCan_keeps (h : Half) (c : Nat) (f : CanTx) (hk : Keeps ex s0 s) : Keeps ex s0 (queueCan s h c f) := by
  unfold queueCan
  repeat' first
    | with_reducible assumption
    | extract_lets
    | with_reducible apply setCan_keeps
    | with_reducible refine Keeps.ite (fun _ => ?_) (fun _ => ?_)
    | split
    | with_reducible exact Keeps.of_snd (by assumption) (by assumption)

theorem postLoopFrame_keeps (h : Half) (n : Nat) (bs : List Byte) (launch : Time) (src : Time) (hk : Keeps ex s0 s) : Keeps ex s0 (postLoopFrame s h n bs launch src) := by
  unfold postLoopFrame
  repeat' first
    | with_reducible assumption
    | extract_lets
    | with_reducible apply queueCan_keeps
    | with_reducible apply free_keeps
    | with_reducible apply queueFrame_keeps
    | with_reducible refine Keeps.ite (fun _ => ?_) (fun _ => ?_)
    | split
    | with_reducible exact Keeps.of_snd (by assumption) (by assumption)

theorem putOutput_keeps (tpl : List Byte) (u : List F32) (tripped : Bool) (r : List Byte × State) (k : Nat) (hk : Keeps ex s0 r.2) : Keeps ex s0 (putOutput tpl u tripped r k).2 := encodeField_keeps _ _ _ _ _ hk

theorem outputFrame_keeps (h : Half) (n : Nat) (u : List F32) (instant : Time) (hk : Keeps ex s0 s) : Keeps ex s0 (outputFrame s h n u instant) := by
  unfold outputFrame
  repeat' first
    | with_reducible assumption
    | extract_lets
    | with_reducible apply putOutput_keeps
    | with_reducible apply postLoopFrame_keeps
    | with_reducible refine Keeps.ite (fun _ => ?_) (fun _ => ?_)
    | with_reducible refine Keeps.foldl ?_ (fun t x ht => ?_)
    | with_reducible refine Keeps.foldl_snd ?_ (fun t x ht => ?_)
    | with_reducible refine Keeps.foldl_fst ?_ (fun t x ht => ?_)
    | with_reducible refine Keeps.foldl_trd ?_ (fun t x ht => ?_)
    | split
    | with_reducible exact Keeps.of_snd (by assumption) (by assumption)
    | dsimp +zetaDelta only

theorem runSample_keeps (h : Half) (n : Nat) (hits : List (Nat × Nat)) (instant : Time) (hk : Keeps ex s0 s) : Keeps ex s0 (runSample s h n hits instant) := by
  unfold runSample
  repeat' first
    | with_reducible assumption
    | extract_lets
    | with_reducible apply outputFrame_keeps
    | with_reducible apply readSetpoint_keeps
    | with_reducible apply superviseLoop_keeps
    | with_reducible apply setLoop_keeps
    | with_reducible refine Keeps.ite (fun _ => ?_) (fun _ => ?_)
    | split
    | with_reducible exact Keeps.of_snd (by assumption) (by assumption)
    | with_reducible refine Keeps.elsewhere (Eq.refl _) ?_ ⟨fun h => h, fun h => h⟩ ⟨fun h => h, fun h => h⟩
    | dsimp +zetaDelta only

theorem execSample_keeps (h : Half) (hits : List (Nat × Nat)) (t : Time) (hk : Keeps ex s0 s) : ∀ u, execSample h hits t s = .next u → Keeps ex s0 u := by
  intro u ht
  have hu : _ = u := Host.Outcome.next.inj ht
  rw [← hu]
  refine Keeps.foldl (atTime_keeps _ _ hk) (fun w x hw => ?_)
  split
  · exact runSample_keeps _ _ _ _ hw
  · exact hw

theorem execCloseFail_keeps (h : Half) (n : Nat) (t : Time) (hk : Keeps ex s0 s) : ∀ u, execCloseFail h n t s = .next u → Keeps ex s0 u := by
  intro u ht
  unfold execCloseFail at ht
  extract_lets at ht
  have hu := Host.Outcome.next.inj ht
  clear ht
  subst hu
  repeat' first
    | with_reducible assumption
    | extract_lets
    | with_reducible apply tripLoop_keeps
    | with_reducible apply atTime_keeps
    | with_reducible refine Keeps.ite (fun _ => ?_) (fun _ => ?_)
    | split
    | with_reducible exact Keeps.of_snd (by assumption) (by assumption)

theorem execFollowing_keeps (h : Half) (n : Nat) (hk : Keeps ex s0 s) : ∀ u, execFollowing h n s = .next u → Keeps ex s0 u := by
  intro u ht
  unfold execFollowing at ht
  have hu := Host.Outcome.next.inj ht
  clear ht
  subst hu
  repeat' first
    | with_reducible assumption
    | with_reducible apply tripLoop_keeps
    | with_reducible refine Keeps.ite (fun _ => ?_) (fun _ => ?_)
    | split
    | with_reducible exact Keeps.of_snd (by assumption) (by assumption)

end Sys2Proof.Machine
end

