-- ==== Sys2Proof/Laws/KeepsCanCmds.lean ====
section
/-! SUPPORT. What no operation of Machine/CanCmds.lean disturbs. -/
namespace Sys2Proof.Machine

variable {ex : Option Half} {s0 s : State}

theorem showErrors_keeps (h : Half) (c : Nat) (hk : Keeps ex s0 s) : Keeps ex s0 (showErrors s h c) := by
  unfold showErrors
  repeat' first
    | with_reducible assumption
    | extract_lets
    | with_reducible apply setNum_keeps
    | with_reducible refine Keeps.ite (fun _ => ?_) (fun _ => ?_)
    | split
    | with_reducible exact Keeps.of_snd (by assumption) (by assumption)
    | dsimp +zetaDelta only

theorem sentGood_keeps (h : Half) (c : Nat) (hk : Keeps ex s0 s) : Keeps ex s0 (sentGood s h c) := by
  unfold sentGood
  repeat' first
    | with_reducible assumption
    | extract_lets
    | with_reducible apply showErrors_keeps
    | with_reducible apply setCan_keeps
    | with_reducible refine Keeps.ite (fun _ => ?_) (fun _ => ?_)
    | split
    | with_reducible exact Keeps.of_snd (by assumption) (by assumption)

theorem receivedGood_keeps (h : Half) (c : Nat) (hk : Keeps ex s0 s) : Keeps ex s0 (receivedGood s h c) := by
  unfold receivedGood
  repeat' first
    | with_reducible assumption
    | extract_lets
    | with_reducible apply showErrors_keeps
    | with_reducible apply free_keeps
    | with_reducible apply setCan_keeps
    | with_reducible refine Keeps.ite (fun _ => ?_) (fun _ => ?_)
    | split
    | with_reducible exact Keeps.of_snd (by assumption) (by assumption)

theorem sentBad_keeps (h : Half) (c : Nat) (cause : Nat) (hk : Keeps ex s0 s) : Keeps ex s0 (sentBad s h c cause) := by
  unfold sentBad
  repeat' first
    | with_reducible assumption
    | extract_lets
    | with_reducible apply showErrors_keeps
    | with_reducible apply setCan_keeps
    | with_reducible refine Keeps.ite (fun _ => ?_) (fun _ => ?_)
    | split
    | with_reducible exact Keeps.of_snd (by assumption) (by assumption)
    | dsimp +zetaDelta only

theorem canPad_keeps (h : Half) (c : Nat) (ofs : Nat) (hk : Keeps ex s0 s) : Keeps ex s0 (canPad s h c ofs) := by
  unfold canPad
  repeat' first
    | with_reducible assumption
    | extract_lets
    | with_reducible apply free_keeps
    | with_reducible apply setCan_keeps
    | with_reducible apply camWrite_keeps
    | with_reducible refine Keeps.ite (fun _ => ?_) (fun _ => ?_)
    | split
    | with_reducible exact Keeps.of_snd (by assumption) (by assumption)

theorem canRecord_keeps (h : Half) (c : Nat) (f : CanFrame) (sof : Time) (self : Bool) (hk : Keeps ex s0 s) : Keeps ex s0 (canRecord s h c f sof self) := by
  unfold canRecord
  repeat' first
    | with_reducible assumption
    | extract_lets
    | with_reducible apply canPad_keeps
    | with_reducible apply setCan_keeps
    | with_reducible apply setNum_keeps
    | with_reducible apply camWrite_keeps
    | with_reducible apply takeSignals_keeps
    | with_reducible refine Keeps.ite (fun _ => ?_) (fun _ => ?_)
    | split
    | with_reducible exact Keeps.of_snd (by assumption) (by assumption)
    | dsimp +zetaDelta only

theorem abdAccept_keeps (h : Half) (c : Nat) (i : Nat) (hk : Keeps ex s0 s) : Keeps ex s0 (abdAccept s h c i) := by
  unfold abdAccept
  repeat' first
    | with_reducible assumption
    | extract_lets
    | with_reducible apply canRecord_keeps
    | with_reducible apply setCan_keeps
    | with_reducible apply setNum_keeps
    | with_reducible refine Keeps.ite (fun _ => ?_) (fun _ => ?_)
    | with_reducible refine Keeps.foldl ?_ (fun t x ht => ?_)
    | with_reducible refine Keeps.foldl_snd ?_ (fun t x ht => ?_)
    | with_reducible refine Keeps.foldl_fst ?_ (fun t x ht => ?_)
    | with_reducible refine Keeps.foldl_trd ?_ (fun t x ht => ?_)
    | split
    | with_reducible exact Keeps.of_snd (by assumption) (by assumption)

theorem abdFrame_keeps (h : Half) (c : Nat) (f : CanFrame) (t : Time) (hk : Keeps ex s0 s) : Keeps ex s0 (abdFrame s h c f t) := by
  unfold abdFrame
  repeat' first
    | with_reducible assumption
    | extract_lets
    | with_reducible apply abdAccept_keeps
    | with_reducible apply setCan_keeps
    | with_reducible refine Keeps.ite (fun _ => ?_) (fun _ => ?_)
    | split
    | with_reducible exact Keeps.of_snd (by assumption) (by assumption)

theorem abdNext_keeps (h : Half) (c : Nat) (hk : Keeps ex s0 s) : Keeps ex s0 (abdNext s h c) := by
  unfold abdNext
  repeat' first
    | with_reducible assumption
    | extract_lets
    | with_reducible apply setCan_keeps
    | with_reducible apply setNum_keeps
    | with_reducible refine Keeps.ite (fun _ => ?_) (fun _ => ?_)
    | split
    | with_reducible exact Keeps.of_snd (by assumption) (by assumption)

theorem execAbdDwell_keeps (h : Half) (c : Nat) (hk : Keeps ex s0 s) : ∀ u, execAbdDwell h c s = .next u → Keeps ex s0 u := by
  intro u ht
  unfold execAbdDwell at ht
  have hu := Host.Outcome.next.inj ht
  clear ht
  subst hu
  repeat' first
    | with_reducible assumption
    | with_reducible apply abdNext_keeps
    | with_reducible refine Keeps.ite (fun _ => ?_) (fun _ => ?_)
    | split
    | with_reducible exact Keeps.of_snd (by assumption) (by assumption)

theorem execCanReceive_keeps (h : Half) (c : Nat) (f : CanFrame) (t : Time) (hk : Keeps ex s0 s) : ∀ u, execCanReceive h c f t s = .next u → Keeps ex s0 u := by
  intro u ht
  unfold execCanReceive at ht
  extract_lets at ht
  have hu := Host.Outcome.next.inj ht
  clear ht
  subst hu
  repeat' first
    | with_reducible assumption
    | extract_lets
    | with_reducible apply abdFrame_keeps
    | with_reducible apply canRecord_keeps
    | with_reducible apply receivedGood_keeps
    | with_reducible apply showErrors_keeps
    | with_reducible apply atTime_keeps
    | with_reducible apply bump_keeps
    | with_reducible apply setCan_keeps
    | with_reducible refine Keeps.ite (fun _ => ?_) (fun _ => ?_)
    | split
    | with_reducible exact Keeps.of_snd (by assumption) (by assumption)

theorem canWriteBack_keeps (slot : Option Nat) (doneT : Time) (status : Nat) (cause : Nat) (hk : Keeps ex s0 s) : Keeps ex s0 (canWriteBack s slot doneT status cause) := by
  unfold canWriteBack
  repeat' first
    | with_reducible assumption
    | with_reducible apply mergeWrite_keeps
    | with_reducible refine Keeps.ite (fun _ => ?_) (fun _ => ?_)
    | split
    | with_reducible exact Keeps.of_snd (by assumption) (by assumption)

theorem popCan_keeps (h : Half) (c : Nat) (f : CanTx) (hk : Keeps ex s0 s) : Keeps ex s0 (popCan s h c f) := by
  unfold popCan
  repeat' first
    | with_reducible assumption
    | extract_lets
    | with_reducible apply setCan_keeps
    | with_reducible refine Keeps.ite (fun _ => ?_) (fun _ => ?_)
    | split
    | with_reducible exact Keeps.of_snd (by assumption) (by assumption)

theorem dropRefused_keeps (h : Half) (c : Nat) (hk : Keeps ex s0 s) : Keeps ex s0 (dropRefused s h c) := by
  unfold dropRefused
  repeat' first
    | with_reducible assumption
    | with_reducible apply canWriteBack_keeps
    | with_reducible apply popCan_keeps
    | with_reducible refine Keeps.ite (fun _ => ?_) (fun _ => ?_)
    | with_reducible refine Keeps.foldl ?_ (fun t x ht => ?_)
    | with_reducible refine Keeps.foldl_snd ?_ (fun t x ht => ?_)
    | with_reducible refine Keeps.foldl_fst ?_ (fun t x ht => ?_)
    | with_reducible refine Keeps.foldl_trd ?_ (fun t x ht => ?_)
    | split
    | with_reducible exact Keeps.of_snd (by assumption) (by assumption)

theorem takeCan_keeps (h : Half) (c : Nat) (a : Nat) (d : Nat) (t : Time) (hk : Keeps ex s0 s) : Keeps ex s0 (takeCan s h c a d t) := by
  unfold takeCan
  repeat' first
    | with_reducible assumption
    | extract_lets
    | with_reducible apply dropRefused_keeps
    | with_reducible apply readCheck_keeps
    | with_reducible apply setCan_keeps
    | with_reducible apply queueCan_keeps
    | with_reducible refine Keeps.ite (fun _ => ?_) (fun _ => ?_)
    | split
    | with_reducible exact Keeps.of_snd (by assumption) (by assumption)
    | dsimp +zetaDelta only

theorem execCanTxTake_keeps (h : Half) (c : Nat) (t : Time) (hk : Keeps ex s0 s) : ∀ u, execCanTxTake h c t s = .next u → Keeps ex s0 u := by
  intro u ht
  unfold execCanTxTake at ht
  extract_lets at ht
  have hu := Host.Outcome.next.inj ht
  clear ht
  subst hu
  repeat' first
    | with_reducible assumption
    | extract_lets
    | with_reducible apply takeCan_keeps
    | with_reducible apply atTime_keeps
    | with_reducible apply readCheck_keeps
    | with_reducible refine Keeps.ite (fun _ => ?_) (fun _ => ?_)
    | with_reducible refine Keeps.ite_snd (fun _ => ?_) (fun _ => ?_)
    | with_reducible refine Keeps.ite_fst (fun _ => ?_) (fun _ => ?_)
    | split
    | with_reducible exact Keeps.of_snd (by assumption) (by assumption)
    | with_reducible apply Keeps.mk_fst
    | with_reducible apply Keeps.mk_snd

theorem dropCan_keeps (h : Half) (c : Nat) (f : CanTx) (t : Time) (status : Nat) (cause : Nat) (late : Bool) (hk : Keeps ex s0 s) : Keeps ex s0 (dropCan s h c f t status cause late) := by
  unfold dropCan
  repeat' first
    | with_reducible assumption
    | extract_lets
    | with_reducible apply canWriteBack_keeps
    | with_reducible apply popCan_keeps
    | with_reducible apply bump_keeps
    | with_reducible apply noteAge_keeps
    | with_reducible apply noteBudget_keeps
    | with_reducible refine Keeps.ite (fun _ => ?_) (fun _ => ?_)
    | split
    | with_reducible exact Keeps.of_snd (by assumption) (by assumption)
    | dsimp +zetaDelta only

theorem dropCanAs_keeps (h : Half) (c : Nat) (f : CanTx) (t : Time) (cause : Nat) (hk : Keeps ex s0 s) : Keeps ex s0 (dropCanAs s h c f t cause) := by
  unfold dropCanAs
  repeat' first
    | with_reducible assumption
    | with_reducible apply dropCan_keeps
    | with_reducible refine Keeps.ite (fun _ => ?_) (fun _ => ?_)
    | split
    | with_reducible exact Keeps.of_snd (by assumption) (by assumption)

theorem dropPassed_keeps (h : Half) (c : Nat) (t : Time) (hk : Keeps ex s0 s) : Keeps ex s0 (dropPassed s h c t) := by
  unfold dropPassed
  repeat' first
    | with_reducible assumption
    | with_reducible apply dropCanAs_keeps
    | with_reducible refine Keeps.ite (fun _ => ?_) (fun _ => ?_)
    | with_reducible refine Keeps.foldl ?_ (fun t x ht => ?_)
    | with_reducible refine Keeps.foldl_snd ?_ (fun t x ht => ?_)
    | with_reducible refine Keeps.foldl_fst ?_ (fun t x ht => ?_)
    | with_reducible refine Keeps.foldl_trd ?_ (fun t x ht => ?_)
    | split
    | with_reducible exact Keeps.of_snd (by assumption) (by assumption)

theorem sendCan_keeps (h : Half) (c : Nat) (f : CanTx) (t : Time) (hk : Keeps ex s0 s) : Keeps ex s0 (sendCan s h c f t) := by
  unfold sendCan
  repeat' first
    | with_reducible assumption
    | extract_lets
    | with_reducible apply canRecord_keeps
    | with_reducible apply canWriteBack_keeps
    | with_reducible apply popCan_keeps
    | with_reducible apply sentGood_keeps
    | with_reducible apply emit_keeps
    | with_reducible apply checkDeadline_keeps
    | with_reducible apply riseAlive_keeps
    | with_reducible refine Keeps.ite (fun _ => ?_) (fun _ => ?_)
    | split
    | with_reducible exact Keeps.of_snd (by assumption) (by assumption)
    | dsimp +zetaDelta only

theorem sendSafeCan_keeps (h : Half) (c : Nat) (i : Nat) (f : CanFrame) (t : Time) (hk : Keeps ex s0 s) : Keeps ex s0 (sendSafeCan s h c i f t) := by
  unfold sendSafeCan
  repeat' first
    | with_reducible assumption
    | extract_lets
    | with_reducible apply canRecord_keeps
    | with_reducible apply sentGood_keeps
    | with_reducible apply emit_keeps
    | with_reducible apply setCan_keeps
    | with_reducible refine Keeps.ite (fun _ => ?_) (fun _ => ?_)
    | split
    | with_reducible exact Keeps.of_snd (by assumption) (by assumption)

theorem execCanTransmit_keeps (h : Half) (c : Nat) (t : Time) (hk : Keeps ex s0 s) : ∀ u, execCanTransmit h c t s = .next u → Keeps ex s0 u := by
  intro u ht
  unfold execCanTransmit at ht
  extract_lets at ht
  have hu := Host.Outcome.next.inj ht
  clear ht
  subst hu
  repeat' first
    | with_reducible assumption
    | extract_lets
    | with_reducible apply dropCanAs_keeps
    | with_reducible apply dropPassed_keeps
    | with_reducible apply dropRefused_keeps
    | with_reducible apply sendCan_keeps
    | with_reducible apply sendSafeCan_keeps
    | with_reducible apply atTime_keeps
    | with_reducible refine Keeps.ite (fun _ => ?_) (fun _ => ?_)
    | split
    | with_reducible exact Keeps.of_snd (by assumption) (by assumption)

theorem failAttempt_keeps (h : Half) (c : Nat) (cause : Nat) (hk : Keeps ex s0 s) : Keeps ex s0 (failAttempt s h c cause) := by
  unfold failAttempt
  repeat' first
    | with_reducible assumption
    | with_reducible apply sentBad_keeps
    | with_reducible apply bump_keeps
    | with_reducible refine Keeps.ite (fun _ => ?_) (fun _ => ?_)
    | split
    | with_reducible exact Keeps.of_snd (by assumption) (by assumption)

theorem execArbitrationLost_keeps (h : Half) (c : Nat) (cause : Nat) (t : Time) (hk : Keeps ex s0 s) : ∀ u, execArbitrationLost h c cause t s = .next u → Keeps ex s0 u := by
  intro u ht
  unfold execArbitrationLost at ht
  extract_lets at ht
  have hu := Host.Outcome.next.inj ht
  clear ht
  subst hu
  repeat' first
    | with_reducible assumption
    | extract_lets
    | with_reducible apply canWriteBack_keeps
    | with_reducible apply dropRefused_keeps
    | with_reducible apply failAttempt_keeps
    | with_reducible apply popCan_keeps
    | with_reducible apply atTime_keeps
    | with_reducible apply setCan_keeps
    | with_reducible refine Keeps.ite (fun _ => ?_) (fun _ => ?_)
    | split
    | with_reducible exact Keeps.of_snd (by assumption) (by assumption)

theorem execBusOffRecovery_keeps (h : Half) (c : Nat) (hk : Keeps ex s0 s) : ∀ u, execBusOffRecovery h c s = .next u → Keeps ex s0 u := by
  intro u ht
  unfold execBusOffRecovery at ht
  extract_lets at ht
  have hu := Host.Outcome.next.inj ht
  clear ht
  subst hu
  repeat' first
    | with_reducible assumption
    | extract_lets
    | with_reducible apply dropPassed_keeps
    | with_reducible apply showErrors_keeps
    | with_reducible apply setCan_keeps
    | with_reducible refine Keeps.ite (fun _ => ?_) (fun _ => ?_)
    | split
    | with_reducible exact Keeps.of_snd (by assumption) (by assumption)
    | with_reducible refine Keeps.elsewhere (Eq.refl _) ?_ ⟨fun h => h, fun h => h⟩ ⟨fun h => h, fun h => h⟩

theorem takeSettings_keeps (h : Half) (c : Nat) (hk : Keeps ex s0 s) : Keeps ex s0 (takeSettings s h c) := by
  unfold takeSettings
  repeat' first
    | with_reducible assumption
    | extract_lets
    | with_reducible apply setCan_keeps
    | with_reducible refine Keeps.ite (fun _ => ?_) (fun _ => ?_)
    | split
    | with_reducible exact Keeps.of_snd (by assumption) (by assumption)
    | dsimp +zetaDelta only

theorem execControllerChange_keeps (h : Half) (c : Nat) (hk : Keeps ex s0 s) : ∀ u, execControllerChange h c s = .next u → Keeps ex s0 u := by
  intro u ht
  unfold execControllerChange at ht
  have hu := Host.Outcome.next.inj ht
  clear ht
  subst hu
  repeat' first
    | with_reducible assumption
    | with_reducible apply takeSettings_keeps
    | with_reducible refine Keeps.ite (fun _ => ?_) (fun _ => ?_)
    | split
    | with_reducible exact Keeps.of_snd (by assumption) (by assumption)

end Sys2Proof.Machine
end

