-- ==== Sys2Proof/Laws/KeepsSafetyCmds.lean ====
section
/-! SUPPORT. What no operation of Machine/SafetyCmds.lean disturbs. -/
namespace Sys2Proof.Machine

variable {ex : Option Half} {s0 s : State}

theorem countFrame_keeps (h : Half) (f : Safety → Safety) (hk : Keeps ex s0 s) : Keeps ex s0 (countFrame s h f) := by
  unfold countFrame
  repeat' first
    | with_reducible assumption
    | with_reducible apply modSafety_keeps
    | with_reducible apply ageSuspects_keeps
    | with_reducible refine Keeps.ite (fun _ => ?_) (fun _ => ?_)
    | split
    | with_reducible exact Keeps.of_snd (by assumption) (by assumption)

theorem execSafetyFrame_keeps (h : Half) (t : Time) (hk : Keeps ex s0 s) : ∀ u, execSafetyFrame h t s = .next u → Keeps ex s0 u := by
  intro u ht
  unfold execSafetyFrame at ht
  extract_lets at ht
  have hu := Host.Outcome.next.inj ht
  clear ht
  subst hu
  repeat' first
    | with_reducible assumption
    | extract_lets
    | with_reducible apply countFrame_keeps
    | with_reducible apply atTime_keeps
    | with_reducible refine Keeps.ite (fun _ => ?_) (fun _ => ?_)
    | split
    | with_reducible exact Keeps.of_snd (by assumption) (by assumption)

theorem execSafetyFrameFallback_keeps (h : Half) (t : Time) (hk : Keeps ex s0 s) : ∀ u, execSafetyFrameFallback h t s = .next u → Keeps ex s0 u := by
  intro u ht
  unfold execSafetyFrameFallback at ht
  extract_lets at ht
  have hu := Host.Outcome.next.inj ht
  clear ht
  subst hu
  repeat' first
    | with_reducible assumption
    | extract_lets
    | with_reducible apply atTime_keeps
    | with_reducible apply bump_keeps
    | with_reducible apply modSafety_keeps
    | with_reducible refine Keeps.ite (fun _ => ?_) (fun _ => ?_)
    | split
    | with_reducible exact Keeps.of_snd (by assumption) (by assumption)

theorem setSpring_keeps (h : Half) (c : Nat) (x : Spring) (hk : Keeps ex s0 s) : Keeps ex s0 (State.setSpring s h c x) := by
  unfold State.setSpring
  repeat' first
    | with_reducible assumption
    | with_reducible apply modHalf_keeps
    | with_reducible refine Keeps.ite (fun _ => ?_) (fun _ => ?_)
    | with_reducible exact fun _ => ⟨fun h => h, fun h => h⟩
    | exact fun x => ⟨fun h => h, fun h => TablesWf.springs (x := x) h (Tab.sortedFrom_set _ _ _ _)⟩
    | split
    | with_reducible exact Keeps.of_snd (by assumption) (by assumption)

theorem springRecord_keeps (h : Half) (c : Nat) (bin : Option Nat) (elapsed : Int) (hk : Keeps ex s0 s) : Keeps ex s0 (springRecord s h c bin elapsed) := by
  unfold springRecord
  repeat' first
    | with_reducible assumption
    | with_reducible apply observe_keeps
    | with_reducible refine Keeps.ite (fun _ => ?_) (fun _ => ?_)
    | split
    | with_reducible exact Keeps.of_snd (by assumption) (by assumption)

theorem startSpring_keeps (h : Half) (c : Nat) (due : Time) (hk : Keeps ex s0 s) : Keeps ex s0 (startSpring s h c due) := by
  unfold startSpring
  repeat' first
    | with_reducible assumption
    | extract_lets
    | with_reducible apply setSpring_keeps
    | with_reducible apply setNum_keeps
    | with_reducible apply takeWaiting_keeps
    | with_reducible apply wakeIdle_keeps
    | with_reducible refine Keeps.ite (fun _ => ?_) (fun _ => ?_)
    | split
    | with_reducible exact Keeps.of_snd (by assumption) (by assumption)

theorem missSpring_keeps (h : Half) (c : Nat) (t : Time) (hk : Keeps ex s0 s) : Keeps ex s0 (missSpring s h c t) := by
  unfold missSpring
  repeat' first
    | with_reducible assumption
    | extract_lets
    | with_reducible apply springRecord_keeps
    | with_reducible apply setNum_keeps
    | with_reducible apply retireCore_keeps
    | with_reducible refine Keeps.ite (fun _ => ?_) (fun _ => ?_)
    | split
    | with_reducible exact Keeps.of_snd (by assumption) (by assumption)

theorem execSpringDue_keeps (h : Half) (c : Nat) (t : Time) (hk : Keeps ex s0 s) : ∀ u, execSpringDue h c t s = .next u → Keeps ex s0 u := by
  intro u ht
  have hu := Host.Outcome.next.inj ht
  rw [← hu]
  have h1 : Keeps ex s0 (s.atTime h t) := atTime_keeps _ _ hk
  refine Keeps.ite (fun _ => h1) (fun _ => ?_)
  split
  · exact h1
  · refine Keeps.ite (fun _ => h1) (fun _ => ?_)
    generalize hv : (if springState (s.atTime h t) h c = 0 then s.atTime h t else missSpring (s.atTime h t) h c t) = v
    have h2 : Keeps ex s0 v := hv ▸ Keeps.ite (fun _ => h1) (fun _ => missSpring_keeps _ _ _ h1)
    exact Keeps.ite (fun _ => h2) (fun _ => startSpring_keeps _ _ _ h2)

theorem completeSpring_keeps (h : Half) (c : Nat) (t : Time) (hk : Keeps ex s0 s) : Keeps ex s0 (completeSpring s h c t) := by
  unfold completeSpring
  repeat' first
    | with_reducible assumption
    | extract_lets
    | with_reducible apply setSpring_keeps
    | with_reducible apply springRecord_keeps
    | with_reducible apply setNum_keeps
    | with_reducible refine Keeps.ite (fun _ => ?_) (fun _ => ?_)
    | split
    | with_reducible exact Keeps.of_snd (by assumption) (by assumption)

theorem passSegment_keeps (h : Half) (c : Nat) (t : Time) (hk : Keeps ex s0 s) : Keeps ex s0 (passSegment s h c t) := by
  unfold passSegment
  repeat' first
    | with_reducible assumption
    | extract_lets
    | with_reducible apply setSpring_keeps
    | with_reducible apply completeSpring_keeps
    | with_reducible apply setNum_keeps
    | with_reducible refine Keeps.ite (fun _ => ?_) (fun _ => ?_)
    | split
    | with_reducible exact Keeps.of_snd (by assumption) (by assumption)

theorem execSpringSegmentDone_keeps (h : Half) (c : Nat) (pass : Bool) (rerun : Bool) (t : Time) (hk : Keeps ex s0 s) : ∀ u, execSpringSegmentDone h c pass rerun t s = .next u → Keeps ex s0 u := by
  intro u ht
  unfold execSpringSegmentDone at ht
  extract_lets at ht
  have hu := Host.Outcome.next.inj ht
  clear ht
  subst hu
  repeat' first
    | with_reducible assumption
    | extract_lets
    | with_reducible apply passSegment_keeps
    | with_reducible apply atTime_keeps
    | with_reducible apply observe_keeps
    | with_reducible apply disagree_keeps
    | with_reducible apply retireCore_keeps
    | with_reducible refine Keeps.ite (fun _ => ?_) (fun _ => ?_)
    | split
    | with_reducible exact Keeps.of_snd (by assumption) (by assumption)

theorem execSpringLate_keeps (h : Half) (c : Nat) (t : Time) (hk : Keeps ex s0 s) : ∀ u, execSpringLate h c t s = .next u → Keeps ex s0 u := by
  intro u ht
  unfold execSpringLate at ht
  extract_lets at ht
  have hu := Host.Outcome.next.inj ht
  clear ht
  subst hu
  repeat' first
    | with_reducible assumption
    | extract_lets
    | with_reducible apply setSpring_keeps
    | with_reducible apply springRecord_keeps
    | with_reducible apply atTime_keeps
    | with_reducible apply bump_keeps
    | with_reducible apply markLate_keeps
    | with_reducible refine Keeps.ite (fun _ => ?_) (fun _ => ?_)
    | split
    | with_reducible exact Keeps.of_snd (by assumption) (by assumption)

theorem lockstepRecord_keeps (h : Half) (hk : Keeps ex s0 s) : Keeps ex s0 (lockstepRecord s h) := by
  unfold lockstepRecord
  repeat' first
    | with_reducible assumption
    | with_reducible apply observe_keeps
    | with_reducible refine Keeps.ite (fun _ => ?_) (fun _ => ?_)
    | split
    | with_reducible exact Keeps.of_snd (by assumption) (by assumption)

theorem execLockstepCe_keeps (h : Half) (t : Time) (hk : Keeps ex s0 s) : ∀ u, execLockstepCe h t s = .next u → Keeps ex s0 u := by
  intro u ht
  unfold execLockstepCe at ht
  have hu := Host.Outcome.next.inj ht
  clear ht
  subst hu
  repeat' first
    | with_reducible assumption
    | with_reducible apply lockstepRecord_keeps
    | with_reducible apply atTime_keeps
    | with_reducible apply enterSafe_keeps
    | with_reducible refine Keeps.ite (fun _ => ?_) (fun _ => ?_)
    | split
    | with_reducible exact Keeps.of_snd (by assumption) (by assumption)

theorem gateHalf_keeps (h : Half) (hk : Keeps ex s0 s) : Keeps ex s0 (gateHalf s h) := by
  unfold gateHalf
  repeat' first
    | with_reducible assumption
    | extract_lets
    | with_reducible apply assertFaultN_keeps
    | with_reducible apply modSafety_keeps
    | with_reducible apply observe_keeps
    | with_reducible apply setNum_keeps
    | with_reducible refine Keeps.ite (fun _ => ?_) (fun _ => ?_)
    | split
    | with_reducible exact Keeps.of_snd (by assumption) (by assumption)

theorem execLockstepSm_keeps (h : Half) (t : Time) (hk : Keeps ex s0 s) : ∀ u, execLockstepSm h t s = .next u → Keeps ex s0 u := by
  intro u ht
  unfold execLockstepSm at ht
  have hu := Host.Outcome.next.inj ht
  clear ht
  subst hu
  repeat' first
    | with_reducible assumption
    | with_reducible apply gateHalf_keeps
    | with_reducible apply lockstepRecord_keeps
    | with_reducible apply atTime_keeps
    | with_reducible refine Keeps.ite (fun _ => ?_) (fun _ => ?_)
    | split
    | with_reducible exact Keeps.of_snd (by assumption) (by assumption)

theorem execClockDrift_keeps (h : Half) (t : Time) (hk : Keeps ex s0 s) : ∀ u, execClockDrift h t s = .next u → Keeps ex s0 u := by
  intro u ht
  unfold execClockDrift at ht
  have hu := Host.Outcome.next.inj ht
  clear ht
  subst hu
  repeat' first
    | with_reducible assumption
    | with_reducible apply atTime_keeps
    | with_reducible apply enterSafe_keeps
    | with_reducible refine Keeps.ite (fun _ => ?_) (fun _ => ?_)
    | split
    | with_reducible exact Keeps.of_snd (by assumption) (by assumption)

theorem execSafetyMessageRepeat_keeps (h : Half) (t : Time) (hk : Keeps ex s0 s) : ∀ u, execSafetyMessageRepeat h t s = .next u → Keeps ex s0 u := by
  intro u ht
  unfold execSafetyMessageRepeat at ht
  extract_lets at ht
  have hu := Host.Outcome.next.inj ht
  clear ht
  subst hu
  repeat' first
    | with_reducible assumption
    | extract_lets
    | with_reducible apply atTime_keeps
    | with_reducible apply safetyMessage_keeps
    | with_reducible refine Keeps.ite (fun _ => ?_) (fun _ => ?_)
    | split
    | with_reducible exact Keeps.of_snd (by assumption) (by assumption)

theorem execPeerFaultN_keeps (h : Half) (t : Time) (hk : Keeps ex s0 s) : ∀ u, execPeerFaultN h t s = .next u → Keeps ex s0 u := by
  intro u ht
  unfold execPeerFaultN at ht
  extract_lets at ht
  have hu := Host.Outcome.next.inj ht
  clear ht
  subst hu
  repeat' first
    | with_reducible assumption
    | extract_lets
    | with_reducible apply atTime_keeps
    | with_reducible apply judgeLost_keeps
    | with_reducible refine Keeps.ite (fun _ => ?_) (fun _ => ?_)
    | split
    | with_reducible exact Keeps.of_snd (by assumption) (by assumption)

theorem execLifeboatDigestDone_keeps (h : Half) (t : Time) (hk : Keeps ex s0 s) : ∀ u, execLifeboatDigestDone h t s = .next u → Keeps ex s0 u := by
  intro u ht
  unfold execLifeboatDigestDone at ht
  extract_lets at ht
  have hu := Host.Outcome.next.inj ht
  clear ht
  subst hu
  repeat' first
    | with_reducible assumption
    | extract_lets
    | with_reducible apply atTime_keeps
    | with_reducible apply enterSafe_keeps
    | with_reducible apply modSafety_keeps
    | with_reducible apply lifeboatDigestOk_keeps
    | with_reducible apply lifeboatRun_keeps
    | with_reducible refine Keeps.ite (fun _ => ?_) (fun _ => ?_)
    | with_reducible refine Keeps.ite_snd (fun _ => ?_) (fun _ => ?_)
    | with_reducible refine Keeps.ite_fst (fun _ => ?_) (fun _ => ?_)
    | split
    | with_reducible exact Keeps.of_snd (by assumption) (by assumption)
    | with_reducible apply Keeps.mk_fst
    | with_reducible apply Keeps.mk_snd

theorem rejoinHalf_keeps (target : Half) (hk : Keeps ex s0 s) : Keeps ex s0 (rejoinHalf s target).2 := by
  unfold rejoinHalf
  repeat' first
    | with_reducible assumption
    | with_reducible apply setNum_keeps
    | with_reducible apply resetHalf_keeps
    | with_reducible refine Keeps.ite (fun _ => ?_) (fun _ => ?_)
    | with_reducible refine Keeps.ite_snd (fun _ => ?_) (fun _ => ?_)
    | with_reducible refine Keeps.ite_fst (fun _ => ?_) (fun _ => ?_)
    | with_reducible exact fun _ => ⟨fun h => h, fun h => h⟩
    | split
    | with_reducible exact Keeps.of_snd (by assumption) (by assumption)
    | with_reducible apply Keeps.mk_fst
    | with_reducible apply Keeps.mk_snd

theorem handoverHalf_keeps (target : Half) (hk : Keeps ex s0 s) : Keeps ex s0 (handoverHalf s target).2 := by
  unfold handoverHalf
  repeat' first
    | with_reducible assumption
    | with_reducible apply lifeboatStart_keeps
    | with_reducible refine Keeps.ite (fun _ => ?_) (fun _ => ?_)
    | with_reducible refine Keeps.ite_snd (fun _ => ?_) (fun _ => ?_)
    | with_reducible refine Keeps.ite_fst (fun _ => ?_) (fun _ => ?_)
    | split
    | with_reducible exact Keeps.of_snd (by assumption) (by assumption)
    | with_reducible apply Keeps.mk_fst
    | with_reducible apply Keeps.mk_snd

theorem resumeHalf_keeps (target : Half) (hk : Keeps ex s0 s) : Keeps ex s0 (resumeHalf s target).2 := by
  unfold resumeHalf
  repeat' first
    | with_reducible assumption
    | with_reducible apply modHalf_keeps
    | with_reducible apply setNum_keeps
    | with_reducible refine Keeps.ite (fun _ => ?_) (fun _ => ?_)
    | with_reducible refine Keeps.ite_snd (fun _ => ?_) (fun _ => ?_)
    | with_reducible refine Keeps.ite_fst (fun _ => ?_) (fun _ => ?_)
    | with_reducible exact fun _ => ⟨fun h => h, fun h => h⟩
    | split
    | with_reducible exact Keeps.of_snd (by assumption) (by assumption)
    | with_reducible apply Keeps.mk_fst
    | with_reducible apply Keeps.mk_snd

end Sys2Proof.Machine
end

