-- ==== Sys2Proof/Laws/KeepsDictView.lean ====
section
/-! SUPPORT. What no operation of Machine/DictView.lean disturbs. -/
namespace Sys2Proof.Machine

variable {ex : Option Half} {s0 s : State}

theorem setSlot_keeps (h : Half) (i : Nat) (x : Slot) (hk : Keeps ex s0 s) : Keeps ex s0 (setSlot s h i x) := by
  unfold setSlot
  repeat' first
    | with_reducible assumption
    | with_reducible apply modHalf_keeps
    | with_reducible refine Keeps.ite (fun _ => ?_) (fun _ => ?_)
    | with_reducible exact fun _ => ⟨fun h => h, fun h => h⟩
    | split
    | with_reducible exact Keeps.of_snd (by assumption) (by assumption)

theorem putValue_keeps (idx : Nat) (sub : Nat) (bs : List Byte) (hk : Keeps ex s0 s) : Keeps ex s0 (putValue s idx sub bs) := by
  unfold putValue
  repeat' first
    | with_reducible assumption
    | with_reducible apply setBytes_keeps
    | with_reducible apply setNum_keeps
    | with_reducible refine Keeps.ite (fun _ => ?_) (fun _ => ?_)
    | split
    | with_reducible exact Keeps.of_snd (by assumption) (by assumption)

theorem armTrigger_keeps (h : Half) (k : Nat) (t : Time) (hk : Keeps ex s0 s) : Keeps ex s0 (armTrigger s h k t) := by
  unfold armTrigger
  repeat' first
    | with_reducible assumption
    | extract_lets
    | with_reducible apply setNum_keeps
    | with_reducible apply setTrig_keeps
    | with_reducible refine Keeps.ite (fun _ => ?_) (fun _ => ?_)
    | split
    | with_reducible exact Keeps.of_snd (by assumption) (by assumption)
    | dsimp +zetaDelta only

theorem freeTime_keeps (h : Half) (hk : Keeps ex s0 s) : Keeps ex s0 (freeTime s h) := by
  unfold freeTime
  repeat' first
    | with_reducible assumption
    | extract_lets
    | with_reducible apply setTimeState_keeps
    | with_reducible refine Keeps.ite (fun _ => ?_) (fun _ => ?_)
    | split
    | with_reducible exact Keeps.of_snd (by assumption) (by assumption)

theorem afterValue_keeps (idx : Nat) (sub : Nat) (changed : Bool) (t : Time) (hk : Keeps ex s0 s) : Keeps ex s0 (afterValue s idx sub changed t) := by
  unfold afterValue
  repeat' first
    | with_reducible assumption
    | extract_lets
    | with_reducible apply armTrigger_keeps
    | with_reducible apply freeTime_keeps
    | with_reducible apply emit_keeps
    | with_reducible apply modSafety_keeps
    | with_reducible apply setCan_keeps
    | with_reducible apply setNum_keeps
    | with_reducible apply chooseGm_keeps
    | with_reducible apply endFrameFree_keeps
    | with_reducible apply takeLead_keeps
    | with_reducible refine Keeps.ite (fun _ => ?_) (fun _ => ?_)
    | split
    | with_reducible exact Keeps.of_snd (by assumption) (by assumption)
    | with_reducible refine Keeps.elsewhere (Eq.refl _) ?_ ⟨fun h => h, fun h => h⟩ ⟨fun h => h, fun h => h⟩
    | dsimp +zetaDelta only

theorem applyValues_keeps (vs : List (Nat × Nat × List Byte)) (t : Time) (hk : Keeps ex s0 s) : Keeps ex s0 (applyValues s vs t) := by
  unfold applyValues
  repeat' first
    | with_reducible assumption
    | extract_lets
    | with_reducible apply afterValue_keeps
    | with_reducible apply putValue_keeps
    | with_reducible refine Keeps.ite (fun _ => ?_) (fun _ => ?_)
    | with_reducible refine Keeps.foldl ?_ (fun t x ht => ?_)
    | with_reducible refine Keeps.foldl_snd ?_ (fun t x ht => ?_)
    | with_reducible refine Keeps.foldl_fst ?_ (fun t x ht => ?_)
    | with_reducible refine Keeps.foldl_trd ?_ (fun t x ht => ?_)
    | split
    | with_reducible exact Keeps.of_snd (by assumption) (by assumption)

end Sys2Proof.Machine
end

