-- ==== Sys2Proof/Laws/KeepsBootCmds.lean ====
section
/-! SUPPORT. What no operation of Machine/BootCmds.lean disturbs. -/
namespace Sys2Proof.Machine

variable {ex : Option Half} {s0 s : State}

theorem setReady_keeps (h : Half) (v : Nat) (hk : Keeps ex s0 s) : Keeps ex s0 (setReady s h v) := by
  unfold setReady
  repeat' first
    | with_reducible assumption
    | with_reducible apply modHalf_keeps
    | with_reducible refine Keeps.ite (fun _ => ?_) (fun _ => ?_)
    | with_reducible exact fun _ => ⟨fun h => h, fun h => h⟩
    | split
    | with_reducible exact Keeps.of_snd (by assumption) (by assumption)

theorem stopStart_keeps (h : Half) (hk : Keeps ex s0 s) : Keeps ex s0 (stopStart s h) := by
  unfold stopStart
  repeat' first
    | with_reducible assumption
    | with_reducible apply modHalf_keeps
    | with_reducible refine Keeps.ite (fun _ => ?_) (fun _ => ?_)
    | with_reducible exact fun _ => ⟨fun h => h, fun h => h⟩
    | split
    | with_reducible exact Keeps.of_snd (by assumption) (by assumption)

theorem execResetRelease_keeps (h : Half) (hk : Keeps ex s0 s) : ∀ u, execResetRelease h s = .next u → Keeps ex s0 u := by
  intro u ht
  unfold execResetRelease at ht
  extract_lets at ht
  have hu := Host.Outcome.next.inj ht
  clear ht
  subst hu
  repeat' first
    | with_reducible assumption
    | extract_lets
    | with_reducible apply modHalf_keeps
    | with_reducible apply setNum_keeps
    | with_reducible refine Keeps.ite (fun _ => ?_) (fun _ => ?_)
    | with_reducible refine Keeps.ite_snd (fun _ => ?_) (fun _ => ?_)
    | with_reducible refine Keeps.ite_fst (fun _ => ?_) (fun _ => ?_)
    | with_reducible exact fun _ => ⟨fun h => h, fun h => h⟩
    | split
    | with_reducible exact Keeps.of_snd (by assumption) (by assumption)
    | with_reducible apply Keeps.mk_fst
    | with_reducible apply Keeps.mk_snd
    | dsimp +zetaDelta only

theorem failSlot_keeps (h : Half) (hk : Keeps ex s0 s) : Keeps ex s0 (failSlot s h) := by
  unfold failSlot
  repeat' first
    | with_reducible assumption
    | with_reducible apply modHalf_keeps
    | with_reducible apply resetHalf_keeps
    | with_reducible refine Keeps.ite (fun _ => ?_) (fun _ => ?_)
    | with_reducible exact fun _ => ⟨fun h => h, fun h => h⟩
    | split
    | with_reducible exact Keeps.of_snd (by assumption) (by assumption)

theorem execFirstStageVerified_keeps (h : Half) (hk : Keeps ex s0 s) : ∀ u, execFirstStageVerified h s = .next u → Keeps ex s0 u := by
  intro u ht
  unfold execFirstStageVerified at ht
  have hu := Host.Outcome.next.inj ht
  clear ht
  subst hu
  repeat' first
    | with_reducible assumption
    | with_reducible apply failSlot_keeps
    | with_reducible apply modHalf_keeps
    | with_reducible refine Keeps.ite (fun _ => ?_) (fun _ => ?_)
    | with_reducible exact fun _ => ⟨fun h => h, fun h => h⟩
    | split
    | with_reducible exact Keeps.of_snd (by assumption) (by assumption)

theorem peerOwner_keeps (h : Half) (hk : Keeps ex s0 s) : Keeps ex s0 (peerOwner s h) := by
  unfold peerOwner
  repeat' first
    | with_reducible assumption
    | extract_lets
    | with_reducible apply modHalf_keeps
    | with_reducible refine Keeps.ite (fun _ => ?_) (fun _ => ?_)
    | with_reducible exact fun _ => ⟨fun h => h, fun h => h⟩
    | split
    | with_reducible exact Keeps.of_snd (by assumption) (by assumption)

theorem peerSettings_keeps (h : Half) (hk : Keeps ex s0 s) : Keeps ex s0 (peerSettings s h) := by
  unfold peerSettings
  repeat' first
    | with_reducible assumption
    | extract_lets
    | with_reducible apply modHalf_keeps
    | with_reducible refine Keeps.ite (fun _ => ?_) (fun _ => ?_)
    | with_reducible exact fun _ => ⟨fun h => h, fun h => h⟩
    | split
    | with_reducible exact Keeps.of_snd (by assumption) (by assumption)

theorem startTraining_keeps (h : Half) (hk : Keeps ex s0 s) : Keeps ex s0 (startTraining s h) := by
  unfold startTraining
  repeat' first
    | with_reducible assumption
    | extract_lets
    | with_reducible apply setLinkState_keeps
    | with_reducible refine Keeps.ite (fun _ => ?_) (fun _ => ?_)
    | with_reducible refine Keeps.foldl ?_ (fun t x ht => ?_)
    | with_reducible refine Keeps.foldl_snd ?_ (fun t x ht => ?_)
    | with_reducible refine Keeps.foldl_fst ?_ (fun t x ht => ?_)
    | with_reducible refine Keeps.foldl_trd ?_ (fun t x ht => ?_)
    | split
    | with_reducible exact Keeps.of_snd (by assumption) (by assumption)
    | dsimp +zetaDelta only

theorem takeFlash_keeps (h : Half) (hk : Keeps ex s0 s) : Keeps ex s0 (takeFlash s h) := by
  unfold takeFlash
  repeat' first
    | with_reducible assumption
    | extract_lets
    | with_reducible apply modHalf_keeps
    | with_reducible apply applyValues_keeps
    | with_reducible apply takeSettings_keeps
    | with_reducible refine Keeps.ite (fun _ => ?_) (fun _ => ?_)
    | with_reducible refine Keeps.foldl ?_ (fun t x ht => ?_)
    | with_reducible refine Keeps.foldl_snd ?_ (fun t x ht => ?_)
    | with_reducible refine Keeps.foldl_fst ?_ (fun t x ht => ?_)
    | with_reducible refine Keeps.foldl_trd ?_ (fun t x ht => ?_)
    | with_reducible exact fun _ => ⟨fun h => h, fun h => h⟩
    | split
    | with_reducible exact Keeps.of_snd (by assumption) (by assumption)

theorem serveObjects_keeps (h : Half) (hk : Keeps ex s0 s) : Keeps ex s0 (serveObjects s h) := by
  unfold serveObjects
  repeat' first
    | with_reducible assumption
    | extract_lets
    | with_reducible apply setReady_keeps
    | with_reducible refine Keeps.ite (fun _ => ?_) (fun _ => ?_)
    | split
    | with_reducible exact Keeps.of_snd (by assumption) (by assumption)

theorem execMainFirmwareStart_keeps (h : Half) (hk : Keeps ex s0 s) : ∀ u, execMainFirmwareStart h s = .next u → Keeps ex s0 u := by
  intro u ht
  unfold execMainFirmwareStart at ht
  have hu := Host.Outcome.next.inj ht
  clear ht
  subst hu
  repeat' first
    | with_reducible assumption
    | extract_lets
    | with_reducible apply failSlot_keeps
    | with_reducible apply peerOwner_keeps
    | with_reducible apply peerSettings_keeps
    | with_reducible apply serveObjects_keeps
    | with_reducible apply startTraining_keeps
    | with_reducible apply stopStart_keeps
    | with_reducible apply takeFlash_keeps
    | with_reducible apply modHalf_keeps
    | with_reducible apply observe_keeps
    | with_reducible apply setNum_keeps
    | with_reducible apply resetHalf_keeps
    | with_reducible refine Keeps.ite (fun _ => ?_) (fun _ => ?_)
    | with_reducible exact fun _ => ⟨fun h => h, fun h => h⟩
    | split
    | with_reducible exact Keeps.of_snd (by assumption) (by assumption)
    | dsimp +zetaDelta only

theorem execFwTrialTimeout_keeps (h : Half) (hk : Keeps ex s0 s) : ∀ u, execFwTrialTimeout h s = .next u → Keeps ex s0 u := by
  intro u ht
  unfold execFwTrialTimeout at ht
  have hu := Host.Outcome.next.inj ht
  clear ht
  subst hu
  repeat' first
    | with_reducible assumption
    | with_reducible apply endTrial_keeps
    | with_reducible refine Keeps.ite (fun _ => ?_) (fun _ => ?_)
    | split
    | with_reducible exact Keeps.of_snd (by assumption) (by assumption)

theorem passTrial_keeps (h : Half) (hk : Keeps ex s0 s) : Keeps ex s0 (passTrial s h) := by
  unfold passTrial
  repeat' first
    | with_reducible assumption
    | with_reducible apply modHalf_keeps
    | with_reducible apply setNum_keeps
    | with_reducible refine Keeps.ite (fun _ => ?_) (fun _ => ?_)
    | with_reducible exact fun _ => ⟨fun h => h, fun h => h⟩
    | split
    | with_reducible exact Keeps.of_snd (by assumption) (by assumption)

theorem takeNonce_keeps (h : Half) (nonce : List Byte) (hk : Keeps ex s0 s) : Keeps ex s0 (takeNonce s h nonce).2 := by
  unfold takeNonce
  repeat' first
    | with_reducible assumption
    | with_reducible apply modHalf_keeps
    | with_reducible apply setBytes_keeps
    | with_reducible refine Keeps.ite (fun _ => ?_) (fun _ => ?_)
    | with_reducible refine Keeps.ite_snd (fun _ => ?_) (fun _ => ?_)
    | with_reducible refine Keeps.ite_fst (fun _ => ?_) (fun _ => ?_)
    | with_reducible exact fun _ => ⟨fun h => h, fun h => h⟩
    | split
    | with_reducible exact Keeps.of_snd (by assumption) (by assumption)
    | with_reducible apply Keeps.mk_fst
    | with_reducible apply Keeps.mk_snd

theorem execAttestReport_keeps (h : Half) (t : Time) (hk : Keeps ex s0 s) : ∀ u, execAttestReport h t s = .next u → Keeps ex s0 u := by
  intro u ht
  unfold execAttestReport at ht
  extract_lets at ht
  have hu := Host.Outcome.next.inj ht
  clear ht
  subst hu
  repeat' first
    | with_reducible assumption
    | extract_lets
    | with_reducible apply atTime_keeps
    | with_reducible apply bump_keeps
    | with_reducible apply modHalf_keeps
    | with_reducible apply setBytes_keeps
    | with_reducible refine Keeps.ite (fun _ => ?_) (fun _ => ?_)
    | with_reducible exact fun _ => ⟨fun h => h, fun h => h⟩
    | split
    | with_reducible exact Keeps.of_snd (by assumption) (by assumption)

theorem putOwner_keeps (bs : List Byte) (hk : Keeps ex s0 s) : Keeps ex s0 (putOwner s bs).2 := by
  unfold putOwner
  repeat' first
    | with_reducible assumption
    | with_reducible apply modHalf_keeps
    | with_reducible refine Keeps.ite (fun _ => ?_) (fun _ => ?_)
    | with_reducible refine Keeps.ite_snd (fun _ => ?_) (fun _ => ?_)
    | with_reducible refine Keeps.ite_fst (fun _ => ?_) (fun _ => ?_)
    | with_reducible refine Keeps.foldl ?_ (fun t x ht => ?_)
    | with_reducible refine Keeps.foldl_snd ?_ (fun t x ht => ?_)
    | with_reducible refine Keeps.foldl_fst ?_ (fun t x ht => ?_)
    | with_reducible refine Keeps.foldl_trd ?_ (fun t x ht => ?_)
    | with_reducible exact fun _ => ⟨fun h => h, fun h => h⟩
    | split
    | with_reducible exact Keeps.of_snd (by assumption) (by assumption)
    | with_reducible apply Keeps.mk_fst
    | with_reducible apply Keeps.mk_snd

theorem putSettings_keeps (bs : List Byte) (hk : Keeps ex s0 s) : Keeps ex s0 (putSettings s bs).2 := by
  unfold putSettings
  repeat' first
    | with_reducible assumption
    | extract_lets
    | with_reducible apply modHalf_keeps
    | with_reducible refine Keeps.ite (fun _ => ?_) (fun _ => ?_)
    | with_reducible refine Keeps.ite_snd (fun _ => ?_) (fun _ => ?_)
    | with_reducible refine Keeps.ite_fst (fun _ => ?_) (fun _ => ?_)
    | with_reducible refine Keeps.foldl ?_ (fun t x ht => ?_)
    | with_reducible refine Keeps.foldl_snd ?_ (fun t x ht => ?_)
    | with_reducible refine Keeps.foldl_fst ?_ (fun t x ht => ?_)
    | with_reducible refine Keeps.foldl_trd ?_ (fun t x ht => ?_)
    | with_reducible exact fun _ => ⟨fun h => h, fun h => h⟩
    | split
    | with_reducible exact Keeps.of_snd (by assumption) (by assumption)
    | with_reducible apply Keeps.mk_fst
    | with_reducible apply Keeps.mk_snd
    | dsimp +zetaDelta only

theorem fwResult_keeps (h : Half) (st : Nat) (hk : Keeps ex s0 s) : Keeps ex s0 (fwResult s h st) := by
  unfold fwResult
  repeat' first
    | with_reducible assumption
    | with_reducible apply setNum_keeps
    | with_reducible refine Keeps.ite (fun _ => ?_) (fun _ => ?_)
    | split
    | with_reducible exact Keeps.of_snd (by assumption) (by assumption)

theorem fwWrite_keeps (h : Half) (ofs : Nat) (bs : List Byte) (hk : Keeps ex s0 s) : Keeps ex s0 (fwWrite s h ofs bs).2 := by
  unfold fwWrite
  repeat' first
    | with_reducible assumption
    | extract_lets
    | with_reducible apply setNum_keeps
    | with_reducible apply setSlot_keeps
    | with_reducible refine Keeps.ite (fun _ => ?_) (fun _ => ?_)
    | with_reducible refine Keeps.ite_snd (fun _ => ?_) (fun _ => ?_)
    | with_reducible refine Keeps.ite_fst (fun _ => ?_) (fun _ => ?_)
    | with_reducible refine Keeps.foldl ?_ (fun t x ht => ?_)
    | with_reducible refine Keeps.foldl_snd ?_ (fun t x ht => ?_)
    | with_reducible refine Keeps.foldl_fst ?_ (fun t x ht => ?_)
    | with_reducible refine Keeps.foldl_trd ?_ (fun t x ht => ?_)
    | split
    | with_reducible exact Keeps.of_snd (by assumption) (by assumption)
    | with_reducible apply Keeps.mk_fst
    | with_reducible apply Keeps.mk_snd

theorem fwErase_keeps (h : Half) (hk : Keeps ex s0 s) : Keeps ex s0 (fwErase s h).2 := by
  unfold fwErase
  repeat' first
    | with_reducible assumption
    | extract_lets
    | with_reducible apply fwResult_keeps
    | with_reducible apply modHalf_keeps
    | with_reducible apply setNum_keeps
    | with_reducible apply setSlot_keeps
    | with_reducible refine Keeps.ite (fun _ => ?_) (fun _ => ?_)
    | with_reducible refine Keeps.ite_snd (fun _ => ?_) (fun _ => ?_)
    | with_reducible refine Keeps.ite_fst (fun _ => ?_) (fun _ => ?_)
    | with_reducible exact fun _ => ⟨fun h => h, fun h => h⟩
    | split
    | with_reducible exact Keeps.of_snd (by assumption) (by assumption)
    | with_reducible apply Keeps.mk_fst
    | with_reducible apply Keeps.mk_snd

theorem peerCompat_keeps  (hk : Keeps ex s0 s) : Keeps ex s0 (peerCompat s).2 := by
  unfold peerCompat
  repeat' first
    | with_reducible assumption
    | extract_lets
    | with_reducible apply free_keeps
    | with_reducible refine Keeps.ite (fun _ => ?_) (fun _ => ?_)
    | with_reducible refine Keeps.ite_snd (fun _ => ?_) (fun _ => ?_)
    | with_reducible refine Keeps.ite_fst (fun _ => ?_) (fun _ => ?_)
    | split
    | with_reducible exact Keeps.of_snd (by assumption) (by assumption)
    | with_reducible apply Keeps.mk_fst
    | with_reducible apply Keeps.mk_snd

theorem fwVerify_keeps (h : Half) (hk : Keeps ex s0 s) : Keeps ex s0 (fwVerify s h).2 := by
  unfold fwVerify
  repeat' first
    | with_reducible assumption
    | extract_lets
    | with_reducible apply fwResult_keeps
    | with_reducible apply peerCompat_keeps
    | with_reducible apply setNum_keeps
    | with_reducible refine Keeps.ite (fun _ => ?_) (fun _ => ?_)
    | with_reducible refine Keeps.ite_snd (fun _ => ?_) (fun _ => ?_)
    | with_reducible refine Keeps.ite_fst (fun _ => ?_) (fun _ => ?_)
    | split
    | with_reducible exact Keeps.of_snd (by assumption) (by assumption)
    | with_reducible apply Keeps.mk_fst
    | with_reducible apply Keeps.mk_snd

theorem fwActivate_keeps (h : Half) (hk : Keeps ex s0 s) : Keeps ex s0 (fwActivate s h).2 := by
  unfold fwActivate
  repeat' first
    | with_reducible assumption
    | extract_lets
    | with_reducible apply modHalf_keeps
    | with_reducible apply resetHalf_keeps
    | with_reducible refine Keeps.ite (fun _ => ?_) (fun _ => ?_)
    | with_reducible refine Keeps.ite_snd (fun _ => ?_) (fun _ => ?_)
    | with_reducible refine Keeps.ite_fst (fun _ => ?_) (fun _ => ?_)
    | with_reducible exact fun _ => ⟨fun h => h, fun h => h⟩
    | split
    | with_reducible exact Keeps.of_snd (by assumption) (by assumption)
    | with_reducible apply Keeps.mk_fst
    | with_reducible apply Keeps.mk_snd

theorem fwCommit_keeps (h : Half) (hk : Keeps ex s0 s) : Keeps ex s0 (fwCommit s h).2 := by
  unfold fwCommit
  repeat' first
    | with_reducible assumption
    | extract_lets
    | with_reducible apply fwResult_keeps
    | with_reducible apply modHalf_keeps
    | with_reducible refine Keeps.ite (fun _ => ?_) (fun _ => ?_)
    | with_reducible refine Keeps.ite_snd (fun _ => ?_) (fun _ => ?_)
    | with_reducible refine Keeps.ite_fst (fun _ => ?_) (fun _ => ?_)
    | with_reducible exact fun _ => ⟨fun h => h, fun h => h⟩
    | split
    | with_reducible exact Keeps.of_snd (by assumption) (by assumption)
    | with_reducible apply Keeps.mk_fst
    | with_reducible apply Keeps.mk_snd

end Sys2Proof.Machine
end

