-- ==== Sys2Proof/Laws/KeepsLoaderCmds.lean ====
section
/-! SUPPORT. What no operation of Machine/LoaderCmds.lean disturbs. -/
namespace Sys2Proof.Machine

variable {ex : Option Half} {s0 s : State}

theorem installIn_keeps (h : Half) (a : Nat) (handle : Nat) (k : Nat) (gen : Nat) (bs : List Byte) (inner : Nat) (cs : List PerCore) (hk : Keeps ex s0 s) : Keeps ex s0 (installIn s h a handle k gen bs inner cs) := by
  unfold installIn
  repeat' first
    | with_reducible assumption
    | extract_lets
    | with_reducible apply mergeWrite_keeps
    | with_reducible apply modHalf_keeps
    | with_reducible refine Keeps.ite (fun _ => ?_) (fun _ => ?_)
    | with_reducible exact fun _ => ⟨fun h => h, fun h => h⟩
    | split
    | with_reducible exact Keeps.of_snd (by assumption) (by assumption)

theorem startLoad_keeps (h : Half) (hk : Keeps ex s0 s) : Keeps ex s0 (startLoad s h).2 := by
  unfold startLoad
  repeat' first
    | with_reducible assumption
    | with_reducible apply modHalf_keeps
    | with_reducible refine Keeps.ite (fun _ => ?_) (fun _ => ?_)
    | with_reducible refine Keeps.ite_snd (fun _ => ?_) (fun _ => ?_)
    | with_reducible refine Keeps.ite_fst (fun _ => ?_) (fun _ => ?_)
    | with_reducible exact fun _ => ⟨fun h => h, fun h => h⟩
    | split
    | with_reducible exact Keeps.of_snd (by assumption) (by assumption)
    | with_reducible apply Keeps.mk_fst
    | with_reducible apply Keeps.mk_snd

theorem finishLoad_keeps (h : Half) (l : Loading) (hk : Keeps ex s0 s) : Keeps ex s0 (finishLoad s h l).2.2 := by
  unfold finishLoad
  repeat' first
    | with_reducible assumption
    | extract_lets
    | with_reducible apply installIn_keeps
    | with_reducible apply readCheck_keeps
    | with_reducible refine Keeps.ite (fun _ => ?_) (fun _ => ?_)
    | with_reducible refine Keeps.ite_snd (fun _ => ?_) (fun _ => ?_)
    | with_reducible refine Keeps.ite_fst (fun _ => ?_) (fun _ => ?_)
    | split
    | with_reducible exact Keeps.of_snd (by assumption) (by assumption)
    | with_reducible apply Keeps.mk_fst
    | with_reducible apply Keeps.mk_snd
    | dsimp +zetaDelta only

theorem execLoadDone_keeps (h : Half) (hk : Keeps ex s0 s) : ∀ u, execLoadDone h s = .next u → Keeps ex s0 u := by
  intro u ht
  unfold execLoadDone at ht
  have hu := Host.Outcome.next.inj ht
  clear ht
  subst hu
  repeat' first
    | with_reducible assumption
    | extract_lets
    | with_reducible apply finishLoad_keeps
    | with_reducible apply modHalf_keeps
    | with_reducible apply setNum_keeps
    | with_reducible refine Keeps.ite (fun _ => ?_) (fun _ => ?_)
    | with_reducible refine Keeps.ite_snd (fun _ => ?_) (fun _ => ?_)
    | with_reducible refine Keeps.ite_fst (fun _ => ?_) (fun _ => ?_)
    | with_reducible exact fun _ => ⟨fun h => h, fun h => h⟩
    | split
    | with_reducible exact Keeps.of_snd (by assumption) (by assumption)
    | with_reducible apply Keeps.mk_fst
    | with_reducible apply Keeps.mk_snd

theorem removeProg_keeps (h : Half) (handle : Nat) (hk : Keeps ex s0 s) : Keeps ex s0 (removeProg s h handle) := by
  unfold removeProg
  repeat' first
    | with_reducible assumption
    | with_reducible apply modHalf_keeps
    | with_reducible refine Keeps.ite (fun _ => ?_) (fun _ => ?_)
    | with_reducible exact fun _ => ⟨fun h => h, fun h => h⟩
    | split
    | with_reducible exact Keeps.of_snd (by assumption) (by assumption)

theorem unloadProg_keeps (h : Half) (handle : Nat) (hk : Keeps ex s0 s) : Keeps ex s0 (unloadProg s h handle).2 := by
  unfold unloadProg
  repeat' first
    | with_reducible assumption
    | extract_lets
    | with_reducible apply removeProg_keeps
    | with_reducible refine Keeps.ite (fun _ => ?_) (fun _ => ?_)
    | with_reducible refine Keeps.ite_snd (fun _ => ?_) (fun _ => ?_)
    | with_reducible refine Keeps.ite_fst (fun _ => ?_) (fun _ => ?_)
    | with_reducible refine Keeps.foldl ?_ (fun t x ht => ?_)
    | with_reducible refine Keeps.foldl_snd ?_ (fun t x ht => ?_)
    | with_reducible refine Keeps.foldl_fst ?_ (fun t x ht => ?_)
    | with_reducible refine Keeps.foldl_trd ?_ (fun t x ht => ?_)
    | split
    | with_reducible exact Keeps.of_snd (by assumption) (by assumption)
    | with_reducible apply Keeps.mk_fst
    | with_reducible apply Keeps.mk_snd
    | dsimp +zetaDelta only

theorem doUnload_keeps (h : Half) (hk : Keeps ex s0 s) : Keeps ex s0 (doUnload s h).2 := by
  unfold doUnload
  repeat' first
    | with_reducible assumption
    | extract_lets
    | with_reducible apply unloadProg_keeps
    | with_reducible apply setNum_keeps
    | with_reducible refine Keeps.ite (fun _ => ?_) (fun _ => ?_)
    | with_reducible refine Keeps.ite_snd (fun _ => ?_) (fun _ => ?_)
    | with_reducible refine Keeps.ite_fst (fun _ => ?_) (fun _ => ?_)
    | split
    | with_reducible exact Keeps.of_snd (by assumption) (by assumption)
    | with_reducible apply Keeps.mk_fst
    | with_reducible apply Keeps.mk_snd

end Sys2Proof.Machine
end

