-- ==== Sys2Proof/Laws/KeepsPowerCmds.lean ====
section
/-! SUPPORT. What no operation of Machine/PowerCmds.lean disturbs. -/
namespace Sys2Proof.Machine

variable {ex : Option Half} {s0 s : State}

theorem modPower_keeps (h : Half) (f : Power → Power) (hk : Keeps ex s0 s) : Keeps ex s0 (State.modPower s h f) := by
  unfold State.modPower
  repeat' first
    | with_reducible assumption
    | with_reducible apply modHalf_keeps
    | with_reducible refine Keeps.ite (fun _ => ?_) (fun _ => ?_)
    | with_reducible exact fun _ => ⟨fun h => h, fun h => h⟩
    | split
    | with_reducible exact Keeps.of_snd (by assumption) (by assumption)

theorem commandVolt_keeps (h : Half) (p : Nat) (hk : Keeps ex s0 s) : Keeps ex s0 (commandVolt s h p) := by
  unfold commandVolt
  repeat' first
    | with_reducible assumption
    | with_reducible apply modPower_keeps
    | with_reducible apply emit_keeps
    | with_reducible refine Keeps.ite (fun _ => ?_) (fun _ => ?_)
    | split
    | with_reducible exact Keeps.of_snd (by assumption) (by assumption)

theorem changePoint_keeps (h : Half) (t : Time) (hk : Keeps ex s0 s) : Keeps ex s0 (changePoint s h t) := by
  unfold changePoint
  repeat' first
    | with_reducible assumption
    | extract_lets
    | with_reducible apply modPower_keeps
    | with_reducible apply commandVolt_keeps
    | with_reducible apply setNum_keeps
    | with_reducible refine Keeps.ite (fun _ => ?_) (fun _ => ?_)
    | split
    | with_reducible exact Keeps.of_snd (by assumption) (by assumption)

theorem execOpChange_keeps (h : Half) (t : Time) (hk : Keeps ex s0 s) : ∀ u, execOpChange h t s = .next u → Keeps ex s0 u := by
  intro u ht
  unfold execOpChange at ht
  extract_lets at ht
  have hu := Host.Outcome.next.inj ht
  clear ht
  subst hu
  repeat' first
    | with_reducible assumption
    | extract_lets
    | with_reducible apply changePoint_keeps
    | with_reducible apply atTime_keeps
    | with_reducible refine Keeps.ite (fun _ => ?_) (fun _ => ?_)
    | split
    | with_reducible exact Keeps.of_snd (by assumption) (by assumption)

theorem execVrAck_keeps (h : Half) (t : Time) (hk : Keeps ex s0 s) : ∀ u, execVrAck h t s = .next u → Keeps ex s0 u := by
  intro u ht
  unfold execVrAck at ht
  extract_lets at ht
  have hu := Host.Outcome.next.inj ht
  clear ht
  subst hu
  repeat' first
    | with_reducible assumption
    | extract_lets
    | with_reducible apply modPower_keeps
    | with_reducible apply atTime_keeps
    | with_reducible apply setNum_keeps
    | with_reducible refine Keeps.ite (fun _ => ?_) (fun _ => ?_)
    | split
    | with_reducible exact Keeps.of_snd (by assumption) (by assumption)

theorem execVrTimeout_keeps (h : Half) (t : Time) (hk : Keeps ex s0 s) : ∀ u, execVrTimeout h t s = .next u → Keeps ex s0 u := by
  intro u ht
  unfold execVrTimeout at ht
  extract_lets at ht
  have hu := Host.Outcome.next.inj ht
  clear ht
  subst hu
  repeat' first
    | with_reducible assumption
    | extract_lets
    | with_reducible apply modPower_keeps
    | with_reducible apply atTime_keeps
    | with_reducible apply bump_keeps
    | with_reducible refine Keeps.ite (fun _ => ?_) (fun _ => ?_)
    | split
    | with_reducible exact Keeps.of_snd (by assumption) (by assumption)

theorem setLimit_keeps (h : Half) (v : Nat) (hk : Keeps ex s0 s) : Keeps ex s0 (setLimit s h v) := by
  unfold setLimit
  repeat' first
    | with_reducible assumption
    | with_reducible apply bump_keeps
    | with_reducible apply setNum_keeps
    | with_reducible refine Keeps.ite (fun _ => ?_) (fun _ => ?_)
    | split
    | with_reducible exact Keeps.of_snd (by assumption) (by assumption)

theorem execThermalSample_keeps (h : Half) (temps : List Int) (t : Time) (hk : Keeps ex s0 s) : ∀ u, execThermalSample h temps t s = .next u → Keeps ex s0 u := by
  intro u ht
  unfold execThermalSample at ht
  extract_lets at ht
  have hu := Host.Outcome.next.inj ht
  clear ht
  subst hu
  repeat' first
    | with_reducible assumption
    | extract_lets
    | with_reducible apply modPower_keeps
    | with_reducible apply setLimit_keeps
    | with_reducible apply atTime_keeps
    | with_reducible apply bump_keeps
    | with_reducible apply setNum_keeps
    | with_reducible apply pump_keeps
    | with_reducible refine Keeps.ite (fun _ => ?_) (fun _ => ?_)
    | with_reducible refine Keeps.foldl ?_ (fun t x ht => ?_)
    | with_reducible refine Keeps.foldl_snd ?_ (fun t x ht => ?_)
    | with_reducible refine Keeps.foldl_fst ?_ (fun t x ht => ?_)
    | with_reducible refine Keeps.foldl_trd ?_ (fun t x ht => ?_)
    | split
    | with_reducible exact Keeps.of_snd (by assumption) (by assumption)
    | dsimp +zetaDelta only

theorem execThrottle_keeps (h : Half) (t : Time) (hk : Keeps ex s0 s) : ∀ u, execThrottle h t s = .next u → Keeps ex s0 u := by
  intro u ht
  unfold execThrottle at ht
  extract_lets at ht
  have hu := Host.Outcome.next.inj ht
  clear ht
  subst hu
  repeat' first
    | with_reducible assumption
    | extract_lets
    | with_reducible apply modPower_keeps
    | with_reducible apply setLimit_keeps
    | with_reducible apply atTime_keeps
    | with_reducible refine Keeps.ite (fun _ => ?_) (fun _ => ?_)
    | split
    | with_reducible exact Keeps.of_snd (by assumption) (by assumption)

theorem execIdleEntry_keeps (h : Half) (t : Time) (hk : Keeps ex s0 s) : ∀ u, execIdleEntry h t s = .next u → Keeps ex s0 u := by
  intro u ht
  unfold execIdleEntry at ht
  extract_lets at ht
  have hu := Host.Outcome.next.inj ht
  clear ht
  subst hu
  repeat' first
    | with_reducible assumption
    | extract_lets
    | with_reducible apply atTime_keeps
    | with_reducible apply setPower_keeps
    | with_reducible refine Keeps.ite (fun _ => ?_) (fun _ => ?_)
    | with_reducible refine Keeps.ite_snd (fun _ => ?_) (fun _ => ?_)
    | with_reducible refine Keeps.ite_fst (fun _ => ?_) (fun _ => ?_)
    | split
    | with_reducible exact Keeps.of_snd (by assumption) (by assumption)
    | with_reducible apply Keeps.mk_fst
    | with_reducible apply Keeps.mk_snd

theorem beginWake_keeps (h : Half) (cause : Nat) (hk : Keeps ex s0 s) : Keeps ex s0 (beginWake s h cause) := by
  unfold beginWake
  repeat' first
    | with_reducible assumption
    | with_reducible apply modPower_keeps
    | with_reducible apply setNum_keeps
    | with_reducible refine Keeps.ite (fun _ => ?_) (fun _ => ?_)
    | split
    | with_reducible exact Keeps.of_snd (by assumption) (by assumption)

theorem requestRun_keeps (h : Half) (hk : Keeps ex s0 s) : Keeps ex s0 (requestRun s h).2 := by
  unfold requestRun
  repeat' first
    | with_reducible assumption
    | with_reducible apply modPower_keeps
    | with_reducible apply beginWake_keeps
    | with_reducible apply setNum_keeps
    | with_reducible apply setPower_keeps
    | with_reducible refine Keeps.ite (fun _ => ?_) (fun _ => ?_)
    | with_reducible refine Keeps.ite_snd (fun _ => ?_) (fun _ => ?_)
    | with_reducible refine Keeps.ite_fst (fun _ => ?_) (fun _ => ?_)
    | split
    | with_reducible exact Keeps.of_snd (by assumption) (by assumption)
    | with_reducible apply Keeps.mk_fst
    | with_reducible apply Keeps.mk_snd

theorem requestIdle_keeps (h : Half) (hk : Keeps ex s0 s) : Keeps ex s0 (requestIdle s h).2 := by
  unfold requestIdle
  repeat' first
    | with_reducible assumption
    | with_reducible apply modPower_keeps
    | with_reducible refine Keeps.ite (fun _ => ?_) (fun _ => ?_)
    | with_reducible refine Keeps.ite_snd (fun _ => ?_) (fun _ => ?_)
    | with_reducible refine Keeps.ite_fst (fun _ => ?_) (fun _ => ?_)
    | split
    | with_reducible exact Keeps.of_snd (by assumption) (by assumption)
    | with_reducible apply Keeps.mk_fst
    | with_reducible apply Keeps.mk_snd

theorem requestNap_keeps (h : Half) (hk : Keeps ex s0 s) : Keeps ex s0 (requestNap s h).2 := by
  unfold requestNap
  repeat' first
    | with_reducible assumption
    | with_reducible apply modPower_keeps
    | with_reducible apply startNap_keeps
    | with_reducible apply takeWaiting_keeps
    | with_reducible apply wakeIdle_keeps
    | with_reducible refine Keeps.ite (fun _ => ?_) (fun _ => ?_)
    | with_reducible refine Keeps.ite_snd (fun _ => ?_) (fun _ => ?_)
    | with_reducible refine Keeps.ite_fst (fun _ => ?_) (fun _ => ?_)
    | split
    | with_reducible exact Keeps.of_snd (by assumption) (by assumption)
    | with_reducible apply Keeps.mk_fst
    | with_reducible apply Keeps.mk_snd

theorem unloadAll_keeps (h : Half) (hk : Keeps ex s0 s) : Keeps ex s0 (unloadAll s h) := by
  unfold unloadAll
  repeat' first
    | with_reducible assumption
    | with_reducible apply unload_keeps
    | with_reducible refine Keeps.ite (fun _ => ?_) (fun _ => ?_)
    | with_reducible refine Keeps.foldl ?_ (fun t x ht => ?_)
    | with_reducible refine Keeps.foldl_snd ?_ (fun t x ht => ?_)
    | with_reducible refine Keeps.foldl_fst ?_ (fun t x ht => ?_)
    | with_reducible refine Keeps.foldl_trd ?_ (fun t x ht => ?_)
    | split
    | with_reducible exact Keeps.of_snd (by assumption) (by assumption)

theorem clearSprings_keeps (h : Half) (hk : Keeps ex s0 s) : Keeps ex s0 (clearSprings s h) := by
  unfold clearSprings
  repeat' first
    | with_reducible assumption
    | with_reducible apply modHalf_keeps
    | with_reducible apply setNum_keeps
    | with_reducible refine Keeps.ite (fun _ => ?_) (fun _ => ?_)
    | with_reducible refine Keeps.foldl ?_ (fun t x ht => ?_)
    | with_reducible refine Keeps.foldl_snd ?_ (fun t x ht => ?_)
    | with_reducible refine Keeps.foldl_fst ?_ (fun t x ht => ?_)
    | with_reducible refine Keeps.foldl_trd ?_ (fun t x ht => ?_)
    | with_reducible exact fun _ => ⟨fun h => h, fun h => h⟩
    | exact fun x => ⟨fun h => h, fun h => TablesWf.springs (x := x) h (fun _ => Eq.refl _)⟩
    | split
    | with_reducible exact Keeps.of_snd (by assumption) (by assumption)

theorem execNapEntryDone_keeps (h : Half) (t : Time) (hk : Keeps ex s0 s) : ∀ u, execNapEntryDone h t s = .next u → Keeps ex s0 u := by
  intro u ht
  unfold execNapEntryDone at ht
  extract_lets at ht
  have hu := Host.Outcome.next.inj ht
  clear ht
  subst hu
  repeat' first
    | with_reducible assumption
    | extract_lets
    | with_reducible apply modPower_keeps
    | with_reducible apply clearSprings_keeps
    | with_reducible apply unloadAll_keeps
    | with_reducible apply atTime_keeps
    | with_reducible apply modSafety_keeps
    | with_reducible apply clearClusters_keeps
    | with_reducible apply openLoops_keeps
    | with_reducible apply setPeer_keeps
    | with_reducible apply setPower_keeps
    | with_reducible apply stopPasses_keeps
    | with_reducible refine Keeps.ite (fun _ => ?_) (fun _ => ?_)
    | with_reducible refine Keeps.ite_snd (fun _ => ?_) (fun _ => ?_)
    | with_reducible refine Keeps.ite_fst (fun _ => ?_) (fun _ => ?_)
    | split
    | with_reducible exact Keeps.of_snd (by assumption) (by assumption)
    | with_reducible apply Keeps.mk_fst
    | with_reducible apply Keeps.mk_snd
    | dsimp +zetaDelta only

theorem execNapWakeDone_keeps (h : Half) (t : Time) (hk : Keeps ex s0 s) : ∀ u, execNapWakeDone h t s = .next u → Keeps ex s0 u := by
  intro u ht
  unfold execNapWakeDone at ht
  extract_lets at ht
  have hu := Host.Outcome.next.inj ht
  clear ht
  subst hu
  repeat' first
    | with_reducible assumption
    | extract_lets
    | with_reducible apply modPower_keeps
    | with_reducible apply atTime_keeps
    | with_reducible apply modHalf_keeps
    | with_reducible apply clearClusters_keeps
    | with_reducible apply setPeer_keeps
    | with_reducible apply setPower_keeps
    | with_reducible apply startPasses_keeps
    | with_reducible refine Keeps.ite (fun _ => ?_) (fun _ => ?_)
    | with_reducible exact fun _ => ⟨fun h => h, fun h => h⟩
    | exact fun x => ⟨fun h => h, fun h => TablesWf.springs (x := x) h (fun _ => Eq.refl _)⟩
    | split
    | with_reducible exact Keeps.of_snd (by assumption) (by assumption)

theorem abortAll_keeps (h : Half) (hk : Keeps ex s0 s) : Keeps ex s0 (abortAll s h) := by
  unfold abortAll
  repeat' first
    | with_reducible assumption
    | extract_lets
    | with_reducible apply endTicket_keeps
    | with_reducible apply writeRecord_keeps
    | with_reducible refine Keeps.ite (fun _ => ?_) (fun _ => ?_)
    | with_reducible refine Keeps.foldl ?_ (fun t x ht => ?_)
    | with_reducible refine Keeps.foldl_snd ?_ (fun t x ht => ?_)
    | with_reducible refine Keeps.foldl_fst ?_ (fun t x ht => ?_)
    | with_reducible refine Keeps.foldl_trd ?_ (fun t x ht => ?_)
    | split
    | with_reducible exact Keeps.of_snd (by assumption) (by assumption)

theorem enterStandby_keeps  (hk : Keeps ex s0 s) : Keeps ex s0 (enterStandby s) := by
  unfold enterStandby
  extract_lets a cl
  have h1 : Keeps ex s0 a := abortAll_keeps _ (abortAll_keeps _ (enterSafe_keeps _ _ (enterSafe_keeps _ _ hk)))
  have hcl : ∀ h k, Keeps ex s0 k → Keeps ex s0 (cl h k) := fun h k hk => modPower_keeps _ _ hk
  exact Keeps.elsewhere (Eq.refl _) (hcl _ _ (hcl _ _ (resetHalf_keeps _ (resetHalf_keeps _ h1)))) ⟨fun h => h, fun h => h⟩ ⟨fun h => h, fun h => h⟩

theorem requestStandby_keeps (r : Req) (hk : Keeps ex s0 s) : Keeps ex s0 (requestStandby s r).2 := by
  unfold requestStandby
  repeat' first
    | with_reducible assumption
    | with_reducible apply enterStandby_keeps
    | with_reducible refine Keeps.ite (fun _ => ?_) (fun _ => ?_)
    | with_reducible refine Keeps.ite_snd (fun _ => ?_) (fun _ => ?_)
    | with_reducible refine Keeps.ite_fst (fun _ => ?_) (fun _ => ?_)
    | split
    | with_reducible exact Keeps.of_snd (by assumption) (by assumption)
    | with_reducible apply Keeps.mk_fst
    | with_reducible apply Keeps.mk_snd

theorem leaveStandby_keeps (cause : Nat) (hk : Keeps ex s0 s) : Keeps ex s0 (leaveStandby s cause) := by
  unfold leaveStandby
  repeat' first
    | with_reducible assumption
    | with_reducible apply setNum_keeps
    | with_reducible refine Keeps.ite (fun _ => ?_) (fun _ => ?_)
    | split
    | with_reducible exact Keeps.of_snd (by assumption) (by assumption)
    | with_reducible refine Keeps.elsewhere (Eq.refl _) ?_ ⟨fun h => h, fun h => h⟩ ⟨fun h => h, fun h => h⟩

theorem execDWake_keeps  (hk : Keeps ex s0 s) : ∀ u, execDWake s = .next u → Keeps ex s0 u := by
  intro u ht
  unfold execDWake at ht
  have hu := Host.Outcome.next.inj ht
  clear ht
  subst hu
  repeat' first
    | with_reducible assumption
    | extract_lets
    | with_reducible apply beginWake_keeps
    | with_reducible apply leaveStandby_keeps
    | with_reducible refine Keeps.ite (fun _ => ?_) (fun _ => ?_)
    | split
    | with_reducible exact Keeps.of_snd (by assumption) (by assumption)
    | dsimp +zetaDelta only

theorem execCanWake_keeps (h : Half) (hk : Keeps ex s0 s) : ∀ u, execCanWake h s = .next u → Keeps ex s0 u := by
  intro u ht
  unfold execCanWake at ht
  have hu := Host.Outcome.next.inj ht
  clear ht
  subst hu
  repeat' first
    | with_reducible assumption
    | with_reducible apply leaveStandby_keeps
    | with_reducible refine Keeps.ite (fun _ => ?_) (fun _ => ?_)
    | split
    | with_reducible exact Keeps.of_snd (by assumption) (by assumption)

theorem execSuppliesApplied_keeps (h : Half) (hk : Keeps ex s0 s) : ∀ u, execSuppliesApplied h s = .next u → Keeps ex s0 u := by
  intro u ht
  unfold execSuppliesApplied at ht
  have hu := Host.Outcome.next.inj ht
  clear ht
  subst hu
  repeat' first
    | with_reducible assumption
    | extract_lets
    | with_reducible apply modHalf_keeps
    | with_reducible apply setNum_keeps
    | with_reducible apply resetHalf_keeps
    | with_reducible refine Keeps.ite (fun _ => ?_) (fun _ => ?_)
    | with_reducible exact fun _ => ⟨fun h => h, fun h => h⟩
    | split
    | with_reducible exact Keeps.of_snd (by assumption) (by assumption)
    | with_reducible refine Keeps.elsewhere (Eq.refl _) ?_ ⟨fun h => h, fun h => h⟩ ⟨fun h => h, fun h => h⟩

theorem execSupplyFault_keeps (h : Half) (rail : Nat) (hk : Keeps ex s0 s) : ∀ u, execSupplyFault h rail s = .next u → Keeps ex s0 u := by
  intro u ht
  unfold execSupplyFault at ht
  have hu := Host.Outcome.next.inj ht
  clear ht
  subst hu
  repeat' first
    | with_reducible assumption
    | with_reducible apply modPower_keeps
    | with_reducible apply resetHalf_keeps
    | with_reducible refine Keeps.ite (fun _ => ?_) (fun _ => ?_)
    | with_reducible exact fun _ => ⟨fun h => h, fun h => h⟩
    | split
    | with_reducible exact Keeps.of_snd (by assumption) (by assumption)

theorem execResetNAssert_keeps (h : Half) (hk : Keeps ex s0 s) : ∀ u, execResetNAssert h s = .next u → Keeps ex s0 u := by
  intro u ht
  unfold execResetNAssert at ht
  have hu := Host.Outcome.next.inj ht
  clear ht
  subst hu
  repeat' first
    | with_reducible assumption
    | with_reducible apply modPower_keeps
    | with_reducible apply resetHalf_keeps
    | with_reducible refine Keeps.ite (fun _ => ?_) (fun _ => ?_)
    | with_reducible exact fun _ => ⟨fun h => h, fun h => h⟩
    | split
    | with_reducible exact Keeps.of_snd (by assumption) (by assumption)

theorem execDramZeroWrite_keeps (h : Half) (hk : Keeps ex s0 s) : ∀ u, execDramZeroWrite h s = .next u → Keeps ex s0 u := by
  intro u ht
  have hu := Host.Outcome.next.inj ht
  rw [← hu]
  refine Keeps.ite (fun _ => hk) (fun _ => ?_)
  refine serveObjects_keeps _ (modPower_keeps _ _ ?_)
  exact hk.trans ⟨Eq.refl _, Eq.refl _, Eq.refl _, Nat.le_refl _, List.prefix_rfl,
    fun h => ⟨memClear_wf _ _ _ h.mem, h.dict, h.dictBytes, h.bow, h.stern⟩, fun _ _ h => h⟩

theorem startCore_keeps (h : Half) (c : Nat) (hk : Keeps ex s0 s) : Keeps ex s0 (startCore s h c) := by
  unfold startCore
  repeat' first
    | with_reducible assumption
    | extract_lets
    | with_reducible apply setNum_keeps
    | with_reducible apply setRoll_keeps
    | with_reducible apply mapNow_keeps
    | with_reducible apply recordMapping_keeps
    | with_reducible refine Keeps.ite (fun _ => ?_) (fun _ => ?_)
    | with_reducible refine Keeps.foldl ?_ (fun t x ht => ?_)
    | with_reducible refine Keeps.foldl_snd ?_ (fun t x ht => ?_)
    | with_reducible refine Keeps.foldl_fst ?_ (fun t x ht => ?_)
    | with_reducible refine Keeps.foldl_trd ?_ (fun t x ht => ?_)
    | split
    | with_reducible exact Keeps.of_snd (by assumption) (by assumption)

theorem execReady3_keeps (h : Half) (t : Time) (hk : Keeps (some h) s0 s) : ∀ u, execReady3 h t s = .next u → Keeps (some h) s0 u := by
  intro u ht
  unfold execReady3 at ht
  extract_lets at ht
  have hu := Host.Outcome.next.inj ht
  clear ht
  subst hu
  repeat' first
    | with_reducible assumption
    | extract_lets
    | with_reducible apply startCore_keeps
    | with_reducible apply atTime_keeps
    | with_reducible apply clearClusters_keeps
    | with_reducible apply enterService_keeps
    | with_reducible apply passTrial_keeps
    | with_reducible apply startPasses_keeps
    | with_reducible refine Keeps.ite (fun _ => ?_) (fun _ => ?_)
    | with_reducible refine Keeps.foldl ?_ (fun t x ht => ?_)
    | with_reducible refine Keeps.foldl_snd ?_ (fun t x ht => ?_)
    | with_reducible refine Keeps.foldl_fst ?_ (fun t x ht => ?_)
    | with_reducible refine Keeps.foldl_trd ?_ (fun t x ht => ?_)
    | split
    | with_reducible exact Keeps.of_snd (by assumption) (by assumption)

theorem execStartupBoundMiss_keeps (h : Half) (hk : Keeps ex s0 s) : ∀ u, execStartupBoundMiss h s = .next u → Keeps ex s0 u := by
  intro u ht
  unfold execStartupBoundMiss at ht
  extract_lets at ht
  have hu := Host.Outcome.next.inj ht
  clear ht
  subst hu
  repeat' first
    | with_reducible assumption
    | extract_lets
    | with_reducible apply stopStart_keeps
    | with_reducible refine Keeps.ite (fun _ => ?_) (fun _ => ?_)
    | split
    | with_reducible exact Keeps.of_snd (by assumption) (by assumption)

theorem tapRise_keeps (tdi : Bool) (hk : Keeps ex s0 s) : Keeps ex s0 (tapRise s tdi) := by
  unfold tapRise
  extract_lets x
  have h1 : ∀ v, Keeps ex s0 { s with scan := v } := fun v => Keeps.elsewhere (Eq.refl _) hk ⟨fun h => h, fun h => h⟩ ⟨fun h => h, fun h => h⟩
  split
  · split
    · exact Keeps.skip (s := { s with scan := { x with cells := upto Config.boundaryCells (fun i => bitAt (Config.freeNat (s.freeCtr + i)) 0) } }) (n := s.freeCtr + Config.boundaryCells) (h1 _) (Nat.le_add_right _ _)
    · exact h1 _
  · split <;> exact h1 _
  · exact h1 _
  · exact h1 _
  · exact hk

theorem tapFall_keeps  (hk : Keeps ex s0 s) : Keeps ex s0 (tapFall s) := by
  unfold tapFall
  repeat' first
    | with_reducible assumption
    | extract_lets
    | with_reducible apply emit_keeps
    | with_reducible refine Keeps.ite (fun _ => ?_) (fun _ => ?_)
    | split
    | with_reducible exact Keeps.of_snd (by assumption) (by assumption)
    | with_reducible refine Keeps.elsewhere (Eq.refl _) ?_ ⟨fun h => h, fun h => h⟩ ⟨fun h => h, fun h => h⟩

theorem execBoundaryScan_keeps (rising : Bool) (tms : Bool) (tdi : Bool) (hk : Keeps ex s0 s) : ∀ u, execBoundaryScan rising tms tdi s = .next u → Keeps ex s0 u := by
  intro u ht
  unfold execBoundaryScan at ht
  have hu := Host.Outcome.next.inj ht
  clear ht
  subst hu
  repeat' first
    | with_reducible assumption
    | extract_lets
    | with_reducible apply tapFall_keeps
    | with_reducible apply tapRise_keeps
    | with_reducible refine Keeps.ite (fun _ => ?_) (fun _ => ?_)
    | split
    | with_reducible exact Keeps.of_snd (by assumption) (by assumption)
    | with_reducible refine Keeps.elsewhere (Eq.refl _) ?_ ⟨fun h => h, fun h => h⟩ ⟨fun h => h, fun h => h⟩

end Sys2Proof.Machine
end

