-- ==== Sys2Proof/Laws/KeepsDictOps.lean ====
section
/-! SUPPORT. What no operation of Machine/DictOps.lean disturbs. -/
namespace Sys2Proof.Machine

variable {ex : Option Half} {s0 s : State}



end Sys2Proof.Machine
end

