-- ==== Sys2Proof/Laws/KeepsTxnOps.lean ====
section
/-! SUPPORT. What no operation of Machine/TxnOps.lean disturbs. -/
namespace Sys2Proof.Machine

variable {ex : Option Half} {s0 s : State}

theorem clearRecorder_keeps (h : Half) (g : Half) (n : Nat) (hk : Keeps ex s0 s) : Keeps ex s0 (clearRecorder s h g n).2 := by
  unfold clearRecorder
  repeat' first
    | with_reducible assumption
    | with_reducible apply modHalf_keeps
    | with_reducible apply recMirrored_keeps
    | with_reducible refine Keeps.ite (fun _ => ?_) (fun _ => ?_)
    | with_reducible refine Keeps.ite_snd (fun _ => ?_) (fun _ => ?_)
    | with_reducible refine Keeps.ite_fst (fun _ => ?_) (fun _ => ?_)
    | with_reducible exact fun _ => ⟨fun h => h, fun h => h⟩
    | split
    | with_reducible exact Keeps.of_snd (by assumption) (by assumption)
    | with_reducible apply Keeps.mk_fst
    | with_reducible apply Keeps.mk_snd

theorem emitAcc_keeps (h : Half) (i : Nat) (hk : Keeps ex s0 s) : Keeps ex s0 (emitAcc s h i) := by
  unfold emitAcc
  repeat' first
    | with_reducible assumption
    | with_reducible apply modHalf_keeps
    | with_reducible apply recWrite_keeps
    | with_reducible refine Keeps.ite (fun _ => ?_) (fun _ => ?_)
    | with_reducible exact fun _ => ⟨fun h => h, fun h => h⟩
    | split
    | with_reducible exact Keeps.of_snd (by assumption) (by assumption)

theorem tellTxn_keeps (h : Half) (result : Nat) (staged : Nat) (hk : Keeps ex s0 s) : Keeps ex s0 (tellTxn s h result staged) := by
  unfold tellTxn
  repeat' first
    | with_reducible assumption
    | with_reducible apply msix_keeps
    | with_reducible apply observe_keeps
    | with_reducible refine Keeps.ite (fun _ => ?_) (fun _ => ?_)
    | split
    | with_reducible exact Keeps.of_snd (by assumption) (by assumption)

theorem endTxn_keeps (result : Nat) (fail : Nat) (hk : Keeps ex s0 s) : Keeps ex s0 (endTxn s result fail) := by
  unfold endTxn
  repeat' first
    | with_reducible assumption
    | extract_lets
    | with_reducible apply tellTxn_keeps
    | with_reducible apply setNum_keeps
    | with_reducible refine Keeps.ite (fun _ => ?_) (fun _ => ?_)
    | split
    | with_reducible exact Keeps.of_snd (by assumption) (by assumption)
    | with_reducible refine Keeps.elsewhere (Eq.refl _) ?_ ⟨fun h => h, fun h => h⟩ ⟨fun h => h, fun h => h⟩

theorem beginTxn_keeps (h : Half) (r : Req) (hk : Keeps ex s0 s) : Keeps ex s0 (beginTxn s h r).2 := by
  unfold beginTxn
  repeat' first
    | with_reducible assumption
    | extract_lets
    | with_reducible apply setNum_keeps
    | with_reducible refine Keeps.ite (fun _ => ?_) (fun _ => ?_)
    | with_reducible refine Keeps.ite_snd (fun _ => ?_) (fun _ => ?_)
    | with_reducible refine Keeps.ite_fst (fun _ => ?_) (fun _ => ?_)
    | split
    | with_reducible exact Keeps.of_snd (by assumption) (by assumption)
    | with_reducible refine Keeps.elsewhere (Eq.refl _) ?_ ⟨fun h => h, fun h => h⟩ ⟨fun h => h, fun h => h⟩
    | with_reducible apply Keeps.mk_fst
    | with_reducible apply Keeps.mk_snd

theorem commitTxn_keeps (h : Half) (r : Req) (hk : Keeps ex s0 s) : Keeps ex s0 (commitTxn s h r).2 := by
  unfold commitTxn
  repeat' first
    | with_reducible assumption
    | extract_lets
    | with_reducible apply setNum_keeps
    | with_reducible refine Keeps.ite (fun _ => ?_) (fun _ => ?_)
    | with_reducible refine Keeps.ite_snd (fun _ => ?_) (fun _ => ?_)
    | with_reducible refine Keeps.ite_fst (fun _ => ?_) (fun _ => ?_)
    | split
    | with_reducible exact Keeps.of_snd (by assumption) (by assumption)
    | with_reducible refine Keeps.elsewhere (Eq.refl _) ?_ ⟨fun h => h, fun h => h⟩ ⟨fun h => h, fun h => h⟩
    | with_reducible apply Keeps.mk_fst
    | with_reducible apply Keeps.mk_snd
    | dsimp +zetaDelta only

theorem rollbackTxn_keeps (h : Half) (r : Req) (hk : Keeps ex s0 s) : Keeps ex s0 (rollbackTxn s h r).2 := by
  unfold rollbackTxn
  repeat' first
    | with_reducible assumption
    | with_reducible apply endTxn_keeps
    | with_reducible refine Keeps.ite (fun _ => ?_) (fun _ => ?_)
    | with_reducible refine Keeps.ite_snd (fun _ => ?_) (fun _ => ?_)
    | with_reducible refine Keeps.ite_fst (fun _ => ?_) (fun _ => ?_)
    | split
    | with_reducible exact Keeps.of_snd (by assumption) (by assumption)
    | with_reducible apply Keeps.mk_fst
    | with_reducible apply Keeps.mk_snd

theorem stageWrite_keeps (h : Half) (r : Req) (idx : Nat) (sub : Nat) (a : DAddr) (e : Entry) (ofs : Nat) (bs : List Byte) (hk : Keeps ex s0 s) : Keeps ex s0 (stageWrite s h r idx sub a e ofs bs).2 := by
  unfold stageWrite
  repeat' first
    | with_reducible assumption
    | extract_lets
    | with_reducible refine Keeps.ite (fun _ => ?_) (fun _ => ?_)
    | with_reducible refine Keeps.ite_snd (fun _ => ?_) (fun _ => ?_)
    | with_reducible refine Keeps.ite_fst (fun _ => ?_) (fun _ => ?_)
    | split
    | with_reducible exact Keeps.of_snd (by assumption) (by assumption)
    | with_reducible refine Keeps.elsewhere (Eq.refl _) ?_ ⟨fun h => h, fun h => h⟩ ⟨fun h => h, fun h => h⟩
    | with_reducible apply Keeps.mk_fst
    | with_reducible apply Keeps.mk_snd
    | dsimp +zetaDelta only

theorem commitNow_keeps (tb : Time) (hk : Keeps ex s0 s) : Keeps ex s0 (commitNow s tb) := by
  unfold commitNow
  repeat' first
    | with_reducible assumption
    | extract_lets
    | with_reducible apply endTxn_keeps
    | with_reducible apply setNum_keeps
    | with_reducible apply applyValues_keeps
    | with_reducible refine Keeps.ite (fun _ => ?_) (fun _ => ?_)
    | split
    | with_reducible exact Keeps.of_snd (by assumption) (by assumption)

theorem loopCmd_keeps (h : Half) (n : Nat) (v : Nat) (hk : Keeps ex s0 s) : Keeps ex s0 (loopCmd s h n v).2 := by
  unfold loopCmd
  repeat' first
    | with_reducible assumption
    | with_reducible apply closeLoop_keeps
    | with_reducible apply openLoopNow_keeps
    | with_reducible refine Keeps.ite (fun _ => ?_) (fun _ => ?_)
    | with_reducible refine Keeps.ite_snd (fun _ => ?_) (fun _ => ?_)
    | with_reducible refine Keeps.ite_fst (fun _ => ?_) (fun _ => ?_)
    | split
    | with_reducible exact Keeps.of_snd (by assumption) (by assumption)
    | with_reducible apply Keeps.mk_fst
    | with_reducible apply Keeps.mk_snd

theorem halfCmd_keeps (v : Nat) (hk : Keeps ex s0 s) : Keeps ex s0 (halfCmd s v).2 := by
  unfold halfCmd
  repeat' first
    | with_reducible assumption
    | extract_lets
    | with_reducible apply handoverHalf_keeps
    | with_reducible apply rejoinHalf_keeps
    | with_reducible apply resumeHalf_keeps
    | with_reducible refine Keeps.ite (fun _ => ?_) (fun _ => ?_)
    | with_reducible refine Keeps.ite_snd (fun _ => ?_) (fun _ => ?_)
    | with_reducible refine Keeps.ite_fst (fun _ => ?_) (fun _ => ?_)
    | split
    | with_reducible exact Keeps.of_snd (by assumption) (by assumption)
    | with_reducible apply Keeps.mk_fst
    | with_reducible apply Keeps.mk_snd

theorem txnCmd_keeps (h : Half) (r : Req) (v : Nat) (hk : Keeps ex s0 s) : Keeps ex s0 (txnCmd s h r v).2 := by
  unfold txnCmd
  repeat' first
    | with_reducible assumption
    | with_reducible apply beginTxn_keeps
    | with_reducible apply commitTxn_keeps
    | with_reducible apply rollbackTxn_keeps
    | with_reducible refine Keeps.ite (fun _ => ?_) (fun _ => ?_)
    | with_reducible refine Keeps.ite_snd (fun _ => ?_) (fun _ => ?_)
    | with_reducible refine Keeps.ite_fst (fun _ => ?_) (fun _ => ?_)
    | split
    | with_reducible exact Keeps.of_snd (by assumption) (by assumption)
    | with_reducible apply Keeps.mk_fst
    | with_reducible apply Keeps.mk_snd

theorem fwCmd_keeps (h : Half) (v : Nat) (hk : Keeps ex s0 s) : Keeps ex s0 (fwCmd s h v).2 := by
  unfold fwCmd
  repeat' first
    | with_reducible assumption
    | with_reducible apply fwActivate_keeps
    | with_reducible apply fwCommit_keeps
    | with_reducible apply fwErase_keeps
    | with_reducible apply fwVerify_keeps
    | with_reducible refine Keeps.ite (fun _ => ?_) (fun _ => ?_)
    | with_reducible refine Keeps.ite_snd (fun _ => ?_) (fun _ => ?_)
    | with_reducible refine Keeps.ite_fst (fun _ => ?_) (fun _ => ?_)
    | split
    | with_reducible exact Keeps.of_snd (by assumption) (by assumption)
    | with_reducible apply Keeps.mk_fst
    | with_reducible apply Keeps.mk_snd

theorem powerReq_keeps (h : Half) (v : Nat) (hk : Keeps ex s0 s) : Keeps ex s0 (powerReq s h v).2 := by
  unfold powerReq
  repeat' first
    | with_reducible assumption
    | with_reducible apply requestIdle_keeps
    | with_reducible apply requestNap_keeps
    | with_reducible apply requestRun_keeps
    | with_reducible refine Keeps.ite (fun _ => ?_) (fun _ => ?_)
    | with_reducible refine Keeps.ite_snd (fun _ => ?_) (fun _ => ?_)
    | with_reducible refine Keeps.ite_fst (fun _ => ?_) (fun _ => ?_)
    | split
    | with_reducible exact Keeps.of_snd (by assumption) (by assumption)
    | with_reducible apply Keeps.mk_fst
    | with_reducible apply Keeps.mk_snd

theorem writeWO_keeps (h : Half) (r : Req) (a : DAddr) (ofs : Nat) (bs : List Byte) (hk : Keeps ex s0 s) : Keeps ex s0 (writeWO s h r a ofs bs).2 := by
  unfold writeWO
  repeat' first
    | with_reducible assumption
    | extract_lets
    | with_reducible apply clearRecorder_keeps
    | with_reducible apply fwCmd_keeps
    | with_reducible apply halfCmd_keeps
    | with_reducible apply loopCmd_keeps
    | with_reducible apply powerReq_keeps
    | with_reducible apply txnCmd_keeps
    | with_reducible apply acceptStep_keeps
    | with_reducible apply doUnload_keeps
    | with_reducible apply fwWrite_keeps
    | with_reducible apply putOwner_keeps
    | with_reducible apply putSettings_keeps
    | with_reducible apply requestStandby_keeps
    | with_reducible apply startLoad_keeps
    | with_reducible apply takeNonce_keeps
    | with_reducible refine Keeps.ite (fun _ => ?_) (fun _ => ?_)
    | with_reducible refine Keeps.ite_snd (fun _ => ?_) (fun _ => ?_)
    | with_reducible refine Keeps.ite_fst (fun _ => ?_) (fun _ => ?_)
    | split
    | with_reducible exact Keeps.of_snd (by assumption) (by assumption)
    | with_reducible apply Keeps.mk_fst
    | with_reducible apply Keeps.mk_snd
    | dsimp +zetaDelta only

theorem takeMirror_keeps (h : Half) (r : Req) (idx : Nat) (sub : Nat) (bs : List Byte) (hk : Keeps ex s0 s) : Keeps ex s0 (takeMirror s h r idx sub bs) := by
  unfold takeMirror
  repeat' first
    | with_reducible assumption
    | with_reducible apply sendDict_keeps
    | with_reducible refine Keeps.ite (fun _ => ?_) (fun _ => ?_)
    | split
    | with_reducible exact Keeps.of_snd (by assumption) (by assumption)
    | with_reducible refine Keeps.elsewhere (Eq.refl _) ?_ ⟨fun h => h, fun h => h⟩ ⟨fun h => h, fun h => h⟩

theorem serveWrite_keeps (h : Half) (r : Req) (m : Msg) (a : DAddr) (e : Entry) (hk : Keeps ex s0 s) : Keeps ex s0 (serveWrite s h r m a e).2 := by
  unfold serveWrite
  repeat' first
    | with_reducible assumption
    | extract_lets
    | with_reducible apply stageWrite_keeps
    | with_reducible apply takeMirror_keeps
    | with_reducible apply writeWO_keeps
    | with_reducible apply applyValues_keeps
    | with_reducible refine Keeps.ite (fun _ => ?_) (fun _ => ?_)
    | with_reducible refine Keeps.ite_snd (fun _ => ?_) (fun _ => ?_)
    | with_reducible refine Keeps.ite_fst (fun _ => ?_) (fun _ => ?_)
    | split
    | with_reducible exact Keeps.of_snd (by assumption) (by assumption)
    | with_reducible apply Keeps.mk_fst
    | with_reducible apply Keeps.mk_snd

theorem serveHere_keeps (h : Half) (r : Req) (m : Msg) (a : DAddr) (e : Entry) (hk : Keeps ex s0 s) : Keeps ex s0 (serveHere s h r m a e).2 := by
  unfold serveHere
  repeat' first
    | with_reducible assumption
    | with_reducible apply serveWrite_keeps
    | with_reducible refine Keeps.ite (fun _ => ?_) (fun _ => ?_)
    | with_reducible refine Keeps.ite_snd (fun _ => ?_) (fun _ => ?_)
    | with_reducible refine Keeps.ite_fst (fun _ => ?_) (fun _ => ?_)
    | split
    | with_reducible exact Keeps.of_snd (by assumption) (by assumption)
    | with_reducible apply Keeps.mk_fst
    | with_reducible apply Keeps.mk_snd

end Sys2Proof.Machine
end

