-- ==== Sys2Proof/Laws/KeepsDictCmds.lean ====
section
/-! SUPPORT. What no operation of Machine/DictCmds.lean disturbs. -/
namespace Sys2Proof.Machine

variable {ex : Option Half} {s0 s : State}

theorem respondCan_keeps (h : Half) (client : Nat) (tr : Nat) (bs : List Byte) (hk : Keeps ex s0 s) : Keeps ex s0 (respondCan s h client tr bs) := by
  unfold respondCan
  repeat' first
    | with_reducible assumption
    | extract_lets
    | with_reducible apply free_keeps
    | with_reducible apply setCan_keeps
    | with_reducible refine Keeps.ite (fun _ => ?_) (fun _ => ?_)
    | with_reducible refine Keeps.foldl ?_ (fun t x ht => ?_)
    | with_reducible refine Keeps.foldl_snd ?_ (fun t x ht => ?_)
    | with_reducible refine Keeps.foldl_fst ?_ (fun t x ht => ?_)
    | with_reducible refine Keeps.foldl_trd ?_ (fun t x ht => ?_)
    | split
    | with_reducible exact Keeps.of_snd (by assumption) (by assumption)
    | dsimp +zetaDelta only

theorem putMailbox_keeps (h : Half) (o : Nat) (bs : List Byte) (hk : Keeps ex s0 s) : Keeps ex s0 (putMailbox s h o bs) := by
  unfold putMailbox
  repeat' first
    | with_reducible assumption
    | with_reducible apply modHalf_keeps
    | with_reducible refine Keeps.ite (fun _ => ?_) (fun _ => ?_)
    | with_reducible refine Keeps.foldl ?_ (fun t x ht => ?_)
    | with_reducible refine Keeps.foldl_snd ?_ (fun t x ht => ?_)
    | with_reducible refine Keeps.foldl_fst ?_ (fun t x ht => ?_)
    | with_reducible refine Keeps.foldl_trd ?_ (fun t x ht => ?_)
    | with_reducible exact fun _ => ⟨fun h => h, fun h => h⟩
    | split
    | with_reducible exact Keeps.of_snd (by assumption) (by assumption)

theorem respondMailbox_keeps (h : Half) (mb : Nat) (bs : List Byte) (hk : Keeps ex s0 s) : Keeps ex s0 (respondMailbox s h mb bs) := by
  unfold respondMailbox
  repeat' first
    | with_reducible assumption
    | extract_lets
    | with_reducible apply putMailbox_keeps
    | with_reducible refine Keeps.ite (fun _ => ?_) (fun _ => ?_)
    | split
    | with_reducible exact Keeps.of_snd (by assumption) (by assumption)

theorem sendBack_keeps (h : Half) (r : Req) (bs : List Byte) (hk : Keeps ex s0 s) : Keeps ex s0 (sendBack s h r bs) := by
  unfold sendBack
  repeat' first
    | with_reducible assumption
    | with_reducible apply respondCan_keeps
    | with_reducible apply respondMailbox_keeps
    | with_reducible apply emit_keeps
    | with_reducible refine Keeps.ite (fun _ => ?_) (fun _ => ?_)
    | split
    | with_reducible exact Keeps.of_snd (by assumption) (by assumption)

theorem keepResponse_keeps (h : Half) (r : Req) (bs : List Byte) (hk : Keeps ex s0 s) : Keeps ex s0 (keepResponse s h r bs) := by
  unfold keepResponse
  repeat' first
    | with_reducible assumption
    | extract_lets
    | with_reducible apply modHalf_keeps
    | with_reducible refine Keeps.ite (fun _ => ?_) (fun _ => ?_)
    | with_reducible exact fun _ => ⟨fun h => h, fun h => h⟩
    | split
    | with_reducible exact Keeps.of_snd (by assumption) (by assumption)

theorem answer_keeps (h : Half) (r : Req) (m : Msg) (p : Reply) (hk : Keeps ex s0 s) : Keeps ex s0 (answer s h r m p) := by
  unfold answer
  repeat' first
    | with_reducible assumption
    | extract_lets
    | with_reducible apply keepResponse_keeps
    | with_reducible apply sendBack_keeps
    | with_reducible apply bump_keeps
    | with_reducible refine Keeps.ite (fun _ => ?_) (fun _ => ?_)
    | split
    | with_reducible exact Keeps.of_snd (by assumption) (by assumption)
    | dsimp +zetaDelta only

theorem answerNow_keeps (h : Half) (r : Req) (m : Msg) (p : Option Reply × State) (hk : Keeps ex s0 p.2) : Keeps ex s0 (answerNow h r m p) := by
  unfold answerNow
  split
  · exact answer_keeps _ _ _ _ hk
  · exact hk

theorem serveMsg_keeps (h : Half) (r : Req) (m : Msg) (hk : Keeps ex s0 s) : Keeps ex s0 (serveMsg s h r m) := by
  unfold serveMsg
  repeat' first
    | with_reducible assumption
    | with_reducible apply answerNow_keeps
    | with_reducible apply serveHere_keeps
    | with_reducible apply answer_keeps
    | with_reducible apply sendDict_keeps
    | with_reducible apply serveHere_keeps
    | with_reducible refine Keeps.ite (fun _ => ?_) (fun _ => ?_)
    | split
    | with_reducible exact Keeps.of_snd (by assumption) (by assumption)

theorem takeRequest_keeps (h : Half) (r : Req) (bs : List Byte) (hk : Keeps ex s0 s) : Keeps ex s0 (takeRequest s h r bs) := by
  unfold takeRequest
  repeat' first
    | with_reducible assumption
    | with_reducible apply sendBack_keeps
    | with_reducible apply serveMsg_keeps
    | with_reducible refine Keeps.ite (fun _ => ?_) (fun _ => ?_)
    | split
    | with_reducible exact Keeps.of_snd (by assumption) (by assumption)

theorem takeOp_keeps (h : Half) (r : Req) (bs : List Byte) (op : Nat) (hk : Keeps ex s0 s) : Keeps ex s0 (takeOp s h r bs op) := by
  unfold takeOp
  repeat' first
    | with_reducible assumption
    | with_reducible apply takeRequest_keeps
    | with_reducible refine Keeps.ite (fun _ => ?_) (fun _ => ?_)
    | split
    | with_reducible exact Keeps.of_snd (by assumption) (by assumption)

theorem execRead_keeps (h : Half) (r : Req) (msg : List Byte) (hk : Keeps ex s0 s) : ∀ u, execRead h r msg s = .next u → Keeps ex s0 u := by
  intro u ht
  unfold execRead at ht
  have hu := Host.Outcome.next.inj ht
  clear ht
  subst hu
  repeat' first
    | with_reducible assumption
    | with_reducible apply takeOp_keeps
    | with_reducible refine Keeps.ite (fun _ => ?_) (fun _ => ?_)
    | split
    | with_reducible exact Keeps.of_snd (by assumption) (by assumption)

theorem execWrite_keeps (h : Half) (r : Req) (msg : List Byte) (hk : Keeps ex s0 s) : ∀ u, execWrite h r msg s = .next u → Keeps ex s0 u := by
  intro u ht
  unfold execWrite at ht
  have hu := Host.Outcome.next.inj ht
  clear ht
  subst hu
  repeat' first
    | with_reducible assumption
    | with_reducible apply takeOp_keeps
    | with_reducible refine Keeps.ite (fun _ => ?_) (fun _ => ?_)
    | split
    | with_reducible exact Keeps.of_snd (by assumption) (by assumption)

theorem execDescribe_keeps (h : Half) (r : Req) (msg : List Byte) (hk : Keeps ex s0 s) : ∀ u, execDescribe h r msg s = .next u → Keeps ex s0 u := by
  intro u ht
  unfold execDescribe at ht
  have hu := Host.Outcome.next.inj ht
  clear ht
  subst hu
  repeat' first
    | with_reducible assumption
    | with_reducible apply takeOp_keeps
    | with_reducible refine Keeps.ite (fun _ => ?_) (fun _ => ?_)
    | split
    | with_reducible exact Keeps.of_snd (by assumption) (by assumption)

theorem execCanSegment_keeps (h : Half) (client : Nat) (bs : List Byte) (hk : Keeps ex s0 s) : ∀ u, execCanSegment h client bs s = .next u → Keeps ex s0 u := by
  intro u ht
  unfold execCanSegment at ht
  extract_lets at ht
  have hu := Host.Outcome.next.inj ht
  clear ht
  subst hu
  repeat' first
    | with_reducible assumption
    | extract_lets
    | with_reducible apply takeRequest_keeps
    | with_reducible apply modHalf_keeps
    | with_reducible refine Keeps.ite (fun _ => ?_) (fun _ => ?_)
    | with_reducible exact fun _ => ⟨fun h => h, fun h => h⟩
    | split
    | with_reducible exact Keeps.of_snd (by assumption) (by assumption)
    | dsimp +zetaDelta only

theorem execUdpDatagram_keeps (h : Half) (addr : Nat) (port : Nat) (bs : List Byte) (hk : Keeps ex s0 s) : ∀ u, execUdpDatagram h addr port bs s = .next u → Keeps ex s0 u := by
  intro u ht
  unfold execUdpDatagram at ht
  extract_lets at ht
  have hu := Host.Outcome.next.inj ht
  clear ht
  subst hu
  repeat' first
    | with_reducible assumption
    | extract_lets
    | with_reducible apply takeRequest_keeps
    | with_reducible apply bump_keeps
    | with_reducible refine Keeps.ite (fun _ => ?_) (fun _ => ?_)
    | split
    | with_reducible exact Keeps.of_snd (by assumption) (by assumption)

theorem execMailboxGo_keeps (h : Half) (mb : Nat) (w : BitVec 64) (hk : Keeps ex s0 s) : ∀ u, execMailboxGo h mb w s = .next u → Keeps ex s0 u := by
  intro u ht
  unfold execMailboxGo at ht
  extract_lets at ht
  have hu := Host.Outcome.next.inj ht
  clear ht
  subst hu
  repeat' first
    | with_reducible assumption
    | extract_lets
    | with_reducible apply putMailbox_keeps
    | with_reducible apply takeRequest_keeps
    | with_reducible refine Keeps.ite (fun _ => ?_) (fun _ => ?_)
    | split
    | with_reducible exact Keeps.of_snd (by assumption) (by assumption)

theorem serveForwarded_keeps (h : Half) (r : Req) (bs : List Byte) (hk : Keeps ex s0 s) : Keeps ex s0 (serveForwarded s h r bs) := by
  unfold serveForwarded
  repeat' first
    | with_reducible assumption
    | extract_lets
    | with_reducible apply answerNow_keeps
    | with_reducible apply serveHere_keeps
    | with_reducible refine Keeps.ite_snd (fun _ => ?_) (fun _ => ?_)
    | with_reducible apply answer_keeps
    | with_reducible apply serveHere_keeps
    | with_reducible refine Keeps.ite (fun _ => ?_) (fun _ => ?_)
    | split
    | with_reducible exact Keeps.of_snd (by assumption) (by assumption)
    | dsimp +zetaDelta only

theorem takeDict_keeps (h : Half) (d : DictMsg) (hk : Keeps ex s0 s) : Keeps ex s0 (takeDict s h d) := by
  unfold takeDict
  repeat' first
    | with_reducible assumption
    | with_reducible apply serveForwarded_keeps
    | with_reducible apply setNum_keeps
    | with_reducible refine Keeps.ite (fun _ => ?_) (fun _ => ?_)
    | split
    | with_reducible exact Keeps.of_snd (by assumption) (by assumption)
    | with_reducible refine Keeps.elsewhere (Eq.refl _) ?_ ⟨fun h => h, fun h => h⟩ ⟨fun h => h, fun h => h⟩

theorem execDict_keeps (h : Half) (hk : Keeps ex s0 s) : ∀ u, execDict h s = .next u → Keeps ex s0 u := by
  intro u ht
  unfold execDict at ht
  have hu := Host.Outcome.next.inj ht
  clear ht
  subst hu
  repeat' first
    | with_reducible assumption
    | extract_lets
    | with_reducible apply takeDict_keeps
    | with_reducible apply takeMsg_keeps
    | with_reducible refine Keeps.ite (fun _ => ?_) (fun _ => ?_)
    | split
    | with_reducible exact Keeps.of_snd (by assumption) (by assumption)

theorem applyMirror_keeps (x : MirrorWrite) (hk : Keeps ex s0 s) : Keeps ex s0 (applyMirror s x) := by
  unfold applyMirror
  repeat' first
    | with_reducible assumption
    | extract_lets
    | with_reducible apply answer_keeps
    | with_reducible apply applyValues_keeps
    | with_reducible refine Keeps.ite (fun _ => ?_) (fun _ => ?_)
    | split
    | with_reducible exact Keeps.of_snd (by assumption) (by assumption)
    | with_reducible refine Keeps.elsewhere (Eq.refl _) ?_ ⟨fun h => h, fun h => h⟩ ⟨fun h => h, fun h => h⟩

theorem execMirrorApply_keeps (t : Time) (hk : Keeps ex s0 s) : ∀ u, execMirrorApply t s = .next u → Keeps ex s0 u := by
  intro u ht
  unfold execMirrorApply at ht
  extract_lets at ht
  have hu := Host.Outcome.next.inj ht
  clear ht
  subst hu
  repeat' first
    | with_reducible assumption
    | extract_lets
    | with_reducible apply applyMirror_keeps
    | with_reducible apply atTime_keeps
    | with_reducible refine Keeps.ite (fun _ => ?_) (fun _ => ?_)
    | with_reducible refine Keeps.foldl ?_ (fun t x ht => ?_)
    | with_reducible refine Keeps.foldl_snd ?_ (fun t x ht => ?_)
    | with_reducible refine Keeps.foldl_fst ?_ (fun t x ht => ?_)
    | with_reducible refine Keeps.foldl_trd ?_ (fun t x ht => ?_)
    | split
    | with_reducible exact Keeps.of_snd (by assumption) (by assumption)

theorem writeReq_keeps (h : Half) (r : Req) (idx : Nat) (sub : Nat) (ofs : Nat) (data : List Byte) (hk : Keeps ex s0 s) : Keeps ex s0 (writeReq s h r idx sub ofs data) := by
  unfold writeReq
  repeat' first
    | with_reducible assumption
    | with_reducible apply takeRequest_keeps
    | with_reducible refine Keeps.ite (fun _ => ?_) (fun _ => ?_)
    | split
    | with_reducible exact Keeps.of_snd (by assumption) (by assumption)

theorem execBegin_keeps (h : Half) (r : Req) (hk : Keeps ex s0 s) : ∀ u, execBegin h r s = .next u → Keeps ex s0 u := by
  intro u ht
  unfold execBegin at ht
  have hu := Host.Outcome.next.inj ht
  clear ht
  subst hu
  repeat' first
    | with_reducible assumption
    | with_reducible apply writeReq_keeps
    | with_reducible refine Keeps.ite (fun _ => ?_) (fun _ => ?_)
    | split
    | with_reducible exact Keeps.of_snd (by assumption) (by assumption)

theorem execCommit_keeps (h : Half) (r : Req) (t : Time) (hk : Keeps ex s0 s) : ∀ u, execCommit h r t s = .next u → Keeps ex s0 u := by
  intro u ht
  unfold execCommit at ht
  have hu := Host.Outcome.next.inj ht
  clear ht
  subst hu
  repeat' first
    | with_reducible assumption
    | with_reducible apply writeReq_keeps
    | with_reducible apply atTime_keeps
    | with_reducible refine Keeps.ite (fun _ => ?_) (fun _ => ?_)
    | split
    | with_reducible exact Keeps.of_snd (by assumption) (by assumption)

theorem execRollback_keeps (h : Half) (r : Req) (hk : Keeps ex s0 s) : ∀ u, execRollback h r s = .next u → Keeps ex s0 u := by
  intro u ht
  unfold execRollback at ht
  have hu := Host.Outcome.next.inj ht
  clear ht
  subst hu
  repeat' first
    | with_reducible assumption
    | with_reducible apply writeReq_keeps
    | with_reducible refine Keeps.ite (fun _ => ?_) (fun _ => ?_)
    | split
    | with_reducible exact Keeps.of_snd (by assumption) (by assumption)

theorem execCommitBoundary_keeps (t : Time) (hk : Keeps ex s0 s) : ∀ u, execCommitBoundary t s = .next u → Keeps ex s0 u := by
  intro u ht
  unfold execCommitBoundary at ht
  extract_lets at ht
  have hu := Host.Outcome.next.inj ht
  clear ht
  subst hu
  repeat' first
    | with_reducible assumption
    | extract_lets
    | with_reducible apply atTime_keeps
    | with_reducible apply commitNow_keeps
    | with_reducible refine Keeps.ite (fun _ => ?_) (fun _ => ?_)
    | split
    | with_reducible exact Keeps.of_snd (by assumption) (by assumption)

theorem execCommitFrameTimeout_keeps (t : Time) (hk : Keeps ex s0 s) : ∀ u, execCommitFrameTimeout t s = .next u → Keeps ex s0 u := by
  intro u ht
  unfold execCommitFrameTimeout at ht
  extract_lets at ht
  have hu := Host.Outcome.next.inj ht
  clear ht
  subst hu
  repeat' first
    | with_reducible assumption
    | extract_lets
    | with_reducible apply atTime_keeps
    | with_reducible apply endTxn_keeps
    | with_reducible refine Keeps.ite (fun _ => ?_) (fun _ => ?_)
    | split
    | with_reducible exact Keeps.of_snd (by assumption) (by assumption)

theorem execTxnTimeout_keeps (t : Time) (hk : Keeps ex s0 s) : ∀ u, execTxnTimeout t s = .next u → Keeps ex s0 u := by
  intro u ht
  unfold execTxnTimeout at ht
  extract_lets at ht
  have hu := Host.Outcome.next.inj ht
  clear ht
  subst hu
  repeat' first
    | with_reducible assumption
    | extract_lets
    | with_reducible apply atTime_keeps
    | with_reducible apply bump_keeps
    | with_reducible apply endTxn_keeps
    | with_reducible refine Keeps.ite (fun _ => ?_) (fun _ => ?_)
    | split
    | with_reducible exact Keeps.of_snd (by assumption) (by assumption)

theorem execRecordEmit_keeps (h : Half) (i : Nat) (t : Time) (hk : Keeps ex s0 s) : ∀ u, execRecordEmit h i t s = .next u → Keeps ex s0 u := by
  intro u ht
  unfold execRecordEmit at ht
  extract_lets at ht
  have hu := Host.Outcome.next.inj ht
  clear ht
  subst hu
  repeat' first
    | with_reducible assumption
    | extract_lets
    | with_reducible apply atTime_keeps
    | with_reducible apply emitAcc_keeps
    | with_reducible refine Keeps.ite (fun _ => ?_) (fun _ => ?_)
    | split
    | with_reducible exact Keeps.of_snd (by assumption) (by assumption)

theorem execRecClear_keeps (h : Half) (r : Req) (target : Half) (n : BitVec 32) (hk : Keeps ex s0 s) : ∀ u, execRecClear h r target n s = .next u → Keeps ex s0 u := by
  intro u ht
  unfold execRecClear at ht
  have hu := Host.Outcome.next.inj ht
  clear ht
  subst hu
  repeat' first
    | with_reducible assumption
    | with_reducible apply writeReq_keeps
    | with_reducible refine Keeps.ite (fun _ => ?_) (fun _ => ?_)
    | split
    | with_reducible exact Keeps.of_snd (by assumption) (by assumption)

theorem execStepAccept_keeps (h : Half) (r : Req) (v : BitVec 32) (hk : Keeps ex s0 s) : ∀ u, execStepAccept h r v s = .next u → Keeps ex s0 u := by
  intro u ht
  unfold execStepAccept at ht
  have hu := Host.Outcome.next.inj ht
  clear ht
  subst hu
  repeat' first
    | with_reducible assumption
    | with_reducible apply writeReq_keeps
    | with_reducible refine Keeps.ite (fun _ => ?_) (fun _ => ?_)
    | split
    | with_reducible exact Keeps.of_snd (by assumption) (by assumption)

theorem execClose_keeps (h : Half) (r : Req) (target : Half) (n : Nat) (hk : Keeps ex s0 s) : ∀ u, execClose h r target n s = .next u → Keeps ex s0 u := by
  intro u ht
  unfold execClose at ht
  have hu := Host.Outcome.next.inj ht
  clear ht
  subst hu
  repeat' first
    | with_reducible assumption
    | with_reducible apply writeReq_keeps
    | with_reducible refine Keeps.ite (fun _ => ?_) (fun _ => ?_)
    | split
    | with_reducible exact Keeps.of_snd (by assumption) (by assumption)

theorem execOpenLoop_keeps (h : Half) (r : Req) (target : Half) (n : Nat) (hk : Keeps ex s0 s) : ∀ u, execOpenLoop h r target n s = .next u → Keeps ex s0 u := by
  intro u ht
  unfold execOpenLoop at ht
  have hu := Host.Outcome.next.inj ht
  clear ht
  subst hu
  repeat' first
    | with_reducible assumption
    | with_reducible apply writeReq_keeps
    | with_reducible refine Keeps.ite (fun _ => ?_) (fun _ => ?_)
    | split
    | with_reducible exact Keeps.of_snd (by assumption) (by assumption)

theorem execRejoin_keeps (h : Half) (r : Req) (target : Half) (hk : Keeps ex s0 s) : ∀ u, execRejoin h r target s = .next u → Keeps ex s0 u := by
  intro u ht
  unfold execRejoin at ht
  have hu := Host.Outcome.next.inj ht
  clear ht
  subst hu
  repeat' first
    | with_reducible assumption
    | with_reducible apply writeReq_keeps
    | with_reducible refine Keeps.ite (fun _ => ?_) (fun _ => ?_)
    | split
    | with_reducible exact Keeps.of_snd (by assumption) (by assumption)

theorem execHandover_keeps (h : Half) (r : Req) (target : Half) (hk : Keeps ex s0 s) : ∀ u, execHandover h r target s = .next u → Keeps ex s0 u := by
  intro u ht
  unfold execHandover at ht
  have hu := Host.Outcome.next.inj ht
  clear ht
  subst hu
  repeat' first
    | with_reducible assumption
    | with_reducible apply writeReq_keeps
    | with_reducible refine Keeps.ite (fun _ => ?_) (fun _ => ?_)
    | split
    | with_reducible exact Keeps.of_snd (by assumption) (by assumption)

theorem execHalfCmdResume_keeps (h : Half) (r : Req) (target : Half) (hk : Keeps ex s0 s) : ∀ u, execHalfCmdResume h r target s = .next u → Keeps ex s0 u := by
  intro u ht
  unfold execHalfCmdResume at ht
  have hu := Host.Outcome.next.inj ht
  clear ht
  subst hu
  repeat' first
    | with_reducible assumption
    | with_reducible apply writeReq_keeps
    | with_reducible refine Keeps.ite (fun _ => ?_) (fun _ => ?_)
    | split
    | with_reducible exact Keeps.of_snd (by assumption) (by assumption)

theorem execAttestNonce_keeps (h : Half) (r : Req) (target : Half) (nonce : List Byte) (hk : Keeps ex s0 s) : ∀ u, execAttestNonce h r target nonce s = .next u → Keeps ex s0 u := by
  intro u ht
  unfold execAttestNonce at ht
  have hu := Host.Outcome.next.inj ht
  clear ht
  subst hu
  repeat' first
    | with_reducible assumption
    | with_reducible apply writeReq_keeps
    | with_reducible refine Keeps.ite (fun _ => ?_) (fun _ => ?_)
    | split
    | with_reducible exact Keeps.of_snd (by assumption) (by assumption)

theorem execOwnerRecord_keeps (h : Half) (r : Req) (bs : List Byte) (hk : Keeps ex s0 s) : ∀ u, execOwnerRecord h r bs s = .next u → Keeps ex s0 u := by
  intro u ht
  unfold execOwnerRecord at ht
  have hu := Host.Outcome.next.inj ht
  clear ht
  subst hu
  repeat' first
    | with_reducible assumption
    | with_reducible apply writeReq_keeps
    | with_reducible refine Keeps.ite (fun _ => ?_) (fun _ => ?_)
    | split
    | with_reducible exact Keeps.of_snd (by assumption) (by assumption)

theorem execSettingsRecord_keeps (h : Half) (r : Req) (bs : List Byte) (hk : Keeps ex s0 s) : ∀ u, execSettingsRecord h r bs s = .next u → Keeps ex s0 u := by
  intro u ht
  unfold execSettingsRecord at ht
  have hu := Host.Outcome.next.inj ht
  clear ht
  subst hu
  repeat' first
    | with_reducible assumption
    | with_reducible apply writeReq_keeps
    | with_reducible refine Keeps.ite (fun _ => ?_) (fun _ => ?_)
    | split
    | with_reducible exact Keeps.of_snd (by assumption) (by assumption)

theorem execFwWrite_keeps (h : Half) (r : Req) (target : Half) (ofs : Nat) (bs : List Byte) (hk : Keeps ex s0 s) : ∀ u, execFwWrite h r target ofs bs s = .next u → Keeps ex s0 u := by
  intro u ht
  unfold execFwWrite at ht
  have hu := Host.Outcome.next.inj ht
  clear ht
  subst hu
  repeat' first
    | with_reducible assumption
    | with_reducible apply writeReq_keeps
    | with_reducible refine Keeps.ite (fun _ => ?_) (fun _ => ?_)
    | split
    | with_reducible exact Keeps.of_snd (by assumption) (by assumption)

theorem execErase_keeps (h : Half) (r : Req) (target : Half) (hk : Keeps ex s0 s) : ∀ u, execErase h r target s = .next u → Keeps ex s0 u := by
  intro u ht
  unfold execErase at ht
  have hu := Host.Outcome.next.inj ht
  clear ht
  subst hu
  repeat' first
    | with_reducible assumption
    | with_reducible apply writeReq_keeps
    | with_reducible refine Keeps.ite (fun _ => ?_) (fun _ => ?_)
    | split
    | with_reducible exact Keeps.of_snd (by assumption) (by assumption)

theorem execVerify_keeps (h : Half) (r : Req) (target : Half) (hk : Keeps ex s0 s) : ∀ u, execVerify h r target s = .next u → Keeps ex s0 u := by
  intro u ht
  unfold execVerify at ht
  have hu := Host.Outcome.next.inj ht
  clear ht
  subst hu
  repeat' first
    | with_reducible assumption
    | with_reducible apply writeReq_keeps
    | with_reducible refine Keeps.ite (fun _ => ?_) (fun _ => ?_)
    | split
    | with_reducible exact Keeps.of_snd (by assumption) (by assumption)

theorem execActivate_keeps (h : Half) (r : Req) (target : Half) (hk : Keeps ex s0 s) : ∀ u, execActivate h r target s = .next u → Keeps ex s0 u := by
  intro u ht
  unfold execActivate at ht
  have hu := Host.Outcome.next.inj ht
  clear ht
  subst hu
  repeat' first
    | with_reducible assumption
    | with_reducible apply writeReq_keeps
    | with_reducible refine Keeps.ite (fun _ => ?_) (fun _ => ?_)
    | split
    | with_reducible exact Keeps.of_snd (by assumption) (by assumption)

theorem execCommitSvn_keeps (h : Half) (r : Req) (target : Half) (hk : Keeps ex s0 s) : ∀ u, execCommitSvn h r target s = .next u → Keeps ex s0 u := by
  intro u ht
  unfold execCommitSvn at ht
  have hu := Host.Outcome.next.inj ht
  clear ht
  subst hu
  repeat' first
    | with_reducible assumption
    | with_reducible apply writeReq_keeps
    | with_reducible refine Keeps.ite (fun _ => ?_) (fun _ => ?_)
    | split
    | with_reducible exact Keeps.of_snd (by assumption) (by assumption)

theorem execLoad_keeps (h : Half) (r : Req) (target : Half) (hk : Keeps ex s0 s) : ∀ u, execLoad h r target s = .next u → Keeps ex s0 u := by
  intro u ht
  unfold execLoad at ht
  have hu := Host.Outcome.next.inj ht
  clear ht
  subst hu
  repeat' first
    | with_reducible assumption
    | with_reducible apply writeReq_keeps
    | with_reducible refine Keeps.ite (fun _ => ?_) (fun _ => ?_)
    | split
    | with_reducible exact Keeps.of_snd (by assumption) (by assumption)

theorem execUnload_keeps (h : Half) (r : Req) (target : Half) (hk : Keeps ex s0 s) : ∀ u, execUnload h r target s = .next u → Keeps ex s0 u := by
  intro u ht
  unfold execUnload at ht
  have hu := Host.Outcome.next.inj ht
  clear ht
  subst hu
  repeat' first
    | with_reducible assumption
    | with_reducible apply writeReq_keeps
    | with_reducible refine Keeps.ite (fun _ => ?_) (fun _ => ?_)
    | split
    | with_reducible exact Keeps.of_snd (by assumption) (by assumption)

theorem execOpRequest_keeps (h : Half) (r : Req) (target : Half) (p : Nat) (hk : Keeps ex s0 s) : ∀ u, execOpRequest h r target p s = .next u → Keeps ex s0 u := by
  intro u ht
  unfold execOpRequest at ht
  have hu := Host.Outcome.next.inj ht
  clear ht
  subst hu
  repeat' first
    | with_reducible assumption
    | with_reducible apply writeReq_keeps
    | with_reducible refine Keeps.ite (fun _ => ?_) (fun _ => ?_)
    | split
    | with_reducible exact Keeps.of_snd (by assumption) (by assumption)

theorem execPowerReqRun_keeps (h : Half) (r : Req) (target : Half) (hk : Keeps ex s0 s) : ∀ u, execPowerReqRun h r target s = .next u → Keeps ex s0 u := by
  intro u ht
  unfold execPowerReqRun at ht
  have hu := Host.Outcome.next.inj ht
  clear ht
  subst hu
  repeat' first
    | with_reducible assumption
    | with_reducible apply writeReq_keeps
    | with_reducible refine Keeps.ite (fun _ => ?_) (fun _ => ?_)
    | split
    | with_reducible exact Keeps.of_snd (by assumption) (by assumption)

theorem execPowerReqIdle_keeps (h : Half) (r : Req) (target : Half) (hk : Keeps ex s0 s) : ∀ u, execPowerReqIdle h r target s = .next u → Keeps ex s0 u := by
  intro u ht
  unfold execPowerReqIdle at ht
  have hu := Host.Outcome.next.inj ht
  clear ht
  subst hu
  repeat' first
    | with_reducible assumption
    | with_reducible apply writeReq_keeps
    | with_reducible refine Keeps.ite (fun _ => ?_) (fun _ => ?_)
    | split
    | with_reducible exact Keeps.of_snd (by assumption) (by assumption)

theorem execPowerReqNap_keeps (h : Half) (r : Req) (target : Half) (hk : Keeps ex s0 s) : ∀ u, execPowerReqNap h r target s = .next u → Keeps ex s0 u := by
  intro u ht
  unfold execPowerReqNap at ht
  have hu := Host.Outcome.next.inj ht
  clear ht
  subst hu
  repeat' first
    | with_reducible assumption
    | with_reducible apply writeReq_keeps
    | with_reducible refine Keeps.ite (fun _ => ?_) (fun _ => ?_)
    | split
    | with_reducible exact Keeps.of_snd (by assumption) (by assumption)

theorem execStandbyReq_keeps (h : Half) (r : Req) (hk : Keeps ex s0 s) : ∀ u, execStandbyReq h r s = .next u → Keeps ex s0 u := by
  intro u ht
  unfold execStandbyReq at ht
  have hu := Host.Outcome.next.inj ht
  clear ht
  subst hu
  repeat' first
    | with_reducible assumption
    | with_reducible apply writeReq_keeps
    | with_reducible refine Keeps.ite (fun _ => ?_) (fun _ => ?_)
    | split
    | with_reducible exact Keeps.of_snd (by assumption) (by assumption)

end Sys2Proof.Machine
end

