-- ==== Sys2Proof/Laws/Report.lean ====
section
/-! SUPPORT. All that a report does: a signalled vector or a recorded observation touches the recorders, the pending bits of MSI-X, the lost-record count and the outputs (R269, R423 to R429). -/
namespace Sys2Proof.Machine

/-- `x` with the fields a report may touch taken from `y`. -/
def reportHalf (x y : HalfState) : HalfState :=
  { x with recorder := y.recorder, recMirror := y.recMirror, host := { x.host with msixPending := y.host.msixPending } }

/-- `t` differs from `s` only by a report of half `h`. -/
structure Reported (h : Half) (s t : State) : Prop where
  whole : t = { s with dict := t.dict, outbox := t.outbox, bow := reportHalf s.bow t.bow, stern := reportHalf s.stern t.stern }
  num : ∀ i j, dkey i j ≠ dkey (hk8 h 0x3000) 6 → t.num i j = s.num i j
  outbox : s.outbox <+: t.outbox

variable {h : Half} {s t u : State}

theorem Reported.rfl : Reported h s s := ⟨by cases s; simp [reportHalf], fun _ _ _ => Eq.refl _, List.prefix_rfl⟩

theorem Reported.trans (a : Reported h s t) (b : Reported h t u) : Reported h s u := by
  refine ⟨?_, fun i j hij => (b.num i j hij).trans (a.num i j hij), a.outbox.trans b.outbox⟩
  have ha := a.whole
  have hb := b.whole
  rw [hb]
  rw [ha]
  simp [reportHalf]

theorem Reported.mem (a : Reported h s t) : t.mem = s.mem := by rw [a.whole]
theorem Reported.byte (a : Reported h s t) (j : Nat) : t.byte j = s.byte j := by simp only [State.byte, a.mem]
theorem Reported.half (a : Reported h s t) (g : Half) : t.half g = reportHalf (s.half g) (t.half g) := by
  cases g
  · exact congrArg State.bow a.whole
  · exact congrArg State.stern a.whole
theorem Reported.core (a : Reported h s t) (g : Half) (c : Nat) : t.core g c = s.core g c := by
  simp only [State.core]; rw [a.half g]; rfl
theorem Reported.ctx (a : Reported h s t) (g : Half) (n : Nat) : t.ctx g n = s.ctx g n := by
  simp only [State.ctx]; rw [a.half g]; rfl
theorem Reported.quay (a : Reported h s t) (g : Half) (q : Nat) : t.quay g q = s.quay g q := by
  simp only [State.quay]; rw [a.half g]; rfl

theorem modHalf_reported (f : HalfState → HalfState) (g : Half) (hf : f (s.half g) = reportHalf (s.half g) (f (s.half g))) :
    Reported h s (s.modHalf g f) := by
  refine ⟨?_, fun i j _ => by simp, by simp⟩
  cases s
  cases g <;> (simp only [State.modHalf, State.setHalf, State.half] at *; rw [hf]; simp [reportHalf])

theorem msix_reported (v : Nat) : Reported h s (s.msix h v) := by
  unfold State.msix
  extract_lets x
  split
  · exact Reported.rfl
  · split
    · exact modHalf_reported _ _ (Eq.refl _)
    · exact ⟨by cases s; simp [State.emit, reportHalf], fun _ _ _ => Eq.refl _, List.prefix_append _ _⟩

theorem recMirrored_reported : Reported h s (s.recMirrored h) := by
  unfold State.recMirrored
  split
  · exact modHalf_reported _ _ (Eq.refl _)
  · exact Reported.rfl

theorem recWrite_reported (a : RAcc) : Reported h s (s.recWrite h a) := by
  unfold State.recWrite
  exact ((modHalf_reported _ _ (Eq.refl _)).trans recMirrored_reported).trans (msix_reported 4)

theorem lost_reported (n : Nat) : Reported h s (s.bump (hk8 h 0x3000) 6 n) :=
  ⟨by cases s; simp [State.bump, State.setNum, reportHalf], fun i j hij => num_setNum_ne s _ _ i j _ hij, List.prefix_rfl⟩

/-- An observation is a report (R423, R424). -/
theorem observe_reported (kind scope unit key bin : Nat) (ext : Option Int) : Reported h s (s.observe h kind scope unit key bin ext) := by
  unfold State.observe
  extract_lets now one
  split
  · exact recWrite_reported _
  · split
    · split
      · exact (modHalf_reported _ _ (Eq.refl _)).trans (recWrite_reported _)
      · exact modHalf_reported _ _ (Eq.refl _)
    · split
      · exact modHalf_reported _ _ (Eq.refl _)
      · exact ((modHalf_reported _ _ (Eq.refl _)).trans (recWrite_reported _)).trans (lost_reported _)

end Sys2Proof.Machine
end

