-- ==== Sys2Proof/Laws/SafeState.lean ====
section
/-! SUPPORT. What entering safe state does (R389). -/
namespace Sys2Proof.Machine

/-- What the reports and messages of a half entering safe state leave as it was. -/
structure SafeStep (h : Half) (s t : State) : Prop where
  mem : t.mem = s.mem
  ctxs : (t.half h).ctxs = (s.half h).ctxs
  cores : (t.half h).cores = (s.half h).cores
  queues : (t.half h).queues = (s.half h).queues
  tt : (t.half h).tt = (s.half h).tt
  gate : (t.half h).safety.gateClosed = (s.half h).safety.gateClosed
  faultN : (s.half h).faultN = true → (t.half h).faultN = true
  flash : (t.half h).flash = (s.half h).flash
  boot : (t.half h).boot = (s.half h).boot
  wf : StoresWf s → StoresWf t
  num : ∀ i j, dkey i j ≠ dkey (hk8 h 0x3000) 6 → t.num i j = s.num i j

variable {h : Half} {s t u : State}

theorem SafeStep.rfl : SafeStep h s s :=
  ⟨Eq.refl _, Eq.refl _, Eq.refl _, Eq.refl _, Eq.refl _, Eq.refl _, id, Eq.refl _, Eq.refl _, id, fun _ _ _ => Eq.refl _⟩

theorem SafeStep.trans (a : SafeStep h s t) (b : SafeStep h t u) : SafeStep h s u :=
  ⟨b.mem.trans a.mem, b.ctxs.trans a.ctxs, b.cores.trans a.cores, b.queues.trans a.queues, b.tt.trans a.tt,
    b.gate.trans a.gate, fun x => b.faultN (a.faultN x), b.flash.trans a.flash, b.boot.trans a.boot, fun x => b.wf (a.wf x),
    fun i j hij => (b.num i j hij).trans (a.num i j hij)⟩

theorem Reported.safe (a : Reported h s t) (hk : Keeps none s t) : SafeStep h s t := by
  have e : t.half h = reportHalf (s.half h) (t.half h) := a.half h
  refine ⟨a.mem, ?_, ?_, ?_, ?_, ?_, fun x => hk.faultN h nofun x, ?_, ?_, hk.wf, a.num⟩ <;> (rw [e]; rfl)

theorem emit_safe (o : Output) : SafeStep h s (s.emit o) :=
  ⟨Eq.refl _, rfl, rfl, rfl, rfl, rfl, id, rfl, rfl, fun w => ⟨w.mem, w.dict, w.dictBytes, w.bow, w.stern⟩, fun _ _ _ => Eq.refl _⟩

theorem faultN_safe : SafeStep h s (s.modHalf h (fun x => { x with faultN := true })) :=
  ⟨by cases h <;> rfl, by cases h <;> rfl, by cases h <;> rfl, by cases h <;> rfl, by cases h <;> rfl, by cases h <;> rfl,
    fun _ => by cases h <;> rfl, by cases h <;> rfl, by cases h <;> rfl,
    fun w => (modHalf_keeps (ex := none) (s := s) h (fun x => { x with faultN := true }) Keeps.rfl fun x => ⟨fun _ => Eq.refl _, id⟩).wf w, fun i j _ => by cases h <;> rfl⟩

theorem assertFaultN_safe : SafeStep h s (s.assertFaultN h) ∧ ((s.assertFaultN h).half h).faultN = true := by
  unfold State.assertFaultN
  split
  · exact ⟨SafeStep.rfl, by assumption⟩
  · have h1 := (faultN_safe (s := s) (h := h)).trans (emit_safe (.sideband h 2 (s.now h).toNat))
    have h2 := Reported.safe (msix_reported (h := h)
      (s := (s.modHalf h (fun x => { x with faultN := true })).emit (.sideband h 2 (s.now h).toNat)) 0) (msix_keeps _ _ Keeps.rfl)
    exact ⟨h1.trans h2, h2.faultN (by cases h <;> rfl)⟩

/-- A half entering safe state signals vector 0 and has `FAULT_N` asserted (R269, R389). -/
theorem signal_safe : SafeStep h s (if (s.half h).faultN then s.msix h 0 else s.assertFaultN h)
    ∧ ((if (s.half h).faultN then s.msix h 0 else s.assertFaultN h).half h).faultN = true := by
  split
  · next hf => exact ⟨Reported.safe (msix_reported 0) (msix_keeps _ _ Keeps.rfl), (Reported.safe (msix_reported 0) (msix_keeps _ _ Keeps.rfl)).faultN hf⟩
  · exact assertFaultN_safe

theorem putSafeCan_safe (c : Nat) (about : Half) (f : CanFrame) : SafeStep h s (putSafeCan s h c about f) := by
  unfold putSafeCan
  split
  · exact SafeStep.rfl
  · exact ⟨by cases h <;> rfl, by cases h <;> rfl, by cases h <;> rfl, by cases h <;> rfl, by cases h <;> rfl, by cases h <;> rfl,
      fun x => by cases h <;> exact x, by cases h <;> rfl, by cases h <;> rfl,
      fun w => (setCan_keeps (ex := none) (s := s) h c _ Keeps.rfl).wf w, fun i j _ => by cases h <;> rfl⟩

theorem putSafeEth_safe (bs : List Byte) (t : Time) (p : Nat) : SafeStep h s (putSafeEth h bs t s p) := by
  unfold putSafeEth
  split
  · exact ⟨by cases h <;> rfl, by cases h <;> rfl, by cases h <;> rfl, by cases h <;> rfl, by cases h <;> rfl, by cases h <;> rfl,
      fun x => by cases h <;> exact x, by cases h <;> rfl, by cases h <;> rfl,
      fun w => by cases h <;> exact ⟨w.mem, w.dict, w.dictBytes, w.bow, w.stern⟩, fun i j _ => by cases h <;> rfl⟩
  · exact SafeStep.rfl

theorem safetyMessage_safe (about : Half) (proxy : Bool) (cause : Nat) (t : Time) :
    SafeStep h s (s.safetyMessage h about proxy cause t) := by
  unfold State.safetyMessage
  split
  · exact SafeStep.rfl
  · extract_lets alive bs u v
    have h1 : SafeStep h s u :=
      ⟨by cases h <;> rfl, by cases h <;> rfl, by cases h <;> rfl, by cases h <;> rfl, by cases h <;> rfl, by cases h <;> rfl,
        fun x => by cases h <;> exact x, by cases h <;> rfl, by cases h <;> rfl,
        fun w => (modHalf_keeps (ex := none) (s := s) h (fun x => { x with safety := { x.safety with alive := (x.safety.alive + 1) % 256 } }) Keeps.rfl
          fun x => ⟨id, id⟩).wf w, fun i j _ => by cases h <;> rfl⟩
    have h2 : SafeStep h s v := h1.trans (putSafeCan_safe _ _ _)
    have hf : ∀ (l : List Nat) (bs : List Byte) (t : Time) (w : State), SafeStep h s w → SafeStep h s (l.foldl (putSafeEth h bs t) w) := by
      intro l bs t
      induction l with
      | nil => exact fun w hw => hw
      | cons p ps ih => exact fun w hw => ih _ (hw.trans (putSafeEth_safe _ _ _))
    exact hf _ _ _ _ h2

/-- Entering safe state (R389): for a half that is not yet out of service and whose firmware is not in trial. -/
theorem enterSafe_entered (cause : Nat) (hw : StoresWf s) (h4 : s.halfState h ≠ 4) (h5 : s.halfState h ≠ 5) (ht : inTrial s h = false) :
    SafeEntered s (s.enterSafe h cause) h cause
    ∧ ∀ i j, dkey i j ≠ dkey (hk8 h 0x3000) 6 → dkey i j ≠ dkey (hk h 0x4B00) 1 → dkey i j ≠ dkey (hk h 0x4B00) 2 →
        dkey i j ≠ dkey (hk h 0x4B00) 3 → (s.enterSafe h cause).num i j = s.num i j := by
  unfold State.enterSafe
  rw [if_neg (by rintro (x | x) <;> contradiction)]
  extract_lets now a b c d e
  have ha : StoresWf a := (modHalf_keeps (ex := none) (s := s) h
    (fun x => { x with safety := { x.safety with gateClosed := true, digesting := false } }) Keeps.rfl fun x => ⟨id, id⟩).wf hw
  have hb1 := (setNum_keeps (ex := none) (s := a) (hk h 0x4B00) 1 4 Keeps.rfl).wf ha
  have hb2 := (setNum_keeps (ex := none) (s := a.setNum (hk h 0x4B00) 1 4) (hk h 0x4B00) 2 cause Keeps.rfl).wf hb1
  have hb : StoresWf b := (setNum_keeps (ex := none) (hk h 0x4B00) 3 now.toNat Keeps.rfl).wf hb2
  have hce := ((signal_safe (s := b) (h := h)).1.trans (Reported.safe (observe_reported 14 1 0xFF cause (linBin 4 0) none)
    (observe_keeps _ _ _ _ _ _ _ Keeps.rfl))).trans (safetyMessage_safe (s := d) h false cause now)
  have hfn : (e.half h).faultN = true :=
    (Reported.safe (observe_reported (s := c) 14 1 0xFF cause (linBin 4 0) none) (observe_keeps _ _ _ _ _ _ _ Keeps.rfl)).trans
      (safetyMessage_safe (s := d) h false cause now) |>.faultN signal_safe.2
  have hbh : (b.half h) = { s.half h with safety := { (s.half h).safety with gateClosed := true, digesting := false } } := by
    cases h <;> rfl
  have htr : inTrial e h = false := by
    rw [← ht]; simp only [inTrial]; rw [hce.flash, hce.boot, hbh]
  rw [if_neg (by rw [htr]; nofun)]
  have k1 : dkey (hk h 0x4B00) 1 ≠ dkey (hk8 h 0x3000) 6 := by cases h <;> decide
  have k2 : dkey (hk h 0x4B00) 2 ≠ dkey (hk8 h 0x3000) 6 := by cases h <;> decide
  have k3 : dkey (hk h 0x4B00) 3 ≠ dkey (hk8 h 0x3000) 6 := by cases h <;> decide
  have k12 : dkey (hk h 0x4B00) 1 ≠ dkey (hk h 0x4B00) 2 := by cases h <;> decide
  have k13 : dkey (hk h 0x4B00) 1 ≠ dkey (hk h 0x4B00) 3 := by cases h <;> decide
  have k23 : dkey (hk h 0x4B00) 2 ≠ dkey (hk h 0x4B00) 3 := by cases h <;> decide
  refine ⟨⟨?_, ?_, ?_, hfn, ?_, ?_, ?_, ?_, ?_⟩, ?_⟩
  · rw [State.halfState, hce.num _ _ k1, num_setNum_ne _ _ _ _ _ _ k13, num_setNum_ne _ _ _ _ _ _ k12, num_setNum_same _ _ _ _ ha.dict]
  · rw [hce.num _ _ k2, num_setNum_ne _ _ _ _ _ _ k23, num_setNum_same _ _ _ _ hb1.dict]
  · rw [hce.num _ _ k3, num_setNum_same _ _ _ _ hb2.dict]
  · rw [hce.gate, hbh]
  · rw [hce.ctxs, hbh]
  · rw [hce.cores, hbh]
  · rw [hce.queues, hbh]
  · rw [hce.mem]; cases h <;> rfl
  · intro i j hij h1 h2 h3
    rw [hce.num _ _ hij, num_setNum_ne _ _ _ _ _ _ h3, num_setNum_ne _ _ _ _ _ _ h2, num_setNum_ne _ _ _ _ _ _ h1]
    cases h <;> rfl

end Sys2Proof.Machine
end

