-- ==== Sys2Proof/WellFormed.lean ====
section
/-! DEFINITION. Which commands have operands that the spec's numbering allows. -/
namespace Sys2Proof

/-- Logical cores of a half, at most (R2). -/
def coreOk (c : Nat) : Bool := decide (c < 96)
/-- Queues of a half (R204). -/
def queueOk (q : Nat) : Bool := decide (q < 131072)
/-- Contexts of a half (R218). -/
def contextOk (n : Nat) : Bool := decide (n < 4096)
/-- DRAM channels of a half (R247). -/
def channelOk (c : Nat) : Bool := decide (c < 24)
/-- Control loops of a half (R330). -/
def loopOk (n : Nat) : Bool := decide (n < 8)
/-- CAN controllers of a half (R346). -/
def canOk (c : Nat) : Bool := decide (c < 4)
/-- CSI-2 ports of a half (R317). -/
def csiOk (p : Nat) : Bool := decide (p < 12)
/-- Virtual channels of CSI-2 (R317). -/
def vcOk (v : Nat) : Bool := decide (v < 16)
/-- Switch ports of a half (R307). -/
def switchOk (p : Nat) : Bool := decide (p < 7)
/-- Traffic classes (R312). -/
def classOk (c : Nat) : Bool := decide (c < 8)
/-- Trigger outputs and capture inputs of a half (R327, R328). -/
def edgeOk (k : Nat) : Bool := decide (k < 16)
/-- A requester: a CAN client and `TRANS_ID` of a byte, a UDP source, a mailbox (R411 to R413). -/
def reqOk : Req → Bool
  | .can client tr => decide (client < 8) && decide (tr < 256)
  | .udp addr port tr => decide (addr < 2 ^ 32) && decide (port < 2 ^ 16) && decide (tr < 2 ^ 32)
  | .bar0 mb => decide (mb < 64)
/-- A program's core or host software. -/
def srcOk : Src → Bool
  | .core c => coreOk c
  | .host => true
/-- A link message's fields fit the header of R280. -/
def linkMsgOk (m : LinkMsg) : Bool :=
  decide (m.addr < 2 ^ 48) && decide (m.tag < 2 ^ 16) && decide (1 ≤ m.lines ∧ m.lines ≤ 32) && decide (m.cls < 4)
/-- A CAN frame of ISO 11898-1 (R348). -/
def canFrameOk (f : CanFrame) : Bool :=
  decide (f.format < 3) && decide (f.id < 2 ^ 29)
  && decide (f.data.length ≤ (if f.format = 0 then 8 else if f.format = 1 then 64 else 2048))
/-- Bytes of an access that starts at `ofs` end by `top`. -/
def spanOk (ofs n top : Nat) : Bool := decide (0 < n) && decide (ofs + n ≤ top)

/-- The operands are ones the spec's numbering allows. `exec` needs no such premise (DESIGN CHOICE, log 1). -/
def Instr.wellFormed : Instr → Bool
  | .move _ c _ | .s2c2 _ c _ | .s2c4 _ c _ | .c2s2 _ c _ | .c2s4 _ c _ | .fill _ c _ | .loadw _ c _ | .stream _ c _ => coreOk c
  | .conv _ c _ | .attn _ c _ => coreOk c
  | .crop _ c _ | .pool _ c _ | .vec _ c _ | .semAcquire _ c _ | .semRelease _ c _ | .gate _ c _ | .moor _ c _ | .tally _ c _ => coreOk c
  | .endCmd _ c _ => coreOk c
  | .requantiseTile _ c | .contextSaveDone _ c | .contextRestore _ c | .rollPassEnd _ c | .coreHandover _ c => coreOk c
  | .gateOpen _ c _ | .springDue _ c _ | .springLate _ c _ => coreOk c
  | .commandComplete _ c _ | .lbistEnd _ c _ | .hostCplTimeout _ c _ _ | .springSegmentDone _ c _ _ _ => coreOk c
  | .doorbell _ src ofs bs => srcOk src && spanOk ofs bs.length 0x100000
  | .quayDescriptorWrite _ q ofs bs => queueOk q && spanOk ofs bs.length 24
  | .contextEntryWrite _ n ofs bs => contextOk n && spanOk ofs bs.length 32
  | .contextRunnable _ n _ => contextOk n
  | .completionRecord _ q => queueOk q
  | .swapDrain _ cl => decide (cl < 12)
  | .abort _ src _ | .step _ src _ | .propose _ src _ | .accept _ src _ | .append _ src _ | .finish _ src _ => srcOk src
  | .resume _ src _ | .release _ src _ => srcOk src
  | .perBankRefresh _ ch bank | .rfm _ ch bank => channelOk ch && decide (bank < 16)
  | .retraining _ ch _ => channelOk ch
  | .patrolScrub _ g _ => decide (g < 4)
  | .bar4Write _ ofs bs => spanOk ofs bs.length (2 ^ 36)
  | .bar4Read _ ofs n => spanOk ofs n (2 ^ 36)
  | .bar0Write _ ofs bs => spanOk ofs bs.length (2 ^ 25)
  | .configurationRequest _ _ ofs bs => spanOk ofs bs.length 4096
  | .msixUnmask _ v => decide (v < 2048)
  | .rdReq _ _ m | .rdData _ _ m | .wr _ _ m | .wrAck _ _ m | .or8 _ _ m | .orAck _ _ m => linkMsgOk m
  | .counter _ m | .counterAck _ m => linkMsgOk m
  | .trainingDone _ _ dev _ => decide (dev < 4)
  | .sync _ p _ _ | .syncSend _ p _ | .pdelay _ p _ _ _ _ => switchOk p
  | .announce _ p _ => switchOk p
  | .frameIngress _ p bs _ _ => switchOk p && decide (14 ≤ bs.length)
  | .txDescriptorTake _ tc _ | .launch _ tc _ => classOk tc
  | .gclCycleStart _ p _ => switchOk p
  | .frerReset _ e => decide (e < 64)
  | .frameStart _ p vc _ _ _ => csiOk p && vcOk vc
  | .line _ p vc dt _ _ _ _ => csiOk p && vcOk vc && decide (dt < 64)
  | .embeddedData _ p vc _ _ _ | .frameEnd _ p vc _ _ => csiOk p && vcOk vc
  | .frameTimeout _ p v _ => csiOk p && decide (v < 4)
  | .triggerInstant _ k _ | .triggerPulseEnd _ k _ | .captureEdge _ k _ _ => edgeOk k
  | .close _ r _ n | .openLoop _ r _ n => reqOk r && loopOk n
  | .closeFail _ n _ | .following _ n => loopOk n
  | .canReceive _ c f _ => canOk c && canFrameOk f
  | .canTxTake _ c _ | .canTransmit _ c _ => canOk c
  | .arbitrationLost _ c cause _ => canOk c && decide (1 ≤ cause ∧ cause ≤ 6)
  | .busOffRecovery _ c | .abdDwell _ c | .controllerChange _ c => canOk c
  | .stepAccept _ r _ | .rejoin _ r _ | .handover _ r _ | .halfCmdResume _ r _ => reqOk r
  | .read _ r msg | .write _ r msg | .describe _ r msg => reqOk r && decide (12 ≤ msg.length)
  | .canSegment _ client bs => decide (client < 8) && decide (2 ≤ bs.length ∧ bs.length ≤ 2048)
  | .udpDatagram _ addr port _ => decide (addr < 2 ^ 32) && decide (port < 2 ^ 16)
  | .mailboxGo _ mb _ => decide (mb < 64)
  | .begin _ r | .rollback _ r | .recClear _ r _ _ | .attestNonce _ r _ _ => reqOk r
  | .commit _ r _ => reqOk r
  | .ownerRecord _ r _ | .settingsRecord _ r _ | .standbyReq _ r => reqOk r
  | .fwWrite _ r _ ofs bs => reqOk r && decide (ofs + bs.length ≤ 0x2000000)
  | .erase _ r _ | .verify _ r _ | .activate _ r _ | .commitSvn _ r _ | .load _ r _ | .unload _ r _ => reqOk r
  | .powerReqRun _ r _ | .powerReqIdle _ r _ | .powerReqNap _ r _ => reqOk r
  | .opRequest _ r _ p => reqOk r && decide (p ≤ 2)
  | .recordEmit _ i _ => decide (i < 64)
  | .supplyFault _ rail => decide (rail < 4)
  | .dispatchChoice _ | .pageReturn _ | .hdPerstN _ | .linkDown _ | .linkUp _ | .halfState _ | .hostAlive _ _ => true
  | .hostHeartbeatMiss _ | .hdPerstNRelease _ | .adapterRetry _ | .dict _ | .frame _ _ => true
  | .nak _ _ seq | .flitCrcFailure _ _ seq => decide (seq < 1024)
  | .heartbeatSend _ _ _ | .heartbeat _ _ | .heartbeatMiss _ _ | .timeSend _ _ | .time _ _ | .retrain _ _ | .retrainDone _ _ _ => true
  | .syncReceiptTimeout _ | .announceReceiptTimeout _ | .stepApply _ | .safetyFrame _ _ => true
  | .sample _ hits _ => hits.all (fun p => loopOk p.1 && decide (p.2 < 2))
  | .safetyFrameFallback _ _ | .lockstepCe _ _ | .lockstepSm _ _ | .clockDrift _ _ | .safetyMessageRepeat _ _ => true
  | .peerFaultN _ _ | .lifeboatDigestDone _ _ | .mirrorApply _ | .commitBoundary _ | .commitFrameTimeout _ | .txnTimeout _ => true
  | .resetRelease _ | .firstStageVerified _ | .mainFirmwareStart _ | .attestReport _ _ | .fwTrialTimeout _ | .loadDone _ => true
  | .opChange _ _ | .vrAck _ _ | .vrTimeout _ _ | .thermalSample _ _ _ | .throttle _ _ | .idleEntry _ _ | .napEntryDone _ _ => true
  | .dWake | .canWake _ | .suppliesApplied _ | .resetNAssert _ | .dramZeroWrite _ | .ready3 _ _ | .startupBoundMiss _ => true
  | .napWakeDone _ _ | .boundaryScan _ _ _ => true

end Sys2Proof
end

