-- ==== Sys2Proof/Tests/Slice0.lean ====
section
/-! SUPPORT. Tests: for each statement a witness of its hypotheses, and small results taken from the spec's rules; ill-formed operands. -/
namespace Sys2Proof.Tests
set_option Elab.async false
open Sys2Proof.Machine

/-- A half in service. -/
def halfOn : HalfState :=
  { halfReset with
    faultN := false, peer := 0, ready := 3, ferry := { linkDown with state := .active }
    host := { hostReset with perst := false, linkUp := true, cfgDone := true, busMaster := true, memEnable := true, msixEnable := true }
    power := { powerReset with resetN := false, cold := false }
    boot := ⟨3, 0, [], none⟩ }

/-- Set number entries: (index, sub-index, value). -/
def nums (s : State) (l : List (Nat × Nat × Nat)) : State := l.foldl (fun (s : State) e => s.setNum e.1 e.2.1 e.2.2) s

/-- Both halves in service. -/
def on : State := nums { State.reset with bow := halfOn, stern := halfOn }
  [(0x4B00, 1, 1), (0x6B00, 1, 1), (0x4D00, 8, 0), (0x6D00, 8, 0), (0x2600, 1, 0)]

/-- The state after a command. -/
def after (i : Instr) (s : State) : State := match exec i s with
  | .next t => t
  | _ => s

/-- The canonical form as one decidable statement. -/
theorem wf_by {s : State} (h : Memory.wf s.mem = true ∧ Tab.sortedFrom none s.dict = true ∧ Tab.sortedFrom none s.dictBytes = true
    ∧ TablesWf s.bow ∧ TablesWf s.stern) : StoresWf s := ⟨h.1, h.2.1, h.2.2.1, h.2.2.2.1, h.2.2.2.2⟩

/-! ### Queues -/

def sQ : State := on.setQuay .bow 5 { quayReset with en := true, tail := 2, head := 1 }

theorem test_witness_Doorbell :
    (srcCtx sQ .bow .host).isSome = true ∧ powerState sQ .bow ≠ 1 ∧ (sQ.quay .bow 5).en = true ∧ (sQ.quay .bow 6).en = false
    ∧ fld 0x50011 31 16 = 5 ∧ fld 0x50011 63 32 = 0 ∧ (17 + 65536 - 1) % 65536 ≤ 2 ^ (sQ.quay .bow 5).ringLog2
    ∧ powerState (sQ.setNum 0x4D00 8 1) .bow = 1 ∧ (natLe 8 0x50011).length = 8 ∧ (natLe 4 0).length ≠ 8 := by decide +kernel
theorem test_doorbell_accepted :
    after (.doorbell .bow .host 40 (natLe 8 0x50011)) sQ = sQ.setQuay .bow 5 { quayReset with en := true, tail := 17, head := 1 } := by decide +kernel
theorem test_doorbell_range : ((after (.doorbell .bow .host 40 (natLe 8 0x50012)) sQ).quay .bow 5).err = 10
    ∧ (after (.doorbell .bow .host 44 (natLe 4 0)) sQ).bow.recorder.accs.map (·.key) = [5] := by decide +kernel

def pc0 : PerCore := ⟨false, 0, 0x300000, 0x100, 0, (List.range 64).map (fun t => t * 64 + 63 * 65536)⟩
def prog7 : Prog := ⟨7, 0, 0, 0x400000, [], [pc0]⟩
/-- A ticket for program 7 with its argument block at 0x200000. -/
def word7 : Nat := 9 + 2 ^ 32 * 7 + 2 ^ 64 * 0x200000
def sD : State :=
  ((on.setQuay .bow 5 { quayReset with en := true, tail := 1, cls := 0, context := 3, tring := 0x100000 }).modHalf .bow (fun x => { x with
    ctxs := [(3, { ctxReset with en := true, cls := 0, saveMib := 1 })], progs := [prog7] })).write 0x100000 (natLe 64 word7)
def tk7 : Ticket := ⟨5, 0, 9, 7, 0, false, upto 64 (fun i => 0x1000000 * (i + 1)), prog7⟩
/-- Context 3 runs on core 0 of the Bow half. -/
def sRun : State :=
  on.modHalf .bow (fun x => { x with
    progs := [prog7]
    ctxs := [(3, { ctxReset with en := true, cls := 0, state := .running, ticket := some tk7, startT := some 8 })]
    cores := [(0, { coreFree with ctx := some 3, streamBase := 0x300000, streamLen := 0x100, tags := pc0.tags, args := tk7.args })] })
def sP : State :=
  sRun.modHalf .bow (fun x => { x with
    cores := [], ctxs := [(3, { ctxReset with en := true, cls := 0, state := .placing, want := [0], ticket := some tk7, startT := some 8 })] })

theorem test_witness_DispatchChoice :
    (dispatcherOn sD .bow = true ∧ (placingBusy sD .bow 0 = false ∧ resumable sD .bow 0 = []) ∧ chooseQueue sD .bow 0 = some 5
    ∧ (sD.half .bow).cores = [] ∧ (sD.quay .bow 5).context = 3 ∧ (sD.quay .bow 5).cls = 0 ∧ (sD.ctx .bow 3).cls = 0
    ∧ (sD.ctx .bow 3).state = .idle ∧ (sD.quay .bow 5).aborts = [] ∧ ringReach sD .bow 0x100000 64 = true
    ∧ inMemory sD 0x100000 = true ∧ engineNat sD .bow 0x100000 64 = word7 ∧ ticketBad word7 0 = false ∧ fld word7 197 194 = 0
    ∧ resolveProg sD .bow (fld word7 63 32) = some prog7 ∧ progCores .bow prog7 = [0] ∧ 1 ≤ (sD.ctx .bow 3).saveMib
    ∧ coreRetired sD .bow 0 = false ∧ engineReach sD (fld word7 111 64) 512 = true ∧ progNames .stern prog7 = false)
    ∧ cleanMem sD ∧ StoresWf sD ∧ ∀ cl, (residents sD .bow cl).length < 16 := by
  refine ⟨by decide +kernel, ⟨rfl, rfl, rfl⟩, wf_by (by decide +kernel), fun cl => ?_⟩
  have h : (sD.half .bow).ctxs = [(3, { ctxReset with en := true, cls := 0, saveMib := 1 })] := by decide +kernel
  simp [residents, h, isResident, ctxReset]
theorem test_dispatchChoice_places :
    ((after (.dispatchChoice .bow) sD).ctx .bow 3).want = [0] ∧ ((after (.dispatchChoice .bow) sD).ctx .bow 3).state = .placing
    ∧ ((after (.dispatchChoice .bow) sD).quay .bow 5).head = 1 := by decide +kernel
/-- Context 3 has saved its work on core 0. -/
def sPs : State := sP.setCtx .bow 3 { sP.ctx .bow 3 with saved := [⟨0, ⟨0x0A, 64⟩, [], none, [], false, 0⟩] }
theorem test_witness_CoreHandover :
    StoresWf sP ∧ cleanMem sP ∧ StoresWf sPs ∧ powerState sP .bow = 0 ∧ (sP.core .bow 0).ctx = none ∧ coreRetired sP .bow 0 = false ∧ sP.num (hk8 .bow 0xA032) 0 = 0
    ∧ claimant sP .bow 0 = some 3 ∧ (sP.ctx .bow 3).ticket = some tk7 ∧ progCore .bow tk7.prog 0 = some pc0 ∧ (sP.ctx .bow 3).saved = []
    ∧ (sP.ctx .bow 3).startT.isSome = true ∧ springReady sP .bow 0 = false
    ∧ claimant sPs .bow 0 = some 3 ∧ (sPs.ctx .bow 3).saved.any (fun v => v.core == 0) = true ∧ springReady sPs .bow 0 = false
    ∧ ∀ p ∈ (sP.half .bow).cores, p.2.wait = none :=
  ⟨wf_by (by decide +kernel), ⟨rfl, rfl, rfl⟩, wf_by (by decide +kernel), by decide +kernel⟩
theorem test_coreHandover_runs :
    ((after (.coreHandover .bow 0) sP).ctx .bow 3).state = .running ∧ ((after (.coreHandover .bow 0) sP).core .bow 0).args = tk7.args
    ∧ ((after (.coreHandover .bow 0) sPs).core .bow 0).restoring = true := by
  decide +kernel

/-- A `GATE` on a counter that reads 0: threshold `v`. -/
def gateWord (v : Nat) : Nat := 0x0A + 2 ^ 192 * v
def sav (v : Nat) (live : List (Nat × List Byte)) : SavedCore := ⟨0, ⟨gateWord v, 0⟩, [], none, live, false, 0⟩
/-- Context 3 off its core, waiting for counter 0 to reach `v`. -/
def sOff (st : CtxState) (v : Nat) : State :=
  on.modHalf .bow (fun x => { x with
    ctxs := [(3, { ctxReset with en := true, state := st, ticket := some tk7, saved := [sav v [(2, List.replicate 64 1)]] })] })

/-- Context 3 parked with a save area of 1 MiB, which its class may use. -/
def sDr : State := (((sOff .parked 0).setCtx .bow 3 { (sOff .parked 0).ctx .bow 3 with saveMib := 1, saveAddr := 0x500000 }).setNum 0x4300 9 0).setNum 0x4300 1 0xF
theorem test_witness_ContextUpkeep :
    StoresWf ((sOff .parked 0).setNum 0x4300 9 0) ∧ ((powerState (sOff .blocked 0) .bow ≠ 1 ∧ ((sOff .blocked 1).ctx .bow 3).saved.any (savedReady (sOff .blocked 1) .bow 3) = false
    ∧ ((sOff .blocked 0).ctx .bow 3).saved.any (savedReady (sOff .blocked 0) .bow 3) = true
    ∧ ((sOff .unloaded 0).ctx .bow 3).runnable = false ∧ ((sOff .unloaded 0).ctx .bow 3).state = .unloaded
    ∧ ((sOff .unloaded 0).ctx .bow 3).saved.any (savedReady (sOff .unloaded 0) .bow 3) = true)
    ∧ (swapCapacity sDr .bow < swapUsed sDr .bow 0 + 1024 * sDr.num (hk .bow 0x4300) 0x0A ∧ oldestOf sDr .bow (drainable sDr .bow 0) = some 3
       ∧ saveRoom sDr .bow 3 = 0x100000 ∧ saveRoom (sOff .parked 0) .bow 3 = 0)
    ∧ (let s := (sOff .parked 0).setNum 0x4300 9 0
       swapCapacity s .bow < swapUsed s .bow 0 + 1024 * s.num (hk .bow 0x4300) 0x0A ∧ oldestOf s .bow (drainable s .bow 0) = some 3)
    ∧ (let s := (on.setNum 0x4300 9 3).setNum 0x4300 0x0A 1024
       swapUsed s .bow 0 + 1024 * s.num (hk .bow 0x4300) 0x0A = swapCapacity s .bow)) := ⟨wf_by (by decide +kernel), by decide +kernel⟩
theorem test_contextRunnable_parks : ((after (.contextRunnable .bow 3 0) (sOff .blocked 0)).ctx .bow 3).state = .parked := by decide +kernel
theorem test_swapDrain_drains : ((after (.swapDrain .bow 0) sDr).ctx .bow 3).saved.map (·.drained) = [true] := by decide +kernel

def done3 : DoneRec := ⟨5, 17, 9, some 3, 0, 0, 8, 20, 0, 0, 0, false⟩
def sE : State :=
  (on.setQuay .bow 5 { quayReset with en := true, tail := 18, head := 18, ctail := 65535, context := 3, cring := 0x110000 }).modHalf .bow (fun x =>
    { x with done := [done3], ctxs := [(3, { ctxReset with en := true, state := .ending, ticket := some tk7, progress := 5 })] })
theorem test_witness_CompletionRecord :
    StoresWf sE ∧ cleanMem sE ∧ (sE.half .bow).done.find? (fun e => e.queue == 5) = some done3 ∧ done3.ctx = some 3 ∧ (sE.ctx .bow 3).pend = 0
    ∧ ringReach sE .bow (0x110000 + 32 * (17 % 2 ^ 4)) 32 = true ∧ inMemory sE (0x110000 + 32 * (17 % 2 ^ 4)) = true
    ∧ (sE.quay .bow 5).irq = false ∧ done3.notify = false := ⟨wf_by (by decide +kernel), ⟨rfl, rfl, rfl⟩, by decide +kernel⟩
/-- R214: status in byte 0, phase bit 16 from k, `SEQ` at bit 128, `END_T` at bit 208. -/
theorem test_completionRecord_bytes :
    (after (.completionRecord .bow 5) sE).readNat 0x110020 32
      = 2 ^ 16 + 2 ^ 39 * 5 + 2 ^ 96 * 5 + 2 ^ 128 * 9 + 2 ^ 160 * 8 + 2 ^ 208 * 20
    ∧ ((after (.completionRecord .bow 5) sE).quay .bow 5).ctail = 0 := by decide +kernel

def abortWord (q seq : Nat) : BitVec 128 := BitVec.ofNat 128 (1 + 2 ^ 31 * q + 2 ^ 48 * seq + 2 ^ 80 * 0x120000)
def sAb : State := { sD with bow := { sD.bow with cores := [(0, { coreFree with ctx := some 8 })] } }
def sAr : State := sRun.setQuay .bow 5 { quayReset with en := true, context := 3, tail := 1, head := 1 }
theorem test_witness_Abort :
    cleanMem sAb ∧ (sAr.ctx .bow 3).ticket = some tk7 ∧ tk7.queue = 5 ∧ tk7.seq = 9 ∧ (sAr.ctx .bow 3).state ≠ .ending
    ∧ abortBad sAr (abortWord 5 9).toNat = false ∧ (sAr.quay .bow 5).context = 3 ∧ hostServed sAr .bow = true ∧ abortBad sAb (abortWord 5 9).toNat = false ∧ abortBad sAb (abortWord 5 10).toNat = false ∧ inMemory sAb 0x120000 = true
    ∧ hostServed sAb .bow = true ∧ (sAb.ctx .bow 3).ticket = none ∧ ticketSeq sAb .bow (sAb.quay .bow 5) 0 = 9
    ∧ (sAb.quay .bow 5).aborts = [] ∧ (sAb.core .bow 0).ctx = some 8 ∧ (sAb.quay .bow 5).context ≠ 8 := ⟨⟨rfl, rfl, rfl⟩, by decide +kernel⟩
theorem test_abort_marks :
    ((after (.abort .bow .host (abortWord 5 9)) sAb).quay .bow 5).aborts = [0]
    ∧ (after (.abort .bow .host (abortWord 5 9)) sAr).bow.done.map (·.status) = [1]
    ∧ (after (.abort .bow .host (abortWord 5 10)) sAb).readNat 0x120000 8 = 2
    ∧ (after (.abort .bow (.core 0) (abortWord 5 9)) sAb).readNat 0x120000 8 = 11 := by decide +kernel

theorem test_witness_QueueTables :
    (hostServed sQ .bow = true ∧ bar0Aligned (24 * 5) 4 = true ∧ bar0Aligned (24 * 5) 3 = false ∧ (sQ.quay .bow 5).en = true
    ∧ (sQ.quay .bow 6).en = false
    ∧ (let w := leNat (overlay (quayBytes (sQ.quay .bow 6)) 0 (natLe 8 (2 ^ 16 + 2 ^ 43 * 4)))
       bitAt w 16 = true ∧ fld w 47 43 = 4)
    ∧ (let w := leNat (overlay (quayBytes (sQ.quay .bow 6)) 0 (natLe 8 (2 ^ 16 + 2 ^ 43 * 15)))
       bitAt w 16 = true ∧ fld w 47 43 = 15)
    ∧ (let w := leNat (overlay (quayBytes (sQ.quay .bow 6)) 0 (natLe 8 (2 ^ 16 + 2 ^ 43 * 3)))
       bitAt w 16 = true ∧ fld w 47 43 = 3)
    ∧ (let w := leNat (overlay (quayBytes (sQ.quay .bow 6)) 0 (natLe 8 (2 ^ 43 * 16))); bitAt w 16 = false)
    ∧ (let y := sQ.quay .bow 5
       let w := leNat (overlay (quayBytes y) 0 (natLe 4 (2 ^ 29 * 3)))
       let v := leNat (overlay (quayBytes y) 0 (natLe 4 (2 ^ 29 * 2)))
       ({ y with tring := fld w 191 144, cring := fld w 143 96, ringLog2 := fld w 47 43, context := fld w 42 31, cls := fld w 30 29
                 vector := fld w 28 18, irq := bitAt w 17 } : Quay) = y ∧ fld v 30 29 ≠ y.cls))
    ∧ bar0Aligned (32 * 4095) 4 = true ∧ (on.ctx .bow 4095).state = .idle ∧ (on.ctx .bow 4095).en = false
    ∧ (sD.ctx .bow 3).en = true ∧ bar0Aligned (32 * 3) 4 = true
    ∧ (let w := leNat (overlay (ctxBytes sD .bow 3) 0 (natLe 4 0))
       fld w 255 208 = (sD.ctx .bow 3).saveAddr ∧ fld w 207 200 = (sD.ctx .bow 3).saveMib ∧ fld w 1 0 = (sD.ctx .bow 3).cls)
    ∧ (let w := leNat (overlay (ctxBytes sD .bow 3) 0 (natLe 4 1)); fld w 1 0 ≠ (sD.ctx .bow 3).cls) := by decide +kernel
theorem test_quayDescriptorWrite_starts :
    ((after (.quayDescriptorWrite .bow 6 0 (natLe 8 (2 ^ 16 + 2 ^ 43 * 15))) sQ).quay .bow 6).en = true
    ∧ ((after (.quayDescriptorWrite .bow 6 0 (natLe 8 (2 ^ 16 + 2 ^ 43 * 3))) sQ).quay .bow 6).err = 10 := by decide +kernel
theorem test_contextEntryWrite_sets :
    ((after (.contextEntryWrite .bow 4095 24 (natLe 8 (2 ^ 8 * 2 + 2 ^ 16 * 0x5000))) on).ctx .bow 4095).saveMib = 2
    ∧ ((after (.contextEntryWrite .bow 3 0 (natLe 4 0)) sD).ctx .bow 3).en = false := by decide +kernel

/-! ### Manifest -/

/-- A stream of model 2, two layers, led by entry 8, of 70 tokens with pages 4 and 5 as index pages. -/
def m8 (st : SeqState) (built : Bool) (cand : Nat) : MEntry :=
  { mentryReset with gen := 6, head := 4, length := 70, cand := cand, model := 2, context := 3, cls := 1, state := st, built := built, next := 11 }
def m9 (st : SeqState) (built : Bool) (cand : Nat) : MEntry := { m8 st built cand with layer := 1, head := 5 }
def sM (st : SeqState) (built : Bool) (cand : Nat) : State :=
  (nums on [(0x4400, 1, 0x800000), (0x4400, 2, 8192), (0x4400, 3, 16), (0x4442, 1, 2)]).modHalf .bow (fun x => { x with
    manifest := [(8, m8 st built cand), (9, m9 st built cand)], pages := [(4, 2), (5, 2), (6, 2), (7, 2), (8, 2), (9, 2)]
    cores := [(0, { coreFree with ctx := some 3 })], ctxs := [(3, { ctxReset with state := .running })] })
def manWord (op e gen n v : Nat) : BitVec 256 :=
  BitVec.ofNat 256 (op + 2 ^ 59 * e + 2 ^ 72 * gen + 2 ^ 104 * n + 2 ^ 128 * v + 2 ^ 208 * 0x130000)
/-- A `STEP` for model 2 with 3 candidates each. -/
def stepWord : BitVec 256 := BitVec.ofNat 256 (1 + 2 ^ 48 * 3 + 2 ^ 53 * 2 + 2 ^ 128 * 48 + 2 ^ 160 * 0x140000 + 2 ^ 208 * 0x130000)
/-- An `ACCEPT` of one record at 0x150000. -/
def acceptWord : BitVec 256 := BitVec.ofNat 256 (3 + 2 ^ 104 * 1 + 2 ^ 160 * 0x150000 + 2 ^ 208 * 0x130000)
/-- Its record: three candidates, 1 a child of 0, 2 of 1; tokens 11, 21, 31; choices 21, 41, 51: candidate 1 is accepted, the next token is 41. -/
def sAcc : State :=
  (sM .active true 3).write 0x150000 (natLe 2 8 ++ natLe 2 6 ++ natLe 1 3 ++ List.replicate 11 0
    ++ [0xFF, 0, 1] ++ List.replicate 13 0 ++ natLe 4 11 ++ natLe 4 21 ++ natLe 4 31 ++ List.replicate 52 0
    ++ natLe 4 21 ++ natLe 4 41 ++ natLe 4 51 ++ List.replicate 52 0)

theorem test_witness_ManifestState :
    (let s := sM .active false 0
     srcCtx s .bow .host = some none ∧ srcCtx s .bow (.core 0) = some (some 3)
     ∧ manBad s .bow (manWord 5 9 6 0 0).toNat = false ∧ (s.mentry .bow 9).layer ≠ 0
     ∧ manBad s .bow (manWord 5 8 7 0 0).toNat = false ∧ (s.mentry .bow 8).layer = 0 ∧ (s.mentry .bow 8).context = 3
     ∧ fld (manWord 5 8 7 0 0).toNat 87 72 ≠ (s.mentry .bow 8).gen
     ∧ manBad s .bow (manWord 2 8 6 17 0).toNat = true ∧ fld (manWord 2 8 6 17 0).toNat 7 0 = 2
     ∧ manBad s .bow (manWord 2 8 6 16 0).toNat = false ∧ fld (manWord 2 8 6 16 0).toNat 71 59 = 8 ∧ inMemory s 0x130000 = true
     ∧ fld (manWord 2 8 6 16 0).toNat 255 208 = 0x130000 ∧ layersOf s .bow 2 = 2)
    ∧ cleanMem (sM .active false 0) ∧ StoresWf (sM .active false 0) ∧ StoresWf (sM .done false 0) ∧ StoresWf (sM .active true 3) :=
  ⟨by decide +kernel, ⟨rfl, rfl, rfl⟩, wf_by (by decide +kernel), wf_by (by decide +kernel), wf_by (by decide +kernel)⟩
theorem test_propose_all_layers :
    let t := after (.propose .bow .host (manWord 2 8 6 16 0)) (sM .active false 0)
    (t.mentry .bow 8).cand = 16 ∧ (t.mentry .bow 9).cand = 16 ∧ t.readNat 0x130000 8 = 2 * 2 ^ 16 := by decide +kernel
theorem test_finish_resume :
    ((after (.finish .bow .host (manWord 5 8 6 0 0)) (sM .active false 0)).mentry .bow 9).state = .done
    ∧ ((after (.resume .bow .host (manWord 6 8 6 0 0)) (sM .done false 0)).mentry .bow 9).state = .active
    ∧ (after (.resume .bow .host (manWord 6 8 6 0 0)) (sM .active true 3)).readNat 0x130000 1 = 10 := by decide +kernel

theorem test_witness_ManifestAppend :
    StoresWf (sM .active false 0) ∧ cleanMem (sM .active false 0) ∧ (let s := sM .active false 0
      let r := manWord 4 8 6 59 99
      manBad s .bow r.toNat = false ∧ fld r.toNat 7 0 = 4 ∧ fld r.toNat 71 59 = 8 ∧ pagesFor (70 + 59) - heldPages (s.mentry .bow 8) = 1
      ∧ 70 + 59 ≤ tokenLimit s .bow 2 ∧ (grantPages s .bow 1 2).isSome = true) := ⟨wf_by (by decide +kernel), ⟨rfl, rfl, rfl⟩, by decide +kernel⟩
theorem test_append_grows :
    let t := after (.append .bow .host (manWord 4 8 6 59 99)) (sM .active false 0)
    (t.mentry .bow 9).length = 129 ∧ (t.mentry .bow 8).next = 99 ∧ (t.mentry .bow 9).next = 11
    ∧ t.readNat (0x800000 + 4 * 8192 + 8) 4 = 0 ∧ t.readNat (0x800000 + 5 * 8192 + 8) 4 = 1 := by decide +kernel

theorem test_witness_ManifestStep :
    StoresWf (sM .active false 0) ∧ cleanMem (sM .active false 0) ∧ (let s := sM .active false 0
      srcCtx s .bow (.core 0) = some (some 3) ∧ manBad s .bow stepWord.toNat = false ∧ fld stepWord.toNat 7 0 = 1 ∧ pageBytes s .bow % 4 = 0
      ∧ ((s.half .bow).manifest.map Prod.fst).filter (buildable s .bow 3 (fld stepWord.toNat 58 53)) = [8]
      ∧ 48 ≤ fld stepWord.toNat 159 128 ∧ 70 + 3 ≤ tokenLimit s .bow 2 ∧ inMemory s (fld stepWord.toNat 255 208) = true
      ∧ (grantPages s .bow 1 ((pagesFor (70 + 3) - pagesFor 70) * 2)).isSome = true) := ⟨wf_by (by decide +kernel), ⟨rfl, rfl, rfl⟩, by decide +kernel⟩
theorem test_step_builds :
    let t := after (.step .bow (.core 0) stepWord) (sM .active false 0)
    (t.mentry .bow 9).built = true ∧ (t.mentry .bow 9).cand = 3 ∧ (t.half .bow).stepNo = 1 := by decide +kernel

theorem test_witness_ManifestAccept :
    StoresWf sAcc ∧ cleanMem sAcc ∧ (sAcc.mentry .bow 0).layer = 0 ∧ fld acceptWord.toNat 87 72 = (sAcc.mentry .bow 0).gen ∧ manBad sAcc .bow acceptWord.toNat = false ∧ fld acceptWord.toNat 7 0 = 3 ∧ fld acceptWord.toNat 127 104 = 1
    ∧ srcCtx sAcc .bow .host = some none ∧ engineNat sAcc .bow 0x150000 2 = 8 ∧ engineNat sAcc .bow 0x150004 1 = 3
    ∧ engineNat sAcc .bow 0x150002 2 = (sAcc.mentry .bow 8).gen ∧ (sAcc.mentry .bow 8).built = true ∧ (sAcc.mentry .bow 8).cand = 3
    ∧ (sAcc.mentry .bow 8).state ≠ .evicted ∧ (sAcc.mentry .bow 8).layer = 0 ∧ inMemory sAcc (fld acceptWord.toNat 255 208) = true :=
  ⟨wf_by (by decide +kernel), ⟨rfl, rfl, rfl⟩, by decide +kernel⟩
/-- R199: candidate 0 and its child 1 are accepted, the next token is the choice after 1. -/
theorem test_accept_path :
    let t := after (.accept .bow .host acceptWord) sAcc
    (t.mentry .bow 8).length = 72 ∧ (t.mentry .bow 8).next = 41 ∧ (t.mentry .bow 9).length = 72 ∧ (t.mentry .bow 8).built = false := by
  decide +kernel

theorem test_witness_ManifestRelease :
    StoresWf (sM .active false 0) ∧ cleanMem (sM .active false 0) ∧ (let s := sM .active false 0
      manBad s .bow (manWord 7 8 6 0 0).toNat = false ∧ fld (manWord 7 8 6 0 0).toNat 7 0 = 7 ∧ fld (manWord 7 8 6 0 0).toNat 87 72 = 6
      ∧ srcCtx s .bow (.core 0) = some (some (s.mentry .bow 8).context) ∧ Tab.get 0 (s.half .bow).pages 4 ≠ 0
      ∧ slotAddr s .bow (s.mentry .bow 8) 2 ≤ slotAddr s .bow (s.mentry .bow 9) 0 ∧ heldPages (s.mentry .bow 8) = 2 ∧ layersOf s .bow 2 = 2) :=
  ⟨wf_by (by decide +kernel), ⟨rfl, rfl, rfl⟩, by decide +kernel⟩
theorem test_release_defers :
    let t := after (.release .bow (.core 0) (manWord 7 8 6 0 0)) (sM .active false 0)
    (t.mentry .bow 9).state = .evicted ∧ Tab.get 0 (t.half .bow).pages 4 = 2
    ∧ Tab.get 0 ((after (.pageReturn .bow) t).half .bow).pages 4 = 0 := by decide +kernel

/-! ### Memory and host -/

/-- Four bytes in error, and five: with the others the first five would be a codeword of RS(72,64), the second five lie near none. -/
def err4 : Tab Nat := [(68, 123), (69, 69), (70, 86), (71, 119)]
def errNear : Tab Nat := [(0, 1), (64, 141), (65, 123), (66, 102), (67, 142)]
def errFar : Tab Nat := [(0, 1), (1, 1), (2, 1), (3, 1), (4, 1)]
def sMe (l : Nat) (e : Tab Nat) : State := { nums on [(0x4502, 4, 7)] with lineErr := [(2048 * 7 + 64 * l, e)] }
theorem test_witness_MemoryUpkeep :
    StoresWf (sMe 31 err4) ∧ memOn (sMe 31 err4) .bow = true ∧ (sMe 31 err4).num (hk .bow 0x4502) 4 = 7
    ∧ Tab.get [] (sMe 31 err4).lineErr (2048 * 7 + 64 * 31) = err4 ∧ decodePattern errFar = none ∧ decodePattern errNear = some err4 ∧ errNear ≠ err4 ∧ inTrial on .bow = false
    ∧ (∀ j < 32, j ≠ 31 → (sMe 31 err4).lineErr.find (2048 * 7 + 64 * j) = none) ∧ on.halfState .bow ≠ 4 ∧ on.halfState .bow ≠ 5
    ∧ bitAt ((on.setNum 0x4300 4 1).num (hk .bow 0x4300) (1 + 23 % 4)) 0 = true
    ∧ 3 ≤ Tab.get 0 ((on.modHalf .bow (fun x => { x with safety := { x.safety with retrainRow := [(23, 2)] } })).half .bow).safety.retrainRow 23 + 1 :=
  ⟨wf_by (by decide +kernel), by decide +kernel⟩
theorem test_patrolScrub_corrects :
    (after (.patrolScrub .bow 0 0) (sMe 31 err4)).lineErr = [] ∧ (after (.patrolScrub .bow 0 0) (sMe 31 errFar)).poison = [2048 * 7 + 64 * 31]
    ∧ (after (.patrolScrub .bow 0 0) (sMe 31 errFar)).num 0x4502 4 = 8
    ∧ (after (.patrolScrub .bow 0 0) (sMe 31 errNear)).byte (2048 * 7 + 64 * 31) = 1 ∧ (after (.patrolScrub .bow 0 0) (sMe 31 errNear)).poison = [] := by decide +kernel
theorem test_retraining_third_fails :
    (after (.retraining .bow 23 false) ((on.setNum 0x4300 4 1).modHalf .bow (fun x =>
      { x with safety := { x.safety with retrainRow := [(23, 2)] } }))).halfState .bow = 4 := by decide +kernel

theorem test_witness_HostWindows :
    StoresWf on ∧ hostServed on .bow = true ∧ memOn on .bow = true ∧ (∀ i < 3, inStore on .bow (2 ^ 36 - 3 + i) = false)
    ∧ linesOf (2 ^ 36 - 3) 3 = [2 ^ 36 - 64] ∧ bar0Aligned 0x1000100 8 = true ∧ bar0Aligned 0x480000 4 = true ∧ bar0Aligned 0x4FFFFF 1 = false
    ∧ (3 ≤ 2 ^ 36 ∧ (2 ^ 36 - 3) % 64 + 3 ≤ 64 ∧ (2 ^ 36 - 3) / 64 * 64 ∈ ({ on with poison := [2 ^ 36 - 64] } : State).poison) :=
  ⟨wf_by (by decide +kernel), by decide +kernel⟩
theorem test_bar4Write_bytes :
    (after (.bar4Write .bow (2 ^ 36 - 3) [1, 2, 3]) on).readNat (2 ^ 36 - 4) 4 = 0x03020100
    ∧ (after (.bar4Write .bow (2 ^ 36 - 3) [1, 2, 3]) { on with poison := [2 ^ 36 - 64] }).mem = []
    ∧ (after (.bar4Write .bow (2 ^ 36 - 3) [1, 2, 3]) { on with poison := [2 ^ 36 - 64] }).bow.safety.poisonReads = [(0xFFFF, 1)] := by
  decide +kernel
theorem test_bar4Read_poisoned :
    (after (.bar4Read .bow 64 2) { on with poison := [64] }).outbox = [.completion .bow true [0xFF, 0xFF]] := by decide +kernel
theorem test_bar0Write_mailbox :
    Tab.get 0 ((after (.bar0Write .bow 0x1000100 (natLe 8 0x201)) on).half .bow).host.mailboxIn 0x101 = 2
    ∧ (after (.bar0Write .bow 0x480000 (natLe 4 1)) on) = on := by decide +kernel

def sMx : State := on.modHalf .bow (fun x => { x with host := { x.host with msixPending := [2047], msixTable := [(32752, 0x40), (32760, 7)] } })
theorem test_witness_HostLinkState :
    (on.half .bow).host.linkUp = true ∧ (on.half .bow).cores = [] ∧ (on.half .bow).host.perst = false ∧ (on.half .bow).power.resetN = false
    ∧ (on.half .bow).boot.stage ≠ 0 ∧ 2 ≤ (on.half .bow).ready ∧ (after (.hdPerstN .bow) on |>.half .bow).host.linkUp = false
    ∧ ((on.modHalf .bow (fun x => { x with ready := 1 })).half .bow).ready < 2
    ∧ 2047 ∈ (sMx.half .bow).host.msixPending ∧ (sMx.half .bow).host.msixMaskAll = false ∧ (sMx.half .bow).host.msixEnable = true
    ∧ (sMx.half .bow).host.busMaster = true ∧ hostServed sMx .bow = true
    ∧ (let s := on.setCore .bow 95 { coreFree with ctx := some 3, inflight := [⟨⟨1, 0⟩, 0, false, [], 0, statZero, [], true, false⟩] }
       (s.core .bow 95).ctx = some 3 ∧ ∃ f, (s.core .bow 95).inflight[0]? = some f ∧ f.host = true) :=
  ⟨by decide +kernel, by decide +kernel, by decide +kernel, by decide +kernel, by decide +kernel, by decide +kernel, by decide +kernel,
   by decide +kernel, by decide +kernel, by decide +kernel, by decide +kernel, by decide +kernel, by decide +kernel, by decide +kernel,
   _, rfl, rfl⟩
theorem test_msixUnmask_sends : (after (.msixUnmask .bow 2047) sMx).outbox = [.msix .bow 2047 0x40 7] := by decide +kernel
theorem test_linkDown_counts : (after (.linkDown .bow) on).num 0x4600 4 = 1 ∧ (after (.linkDown .bow) on).bow.ctxs = on.bow.ctxs := by decide +kernel

/-! ### Links -/

/-- A message of the Stern half for class 1, with nothing set. -/
def msg0 : LinkMsg :=
  { kind := .rdReq, addr := 0x160000, tag := 5, lines := 1, status := 0, dev := 0, half := .stern, unit := 0, cls := 1, poison := false
    masked := false, mask := [], data := [], program := 7, seq := 9, ctr := 3, cargo := .none, flit := 0 }
/-- The Stern half has sent `m` over the Ferry; Bow memory has a byte at 0x160001. -/
def sL (m : LinkMsg) : State :=
  (on.modHalf .stern (fun x => { x with ferry := { x.ferry with sent := [m] } })).write 0x160001 [0xAB]
def mWr : LinkMsg := { msg0 with kind := .wr, masked := true, mask := [2], data := 1 :: 2 :: List.replicate 62 0 }
def mBad : LinkMsg := { msg0 with addr := 0x2100000000 }
def mOr : LinkMsg := { msg0 with kind := .or8, addr := 0x160001, data := [4] }
/-- Half Bow has a Causeway port to device 1; the other half's request is for that device. -/
def mPeer : LinkMsg := { msg0 with addr := 0x680000160000 }
def cw1On (s : State) : State :=
  (s.setNum 0x4610 2 1).modHalf .bow (fun x => { x with cw0 := { linkDown with state := .active } })
theorem test_witness_LinkAccess :
    StoresWf (sL msg0) ∧ StoresWf (sL mWr) ∧ StoresWf (sL mOr) ∧ errorFree (sL msg0) ∧ cleanMem (sL msg0) ∧ cleanMem (sL mWr)
    ∧ cleanMem (sL mOr) ∧ (sL msg0).upsets = [] ∧ StoresWf (cw1On (sL mPeer)) ∧ StoresWf (sL mPeer)
    ∧ (arrives (cw1On (sL mPeer)) .bow .ferry mPeer = true ∧ onward (cw1On (sL mPeer)) .ferry mPeer = some 1
    ∧ ownPort (takeMsg (cw1On (sL mPeer)) .bow .ferry mPeer) .bow 1 mPeer.addr = some .cw0
    ∧ ownPort (takeMsg (sL mPeer) .bow .ferry mPeer) .bow 1 mPeer.addr = none ∧ onward (sL mPeer) .ferry mPeer = some 1
    ∧ onward (sL msg0) .ferry msg0 = none ∧ onward (sL mBad) .ferry mBad = none
    ∧ (let s := { sL msg0 with poison := [0x160000] }
       (dramHalf s 0x160000).isSome = true ∧ meets [(msg0.addr, 64 * msg0.lines)] 0x160000 64 = true ∧ targetStatus s msg0 false = 0))
    ∧ (arrives (sL msg0) .bow .ferry msg0 = true ∧ targetStatus (sL msg0) msg0 false = 0
    ∧ arrives (sL mBad) .bow .ferry mBad = true ∧ targetStatus (sL mBad) mBad false ≠ 0
    ∧ arrives (sL mWr) .bow .ferry mWr = true ∧ doorbellTarget (sL mWr) .ferry mWr = none ∧ targetStatus (sL mWr) mWr true = 0
    ∧ (let m := { mBad with kind := .wr }
       arrives (sL m) .bow .ferry m = true ∧ doorbellTarget (sL m) .ferry m = none ∧ targetStatus (sL m) m true ≠ 0)
    ∧ arrives (sL mOr) .bow .ferry mOr = true ∧ (targetHalf (sL mOr) mOr mOr.addr true).2 = some .bow
    ∧ (targetHalf (sL mOr) { mOr with addr := 0x2100000000 } 0x2100000000 true).2 = none) :=
  ⟨wf_by (by decide +kernel), wf_by (by decide +kernel), wf_by (by decide +kernel), ⟨rfl, rfl, rfl⟩, ⟨rfl, rfl, rfl⟩,
   ⟨rfl, rfl, rfl⟩, ⟨rfl, rfl, rfl⟩, rfl, wf_by (by decide +kernel), wf_by (by decide +kernel), by decide +kernel, by decide +kernel⟩
theorem test_rdReq_answers :
    ((after (.rdReq .bow .ferry msg0) (sL msg0)).half .bow).ferry.sent.map (fun m => m.data.take 3) = [[0, 0xAB, 0]]
    ∧ ((after (.rdReq .bow .ferry mBad) (sL mBad)).half .bow).ferry.sent.map (·.status) = [11] := by decide +kernel
theorem test_wr_or8 :
    (after (.wr .bow .ferry mWr) (sL mWr)).readNat 0x160000 2 = 0x0200 ∧ (after (.or8 .bow .ferry mOr) (sL mOr)).readNat 0x160000 2 = 0xAF00 := by
  decide +kernel

/-- Context 3 of the Stern half waits for the response to its access with tag 5. -/
def sXf (k : XferKind) (m : LinkMsg) : State :=
  (on.modHalf .bow (fun x => { x with ferry := { x.ferry with sent := [m] } })).modHalf .stern (fun x => { x with
    xfers := [⟨5, .ferry, 0, 1, 3, k⟩], ctxs := [(3, { ctxReset with state := .running, ticket := some tk7, pend := 1 })]
    cores := [(0, { coreFree with ctx := some 3, inflight := [⟨⟨1, 0⟩, 1, false, [], 0, statZero, [], false, true⟩] })] })
theorem test_witness_LinkResponses :
    (∀ k ∈ [MsgKind.wrAck, .orAck, .rdData, .counterAck], let m := { msg0 with kind := k }
      arrives (sXf .wr m) .stern .ferry m = true ∧ answered (sXf .wr m) .stern .ferry m = some ⟨5, .ferry, 0, 1, 3, .wr⟩ ∧ tagHalf m.tag = .stern)
    ∧ answered (sXf (.rd 0x160000 1) { msg0 with kind := .rdData }) .stern .ferry { msg0 with kind := .rdData }
      = some ⟨5, .ferry, 0, 1, 3, .rd 0x160000 1⟩
    ∧ arrives (sL { msg0 with kind := .rdData }) .bow .ferry { msg0 with kind := .rdData } = true ∧ tagHalf 5 ≠ .bow
    ∧ (let m := { msg0 with kind := .counter }
       let s := (sL m).modHalf .bow (fun x => { x with ctxs := [(3, { ctxReset with state := .running, startT := some 1, ticket := some { tk7 with
         prog := { prog7 with cores := [pc0, { pc0 with stern := true }] } } })] })
       arrives s .bow .ferry m = true ∧ pairedCtx s .bow m = some 3 ∧ arrives (sL m) .bow .ferry m = true ∧ pairedCtx (sL m) .bow m = none
       ∧ ((sL m).half .bow).pendCtrs.length < 1024
       ∧ 1024 ≤ (((sL m).modHalf .bow (fun x => { x with pendCtrs := List.replicate 1024 ⟨8, 0, 0, 0, 0⟩ })).half .bow).pendCtrs.length) := by
  decide +kernel
theorem test_orAck_progress :
    let m := { msg0 with kind := .orAck }
    let t := after (.orAck .stern .ferry m) (sXf .or8 m)
    (t.ctx .stern 3).pend = 0 ∧ (t.ctx .stern 3).progress = 1 ∧ (t.half .stern).xfers = [] := by decide +kernel
theorem test_wrAck_refused :
    let m := { msg0 with kind := .wrAck, status := 11 }
    ((after (.wrAck .stern .ferry m) (sXf .wr m)).half .stern).done.map (·.status) = [3] := by decide +kernel
theorem test_counter_waits :
    let m := { msg0 with kind := .counter, data := [7, 0, 0, 0] }
    ((after (.counter .bow m) (sL m)).half .bow).pendCtrs = [⟨7, 9, 0, 3, 7⟩] := by decide +kernel

def sRt (n : Nat) : State := on.modHalf .bow (fun x => { x with cw0 := { linkDown with state := .retrain, failedRetrains := n } })
def sNak (n : Nat) : State :=
  (on.modHalf .bow (fun x => { x with ferry := { x.ferry with nakSeq := 4, nakCount := n } })).modHalf .stern (fun x => { x with
    ferry := { x.ferry with nakTx := some 4 } })
def sTr : State := nums ((on.modHalf .bow (fun x => { x with ferry := linkDown, tt := 5, ready := 1 })).modHalf .stern (fun x => { x with ferry := linkDown, ready := 1, tt := 9 }))
  [(0x2600, 2, 4), (0x2600, 1, 3)]
def sBt (st : Nat) : State := on.modHalf .stern (fun x => { x with beatTx := some ⟨1, st, 1⟩ })
theorem test_witness_LinkUpkeep :
    (StoresWf (sNak 7) ∧ StoresWf (sRt 2) ∧ StoresWf sTr)
    ∧ ((sNak 7).half .bow).ferry.state = .active ∧ ((sNak 7).half .stern).ferry.nakTx = some 4
    ∧ ((sRt 1).link .bow .cw0).state = .retrain ∧ ((sRt 1).link .bow .cw0).failedRetrains < 2 ∧ 2 ≤ ((sRt 2).link .bow .cw0).failedRetrains
    ∧ (∀ g ∈ [Half.bow, .stern], ((sRt 2).half g).xfers = [])
    ∧ (sTr.half .bow).ferry.state = .down ∧ (sTr.half .bow).boot.stage = 3 ∧ (sTr.half .stern).boot.stage = 3
    ∧ (sTr.half .bow).ready ≠ 3 ∧ (sTr.half .stern).ready ≠ 3 ∧ flitSent (sNak 7) .bow .ferry 0 = true ∧ ((sNak 7).link .bow .ferry).discard = false
    ∧ wiredPartner sTr .bow .cw0 = some 2 ∧ wiredPartner sTr .bow .cw1 = some 1 ∧ wiredPartner sTr .stern .cw0 = some 0
    ∧ (sTr.link .bow .cw0).state = .down
    ∧ ((sBt 0).half Half.bow.other).beatTx = some ⟨1, 0, 1⟩ ∧ ((sBt 0).half .bow).ferry.state = .active
    ∧ bitAt (2 ^ 11 + 3) 11 = true ∧ (2 ^ 11 + 3) % 256 = 3 ∧ ((sBt (2 ^ 11 + 3)).half .bow).ready = 3 :=
  ⟨⟨wf_by (by decide +kernel), wf_by (by decide +kernel), wf_by (by decide +kernel)⟩, by decide +kernel⟩
theorem test_nak_eighth_retrains :
    ((after (.nak .bow .ferry 4) (sNak 7)).half .bow).ferry.state = .retrain ∧ ((after (.nak .bow .ferry 4) (sNak 6)).half .bow).ferry.state = .active := by
  decide +kernel
theorem test_retrain_third_fails :
    ((after (.retrainDone .bow .cw0 false) (sRt 2)).link .bow .cw0).state = .failed
    ∧ ((after (.retrainDone .bow .cw0 true) (sRt 2)).link .bow .cw0).state = .active := by decide +kernel
theorem test_training :
    ((after (.trainingDone .stern .ferry 0 0) sTr).half .stern).tt = 5
    ∧ ((after (.trainingDone .stern .ferry 0 0) (sTr.modHalf .stern (fun x => { x with ready := 3 }))).half .bow).tt = 9
    ∧ ((after (.trainingDone .bow .ferry 0 0) (sTr.modHalf .bow (fun x => { x with ready := 3 }))).half .stern).tt = 5 ∧ ((after (.trainingDone .bow .cw0 2 9) sTr).link .bow .cw0).state = .active
    ∧ ((after (.trainingDone .bow .cw0 1 9) sTr).link .bow .cw0).state = .down := by decide +kernel
/-- R265 after reset: `PEER` 3 and `FAULT_N` asserted; ticket time; heartbeats received. -/
theorem test_status_block : leNat (bar0Read State.reset .bow 0x800000 8).1 = 0x3000 ∧ leNat (bar0Read on .bow 0x800008 8).1 = (on.now .bow).toNat
    ∧ leNat (bar0Read (after (.heartbeat .bow .ferry) (sBt 0)) .bow 0x800010 8).1 = 1 := by decide +kernel
theorem test_heartbeat_counts : ((after (.heartbeat .bow .ferry) (sBt 0)).half .bow).beatsRx = 1 := by decide +kernel

/-- A message of the Stern half that carries `c`. -/
def mCargo (kind : MsgKind) (c : Cargo) : LinkMsg := { msg0 with kind := kind, cls := 0, cargo := c }
def sDm (m : DictMsg) : State := sL (mCargo .dict (.dict m))
def fRep (replica : Bool) : FrameMsg := ⟨List.replicate 64 0, 0, replica, none, 0, 0⟩
def sFm (replica : Bool) : State := sL (mCargo .frame (.frame (fRep replica)))
/-- A `TIME` flit with number 7 is on its way. -/
def sFt : State := on.modHalf .stern (fun x => { x with timeTx := some (100, 7), ferry := { x.ferry with replay := [⟨7, []⟩], txSeq := 8 } })
theorem test_witness_FerryServices :
    (sFt.half .bow).ferry.state = .active ∧ (sFt.half .bow).ferry.replay.length < replaySize ∧ isLeader (sFt.setNum 0x2800 1 1) .bow = false
    ∧ (sFt.half .stern).timeTx = some (100, 7) ∧ (sFt.half .stern).ferry.replay.any (fun f => f.seq == 7) = true
    ∧ (sFt.half .bow).ferry.discard = false
    ∧ nextCargo (sDm (.mirror 0x2000 1 [1])) .bow .dict = some (mCargo .dict (.dict (.mirror 0x2000 1 [1])))
    ∧ nextCargo (sDm (.invalid 7)) .bow .dict = some (mCargo .dict (.dict (.invalid 7)))
    ∧ nextCargo (sDm (.request (.bar0 0) [])) .bow .dict = some (mCargo .dict (.dict (.request (.bar0 0) [])))
    ∧ (∀ r, nextCargo ((sFm r).setNum 0x4806 1 1) .bow .frame = some (mCargo .frame (.frame (fRep r))))
    ∧ portOn ((sFm true).setNum 0x4806 1 1) .bow 6 = true := by decide +kernel
theorem test_dict_invalid_mark : (after (.dict .bow) (sDm (.invalid 7))).num 0x4B00 0x0B = 7 := by decide +kernel
theorem test_frame_replica : ((after (.frame .bow 3) ((sFm true).setNum 0x4806 1 1)).half .bow).tsn.txq.map (·.src) = [.peer] := by decide +kernel
theorem test_time_follower : ((after (.time .bow 3) ((sFt.setNum 0x2800 1 1))).half .stern).timeTx = none := by decide +kernel

/-! ### Time -/

def sTb (state : Nat) (locked : Bool) (good : Nat) : State :=
  (nums on [(0x4A00, 5, 2), (0x4802, 1, 1), (0x4A00, 1, state)]).modHalf .bow (fun x => { x with tb := ⟨good, locked, [], none, false⟩ })
theorem test_witness_Sync :
    StoresWf (sTb 1 false 0) ∧ (isLeader (sTb 1 false 0) .bow = true ∧ portOn (sTb 1 false 0) .bow 2 = true
    ∧ (sTb 1 false 0).num (hk .bow 0x4A00) 5 = 2 ∧ timeState (sTb 1 false 0) .bow = 1 ∧ (sTb 1 true 7).num 0x2800 2 = 20000
    ∧ (Time.diff (20000 + BitVec.ofNat 48 ((sTb 1 true 7).num (hk .bow 0x4802) 6)) 0).natAbs = 20000 ∧ timeState (sTb 2 true 7) .bow ≠ 4) :=
  ⟨wf_by (by decide +kernel), by decide +kernel⟩
theorem test_sync_first_sets : (after (.sync .bow 2 500000 0) (sTb 1 false 0)).now .stern = 500000 := by decide +kernel
theorem test_sync_threshold :
    timeState (after (.sync .bow 2 20001 0) (sTb 2 true 8)) .bow = 4 ∧ (after (.sync .bow 2 20001 0) (sTb 2 true 8)).now .bow = 0 := by
  decide +kernel

def sTm : State := { nums on [(0x4A00, 5, 2), (0x4802, 1, 1), (0x4802, 5, 2), (0x4801, 1, 1), (0x4801, 5, 1), (0x2800, 6, 1), (0x4A00, 1, 2), (0x4A00, 4, 9), (0x2800, 8, 50)] with stepAt := some 10 }
def sTgm : State := (sTm.setNum 0x4A00 4 (ownIdentity sTm .bow)).setNum 0x4A00 5 0xFF
def sTrl : State := sTm.modHalf .bow (fun x => { x with tb := { x.tb with relay := some 7 } })
theorem test_witness_TimeMessages :
    StoresWf sTm ∧ (portOn sTm .bow 2 = true ∧ isLeader sTm .bow = true ∧ sTm.num 0x2800 6 = 1 ∧ sTm.num (hk .bow 0x4802) 5 = 2
    ∧ (∀ p < 7, p ≠ 2 → sTm.num (hk .bow (0x4800 + p)) 5 ≠ 2) ∧ sTm.num (hk .bow 0x4A00) 5 ≠ 0xFF ∧ timeState sTm .bow = 2 ∧ sTm.bow.tb.leads = false
    ∧ masterPort sTm .bow 1 = true ∧ selfGm sTm .bow = false ∧ selfGm sTgm .bow = true ∧ masterPort sTgm .bow 1 = true
    ∧ (sTrl.half (leaderOf sTrl .bow)).tb.relay = some 7 ∧ masterPort sTrl .bow 1 = true ∧ selfGm sTrl .bow = false ∧ sTm.stepAt = some 10) := ⟨wf_by (by decide +kernel), by decide +kernel⟩
theorem test_holdover :
    timeState (after (.syncReceiptTimeout .bow) sTm) .bow = 3 ∧ (after (.announceReceiptTimeout .bow) sTm).num 0x4A00 5 = 2
    ∧ (after (.announceReceiptTimeout .bow) (sTm.setNum 0x2800 6 0)).num 0x4A00 5 = 0xFF := by decide +kernel
theorem test_pdelay_mean : (after (.pdelay .bow 2 100 150 160 230) sTm).num 0x4802 6 = 60 := by decide +kernel
theorem test_stepApply :
    (after (.stepApply 10) sTm).now .stern = 60 ∧ (after (.stepApply 10) sTm).num 0x2800 0x0C = 10 ∧ after (.stepApply 9) sTm = sTm := by decide +kernel

/-! ### Switch -/

/-- A frame of 64 bytes, EtherType 0x0800. -/
def eth : List Byte := List.replicate 12 1 ++ [8, 0] ++ List.replicate 50 0x55
def sSw : State := nums on [(0x4811, 1, 0x170000), (0x4811, 0x11, 4), (0x4811, 0x21, 2048), (0x4810, 1, 0x180000), (0x4810, 9, 5), (0x4801, 1, 1), (0x4805, 1, 1)]
theorem test_witness_FrameIngress :
    StoresWf sSw ∧ cleanMem sSw ∧ mayStart sSw .bow 5 eth 0 = true ∧ gateClosed sSw .bow = false ∧ (portOn sSw .bow 1 = true ∧ 9212 < (List.replicate 9213 (0 : Byte)).length ∧ 60 ≤ (eth.take 60).length ∧ eth.length ≤ 9212
    ∧ isGptp (eth.take 60) = false ∧ rTag (eth.take 60) = none ∧ arpAsks sSw .bow 1 (eth.take 60) = false ∧ portOn sSw .bow 5 = true ∧ (steer sSw .bow eth).2 = 0
    ∧ 32 ≤ sSw.num (hk .bow 0x4811) 0x21 ∧ inOwnMemory sSw .bow 0x170000 2048 = true ∧ memOn sSw .bow = true) :=
  ⟨wf_by (by decide +kernel), ⟨rfl, rfl, rfl⟩, by decide +kernel⟩
/-- An ARP request for 10.0.0.2 on port 4: the fields of RFC 826. -/
def arp : List Byte := List.replicate 6 0xFF ++ [1, 2, 3, 4, 5, 6, 8, 6, 0, 1, 8, 0, 6, 4, 0, 1, 1, 2, 3, 4, 5, 6, 10, 0, 0, 1] ++ List.replicate 6 0
  ++ [10, 0, 0, 2] ++ List.replicate 18 0
def sArp : State := nums on [(0x4804, 1, 1), (0x9000, 5, 0x0A000002)]
theorem test_arp : arpAsks sArp .bow 4 arp = true ∧ arp.length = 60 ∧ isGptp arp = false ∧ portOn sArp .bow 4 = true
    ∧ (arpReply sArp .bow arp).take 6 = [1, 2, 3, 4, 5, 6] ∧ (arpReply sArp .bow arp).drop 20 = [0, 2] ++ natBe 6 (dictMac sArp .bow) ++ [10, 0, 0, 2]
      ++ [1, 2, 3, 4, 5, 6, 10, 0, 0, 1] ++ List.replicate 18 0 := by decide +kernel
theorem test_frameIngress_drops : (after (.frameIngress .bow 1 eth false 5) sSw).num 0x4801 0x0C = 1 := by decide +kernel

/-- A posted descriptor for class 0 at 0x180000. -/
def txWord (rep : Nat) (len : Nat) : Nat := 2 ^ 7 + 2 ^ 6 * rep + 2 ^ 64 * 2 + 2 ^ 80 * len + 2 ^ 208 * 0x190000
def sTx (w : Nat) : State := (sSw.write 0x180000 (natLe 32 w)).write 0x190000 eth
theorem test_witness_TxDescriptorTake :
    StoresWf (sTx (txWord 0 64)) ∧ cleanMem (sTx (txWord 0 64)) ∧ (memOn (sTx 0) .bow = true ∧ inOwnMemory (sTx 0) .bow 0x180000 32 = true
    ∧ (sTx (txWord 1 60)).readNat 0x180000 32 = txWord 1 60 ∧ txRefused (sTx (txWord 1 60)) .bow 0 (txWord 1 60) 0 = false
    ∧ txRefused (sTx (txWord 0 60)) .bow 0 (txWord 0 60) 0 = false ∧ txRefused (sTx (txWord 0 59)) .bow 0 (txWord 0 59) 0 = true
    ∧ bitAt (txWord 0 60) 7 = true ∧ bitAt (txWord 1 60) 6 = true ∧ bitAt 0 7 = false) := ⟨wf_by (by decide +kernel), ⟨rfl, rfl, rfl⟩, by decide +kernel⟩
theorem test_txTake_refused :
    (after (.txDescriptorTake .bow 0 0) (sTx (txWord 0 59))).readNat 0x180000 2 = 10 * 256
    ∧ ((after (.txDescriptorTake .bow 0 0) (sTx (txWord 0 64))).half .bow).tsn.txq.map (·.data) = [eth] := by decide +kernel
/-- The frame with its R-TAG, 70 bytes, and its copy on the Ferry as one `FRAME` message of two lines. -/
theorem test_txTake_replica :
    let t := after (.txDescriptorTake .bow 0 0) ((sTx (txWord 1 64)).setNum 0x4806 1 1)
    (t.half .bow).tsn.txq.map (fun f => f.data.length) = [70]
    ∧ (t.half .bow).ferry.sent.map (fun m => (m.kind, m.cargo)) = [(.frame, .frame ⟨putRTag eth 0, 3, true, none, 0, 0⟩)] := by
  decide +kernel

def frm (l : Nat) : TxFrame := ⟨.ring, some 0x180000, 0, eth, some (BitVec.ofNat 48 l), 0, 0, none, 0, 0xFFFF⟩
def sLa : State := sSw.modHalf .bow (fun x => { x with tsn := { x.tsn with txq := [frm 3000] } })
theorem test_witness_Launch :
    StoresWf sLa ∧ (∀ p < 7, ∀ c < 8, waitingAt sLa .bow p c = []) ∧ (∀ g ∈ (sLa.half .bow).tsn.txq, g.cls ≤ 0 ∧ (g.cls = 0 → g.src = (frm 3000).src))
    ∧ (
    (sLa.half .bow).tsn.txq.find? (fun x => x.cls == 0) = some (frm 3000) ∧ gateClosed sLa .bow = false
    ∧ Time.diff 2983 (3000 : Time) < -16 ∧ -16 ≤ Time.diff 2984 (3000 : Time) ∧ Time.diff 5000 (3000 : Time) ≤ 2000
    ∧ 2000 < Time.diff 5001 (3000 : Time) ∧ inTrial sLa .bow = false ∧ (frm 0).budget = 0
    ∧ (let s := nums on [(0x4801, 9, 100), (0x4801, 0x0A, 50)]
       s.num (hk .bow 0x4801) 0x0A ≠ 0 ∧ Time.diff 150 (BitVec.ofNat 48 (s.num (hk .bow 0x4801) 9)) % (50 : Int) = 0
       ∧ Time.diff 151 (BitVec.ofNat 48 (s.num (hk .bow 0x4801) 9)) % (50 : Int) ≠ 0)) := ⟨wf_by (by decide +kernel), by decide +kernel⟩
/-- A bridged frame waits at port 1 for class 0. -/
def sEg : State := setWaiting sSw .bow 1 0 [⟨2, eth, 0⟩]
theorem test_witness_Launch_bridged :
    waitingAt sEg .bow 1 0 = [⟨2, eth, 0⟩] ∧ (∀ q < 7, ∀ c < 8, (q ≠ 1 ∨ c ≠ 0) → waitingAt sEg .bow q c = []) ∧ (sEg.half .bow).tsn.txq = [] := by
  decide +kernel
theorem test_launch_bridged : (after (.launch .bow 0 9) sEg).outbox = [.frameOut .bow 1 eth 9] := by decide +kernel
theorem test_launch_waits : (after (.launch .bow 0 2983) sLa).half .bow = (sLa.atTime .bow 2983).half .bow := by decide +kernel
theorem test_gcl_in_force :
    ((after (.gclCycleStart .bow 1 150) (nums on [(0x4801, 9, 100), (0x4801, 0x0A, 50)])).half .bow).tsn.gcls = [(1, ⟨[], 150, 50, 100⟩)] := by decide +kernel

/-! ### Cameras, triggers, captures -/

def cset : CamSet := ⟨0x2A, 8, 2, 0xFF, 1, 0, 0x1000000, 0x10000, 2, 64, 0, 0⟩
def cfr : CamFrame := ⟨cset, 5, 1, 7, 100, 200, 0, 0, 4000, false, false, false, []⟩
def sCm : State :=
  nums on [(0x4700, 1, 1), (0x4700, 0x10, 1), (0x4700, 0x11, 5), (0x4700, 0x13, 8), (0x4700, 0x14, 2), (0x4700, 0x18, 0x1000000), (0x4700, 0x19, 0x10000), (0x4700, 0x1B, 64)]
def sCo (k : CamFrame) : State := sCm.modHalf .bow (fun x => { x with cams := [(0, k)] })
theorem test_witness_CameraFrame :
    StoresWf sCm ∧ StoresWf (sCo cfr) ∧ cleanMem sCm ∧ cleanMem (sCo cfr) ∧ (camOn sCm .bow 0 = true ∧ camChannel sCm .bow 0 5 = some 0 ∧ sCm.cam .bow 0 0 = none ∧ sCm.num 0x1F00 1 ≠ 2
    ∧ camSettings sCm .bow 0 0 = cset ∧ inOwnMemory sCm .bow (camSlot cset 1) 64 = true ∧ memOn sCm .bow = true ∧ camChannel sCm .bow 0 6 = none
    ∧ openChannel (sCo cfr) .bow 0 5 = some (0, cfr) ∧ (sCo cfr).cam .bow 0 0 = some cfr ∧ openChannel (sCo cfr) .bow 0 6 = none
    ∧ (sCo cfr).num (camIdx .bow 0) 6 * 1000 = 50000000 ∧ 50000000 ≤ Time.diff 50000200 cfr.tLast ∧ Time.diff 50000199 cfr.tLast < 50000000) :=
  ⟨wf_by (by decide +kernel), wf_by (by decide +kernel), ⟨rfl, rfl, rfl⟩, ⟨rfl, rfl, rfl⟩, by decide +kernel⟩
theorem test_frameStart_record :
    let t := after (.frameStart .bow 0 5 7 .good 100) sCm
    t.readNat 0x1010000 64 = 2 ^ 320 * 100 + 2 ^ 480 ∧ (t.half .bow).lineCtr = [(0, 65536)] := by decide +kernel
theorem test_frameEnd_short :
    (after (.frameEnd .bow 0 5 .good 300) (sCo cfr)).readNat 0x1010000 1 = 2 ^ 7 + 2 ^ 6 ∧ (after (.frameEnd .bow 0 5 .corrected 300) (sCo cfr)).cam .bow 0 0 = none
    ∧ (after (.frameEnd .bow 0 5 .corrected 300) (sCo cfr)).num 0x4700 7 = 1 ∧ (after (.frameEnd .bow 0 5 .bad 300) (sCo cfr)).num 0x4700 9 = 1 := by
  decide +kernel
theorem test_frameTimeout_waits : after (.frameTimeout .bow 0 0 0) (sCo cfr) = sCo cfr := by decide +kernel

theorem test_witness_CameraLine :
    StoresWf (sCo cfr) ∧ cleanMem (sCo cfr) ∧ openChannel (sCo cfr) .bow 0 6 = none ∧ (camOn (sCo cfr) .bow 0 = true ∧ openChannel (sCo cfr) .bow 0 5 = some (0, cfr) ∧ cfr.rows < cset.lines ∧ cset.mereBase = 0
    ∧ (let stored := storedLine cset [[1, 2, 3, 4, 5, 6, 7, 8]]
       stored.length = 8 ∧ inOwnMemory (sCo cfr) .bow (camSlot cset 1 + 4096) 8 = true)
    ∧ ([] : List (List Byte)).length + 1 = max 1 cset.f ∧ ([] : List (List Byte)).length + 1 ≠ max 1 { cset with f := 2 }.f ∧ 0x2B ≠ cset.dt
    ∧ cset.lines ≤ { cfr with rows := 2 }.rows ∧ inOwnMemory (sCo cfr) .bow (camSlot cset 1 + 64 + 4000) 32 = true
    ∧ ((List.replicate 40 (0 : Byte)).take (4032 - cfr.emb)).length = 32) := ⟨wf_by (by decide +kernel), ⟨rfl, rfl, rfl⟩, by decide +kernel, by decide +kernel⟩
theorem test_line_stored :
    let t := after (.line .bow 0 5 0x2A [1, 2, 3, 4, 5, 6, 7, 8] true .good 300) (sCo cfr)
    t.read 0x1011000 9 = [1, 2, 3, 4, 5, 6, 7, 8, 0] ∧ (t.half .bow).lineCtr = [(0, 65537)] := by decide +kernel
theorem test_embedded_truncated :
    ((after (.embeddedData .bow 0 5 (List.replicate 40 9) .good 300) (sCo cfr)).cam .bow 0 0).map (fun k => (k.emb, k.embTrunc)) = some (4032, true) := by
  decide +kernel

def sTg : State := nums on [(0x4900, 1, 1), (0x4900, 3, 1000), (0x4900, 4, 500), (0x4900, 7, 5000), (0x4910, 1, 3), (0x4910, 3, 0x1A0000), (0x4910, 4, 3), (0x491F, 1, 2)]
def sTa : State := sTg.modHalf .bow (fun x => { x with trigs := [(0, ⟨true, some 5000, 5000, 500⟩)], caps := [(0, 5000)] })
theorem test_witness_TriggersCaptures :
    StoresWf sTg ∧ cleanMem sTg ∧ (sTg.num (trigIdx .bow 0) 1 = 1 ∧ sTg.num (trigIdx .bow 0) 7 = 5000 ∧ Time.diff 7000 (5000 : Time) ≤ 2000 ∧ 2000 < Time.diff 7001 (5000 : Time)
    ∧ (sTa.trig .bow 0).last = some 5000 ∧ (sTa.trig .bow 0).active = true ∧ (sTa.trig .bow 0).width ≤ Time.diff 5500 (sTa.trig .bow 0).edge
    ∧ edgeSelected (sTg.num (capIdx .bow 0) 1) true = true ∧ edgeSelected (sTg.num (capIdx .bow 15) 1) true = false
    ∧ inOwnMemory sTg .bow 0x1A0000 8 = true ∧ memOn sTg .bow = true ∧ (sTg.half .bow).caps.find 0 = none
    ∧ (sTa.half .bow).caps.find 0 = some 5000 ∧ (Time.diff 5020 (5000 : Time)).natAbs ≤ 20) := ⟨wf_by (by decide +kernel), ⟨rfl, rfl, rfl⟩, by decide +kernel⟩
theorem test_trigger_edge :
    (after (.triggerInstant .bow 0 7000) sTg).outbox = [.trigger .bow 0 true 7000] ∧ (after (.triggerInstant .bow 0 7001) sTg).num 0x4900 6 = 1
    ∧ (after (.triggerPulseEnd .bow 0 5500) sTa).outbox = [.trigger .bow 0 false 5500] := by decide +kernel
/-- R328: stamp in bits 47 to 0, number, edge in bit 63. -/
theorem test_capture_record :
    (after (.captureEdge .bow 0 true 5020) sTg).readNat 0x1A0000 8 = 5020 + 2 ^ 48 + 2 ^ 63 ∧ (after (.captureEdge .bow 0 true 5020) sTa).num 0x4910 6 = 1 := by
  decide +kernel

/-! ### Control loops -/

/-- FP32 1.0, 2.0 and 3.0. -/
def f1 : Nat := 0x3F800000
def f2 : Nat := 0x40000000
def f3 : Nat := 0x40400000
/-- A PID loop: setpoint 3.0 by a trajectory of one point, measurement 1.0, `KP` 1.0, output field of 16 bits at byte 20. -/
def sLp : State :=
  let s := nums on [(0x8000, 4, 1000), (0x8000, 5, 100000), (0x8000, 7, 0x2000000000), (0x8000, 8, 50), (0x8000, 9, 50), (0x8000, 0x0A, f1)
    , (0x8000, 0x0E, 200), (0x8000, 0x0F, 4), (0x8000, 0x13, 0), (0x8000, 0x17, 0), (0x9200, 0x0A, f1), (0x9200, 0x0B, 500)]
  let s := s.setBytes 0x8000 0x1C (natLe 40 (f1 + 2 ^ 224 * 0xC1200000 + 2 ^ 256 * 0x41200000))
  let s := s.setBytes 0x8000 0x1D (natLe 144 (2 + 2 ^ 8 * 1 + 2 ^ 16 * 64 + 2 ^ 64 * 24 + 2 ^ 80 * 28 + 2 ^ 128 * (20 + 2 ^ 16 * 16 + 2 ^ 32 * f1)))
  ((s.setLoop .bow 0 { (loopReset) with origin := 1000 }).write 0x2000000040 (natLe 64 (1 + 2 ^ 32 * 1000 + 2 ^ 64 * 900 + 2 ^ 112 * 1000))).write 0x2000000080 (natLe 16 f3)
/-- The loop in a state. -/
def sLs (st : Nat) : State := sLp.setNum 0x8000 2 st
/-- The loop with a stale measurement; with an expired trajectory; at its setpoint. -/
def sLm : State := sLs 2 |>.setNum 0x9200 0x0B 0
def sLx : State := (sLs 1).write 0x2000000040 (natLe 64 (1 + 2 ^ 112 * (2 ^ 48 - 50000)))
def sLe : State := (sLs 2).write 0x2000000080 (natLe 16 f1)

theorem test_witness_LoopSample :
    StoresWf sLp ∧ StoresWf sLx ∧ cleanMem sLp ∧ cleanMem sLx ∧ ((∀ k < 8, dueInstant sLp .bow k 1500 = none) ∧ dueInstant (sLs 2) .bow 0 3000 = some 1000
    ∧ (∀ k < 8, k ≠ 0 → dueInstant (sLs 2) .bow k 3000 = none) ∧ dueInstant (sLs 2) .bow 0 3001 = none
    ∧ loopState (sLs 3) .bow 0 = 3 ∧ (measure (sLs 2) .bow 0 0 1000).2 = false ∧ (readSetpoint (sLs 2) .bow 0 [] 1000).1.expired = false
    ∧ (measure sLm .bow 0 0 1000).2 = true ∧ (measure sLx .bow 0 0 1000).2 = false ∧ (readSetpoint sLx .bow 0 [] 1000).1.expired = true
    ∧ (readSetpoint sLe .bow 0 [] 1000).1.ch.getD 0 0 = BitVec.ofNat 32 f1
    ∧ fgt (fabs (fsub (BitVec.ofNat 32 f1) (measure sLe .bow 0 0 1000).1)) (BitVec.ofNat 32 (sLe.num 0x8000 0x0A)) = false
    ∧ 16 ≤ (sLp.bytes 0x8000 0x1D).length ∧ bytesNat (sLp.bytes 0x8000 0x1D) 0 1 = 2
    ∧ (readSetpoint sLp .bow 0 [(0, 0), (0, 1)] 1000).1.expired = false) :=
  ⟨wf_by (by decide +kernel), wf_by (by decide +kernel), ⟨rfl, rfl, rfl⟩, ⟨rfl, rfl, rfl⟩, by decide +kernel⟩
/-- R343: `FE_TIME_US` 200 is two periods of 100,000 ns: the first sample over the limit is counted, the second trips. -/
theorem test_following_counts :
    ((after (.sample .bow [] 1200) (sLs 2)).loop .bow 0).fe = 1 ∧ loopState (after (.sample .bow [] 1200) (sLs 2)) .bow 0 = 2
    ∧ loopState (after (.sample .bow [] 1200) ((sLs 2).setLoop .bow 0 { (loopReset) with fe := 1, origin := 1000 })) .bow 0 = 3
    ∧ ((after (.sample .bow [] 1200) (sLe.setLoop .bow 0 { (loopReset) with fe := 1, origin := 1000 })).loop .bow 0).fe = 0 := by decide +kernel
/-- R331, R339, R345: setpoint 3.0, measurement 1.0, `KP` 1.0: the field reads 2. -/
theorem test_sample_frame :
    ((after (.sample .bow [] 1200) (sLs 2)).half .bow).tsn.txq.map (fun f => (f.data.getD 20 0, f.data.length, f.srcT)) = [(2, 64, 900)] := by decide +kernel
/-- R337: one publication during a read costs a retry; a second leaves the setpoint held from before, here none. -/
theorem test_sample_retries :
    (readSetpoint (sLs 2) .bow 0 [(0, 0)] 1000).1.ch.getD 0 0 = BitVec.ofNat 32 f3 ∧ (readSetpoint (sLs 2) .bow 0 [(0, 0), (0, 1)] 1000).1.ch = [0, 0, 0, 0]
    ∧ (after (.sample .bow [(0, 0), (0, 1)] 1200) (sLs 2)).num 0x8000 0x20 = 1 ∧ (after (.sample .bow [(0, 0)] 1200) (sLs 2)).num 0x8000 0x20 = 0 := by decide +kernel
theorem test_sample_trips :
    (after (.sample .bow [] 1200) sLm).num 0x8000 0x1E = 2 ∧ (after (.sample .bow [] 1200) sLx).num 0x8000 0x1E = 3
    ∧ loopState (after (.sample .bow [] 1200) sLe) .bow 0 = 2 := by decide +kernel

def sFe (n : Nat) : State := (sLs 2).setLoop .bow 0 { (loopReset) with fe := n }
theorem test_witness_LoopSample_closeFail :
    (sLs 1).num 0x8000 2 = 1 ∧ 1000 * (sLs 1).num 0x8000 0x0E ≤ frameAge (sLs 1) 200000 ((sLs 1).loop .bow 0).closeT
    ∧ frameAge (sLs 1) 199999 ((sLs 1).loop .bow 0).closeT < 1000 * (sLs 1).num 0x8000 0x0E
    ∧ ((sFe 0).loop .bow 0).fe = 0 := by decide +kernel
/-- One setpoint over the limit, one within it; the second sample over it reaches the time; and a count that has reached it. -/
theorem test_witness_FollowingError :
    StoresWf (sLs 2) ∧ StoresWf sLe ∧ cleanMem (sLs 2) ∧ cleanMem sLe ∧ (dueInstant (sLs 2) .bow 0 3000 = some 1000 ∧ (∀ k < 8, k ≠ 0 → dueInstant (sLs 2) .bow k 3000 = none)
    ∧ dueInstant sLe .bow 0 3000 = some 1000 ∧ (∀ k < 8, k ≠ 0 → dueInstant sLe .bow k 3000 = none)
    ∧ loopState (sLs 2) .bow 0 = 2 ∧ loopState sLe .bow 0 = 2 ∧ (sLs 2).num 0x8000 1 = 0 ∧ sLe.num 0x8000 1 = 0
    ∧ (measure (sLs 2) .bow 0 0 1000).2 = false ∧ (readSetpoint (sLs 2) .bow 0 [] 1000).1.expired = false
    ∧ (measure sLe .bow 0 0 1000).2 = false ∧ (readSetpoint sLe .bow 0 [] 1000).1.expired = false
    ∧ (readSetpoint sLe .bow 0 [] 1000).1.ch.getD 0 0 = BitVec.ofNat 32 f1
    ∧ fgt (fabs (fsub (BitVec.ofNat 32 f1) (measure sLe .bow 0 0 1000).1)) (BitVec.ofNat 32 (sLe.num 0x8000 0x0A)) = false
    ∧ isNaN (fsub (BitVec.ofNat 32 f1) (measure sLe .bow 0 0 1000).1) = false ∧ isNaN (BitVec.ofNat 32 (sLe.num 0x8000 0x0A)) = false
    ∧ fgt (fabs (fsub ((readSetpoint (sLs 2) .bow 0 [] 1000).1.ch.getD 0 0) (measure (sLs 2) .bow 0 0 1000).1)) (BitVec.ofNat 32 ((sLs 2).num 0x8000 0x0A)) = true
    ∧ 1000 * (sLs 2).num 0x8000 0x0E = (1 + 1) * (sLs 2).num 0x8000 5
    ∧ (sFe 2).num 0x8000 2 = 2 ∧ 1000 * (sFe 2).num 0x8000 0x0E ≤ ((sFe 2).loop .bow 0).fe * (sFe 2).num 0x8000 5) :=
  ⟨wf_by (by decide +kernel), wf_by (by decide +kernel), ⟨rfl, rfl, rfl⟩, ⟨rfl, rfl, rfl⟩, by decide +kernel⟩
theorem test_closeFail_cause : (after (.closeFail .bow 0 200000) (sLs 1)).num 0x8000 0x1E = 4 ∧ loopState (after (.closeFail .bow 0 199999) (sLs 1)) .bow 0 = 1 := by
  decide +kernel
theorem test_following_cause : (after (.following .bow 0) (sFe 2)).num 0x8000 0x1E = 1 ∧ after (.following .bow 0) (sFe 1) = sFe 1 := by decide +kernel
/-- R339: a held integrator: `I` 1.0 + 1.0·2.0 stops at `I_MAX` 2.0; `U` = 3.0·2.0 + 2.0 stops at `U_MAX` 3.0. -/
theorem test_pid_bounds :
    let s := on.setBytes 0x8000 0x1C (natLe 40 (f3 + 2 ^ 32 * f1 + 2 ^ 160 * 0xC0400000 + 2 ^ 192 * f2 + 2 ^ 224 * 0xC0400000 + 2 ^ 256 * f3))
    pidSample s .bow 0 { (loopReset) with i := BitVec.ofNat 32 f1 } (BitVec.ofNat 32 f3) (BitVec.ofNat 32 f1) 0
      = ({ (loopReset) with i := BitVec.ofNat 32 f2, yPrev := BitVec.ofNat 32 f1 }, [BitVec.ofNat 32 f3]) := by decide +kernel

/-! ### CAN controllers -/

/-- A classic frame of three bytes, identifier 0x123. -/
def cf : CanFrame := ⟨0, false, false, false, false, false, 0x123, 3, 0, 0, 0, [0x11, 0x22, 0x33]⟩
/-- Controller 0 in a mode, ring at 0x100000, transmit ring at 0x120000. -/
def sCn (k : Can) : State := (nums on [(0x9100, 1, k.mode), (0x9100, 9, 0x100000), (0x9100, 0x0C, 0x120000), (0x9100, 0x10, 0)]).setCan .bow 0 k
def kN : Can := { (canReset) with mode := 1, rxRing := 0x100000, txRing := 0x120000, busoffAuto := false }
theorem test_witness_CanReceive :
    StoresWf (sCn kN) ∧ StoresWf (sCn (canReset)) ∧ cleanMem (sCn kN) ∧ kN.rxRing = 0x100000 ∧ (canOn (sCn kN) .bow 0 = true ∧ (canReset).mode = 0 ∧ kN.mode = 1 ∧ kN.busOff = false
    ∧ { (kN) with busOff := true }.busOff = true ∧ formatOn kN cf.format = true ∧ formatOn kN { (cf) with format := 1 }.format = false
    ∧ (sCn kN).num 0x9100 0x0A + 32 + roundUp 32 cf.data.length ≤ 65536 ∧ inOwnMemory (sCn kN) .bow 0x100000 32 = true
    ∧ inOwnMemory (sCn kN) .bow 0x100020 32 = true ∧ memOn (sCn kN) .bow = true) :=
  ⟨wf_by (by decide +kernel), wf_by (by decide +kernel), ⟨rfl, rfl, rfl⟩, rfl, by decide +kernel⟩
/-- R348: the payload, and the header's units, length code, identifier, length, number and stamp. -/
theorem test_can_record :
    let t := after (.canReceive .bow 0 cf 700) (sCn kN)
    t.read 0x100020 4 = [0x11, 0x22, 0x33, 0] ∧ t.num 0x9100 0x0A = 64
    ∧ t.readNat 0x100000 32 = 2 ^ 56 * 2 + 2 ^ 75 * 3 + 2 ^ 87 * 0x123 + 2 ^ 116 * 3 + 2 ^ 176 + 2 ^ 208 * 700 := by decide +kernel
theorem test_can_off : after (.canReceive .bow 0 cf 700) (sCn canReset) = (sCn canReset).atTime .bow 700 := by decide +kernel

/-- A posted descriptor: identifier 0x123, three bytes at 0x130000. -/
def cd : Nat := 2 ^ 7 * 0x123 + 2 ^ 36 * 3 + 2 ^ 112 * 600 + 2 ^ 208 * 0x130000 + 2 ^ 448
def sCt (d : Nat) : State := ((sCn kN).write 0x120000 (natLe 64 d)).write 0x130000 [0x11, 0x22, 0x33]
def ct (l : Option Time) : CanTx := ⟨some 0x120000, cf, l, 600, 0, 0, none, 0, 0xFFFF, false⟩
/-- The frame at the head of the queue. -/
def sCq (one : Bool) (l : Option Time) : State := (sCt cd).setCan .bow 0 { (kN) with next := 1, queue := [ct l], oneShot := one }
theorem test_witness_CanTransmit :
    StoresWf (sCt cd) ∧ StoresWf (sCq false none) ∧ cleanMem (sCt cd) ∧ cleanMem (sCq true none) ∧ kN.safe = [] ∧ (ct none).refused = false
    ∧ ((sCq false none).can .bow 0).safe = [] ∧ (canOn (sCt cd) .bow 0 = true ∧ memOn (sCt cd) .bow = true ∧ inOwnMemory (sCt cd) .bow 0x120000 64 = true
    ∧ { (kN) with owner := 1 }.owner ≠ 0 ∧ kN.owner = 0 ∧ kN.mode = 1 ∧ kN.queue.length < 32
    ∧ (sCt 0).readNat 0x120000 64 = 0 ∧ bitAt 0 448 = false ∧ (sCt cd).readNat 0x120000 64 = cd ∧ bitAt cd 448 = true
    ∧ canRefused (sCt cd) .bow kN cd 700 = false ∧ canRefused (sCt (cd + 2 ^ 36 * 6)) .bow kN (cd + 2 ^ 36 * 6) 700 = true
    ∧ ((sCq false none).can .bow 0).queue = [ct none] ∧ (ct none).loop = none ∧ (ct none).budget = 0 ∧ gateClosed (sCq false none) .bow = false
    ∧ Time.diff 983 (1000 : Time) < -16 ∧ -16 ≤ Time.diff 984 (1000 : Time) ∧ Time.diff 3000 (1000 : Time) ≤ 2000 ∧ kN.busOff = false
    ∧ kN.tec ≤ 127 ∧ ((sCq true none).can .bow 0).oneShot = true ∧ ((sCq false none).can .bow 0).oneShot = false
    ∧ ((sCq true none).can .bow 0).queue = [ct none] ∧ canOn (sCq true none) .bow 0 = true ∧ (ct none).slot = some 0x120000
    ∧ judgeLaunch (sCq true none) .bow true false none 600 700 700 0 = .send) :=
  ⟨wf_by (by decide +kernel), wf_by (by decide +kernel), ⟨rfl, rfl, rfl⟩, ⟨rfl, rfl, rfl⟩, rfl, rfl, by decide +kernel, by decide +kernel⟩
theorem test_canTake : ((after (.canTxTake .bow 0 700) (sCt cd)).can .bow 0).queue = [ct none]
    ∧ (after (.canTxTake .bow 0 700) (sCt (cd + 2 ^ 36 * 6))).readNat 0x120038 2 = 0x0A00 := by decide +kernel
theorem test_canTransmit :
    let t := after (.canTransmit .bow 0 1000) (sCq false (some 1000))
    t.outbox = [.canOut .bow 0 cf 1000] ∧ (t.can .bow 0).queue = [] ∧ t.readNat 0x120038 8 = 2 ^ 16 * 1000 := by decide +kernel
theorem test_arbitration :
    (after (.arbitrationLost .bow 0 1 700) (sCq true none)).readNat 0x120038 2 = 0x0110
    ∧ ((after (.arbitrationLost .bow 0 2 700) (sCq false none)).can .bow 0).tec = 8 := by decide +kernel

/-- Controller 0 detecting its bit rate over two candidates. -/
def sAbd (i rounds : Nat) : State :=
  (sCn { (canReset) with mode := 4, cand := some i, rounds := rounds, abd := natLe 24 (2 ^ 96 + 5), abdRounds := 3 }).setBytes 0x9100 0x11 (natLe 24 (2 ^ 96 + 5))
theorem test_witness_CanState :
    StoresWf (sCn { (kN) with busOff := true, recover := true }) ∧ StoresWf (sAbd 0 0)
    ∧ (canOn (sAbd 0 0) .bow 0 = true ∧ kN.busoffAuto = false ∧ kN.recover = false
    ∧ (sCn kN).num 0x9100 1 = kN.mode ∧ ((sCn kN).setNum 0x9100 1 3).num 0x9100 1 ≠ kN.mode
    ∧ ((sAbd 0 0).can .bow 0).cand = some 0 ∧ 0 + 1 < abdCount ((sAbd 0 0).can .bow 0).abd ∧ abdCount ((sAbd 1 2).can .bow 0).abd ≤ 1 + 1
    ∧ ((sAbd 1 2).can .bow 0).abdRounds ≤ ((sAbd 1 2).can .bow 0).rounds + 1 ∧ (sCn kN).bytes 0x9100 0x11 = kN.abd
    ∧ (sAbd 0 0).bytes 0x9100 0x11 ≠ kN.abd ∧ ((sAbd 1 1).can .bow 0).rounds + 1 < ((sAbd 1 1).can .bow 0).abdRounds) := ⟨wf_by (by decide +kernel), wf_by (by decide +kernel), by decide +kernel⟩
theorem test_abd :
    ((after (.abdDwell .bow 0) (sAbd 0 0)).can .bow 0).cand = some 1 ∧ ((after (.abdDwell .bow 0) (sAbd 1 1)).can .bow 0).cand = some 0
    ∧ (after (.abdDwell .bow 0) (sAbd 1 2)).num 0x9100 0x14 = 0xFF := by decide +kernel
theorem test_busOff_recovery :
    ((after (.busOffRecovery .bow 0) (sCn { (kN) with busOff := true, tec := 256, recover := true })).can .bow 0).tec = 0
    ∧ after (.busOffRecovery .bow 0) (sCn { (kN) with busOff := true }) = sCn { (kN) with busOff := true } := by decide +kernel
theorem test_controllerChange : ((after (.controllerChange .bow 0) ((sCn kN).setNum 0x9100 1 3)).can .bow 0).mode = 3 := by decide +kernel

/-! ### Safety -/

def sSf : State := nums on [(0x4B00, 4, 0xFFFF), (0x4B00, 5, 1000000), (0x2900, 2, 10)]
/-- Channel 1 of camera 0 is the source, with a frame counted. -/
def sSr : State := nums on [(0x4B00, 4, 1), (0x4B00, 5, 1000000), (0x4700, 1, 1), (0x4700, 0x2F, 3)]
def sSu : State := sSf.modSafety .bow (fun x => { x with frameNo := 5000, suspects := [(3 * 128, 4000)] })
def spr (x : Spring) (st : Nat) : State := (sSf.setSpring .bow 0 x).setNum 0xA032 0 st
theorem test_witness_SafetyTime :
    StoresWf sSf ∧ (frameSrc sSr .bow ≠ 0xFFFF ∧ srcFrames sSr .bow ≠ (sSr.half .bow).safety.camSeen
    ∧ frameSrc sSf .bow = 0xFFFF ∧ sSf.num (hk .bow 0x4B00) 5 ≤ Time.diff 1000000 (sSf.half .bow).safety.frameT
    ∧ Time.diff 999999 (sSf.half .bow).safety.frameT < sSf.num (hk .bow 0x4B00) 5
    ∧ (sSu.half .bow).safety.suspects = [(3 * 128, (sSu.half .bow).safety.frameNo - 1000)]
    ∧ (sSr.half .bow).safety.byTime = false ∧ 2 * sSr.num (hk .bow 0x4B00) 5 ≤ Time.diff 2000000 (sSr.half .bow).safety.frameT
    ∧ 0 < sSf.part.cores ∧ coreRetired sSf .bow 0 = false ∧ powerState sSf .bow = 0 ∧ (sSf.half .bow).ready = 3
    ∧ springDueTime (sSf.atTime .bow 10000000) .bow 0 10000000 = some 10000000 ∧ springDueTime (sSf.atTime .bow 9999999) .bow 0 9999999 = none
    ∧ springDone (sSf.atTime .bow 10000000) .bow 0 10000000 = false
    ∧ sSf.num (hk8 .bow 0xA032) 0 = 0 ∧ (sSf.core .bow 0).ctx = none ∧ class0Claim sSf .bow 0 = false
    ∧ springDone ((spr ⟨0, 10000000, false, some 10000000⟩ 0).atTime .bow 10000000) .bow 0 10000000 = true ∧ (spr ⟨6, 0, false, none⟩ 2).num (hk8 .bow 0xA032) 0 = 2
    ∧ ((spr ⟨6, 0, false, none⟩ 2).spring .bow 0).seg < 7 ∧ 7 ≤ ((spr ⟨7, 0, false, none⟩ 2).spring .bow 0).seg
    ∧ (∀ p ∈ (sSf.half .bow).ctxs, p.2.want.contains 0 = false) ∧ coreCritical sSf .bow 0 = false ∧ (sSf.half .bow).service.length < serviceBank
    ∧ 2000000 ≤ Time.diff 2000000 ((spr ⟨0, 0, false, none⟩ 1).spring .bow 0).due) := ⟨wf_by (by decide +kernel), by decide +kernel⟩
theorem test_safetyFrame :
    ((after (.safetyFrame .bow 7) sSr).half .bow).safety.frameNo = 1 ∧ ((after (.safetyFrame .bow 1000000) sSu).half .bow).safety.suspects = []
    ∧ ((after (.safetyFrameFallback .bow 2000000) sSr).half .bow).safety.byTime = true
    ∧ ((after (.safetyFrameFallback .bow 1999999) (sSr.setNum 0x4700 0x20 1)).half .bow).safety.byTime = false := by decide +kernel
theorem test_spring :
    (after (.springDue .bow 0 10000000) sSf).num 0xA032 0 = 2 ∧ (after (.springSegmentDone .bow 0 true false 0) (spr ⟨7, 0, false, none⟩ 2)).num 0xA032 0 = 0
    ∧ coreRetired (after (.springSegmentDone .bow 0 false false 0) (spr ⟨3, 0, false, none⟩ 2)) .bow 0 = true
    ∧ (after (.springLate .bow 0 2000000) (spr ⟨0, 0, false, none⟩ 1)).num 0xA033 0 = 1 := by decide +kernel

def sSafe : State := sSf.enterSafe .bow 3
theorem test_witness_OutOfService :
    StoresWf sSf ∧ (sSf.halfState .bow ≠ 4 ∧ sSf.halfState .bow ≠ 5 ∧ inTrial sSf .bow = false ∧ sSafe.halfState .bow = 4
    ∧ (sSafe.half .bow).safety.gated = false) := ⟨wf_by (by decide +kernel), by decide +kernel⟩
theorem test_outOfService :
    (after (.clockDrift .bow 50) sSf).num 0x4B00 2 = 10 ∧ (after (.clockDrift .bow 50) sSafe).num 0x4B00 2 = 3
    ∧ (after (.lockstepSm .bow 50) sSf).halfState .bow = 5 ∧ ((after (.safetyMessageRepeat .bow 50) (sSafe.setNum 0x4B00 6 2)).can .bow 2).safe.length = 1
    ∧ (after (.safetyMessageRepeat .bow 50) sSafe).bow.safety.alive = sSafe.bow.safety.alive + 1 := by
  decide +kernel

/-- The peer asserts `FAULT_N`; with a lifeboat image of no bytes, whose digest is the first word here. -/
def sPl : State := sSf.modHalf .stern (fun x => { x with faultN := true })
def lbOf (d : Nat) : List Byte := (natLe 48 d).reverse ++ List.replicate 400 0
def sLb (d : Nat) : State := (sPl.setBytes 0x4B00 0x0A (lbOf d)).modSafety .bow (fun x => { x with digesting := true })
/-- SHA-384 of no bytes (FIPS 180-4). -/
def sha0 : Nat := 0x38b060a751ac96384cd9327eb1b1e36a21fdb71114be07434c0cc7bf63f6e1da274edebfe76f65fbd51ad2f14898b95b
theorem test_witness_PeerLoss :
    StoresWf sPl ∧ cleanMem sPl ∧ cleanMem (sLb sha0) ∧ cleanMem (sLb 0) ∧ ((sPl.half .bow).ready = 3 ∧ (sPl.half (Half.bow).other).faultN = true ∧ (sPl.half .bow).peer ≠ 3 ∧ (sPl.half .bow).peer ≠ 1
    ∧ (sPl.half .bow).xfers = [] ∧ (∀ p ∈ (sPl.half .bow).ctxs, p.2.ticket = none) ∧ bytesNat (lifeboat sPl .bow) 60 2 = 0
    ∧ bytesNat (lifeboat sPl .bow) 62 2 = 0 ∧ sPl.halfState .bow = 1 ∧ lifeboat sPl .bow = [] ∧ lifeboat (sLb 0) .bow ≠ []
    ∧ (sSf.half (Half.bow).other).faultN = false ∧ ((sLb sha0).half .bow).safety.digesting = true ∧ ((sLb sha0).half .bow).safety.handover = false
    ∧ (lifeboatDigestOk (sLb sha0) .bow).1 = true ∧ (lifeboatDigestOk (sLb 0) .bow).1 = false ∧ bytesNat (lifeboat (sLb sha0) .bow) 60 2 = 0) :=
  ⟨wf_by (by decide +kernel), ⟨rfl, rfl, rfl⟩, ⟨rfl, rfl, rfl⟩, ⟨rfl, rfl, rfl⟩, by decide +kernel⟩
theorem test_peerLoss :
    (after (.peerFaultN .bow 50) sPl).halfState .bow = 2 ∧ powerState (after (.peerFaultN .bow 50) sPl) .stern = 3
    ∧ (after (.lifeboatDigestDone .bow 50) (sLb sha0)).halfState .bow = 2 ∧ (after (.lifeboatDigestDone .bow 50) (sLb 0)).num 0x4B00 2 = 8 := by decide +kernel

/-! ### The object dictionary -/

def rq : Req := .can 2 9
theorem serves_on (r : Req) (i : Nat) (hi : holderOf i = none ∨ holderOf i = some .bow) : Serves on .bow r i := ⟨by decide +kernel, rfl, hi⟩
def sKept : State := on.modHalf .bow (fun x => { x with kept := [⟨rq, [1, 2]⟩] })
def sNoF : State := on.modHalf .bow (fun x => { x with ferry := linkDown })
theorem test_witness_DictRead :
    (parseMsg (msgBytes ⟨1, 8, 0x4D00, 0, []⟩) = some ⟨1, 8, 0x4D00, 0, []⟩ ∧ dictOn on .bow = true
    ∧ (sKept.half .bow).kept.find? (fun k => k.req == rq) = some ⟨rq, [1, 2]⟩ ∧ (on.half .bow).kept.find? (fun k => k.req == rq) = none
    ∧ entryAt on 0x4D00 0xF0 = none ∧ entryAt on 0x6D00 8 ≠ none ∧ holderOf 0x6D00 = some (Half.bow).other ∧ canForward on .bow = true
    ∧ canForward sNoF .bow = false ∧ holderOf 0x4D00 = some .bow ∧ holderOf 0x2900 = none
    ∧ (entryAt on 0x2900 4).map (fun p => (p.2.acc, dtypeBytes p.2.typ)) = some (.wo, 1)
    ∧ (entryAt on 0x4D00 8).map (fun p => (decide (p.2.acc = .wo), p.1.base, dtypeBytes p.2.typ)) = some (false, 0x4D00, 1)
    ∧ (entryAt on 0x4B00 10).map (fun p => (decide (p.2.acc = .wo), p.1.base, dtypeBytes p.2.typ)) = some (false, 0x4B00, 0)) := by decide +kernel
/-- R410: `READ` of `POWER_STATE` through a mailbox: the response at 0x20000, `DONE` and the tag in `MB_CTRL`. -/
theorem test_dict_read :
    let t := after (.read .bow (.bar0 0) (msgBytes ⟨1, 8, 0x4D00, 0, []⟩)) (on.setNum 0x4D00 8 1)
    (upto 13 (fun i => Tab.get 0 (t.half .bow).host.mailboxOut (0x20000 + i))) = [0x81, 8, 0, 0x4D, 0, 2, 1, 0, 0, 0, 0, 0, 1] ∧ mbCtrl t .bow 0 = 2 := by
  decide +kernel
theorem test_dict_right :
    let t := after (.read .bow (.udp 7 8 1) (msgBytes ⟨1, 4, 0x2900, 0, []⟩)) on
    t.outbox = [.udp .bow 7 8 [1, 0, 0, 0, 0x81, 4, 0, 0x29, 11, 0, 0, 0, 0, 0, 0, 0]] ∧ t.num 0x9000 9 = 1 := by decide +kernel

def sTxn : State := nums { on with txn := { txnIdle with owner := some (.bow, rq), boundary := some 500, staged := [⟨0x4B00, 5, [some 1, some 0, some 0, some 0]⟩] } }
  [(0x1F00, 1, 1), (0x1F00, 4, ownerWord .bow rq)]
def mw (a : Bool) : MirrorWrite := ⟨.bow, rq, 0x2900, 2, [5, 0, 0, 0], 10000, a⟩
theorem test_witness_DictWrite :
    (∀ i ∈ [0x4D00, 0x4B00, 0x2900, 0x2800], holderOf i = none ∨ holderOf i = some .bow)
    ∧ (parseMsg (msgBytes ⟨2, 6, 0x4D00, 0, natLe 4 7⟩) = some ⟨2, 6, 0x4D00, 0, natLe 4 7⟩
    ∧ (entryAt on 0x4D00 8).map (fun p => p.2.acc) = some .ro
    ∧ (entryAt on 0x4D00 6).map (fun p => (p.2.acc, p.1.stern, valueOk p.1 p.2 0 (natLe 4 7), valueOk p.1 p.2 1 (natLe 4 7))) = some (.rw, some false, true, false)
    ∧ (entryAt on 0x2800 9).map (fun p => (p.2.acc, p.1.stern, p.1.base, valueOk p.1 p.2 0 (natLe 8 7))) = some (.rw, none, 0x2800, true)
    ∧ (entryAt on 0x4B00 5).map (fun p => (p.2.acc, valueOk p.1 p.2 0 (natLe 4 1000000), stageOk sTxn p.1 (placeBytes [] 0 (natLe 4 1000000))))
        = some (.rwt, true, true)
    ∧ bitAt (permMask on .bow 0x4D00 6) (transportBit rq) = true
    ∧ bitAt (permMask (on.modHalf .bow (fun x => { x with settings := ⟨[(dkey 0x4D00 6, 6)], [], []⟩ })) .bow 0x4D00 6) (transportBit rq) = false
    ∧ txnState on = 0 ∧ txnState sTxn = 1 ∧ sTxn.num 0x1F00 4 = ownerWord .bow rq ∧ sTxn.num 0x1F00 4 ≠ ownerWord .bow (.can 3 9)
    ∧ (on.half .bow).ferry.state = .active ∧ (sNoF.half .bow).ferry.state ≠ .active
    ∧ [mw true].filter (fun x => decide (0 ≤ Time.diff 9999 x.at_)) = [] ∧ [mw true].filter (fun x => decide (0 ≤ Time.diff 10000 x.at_)) = [mw true]
    ∧ peerLost on .bow = false ∧ powerState on (Half.bow).other ≠ 2) := by decide +kernel
theorem test_dict_write :
    (after (.write .bow (.udp 7 8 1) (msgBytes ⟨2, 6, 0x4D00, 0, natLe 4 7⟩)) on).num 0x4D00 6 = 7
    ∧ (after (.write .bow rq (msgBytes ⟨2, 5, 0x4B00, 0, natLe 4 1000000⟩)) { sTxn with txn := { sTxn.txn with staged := [] } }).txn.staged
        = [⟨0x4B00, 5, [some 0x40, some 0x42, some 0x0F, some 0]⟩] := by decide +kernel
/-- A row that writes an entry of the other half: its request crosses the Ferry, or is answered `HALF_LOST` (R408). -/
theorem test_forwarded_row :
    (after (.powerReqIdle .bow rq .stern) on).bow.ferry.sent.map (·.cargo) = [.dict (.request rq (writeMsg 0x6D00 9 0 [1]))]
    ∧ (after (.powerReqIdle .bow (.udp 7 8 1) .stern) sNoF).bow.ferry.sent = [] ∧ dictOn on .bow = true ∧ canForward on .bow = true
    ∧ dictOn sNoF .bow = true ∧ canForward sNoF .bow = false ∧ (on.half .bow).kept = [] := by decide +kernel
theorem test_mirror :
    (after (.mirrorApply 10000) { on with mirrors := [mw true] }).num 0x2900 2 = 5 ∧ (after (.mirrorApply 10000) { on with mirrors := [mw false] }).num 0x2900 2 ≠ 5
    ∧ (after (.mirrorApply 9999) { on with mirrors := [mw true] }).mirrors = [mw true] := by decide +kernel

def sCanD : State := nums on [(0x9000, 1, 0), (0x9000, 5, 0x0A000001), (0x4804, 1, 1)]
def sSeg : State := sCanD.modHalf .bow (fun x => { x with canSeg := [(2, ⟨9, 1, [1, 8]⟩)] })
def sMbx : State := sCanD.modHalf .bow (fun x => { x with host := { x.host with mailboxIn := [(0x100, 1), (0x101, 8), (0x103, 0x4D)] } })
theorem test_witness_Transports :
    dictOn sCanD .bow = true ∧ sCanD.num (hkc .bow 0x9000) 1 < 4 ∧ bytesNat (msgBytes ⟨1, 8, 0x4D00, 0, []⟩) 0 1 = 1
    ∧ (sSeg.half .bow).canSeg.find 2 = some ⟨9, 1, [1, 8]⟩ ∧ (0x41 : Byte).toNat % 64 = 1 ∧ 64 ≤ (0x41 : Byte).toNat ∧ (0x01 : Byte).toNat < 64
    ∧ bytesNat ([1, 8] ++ [0, 0x4D]) 0 1 = 1 ∧ sCanD.num (hkc .bow 0x9000) 5 ≠ 0 ∧ portOn sCanD .bow 4 = true
    ∧ (let d := natLe 4 1 ++ msgBytes ⟨1, 8, 0x4D00, 0, []⟩
       d.length = 16 + bytesNat d 10 2 ∧ (d ++ [0]).length ≠ 16 + bytesNat (d ++ [0]) 10 2 ∧ bytesNat (d.drop 4) 0 1 = 1)
    ∧ hostServed sCanD .bow = true ∧ bitAt (mbCtrl sCanD .bow 3) 0 = false ∧ bitAt (mbCtrl (putMailbox sCanD .bow (mailboxAt 3) [1]) .bow 3) 0 = true
    ∧ bytesNat (mailboxMsg sMbx .bow 0) 0 1 = 1 := by decide +kernel
theorem test_segments :
    let t := after (.canSegment .bow 2 [0x41, 9, 0, 0x4D, 0, 0, 0, 0, 0, 0, 0, 0]) sSeg
    (t.half .bow).canSeg = [] ∧ (t.can .bow 0).queue.map (fun f => (f.f.id, f.f.data.take 5)) = [(t.num 0x9000 3 + 2, [0xC0, 9, 0x81, 8, 0])] := by decide +kernel
theorem test_udp_length : (after (.udpDatagram .bow 7 8 (natLe 4 1 ++ msgBytes ⟨1, 8, 0x4D00, 0, []⟩ ++ [0])) sCanD).num 0x9000 9 = 1 := by decide +kernel
/-- R413: the tag is kept, `DONE` set and `GO` cleared. -/
theorem test_mailbox : mbCtrl (after (.mailboxGo .bow 0 (0x500000001)) sMbx) .bow 0 = 0x500000002 := by decide +kernel

def sCom (tb : Option Time) : State := { (sTxn.setNum 0x1F00 1 2) with txn := { sTxn.txn with boundary := tb } }
def sBad : State := (nums on [(0x1F00, 1, 2)] : State)
theorem test_witness_Transactions :
    StoresWf on ∧ StoresWf sTxn ∧ Writes on .bow rq 0x1F00 2 ∧ Writes sTxn .bow rq 0x1F00 2
    ∧ (txnState on = 0 ∧ txnState sTxn = 1 ∧ sTxn.num 0x1F00 4 = ownerWord .bow rq ∧ sTxn.num 0x1F00 4 ≠ ownerWord .bow (.can 3 9)
    ∧ (sTxn.atTime .bow 60).now .bow = 60 ∧ (sTxn.setNum 0x1F00 5 1).num 0x1F00 5 = 1 ∧ sTxn.num 0x1F00 5 ≠ 1
    ∧ Time.diff (BitVec.ofNat 48 1000000060) 60 ≤ 1000000000 ∧ 1000000000 < Time.diff (BitVec.ofNat 48 1000000061) 60
    ∧ (sCom (some 500)).txn.boundary = some 500 ∧ txnState (sCom (some 500)) = 2 ∧ Time.diff 499 (500 : Time) < 0 ∧ 0 ≤ Time.diff 500 (500 : Time)
    ∧ commitFailure ((sCom (some 500)).setNum 0x1F00 0xB 500) = none
    ∧ (commitFailure { sCom (some 500) with txn := { (sCom (some 500)).txn with staged := [⟨0x4B00, 9, [some 1]⟩] } }).isSome = true
    ∧ (entryOf 0x4B00 5).map (fun p => (decide (0 < dtypeBytes p.2.1.typ), p.1.base)) = some (true, 0x4B00)
    ∧ (sCom none).txn.boundary = none ∧ 1000000000 ≤ Time.diff 1000000000 (sCom none).txn.commitT
    ∧ 10000000000 ≤ Time.diff (BitVec.ofNat 48 10000000000) sTxn.txn.beginT ∧ Time.diff (BitVec.ofNat 48 9999999999) sTxn.txn.beginT < 10000000000) :=
  ⟨wf_by (by decide +kernel), wf_by (by decide +kernel), ⟨⟨by decide +kernel, rfl, by decide⟩, by decide +kernel⟩
    , ⟨⟨by decide +kernel, rfl, by decide⟩, by decide +kernel⟩, by decide +kernel⟩
theorem test_begin_commit :
    txnState (after (.begin .bow rq) on) = 1 ∧ (after (.commit .bow rq 60) (sTxn.setNum 0x1F00 5 1)).txn.boundary = some 100060
    ∧ txnState (after (.rollback .bow (.can 3 9)) sTxn) = 1 ∧ txnState (after (.rollback .bow rq) sTxn) = 0 := by decide +kernel
theorem test_boundary :
    (after (.commitBoundary 500) (sCom (some 500))).num 0x4B00 5 = 1 ∧ txnState (after (.commitBoundary 499) (sCom (some 500))) = 2
    ∧ (after (.txnTimeout (BitVec.ofNat 48 10000000000)) sTxn).num 0x1F00 0xC = 1 := by decide +kernel

def ra (n : Nat) : RAcc := ⟨3, 1, 0, 0, [n], n, none, none, 0, 5⟩
def sRc (l : List RRec) : State := on.modHalf .bow (fun x => { x with recorder := ⟨[ra 2], l, l.length, 0, 4⟩ })
theorem test_witness_RecorderRows :
    Serves on .bow rq 0x3000 ∧ (((sRc []).half .bow).recorder.accs[0]? = some (ra 2)
    ∧ Time.diff 5 (ra 2).tFirst < (sRc []).num (hk8 .bow 0x3000) 5 * 1000000
    ∧ ((sRc []).num (hk8 .bow 0x3000) 5 * 1000000 : Int) ≤ Time.diff (BitVec.ofNat 48 ((sRc []).num (hk8 .bow 0x3000) 5 * 1000000)) (ra 2).tFirst
    ∧ sameKey (ra 1) (ra 2) = true ∧ ([⟨0, 4, 0, ra 1⟩] : List RRec).getLast? = some ⟨0, 4, 0, ra 1⟩
    ∧ (on.half .bow).ferry.state = .active ∧ (sNoF.half .bow).ferry.state ≠ .active) :=
  ⟨⟨by decide +kernel, rfl, by decide⟩, by decide +kernel⟩
theorem test_record_emit :
    let at_ : Time := BitVec.ofNat 48 ((sRc []).num 0x3000 5 * 1000000)
    ((after (.recordEmit .bow 0 at_) (sRc [⟨0, 4, 0, ra 1⟩])).half .bow).recorder.recs.map (fun l => (l.rep, l.acc.count)) = [(1, 3)]
    ∧ ((after (.recordEmit .bow 0 at_) (sRc [])).half .bow).recorder.head = 1 := by decide +kernel
theorem test_rec_clear : ((after (.recClear .bow rq .bow 1) (sRc [⟨0, 4, 0, ra 1⟩])).half .bow).recorder.tail = 1
    ∧ ((after (.recClear .bow rq .bow 2) (sRc [⟨0, 4, 0, ra 1⟩])).half .bow).recorder.tail = 0 := by decide +kernel

/-! ### Rows that a dictionary write starts -/

theorem writes_on (i j : Nat) (hi : holderOf i = none ∨ holderOf i = some .bow) (hp : permMask on .bow i j = 7) : Writes on .bow (.can 2 9) i j :=
  ⟨⟨by decide +kernel, rfl, hi⟩, by rw [hp]; decide⟩
theorem writes_rows : Writes on .bow (.can 2 9) 0x2800 0x0A ∧ Writes on .bow (.can 2 9) (loopIdx .bow 0) 3 ∧ Writes on .bow (.can 2 9) 0x2900 4
    ∧ Writes on .bow (.can 2 9) 0x4C10 6 ∧ Writes on .bow (.can 2 9) 0x4C10 7 ∧ Writes on .bow (.can 2 9) 0x4C00 3 ∧ Writes on .bow (.can 2 9) 0x2A00 1
    ∧ Writes on .bow (.can 2 9) 0x2A00 5 ∧ Writes on .bow (.can 2 9) 0x4C20 1 ∧ Writes on .bow (.can 2 9) 0x4D00 1 ∧ Writes on .bow (.can 2 9) 0x4D00 9
    ∧ Writes on .bow (.can 2 9) 0x2B00 2 := by
  refine ⟨?_, ?_, ?_, ?_, ?_, ?_, ?_, ?_, ?_, ?_, ?_, ?_⟩ <;> exact writes_on _ _ (by decide +kernel) (by decide +kernel)

def sPend (a : Nat) : State := nums on [(0x4A00, 1, 4), (0x2800, 7, 6), (0x2800, 9, a)]
def hs (b st : Nat) : State := nums on [(0x4B00, 1, b), (0x6B00, 1, st)]
theorem test_witness_CommandWrites :
    StoresWf on ∧ StoresWf (sPend 0) ∧ (timeState (sPend 0) (leaderOf (sPend 0) .bow) = 4
    ∧ (6 : BitVec 32).toNat = (sPend 0).num 0x2800 7 ∧ (5 : BitVec 32).toNat ≠ (sPend 0).num 0x2800 7 ∧ timeState on .bow ≠ 4
    ∧ Time.diff (BitVec.ofNat 48 ((sPend 1000000000).num 0x2800 9)) ((sPend 1000000000).now .bow) ≤ 1000000000
    ∧ loopState on .bow 0 = 0 ∧ loopStaged on .bow 0 = false
    ∧ loopStaged { on with txn := { txnIdle with staged := [⟨0x8000, 5, [some 1]⟩] } } .bow 0 = true ∧ loopState (on.setNum 0x8000 2 1) .bow 0 ≠ 0
    ∧ (hs 4 1).halfState .bow = 4 ∧ powerState on .bow ≠ 3 ∧ on.halfState .bow = 1 ∧ on.halfState .stern = 1
    ∧ (∀ p ∈ (on.half .bow).ctxs, p.2.ticket = none) ∧ (on.half (Half.bow).other).cores = [] ∧ lifeboat on .bow = [] ∧ lifeboat (on.setBytes 0x4B00 0x0A [1]) .bow ≠ []
    ∧ (hs 2 1).halfState .bow = 2 ∧ (hs 2 1).halfState (Half.bow).other = 1 ∧ (hs 2 4).halfState (Half.bow).other ≠ 1) :=
  ⟨wf_by (by decide +kernel), wf_by (by decide +kernel), by decide +kernel⟩
theorem test_commandWrites :
    (after (.stepAccept .bow (.can 2 9) 6) (sPend 500)).stepAt = some 500 ∧ (after (.stepAccept .bow (.can 2 9) 5) (sPend 500)).stepAt = none
    ∧ loopState (after (.close .bow (.can 2 9) .bow 0) on) .bow 0 = 1 ∧ loopState (after (.openLoop .bow (.can 2 9) .bow 0) (on.setNum 0x8000 2 3)) .bow 0 = 0 := by
  decide +kernel
theorem test_halfCmds :
    ((after (.rejoin .stern (.can 2 9) .bow) (hs 4 1)).half .bow).ready = 0 ∧ (after (.handover .bow (.can 2 9) .bow) on).halfState .bow = 3
    ∧ (after (.halfCmdResume .bow (.can 2 9) .bow) (hs 2 1)).halfState .bow = 1 ∧ (after (.halfCmdResume .bow (.can 2 9) .bow) (hs 2 4)).halfState .bow = 2 := by
  decide +kernel

/-- The Bow half runs slot A; slot B is erased. -/
def sFw : State := setSlot (hs 1 3 |>.setNum 0x4D00 8 2) .bow 1 ⟨true, []⟩
theorem test_witness_FirmwareRows :
    StoresWf sFw ∧ Writes sFw .bow (.can 2 9) 0x4C10 7
    ∧ (([1, 2] : List Byte).length < 65536 ∧ sFw.num 0x4C10 8 ≠ 1 ∧ (sFw.setNum 0x4C10 8 1).num 0x4C10 8 = 1 ∧ slotBytes - 2 + 2 ≤ slotBytes
    ∧ slotBytes < slotBytes - 1 + 2 ∧ slotBytes < 2 ^ 32 ∧ (sFw.setNum 0x4C10 8 2).num 0x4C10 8 = 2 ∧ powerState sFw .bow = 2
    ∧ sFw.halfState (Half.bow).other = 3 ∧ (sFw.half .bow).flash.trial = false ∧ (List.replicate 32 (0 : Byte)).length = 32
    ∧ (sFw.half .bow).attNonce = none ∧ (∀ g, (sFw.half g).boot.stage = 3 → judgeOwner sFw (sFw.half g) [1] = 11)
    ∧ (∀ g, (sFw.half g).boot.stage = 3 → judgeSettings sFw (sFw.half g) [1] = 11)) :=
  ⟨wf_by (by decide +kernel), ⟨⟨by decide +kernel, rfl, by decide⟩, by decide +kernel⟩, by decide +kernel, by decide +kernel, by decide +kernel
    , by decide +kernel, by decide +kernel, by decide +kernel, by decide +kernel, by decide +kernel, by decide +kernel, by decide +kernel
    , by decide +kernel, by decide +kernel, fun g => by cases g <;> decide +kernel, fun g => by cases g <;> decide +kernel⟩
/-- R442: a write clears bits only; an erased byte reads 0xFF. -/
theorem test_fwWrite :
    let t := after (.fwWrite .bow (.can 2 9) .bow 5 [0x0F, 0xF3]) sFw
    slotByte t .bow 1 6 = 0xF3 ∧ slotByte t .bow 1 7 = 0xFF
    ∧ slotByte (after (.fwWrite .bow (.can 2 10) .bow 6 [0x3F]) t) .bow 1 6 = 0x33 := by decide +kernel
theorem test_activate :
    let t := after (.activate .bow (.can 2 9) .bow) (sFw.setNum 0x4C10 8 2)
    (t.half .bow).flash.preferred = 1 ∧ (t.half .bow).flash.tries = 3 ∧ (t.half .bow).boot.stage = 0
    ∧ ((after (.activate .bow (.can 2 9) .bow) sFw).half .bow).boot.stage = 3 := by decide +kernel
theorem test_nonce : ((after (.attestNonce .bow (.can 2 9) .bow (List.replicate 32 7)) sFw).half .bow).attNonce = some (List.replicate 32 7)
    ∧ ((after (.attestNonce .bow (.can 2 9) .bow [7]) sFw).half .bow).attNonce = none := by decide +kernel

/-- An image for core 0 with a stream of 32 bytes (R98, R99). -/
def img : List Byte :=
  natLe 64 (0x50524731 + 2 ^ 32 + 2 ^ 48 + 2 ^ 64 * 672 + 2 ^ 256 * 64 + 2 ^ 320 * 640) ++ natLe 64 (2 ^ 64 * poolBase .bow 0 + 2 ^ 128 * 32)
  ++ List.replicate 512 0 ++ natLe 32 0x0F
def sLd (src : Nat) : State :=
  (nums (on.modHalf .bow (fun x => { x with loading := some ⟨src, 672⟩ })) [(0x4C20, 7, 0x400000), (0x4C20, 8, 0x10000)]).write 0x200000 img
def sUn (alias_ : Nat) : State :=
  ((on.modHalf .bow (fun x => { x with progs := [prog7] })).setNum 0x4C20 4 7).setBytes 0x4C20 9 (natLe 4 alias_)
theorem test_witness_Loader :
    StoresWf on ∧ StoresWf (sLd 0x200000) ∧ StoresWf (sUn 8)
    ∧ ((on.half .bow).loading = none ∧ ((sLd 0x200000).half .bow).loading = some ⟨0x200000, 672⟩
    ∧ (on.half .bow).progs.find? (fun p => p.handle == on.num 0x4C20 4) = none
    ∧ ((sUn 8).half .bow).progs.find? (fun p => p.handle == (sUn 8).num 0x4C20 4) = some prog7 ∧ namedHalves prog7.cores = [.bow]
    ∧ aliased (sUn 8) .bow 7 = false ∧ aliased (sUn 7) .bow 7 = true ∧ progRuns (sUn 8) .bow 7 = false
    ∧ loadInDram .bow ⟨0x300000000000, 672⟩ = false ∧ loadInDram .bow ⟨0x200000, 672⟩ = true
    ∧ (let s := sLd 0x200000
       let bs := s.read 0x200000 672
       storePlace s .bow 672 = some 0x400000 ∧ freeHandle s [.bow] = some 0 ∧ s.lineErr = [] ∧ s.sramBad = [] ∧ s.poison = []
       ∧ imageWrap s .bow bs = (true, 0) ∧ imageOk bs 672 = true ∧ shapeOk s .bow bs = true
       ∧ namedHalves (perCores bs) = [.bow] ∧ s.inService .bow = true ∧ signatureFits s bs = true)) :=
  ⟨wf_by (by decide +kernel), wf_by (by decide +kernel), wf_by (by decide +kernel), by decide +kernel⟩
theorem test_loadDone :
    let t := after (.loadDone .bow) (sLd 0x200000)
    (t.num 0x4C20 6, t.num 0x4C20 4) = (0, 65536) ∧ t.read 0x400280 1 = [0x0F]
    ∧ (t.half .bow).progs.map (fun p => (p.handle, p.bodyAddr)) = [(65536, 0x400280)]
    ∧ (after (.loadDone .bow) (sLd 0x300000000000)).num 0x4C20 6 = 10 := by decide +kernel
theorem test_unload : ((after (.unload .bow (.can 2 9) .bow) (sUn 8)).half .bow).progs = []
    ∧ (after (.unload .bow (.can 2 9) .bow) (sUn 7)).num 0x4C20 6 = 10 := by decide +kernel

def pw (b st : Nat) : State := nums on [(0x4D00, 8, b), (0x6D00, 8, st)]
theorem test_witness_PowerRequests :
    StoresWf on ∧ (powerState on .bow = 0 ∧ powerState (pw 1 0) .bow = 1 ∧ powerState (pw 2 0) .bow = 2 ∧ powerState (pw 3 0) .bow = 3
    ∧ powerState (pw 0 2) .bow < 2 ∧ loopsOpen (pw 0 2) .bow = true ∧ peerOut (pw 0 2) .bow = true ∧ peerOut on .bow = false
    ∧ ((pw 0 2).half .bow).power.nap = 0
    ∧ (((pw 0 2).modPower .bow (fun x => { x with nap := 1 })).half .bow).power.nap ≠ 0 ∧ ((pw 0 2).half .bow).cores = [] ∧ loopsOpen (on.setNum 0x8700 2 1) .bow = false
    ∧ transportBit (.can 2 9) = 0 ∧ transportBit (.bar0 1) ≠ 0 ∧ loopsOpen on .stern = true)
    ∧ ∀ g, (∀ q ∈ (on.half g).ctxs, q.2.ticket = none) ∧ (on.half g).done = [] ∧ inTrial on g = false :=
  ⟨wf_by (by decide +kernel), by decide +kernel, fun g => by cases g <;> decide +kernel⟩
theorem test_powerReq :
    powerState (after (.powerReqRun .bow (.can 2 9) .bow) (pw 1 0)) .bow = 0 ∧ ((after (.powerReqNap .bow (.can 2 9) .bow) (pw 0 2)).half .bow).power.nap = 1
    ∧ ((after (.powerReqNap .bow (.can 2 9) .bow) on).half .bow).power.nap = 0 ∧ (after (.opRequest .bow (.can 2 9) .bow 3) on).num 0x4D00 1 = on.num 0x4D00 1 := by
  decide +kernel
theorem test_standby : (after (.standbyReq .bow (.can 2 9)) on).standby = true ∧ (after (.standbyReq .bow (.bar0 1)) on).standby = false := by decide +kernel

/-! ### Start-up, attestation, power and supplies -/

/-- The Bow half at a stage of its boot. -/
def bt (stage ready : Nat) (f : Flash) : State :=
  nums { State.reset with bow := { halfReset with ready := ready, flash := f, power := { powerReset with supplied := true, cold := false }, boot := ⟨stage, 0, [], none⟩ } } []
def fTry (n : Nat) : Flash := { (flashReset) with preferred := 1, trial := true, tries := n }
def sTrial : State := (hs 4 1).modHalf .bow (fun x => { x with flash := fTry 2, boot := ⟨3, 1, [], some 0⟩ })
def sNon : State := on.modHalf .bow (fun x => { x with attNonce := some (List.replicate 32 7) })
theorem test_witness_StartUp :
    StoresWf (bt 0 0 flashReset) ∧ StoresWf sTrial ∧ StoresWf sNon
    ∧ (let s := bt 0 0 (fTry 0)
       (s.half .bow).boot.stage = 0 ∧ s.standby = false ∧ (s.half .bow).power.supplied = true ∧ (s.half .bow).power.supplyFault = false
       ∧ (s.half .bow).power.stuck = false ∧ (s.half .bow).boot.failed = [])
    ∧ flashReset.trial = false ∧ (fTry 1).trial = true ∧ 0 < (fTry 1).tries ∧ (fTry 0).tries = 0
    ∧ ((bt 1 1 flashReset).half .bow).boot.stage = 1 ∧ ((bt 2 1 flashReset).half .bow).boot.stage = 2 ∧ ((bt 2 1 flashReset).half .stern).boot.stage ≠ 3
    ∧ serviceChainOk ((bt 2 1 flashReset).half .bow) = true ∧ flashReset.partOk = true ∧ ((bt 2 1 flashReset).half .bow).power.cold = false ∧ ((bt 2 1 flashReset).half .bow).ready = 1
    ∧ (flashSettings (bt 2 1 flashReset) flashReset).dflts = []
    ∧ inTrial sTrial .bow = true ∧ sTrial.halfState .bow ≠ 1 ∧ inTrial on .bow = false
    ∧ ((sNon.atTime .bow 9).half .bow).attNonce = some (List.replicate 32 7) ∧ ((on.atTime .bow 9).half .bow).attNonce = none :=
  ⟨wf_by (by decide +kernel), wf_by (by decide +kernel), wf_by (by decide +kernel), by decide +kernel⟩
theorem test_resetRelease :
    let r (f : Flash) := (after (.resetRelease .bow) (bt 0 0 f)).half .bow
    (r flashReset).boot.slot = 0 ∧ ((r (fTry 1)).boot.slot, (r (fTry 1)).flash.tries) = (1, 0) ∧ (r (fTry 0)).boot = ⟨1, 0, [1], none⟩ := by decide +kernel
theorem test_trialTimeout : ((after (.fwTrialTimeout .bow) sTrial).half .bow).flash = { (fTry 2) with preferred := 0, trial := false } := by decide +kernel

def op (cur req lim : Nat) (p : Power) : State := (nums on [(0x4D00, 2, cur), (0x4D00, 1, req), (0x4D00, 3, lim)]).modPower .bow (fun _ => p)
def pRun : Power := { (powerReset) with resetN := false, cold := false }
theorem test_witness_OperatingPoints :
    StoresWf (op 0 1 0 pRun) ∧ (powerState (op 0 1 0 pRun) .bow < 2 ∧ pRun.lastChange = none ∧ pRun.raise = none ∧ pRun.vcmd = none
    ∧ max ((op 0 1 0 pRun).num 0x4D00 1) ((op 0 1 0 pRun).num 0x4D00 3) = 1 ∧ (op 0 1 0 pRun).num 0x4D00 2 = 0 ∧ (op 2 0 1 pRun).num 0x4D00 2 = 2
    ∧ max ((op 2 0 1 pRun).num 0x4D00 1) ((op 2 0 1 pRun).num 0x4D00 3) = 1 ∧ { (pRun) with vcmd := some 1, raise := some 1 }.vcmd ≠ none
    ∧ (1000000 ≤ Time.diff 1000010 (10 : Time) ∧ Time.diff 1000009 (10 : Time) < 1000000)
    ∧ (∀ p ∈ ((op 0 1 0 pRun).half .bow).cores, p.2.ctx = none) ∧ (op 0 1 0 pRun).num 0x4D00 3 < 2 ∧ 2 ≤ (op 0 1 2 pRun).num 0x4D00 3
    ∧ 100000000 ≤ Time.diff 100000010 (10 : Time) ∧ Time.diff 100000009 (10 : Time) < 100000000 ∧ 0 < (op 0 1 2 pRun).num 0x4D00 3) :=
  ⟨wf_by (by decide +kernel), by decide +kernel⟩
theorem test_opChange :
    (after (.opChange .bow 5) (op 0 1 0 pRun)).num 0x4D00 2 = 1 ∧ (after (.opChange .bow 5) (op 2 0 1 pRun)).num 0x4D00 2 = 2
    ∧ (after (.opChange .bow 5) (op 2 0 1 pRun)).outbox = [.regulator .bow 680]
    ∧ (after (.vrAck .bow 5) (op 2 0 1 { (pRun) with vcmd := some 1, raise := some 1 })).num 0x4D00 2 = 1 := by decide +kernel
theorem test_heat :
    (after (.thermalSample .bow [1952] 5) (op 0 0 0 pRun)).num 0x4D00 3 = 2 ∧ ((after (.thermalSample .bow [2032] 5) (op 0 0 0 pRun)).half .bow).power.hold = true
    ∧ (after (.thermalSample .bow [1951, -16] 5) (op 0 0 0 pRun)).num 0x4D00 3 = 0
    ∧ (after (.throttle .bow 1000010) (op 0 0 0 { (pRun) with hotSince := some 10 })).num 0x4D00 3 = 1
    ∧ (after (.throttle .bow 100000010) (op 0 0 2 { (pRun) with coolSince := some 10 })).num 0x4D00 3 = 1 := by decide +kernel

def np (st n req : Nat) : State := (pw st 0).modPower .bow (fun _ => { (pRun) with nap := n, req := req })
theorem test_witness_NapAndWake :
    StoresWf (np 0 0 1) ∧ ((np 0 0 1).half .bow).power.req = 1 ∧ powerState (np 0 0 1) .bow = 0 ∧ ((np 0 0 1).half .bow).power.nap = 0
    ∧ ((np 0 0 1).half .bow).ready = 3 ∧ (∀ p ∈ ((np 0 0 1).half .bow).cores, p.2.ctx = none) ∧ (∀ c < (np 0 0 1).part.cores, springState (np 0 0 1) .bow c ≠ 2)
    ∧ ((np 0 0 0).half .bow).power.req ≠ 1 ∧ ((np 0 1 2).half .bow).power.nap = 1 ∧ ((np 0 2 2).half .bow).power.nap = 2 ∧ (∀ p ∈ ((np 0 1 2).half .bow).ctxs, isResident p.2 = false)
    ∧ powerState (np 2 3 0) .bow = 2 ∧ ((np 2 3 0).half .bow).power.nap = 3 ∧ { (np 0 0 0) with standby := true }.standby = true
    ∧ (np 2 0 0).standby = false ∧ powerState (np 2 0 0) (Half.bow).other ≠ 2 := ⟨wf_by (by decide +kernel), by decide +kernel⟩
theorem test_nap :
    powerState (after (.idleEntry .bow 5) (np 0 0 1)) .bow = 1 ∧ powerState (after (.napEntryDone .bow 5) (np 0 1 2)) .bow = 2
    ∧ powerState (after (.napWakeDone .bow 5) (np 2 3 0)) .bow = 0 ∧ ((after .dWake (np 2 0 0)).half .bow).power.nap = 3
    ∧ (after (.canWake .stern) { (np 0 0 0) with standby := true }).num 0x4D00 0x0B = 2 := by decide +kernel

def lowR : State := { State.reset with bow := { halfReset with power := { powerReset with resetN := true } }, stern := { halfReset with power := { powerReset with resetN := true } } }
def scanAt (tap ir : Nat) : State := { lowR with scan := { lowR.scan with tap := tap, ir := ir, cells := [true, false] } }
def cold1 : State := (bt 3 1 flashReset).modPower .bow (fun x => { x with cold := true })
theorem test_witness_Supplies :
    StoresWf lowR ∧ StoresWf cold1 ∧ StoresWf (bt 3 2 flashReset)
    ∧ (lowR.half .bow).power.resetN = true ∧ ((bt 3 1 flashReset).modPower .bow (fun x => { x with resetN := false }) |>.half .bow).power.resetN = false
    ∧ (cold1.half .bow).boot.stage = 3 ∧ (cold1.half .bow).ready = 1 ∧ (cold1.half .bow).power.cold = true ∧ (cold1.half .bow).power.stuck = false
    ∧ (let v := (bt 3 2 flashReset).half .bow
       v.boot.stage = 3 ∧ v.ready = 2 ∧ v.power.stuck = false ∧ v.service = [])
    ∧ (bt 3 2 flashReset).part.spareBow = [] ∧ (bt 3 2 flashReset).part.spareStern = []
    ∧ (scanAt 4 1).bow.power.resetN = true ∧ (scanAt 4 1).stern.power.resetN = true ∧ (scanAt 4 1).scan.tap = 4 ∧ (scanAt 4 1).scan.ir = 1
    ∧ (scanAt 4 2).scan.ir ≠ 0 ∧ (scanAt 4 2).scan.ir ≠ 1 ∧ (scanAt 8 0).scan.tap = 8
    ∧ (bt 3 2 flashReset).halfState .bow ≠ 4 ∧ (bt 3 2 flashReset).halfState .bow ≠ 5 ∧ ((bt 3 2 flashReset).setNum 0x4B00 1 4).halfState .bow = 4 ∧ on.bow.power.resetN = false :=
  ⟨wf_by (by decide +kernel), wf_by (by decide +kernel), wf_by (by decide +kernel), by decide +kernel⟩
theorem test_supplies :
    ((after (.suppliesApplied .bow) lowR).half .bow).power.supplied = true ∧ ((after (.dramZeroWrite .bow) cold1).half .bow).ready = 2
    ∧ ((after (.startupBoundMiss .bow) cold1).half .bow).power.stuck = true ∧ ((after (.supplyFault .bow 3) on).half .bow).power.supplyFault = true
    ∧ ((after (.resetNAssert .bow) on).half .bow).ready = 0 := by decide +kernel
theorem test_ready3 : ((after (.ready3 .bow 5) (bt 3 2 flashReset)).half .bow).ready = 3 ∧ (after (.ready3 .bow 5) (bt 3 2 flashReset)).halfState .bow = 1
    ∧ (after (.ready3 .bow 5) ((bt 3 2 flashReset).setNum 0x4B00 1 4)).halfState .bow = 4 := by
  decide +kernel
theorem test_scan :
    (after (.boundaryScan true true true) (scanAt 4 1)).scan.cells = [false, true] ∧ (after (.boundaryScan true true true) (scanAt 4 1)).scan.tap = 5
    ∧ (after (.boundaryScan false false false) (scanAt 4 1)).outbox = [.tdo true] := by decide +kernel

/-! ### Core commands -/

/-- Slots of a descriptor: slot and tag. -/
def slots (l : List (Nat × Nat)) : Nat := (l.map (fun p => 2 ^ (8 + p.1) + p.2 * 2 ^ (16 + 6 * p.1))).foldl (· + ·) 0
/-- The Pool of core 0, tag `t` of 2 KiB. -/
def pl (t : Nat) : Nat := poolBase .bow 0 + 2048 * t
/-- The command core 0 has in its window for context 3. -/
def ofRun (f : CoreSt → CoreSt) : State := sRun.setCore .bow 0 (f (sRun.core .bow 0))
theorem idle_by {s : State} {d : Nat}
    (w : Memory.wf s.mem = true ∧ Tab.sortedFrom none s.dict = true ∧ Tab.sortedFrom none s.dictBytes = true ∧ TablesWf s.bow ∧ TablesWf s.stern)
    (h : (s.core .bow 0).ctx = some 3 ∧ (s.ctx .bow 3).startT.isSome = true ∧ (s.half .bow).power.hold = false
      ∧ ((s.core .bow 0).restoring = false ∧ (s.core .bow 0).wait = none ∧ (s.core .bow 0).moor = none) ∧ (s.core .bow 0).inflight = []
      ∧ (∀ p ∈ (s.half .bow).cores, p.2.window = []) ∧ (s.core .bow 0).fetch + cmdBytes d ≤ (s.core .bow 0).streamLen)
    (hc : cleanMem s := by exact ⟨rfl, rfl, rfl⟩) : CoreIdle s .bow 0 3 d :=
  ⟨wf_by w, h.1, h.2.1, h.2.2.1, h.2.2.2.1, h.2.2.2.2.1, h.2.2.2.2.2.1, h.2.2.2.2.2.2, decodeCmd_clean _ _ _ _ _ hc⟩
theorem runs_by {s : State} {d : Nat}
    (h : let u := issued s .bow 0 d
         let e := issuedEnv s .bow 0 d
         let p := planOf u e []
         (s.lineErr = [] ∧ s.sramBad = [] ∧ s.upsets = []) ∧ s.poison = []
         ∧ rangesVerdict u .bow (effClass u .bow e.n) false p.reads = .ok ∧ rangesVerdict u .bow (effClass u .bow e.n) true p.writes = .ok
         ∧ p.exec = false ∧ hitsStream u .bow e.n (p.writes ++ p.poolW) = false ∧ missingLines u .bow p.reads [] = []) : RunsAtOnce s .bow 0 d := h

/-- `MOVE` in mode `m` of two rows of 16 bytes from tag 1 to tag 0; `FILL` with the value 0xA5. -/
def dMove (m : Nat) : Nat :=
  1 + slots (if m = 5 then [(1, 0)] else [(0, 1), (1, 0)]) + 2 ^ 64 * m + (if m = 5 then 0 else 2 ^ 71) + 2 ^ 72 + 2 ^ 88 * 16 + 2 ^ 104 * 4
  + (if m = 5 then 2 ^ 160 * 0xA5 else 2 ^ 120 * 32) + 2 ^ 140 * 64
def sMv : State := sRun.write (pl 1) (upto 64 (fun i => BitVec.ofNat 8 (i + 1)))
theorem test_witness_Moves :
    ∀ m ≤ 5, CoreReady sMv .bow 0 3 (dMove m) ∧ RunsAtOnce sMv .bow 0 (dMove m)
      ∧ (opcodeOf (dMove m) = 1 ∧ moveMode (dMove m) = m ∧ dMove m < 2 ^ 256 ∧ bitAt (dMove m) 72 = true ∧ (m = 5 ∨ bitAt (dMove m) 71 = true))
      ∧ let rows := moveRows (issuedEnv sMv .bow 0 (dMove m))
        (rows.map (fun r => (r.2.1, List.replicate r.2.2 (0 : Byte)))).Pairwise (fun x y => x.1 + x.2.length ≤ y.1 ∨ y.1 + y.2.length ≤ x.1)
        ∧ (∀ r ∈ rows, ∀ w ∈ rows, r.1 + r.2.2 ≤ w.2.1 ∨ w.2.1 + w.2.2 ≤ r.1) := by
  intro m hm
  have h : m = 0 ∨ m = 1 ∨ m = 2 ∨ m = 3 ∨ m = 4 ∨ m = 5 := by omega
  obtain rfl | rfl | rfl | rfl | rfl | rfl := h
  all_goals exact ⟨⟨idle_by (by decide +kernel) (by decide +kernel), by decide +kernel⟩, runs_by (by decide +kernel), by decide +kernel
    , by decide +kernel⟩
/-- R145: a 2 x 2 block of pixels becomes the channels of one. -/
theorem test_moves :
    (after (.move .bow 0 (BitVec.ofNat 256 (dMove 0))) sMv).read (pl 0 + 64) 3 = [33, 34, 35]
    ∧ (after (.s2c2 .bow 0 (BitVec.ofNat 256 (dMove 1))) sMv).read (pl 0) 8 = [1, 2, 33, 34, 3, 4, 35, 36]
    ∧ (after (.c2s2 .bow 0 (BitVec.ofNat 256 (dMove 3))) sMv).read (pl 0) 4 = [1, 2, 5, 6]
    ∧ (after (.fill .bow 0 (BitVec.ofNat 256 (dMove 5))) sMv).read (pl 0) 6 = [0xA5, 0, 0, 0, 0xA5, 0] := by decide +kernel

/-- INT8 weights of form 0 in tag 0, rows in tag 1, scales in tag 2, output to tag 3. -/
def dLoadw : Nat := 2 + slots [(0, 0)] + 2 ^ 96 * 16
def dStream (req : Bool) : Nat := 3 + slots (if req then [(0, 1), (1, 3), (2, 2)] else [(0, 1)]) + 2 ^ 108 + (if req then 2 ^ 77 + 2 ^ 136 * 128 else 0)
def blk : WBlk := ⟨0, .int8, 0, List.replicate 256 3, [], []⟩
def ones : List Byte := (List.replicate 16 (natLe 4 f1)).flatten
def sSt : State := ((sRun.setCore .bow 0 { sRun.core .bow 0 with wActive := some blk }).write (pl 1) [2, 5]).write (pl 2) ones
def sRq : State := after (.stream .bow 0 (BitVec.ofNat 256 (dStream true))) sSt
theorem test_witness_GangCommands :
    (CoreReady sRun .bow 0 3 dLoadw ∧ RunsAtOnce sRun .bow 0 dLoadw) ∧ (CoreReady sSt .bow 0 3 (dStream false) ∧ RunsAtOnce sSt .bow 0 (dStream false))
    ∧ (CoreReady sSt .bow 0 3 (dStream true) ∧ RunsAtOnce sSt .bow 0 (dStream true)) ∧ StoresWf sRq
    ∧ (opcodeOf dLoadw = 2 ∧ (fmtOf (fld dLoadw 68 64)).isSome = true ∧ opcodeOf (dStream true) = 3 ∧ streamBlock (sSt.core .bow 0) = some blk
      ∧ (sRun.rollOf .bow 0).pend = [] ∧ (sRun.rollOf .bow 0).armed = [] ∧ (sRun.rollOf .bow 0).testSpare = none
      ∧ bitAt (dStream false) 77 = false ∧ bitAt (dStream true) 77 = true
      ∧ (sRq.core .bow 0).runs.length = 1 ∧ (sRq.core .bow 0).inflight.map (fun f => (f.cid, f.cmd.d)) = (sRq.core .bow 0).runs.map (fun r => (r.cid, dStream true))
      ∧ slotTag (dStream true) 4 = none ∧ (sRq.core .bow 0).ctx = some 3 ∧ (sRun.core .bow 0).runs = []) :=
  ⟨⟨⟨idle_by (by decide +kernel) (by decide +kernel), by decide +kernel⟩, runs_by (by decide +kernel)⟩
    , ⟨⟨idle_by (by decide +kernel) (by decide +kernel), by decide +kernel⟩, runs_by (by decide +kernel)⟩
    , ⟨⟨idle_by (by decide +kernel) (by decide +kernel), by decide +kernel⟩, runs_by (by decide +kernel)⟩, wf_by (by decide +kernel), by decide +kernel⟩
/-- R48, R77: 2·3 + 5·3 in every column. -/
theorem test_stream :
    ((after (.stream .bow 0 (BitVec.ofNat 256 (dStream false))) sSt).core .bow 0).tile.map (fun t => t.accs.map (·.basin.toInt)) = some (List.replicate 16 21)
    ∧ (((after (.loadw .bow 0 (BitVec.ofNat 256 dLoadw)) (sRun.write (pl 0 + 16) [7])).core .bow 0).wNext.map (fun b => (b.codes.length, nth b.codes 16)))
      = some (256, 7) := by decide +kernel
theorem test_requantise : (after (.requantiseTile .bow 0) sRq).read (pl 3) 17 = List.replicate 16 21 ++ [0] := by decide +kernel

/-- A 1 x 1 `CONV` of 16 channels over an image of `w` pixels of one line, weights in tag 3, output to tag 4. -/
def dConv (w : Nat) : Nat :=
  4 + slots [(0, 1), (1, 4), (2, 2), (3, 3)] + 2 ^ 77 + 2 ^ 136 * 128 + 2 ^ 176 * 16 + 2 ^ 208 * 16 + 2 ^ 256 + 2 ^ 256 * 2 ^ 16 * w + 2 ^ 256 * 2 ^ 32 + 2 ^ 256 * 2 ^ 40 + 2 ^ 256 * 2 ^ 48
  + 2 ^ 256 * 2 ^ 56 + 2 ^ 256 * 2 ^ 64 + 2 ^ 256 * 2 ^ 72 + 2 ^ 256 * 2 ^ 112 * 16
/-- A `CROP` of one sample: box list in a Mere, source in tag 1, output to tag 4. -/
def dCrop : Nat := 5 + slots [(0, 1), (1, 4)] + 2 ^ 69 + 2 ^ 82 + 2 ^ 95 + 2 ^ 103 + 2 ^ 111 + 2 ^ 128 + 2 ^ 144
/-- A 1 x 1 `POOL` over an image of `w` pixels. -/
def dPool (w : Nat) : Nat := 6 + slots [(0, 1), (1, 4)] + 2 ^ 76 + 2 ^ 80 + 2 ^ 84 + 2 ^ 88 + 2 ^ 128 + 2 ^ 144 * w + 2 ^ 160 + 2 ^ 176 * 16
/-- An FP32 addition of `n` elements of tags 2 and 2, to tag 4. -/
def dVec (n : Nat) : Nat := 7 + slots [(0, 2), (1, 2), (3, 4)] + 2 ^ 64 * 2 + 2 ^ 72 * 13 + 2 ^ 77 * 13 + 2 ^ 82 * 13 + 2 ^ 87 * 13 + 2 ^ 102 * n
/-- A dense BF16 `ATTN` of one row over one key: query in tag 1, state in tag 9 of 64 KiB, records in tag 5, output to tag 4. -/
def dAttn : Nat :=
  8 + slots [(0, 1), (1, 4), (2, 9), (4, 5)] + 2 ^ 66 + 2 ^ 71 * 11 + 2 ^ 76 * 11 + 2 ^ 81 * 11 + 2 ^ 86 * 11 + 2 ^ 101 + 2 ^ 107 + 2 ^ 133 + 2 ^ 141 + 2 ^ 147 * 2
  + 2 ^ 153 + 2 ^ 173 * 128 + 2 ^ 192 * f1 + 2 ^ 224 * f1 + 2 ^ 256 * 32 + 2 ^ 256 * 2 ^ 20 * 32
def sKn : State :=
  let s := (sSt.setCore .bow 0 { sSt.core .bow 0 with
    args := [0x2000000000, 0x500000, 0x600000], tags := (List.range 64).map (fun t => if t = 9 then 0x2000 + 2047 * 65536 else t * 64 + 63 * 65536) })
  let s := (s.write (pl 3) (List.replicate 32 3)).write 0x2000000000 (natLe 16 (2 ^ 64 * 4096 + 2 ^ 96 * 4096))
  (s.write 0x600000 (List.replicate 16 [0x80, 0x3F]).flatten).write (pl 5) (natLe 8 (2 ^ 48 * 0xFFFF))
theorem sKn_wf : Memory.wf sKn.mem = true ∧ Tab.sortedFrom none sKn.dict = true ∧ Tab.sortedFrom none sKn.dictBytes = true ∧ TablesWf sKn.bow
    ∧ TablesWf sKn.stern := by decide +kernel
theorem test_witness_Kernels :
    (∀ d ∈ [dConv 0, dConv 1, dCrop, dPool 0, dPool 1, dVec 0, dVec 3, dAttn], CoreReady sKn .bow 0 3 d ∧ RunsAtOnce sKn .bow 0 d)
    ∧ ((sKn.rollOf .bow 0).pend = [] ∧ (sKn.rollOf .bow 0).armed = [] ∧ (sKn.rollOf .bow 0).testSpare = none
      ∧ slotTag (dConv 1) 4 = none ∧ convPixels (dConv 0) = 0 ∧ 0 < convPixels (dConv 1) ∧ (poolWindows (dPool 0)).isEmpty = true
      ∧ (poolWindows (dPool 1)).isEmpty = false ∧ vecLen (dVec 0) = 0 ∧ vecLen (dVec 3) ≠ 0 ∧ vecKind (vecOp (dVec 3)) = some .two
      ∧ slotTag dAttn 6 = none ∧ (atFmts dAttn).isSome = true
      ∧ (∀ d ∈ [dConv 0, dConv 1], opcodeOf d = 4 ∧ d < 2 ^ 512) ∧ opcodeOf dCrop = 5 ∧ opcodeOf (dPool 1) = 6 ∧ opcodeOf (dVec 3) = 7 ∧ opcodeOf dAttn = 8
      ∧ (∀ d ∈ [dConv 1, dCrop, dPool 1, dVec 3], [fmtOf (fld d 68 64), fmtOf (fld d 73 69)].all (·.isSome) = true)) := by
  refine ⟨fun d hd => ?_, by decide +kernel⟩
  have h : d = dConv 0 ∨ d = dConv 1 ∨ d = dCrop ∨ d = dPool 0 ∨ d = dPool 1 ∨ d = dVec 0 ∨ d = dVec 3 ∨ d = dAttn := by simpa using hd
  obtain rfl | rfl | rfl | rfl | rfl | rfl | rfl | rfl := h
  all_goals exact ⟨⟨idle_by sKn_wf (by decide +kernel), by decide +kernel⟩, runs_by (by decide +kernel)⟩
/-- R115, R117: (2 + 5)·3 by every output; the maximum of one pixel; R116: the sample at the middle of the only pixel's box. -/
theorem test_kernels :
    (after (.conv .bow 0 (BitVec.ofNat 512 (dConv 1))) sKn).read (pl 4) 17 = List.replicate 16 21 ++ [0]
    ∧ (after (.pool .bow 0 (BitVec.ofNat 256 (dPool 1))) sKn).read (pl 4) 2 = [2, 0]
    ∧ (after (.crop .bow 0 (BitVec.ofNat 256 dCrop)) sKn).read (pl 4) 2 = [2, 0] := by decide +kernel
/-- R118: 1.0 + 1.0; R166 to R175: one key has weight 1, the output is its value. -/
theorem test_vec_attn :
    (after (.vec .bow 0 (BitVec.ofNat 256 (dVec 3))) sKn).readNat (pl 4) 16 = f2 * (1 + 2 ^ 32 + 2 ^ 64)
    ∧ (let e := issuedEnv sKn .bow 0 dAttn
       let f : AtFmt := ⟨.bf16, .bf16, .bf16, .bf16, .int8, .int8⟩
       let ks := atKeyLists sKn e f
       let rows := ((atBlocks e (atQRecs sKn e) ks).foldl (atStep sKn e f (atQRecs sKn e) [List.replicate 16 0] [] 1)
         ([atRow0 sKn e 0], statZero, statZero)).1
       rows.map (fun r => (atOutCodes dAttn f r).map Prod.fst) = [List.replicate 16 0x3F80]) := by decide +kernel

/-! ### Synchronisation, moorings, rolling test, faults -/

/-- Core 0 is to moor at its next mooring. -/
def sDue : State := ofRun (fun k => { k with preempt := true })
def sSem (x : Sem) : State := (sRun.setSem .bow 5 x).setCtx .bow 3 { sRun.ctx .bow 3 with sem := x.holder.map (fun _ => 5) }
def dSem (rel : Bool) : Nat := 9 + 2 ^ 66 * 5 + (if rel then 2 ^ 64 else 0)
/-- A `GATE` on ticket time `t`; a `MOOR` with tag 2 live; a `TALLY` of row 9 with its bitmap at argument 0; an `END`. -/
def dGate (t : Nat) : Nat := 0x0A + 2 ^ 64 + 2 ^ 192 * t
def dMoor : Nat := 0x0B + 2 ^ 130
def dTally (map : Bool) : Nat := 0x0C + slots [(0, 1)] + 2 ^ 70 + 2 ^ 71 * 2 + 2 ^ 128 * 9 + 2 ^ 192 * 7 + (if map then 2 ^ 80 else 0)
def sOth : State :=
  (sRun.setSem .bow 5 ⟨some 3, [(0, 4, 1)]⟩).modHalf .bow (fun x => { x with
    ctxs := [(3, { sRun.ctx .bow 3 with sem := some 5 }), (4, { sRun.ctx .bow 3 with ticket := none })]
    cores := [(0, sRun.core .bow 0), (1, { coreFree with ctx := some 4, wait := some ⟨dSem false, 0⟩ })] })
def sGw (t : Nat) : State := ofRun (fun k => { k with wait := some ⟨dGate t, 0⟩ })
/-- A program on cores 0 and 1. -/
def s2 : State := sRun.setCtx .bow 3 { sRun.ctx .bow 3 with
  ticket := some { (tk7) with prog := { (prog7) with cores := [pc0, { (pc0) with lcore := 1, streamBase := 0x310000 }] } } }
theorem test_witness_Synchronisation :
    (CoreReady sRun .bow 0 3 (dSem false) ∧ CoreReady (sSem ⟨some 4, []⟩ |>.setCtx .bow 3 (sRun.ctx .bow 3)) .bow 0 3 (dSem false)
      ∧ CoreReady sDue .bow 0 3 (dSem false) ∧ CoreReady (sSem ⟨some 3, []⟩) .bow 0 3 (dSem true) ∧ CoreReady sOth .bow 0 3 (dSem true)
      ∧ CoreReady sRun .bow 0 3 (dGate 0) ∧ CoreReady sRun .bow 0 3 (dGate 1000) ∧ CoreReady sDue .bow 0 3 (dGate 0) ∧ CoreReady sRun .bow 0 3 dMoor
      ∧ CoreReady sDue .bow 0 3 dMoor ∧ CoreReady sRun .bow 0 3 (dTally true) ∧ CoreReady sRun .bow 0 3 (dTally false) ∧ CoreReady sRun .bow 0 3 0x0D
      ∧ CoreReady s2 .bow 0 3 0x0D)
    ∧ StoresWf (sGw 0)
    ∧ (mooringDue (taken sRun .bow 0 dMoor) .bow 0 = false ∧ mooringDue (taken sDue .bow 0 dMoor) .bow 0 = true ∧ semId (dSem false) = 5
      ∧ (sRun.sem .bow 5).holder = none ∧ ((sSem ⟨some 4, []⟩).sem .bow 5).holder = some 4 ∧ ((sSem ⟨some 3, []⟩).sem .bow 5).waiters = []
      ∧ firstWaiter (sOth.sem .bow 5).waiters = some (0, 4, 1) ∧ (sOth.core .bow 1).ctx = some 4 ∧ (∀ y ∈ (sOth.sem .bow 5).waiters, y.2.1 ≠ 3 ∧ (sOth.ctx .bow y.2.1).sem = none)
      ∧ gateHolds sRun .bow 3 (dGate 0) (sRun.core .bow 0).args = true ∧ gateHolds sRun .bow 3 (dGate 1000) (sRun.core .bow 0).args = false
      ∧ isPaired sRun .bow 3 = false ∧ bitAt (dTally true) 80 = true ∧ bitAt (dTally false) 80 = false
      ∧ accessVerdict sRun .bow (effClass sRun .bow 3) true (tallyAddr (envOf sRun .bow 0 (cmdAt sRun .bow 0 (dTally true)) (sRun.half .bow).nextCid [])) 1 = .ok
      ∧ (sRun.ctx .bow 3).ticket = some tk7 ∧ (sRun.ctx .bow 3).state ≠ .ending
      ∧ (progCores .bow tk7.prog).all (fun m => [0].contains m) = true ∧ ((sGw 0).core .bow 0).wait = some ⟨dGate 0, 0⟩)
    ∧ errorFree sRun ∧ sRun.poison = [] ∧ ownBytes sRun .bow (tallyAddr (envOf sRun .bow 0 (cmdAt sRun .bow 0 (dTally true)) (sRun.half .bow).nextCid [])) 1 := by
  refine ⟨?_, wf_by (by decide +kernel), by decide +kernel, ⟨rfl, rfl, rfl⟩, rfl, fun i hi => ?_⟩
  · refine ⟨?_, ?_, ?_, ?_, ?_, ?_, ?_, ?_, ?_, ?_, ?_, ?_, ?_, ?_⟩
    all_goals exact ⟨idle_by (by decide +kernel) (by decide +kernel), by decide +kernel⟩
  · have h : i = 0 := by omega
    subst h
    exact .inl (by decide +kernel)
theorem test_sem :
    ((after (.semAcquire .bow 0 (BitVec.ofNat 256 (dSem false))) sRun).sem .bow 5).holder = some 3
    ∧ ((after (.semRelease .bow 0 (BitVec.ofNat 256 (dSem true))) sOth).sem .bow 5) = ⟨some 4, []⟩
    ∧ ((after (.semRelease .bow 0 (BitVec.ofNat 256 (dSem true))) sOth).core .bow 1).wait = none := by decide +kernel
theorem test_gate :
    (((after (.gate .bow 0 (BitVec.ofNat 256 (dGate 1000))) sRun).core .bow 0).wait).isSome = true
    ∧ ((after (.gate .bow 0 (BitVec.ofNat 256 (dGate 0))) sRun).core .bow 0).wait = none
    ∧ ((after (.gateOpen .bow 0 1000) (sGw 1000)).core .bow 0).wait = none ∧ (((after (.gateOpen .bow 0 999) (sGw 1000)).core .bow 0).wait).isSome = true
    ∧ ((after (.moor .bow 0 (BitVec.ofNat 256 dMoor)) sDue).core .bow 0).moor = some ⟨⟨dMoor, 0⟩, true⟩ := by decide +kernel
/-- R131: bit 9 of the bitmap at 0x1000000; the row counter. -/
theorem test_tally :
    let t := after (.tally .bow 0 (BitVec.ofNat 256 (dTally true))) sRun
    t.read 0x1000000 2 = [0, 2] ∧ (t.ctx .bow 3).rows = [(2, 7)] ∧ (t.ctx .bow 3).progress = 1 := by decide +kernel
theorem test_end :
    let t := after (.endCmd .bow 0 0x0D) sRun
    (t.half .bow).done.map (fun r => (r.status, r.queue, r.seq)) = [(0, 5, 9)] ∧ (t.core .bow 0).ctx = none
    ∧ ((after (.endCmd .bow 0 0x0D) s2).half .bow).done = [] := by decide +kernel

/-- Core 0 at a taken mooring with tag 2 live; its context saved with `SEM` granted; a command in flight; a test spare. -/
def sMo : State := (ofRun (fun k => { k with moor := some ⟨⟨dMoor, 0⟩, true⟩ })).write (pl 2) [1, 2]
def sRs : State :=
  (ofRun (fun k => { k with restoring := true })).setCtx .bow 3 { sRun.ctx .bow 3 with
    sem := some 5, saved := [⟨0, ⟨dSem false, 0x40⟩, tk7.args, none, [(2, [1, 2])], false, 0⟩] }
def fl (ran : Bool) : Flight := ⟨⟨dVec 0, 0⟩, 6, ran, [], 0, statZero, [], false, false⟩
def sFl (ran : Bool) : State := ofRun (fun k => { k with inflight := [fl ran] })
def sRo (l : Bool) : State := (on.setRoll .bow 0 ⟨0, [], [], some 1, 1, l, false⟩).setNum 0xA021 0 1
/-- The context gives up its slot; the swap ways are taken; the buffers have drained to the save area. -/
def sEv : State := sMo.setCtx .bow 3 { sMo.ctx .bow 3 with evict := true }
def sFull : State := sMo.setNum 0x4300 9 0
def sRd (full : Bool) : State :=
  (sRs.setCtx .bow 3 { sRs.ctx .bow 3 with saved := [⟨0, ⟨dSem false, 0x40⟩, tk7.args, none, [(2, [1, 2])], true, 0⟩] }).setNum 0x4300 9 (if full then 0 else 3)
/-- Core 0 with spares 0, 2 and 3 bad or in service: position 7 waits for the test spare; and without a spare open. -/
def allBad : Nat := spareMarkBad (spareMarkBad (spareMarkBad 0 0) 2) 3
def sPd : State := sRo true |>.setRoll .bow 0 ⟨allBad, [(7, 1)], [], some 1, 1, true, false⟩
def sNs : State := sRo false |>.setRoll .bow 0 ⟨spareMarkBad allBad 1, [], [], none, 1, false, false⟩
theorem test_witness_CoreEvents :
    (StoresWf sEv ∧ StoresWf (sRd false) ∧ StoresWf sPd ∧ StoresWf sNs ∧ cleanMem sMo ∧ cleanMem sRs ∧ cleanMem (sRd true)) ∧
    (StoresWf sMo ∧ StoresWf sRs ∧ StoresWf (sFl true) ∧ StoresWf (sRo true))
    ∧ ((sMo.core .bow 0).ctx = some 3 ∧ (sMo.core .bow 0).moor = some ⟨⟨dMoor, 0⟩, true⟩ ∧ (sMo.core .bow 0).inflight = [] ∧ sMo.poison = []
      ∧ (sMo.ctx .bow 3).state = .running ∧ (∀ p ∈ (sMo.half .bow).cores, p.1 ≠ 0 → p.2.ctx ≠ some 3 ∧ p.2.wait = none)
      ∧ (sMo.core .bow 0).wait = none ∧ sMo.num (hk8 .bow 0xA032) 0 = 0
      ∧ swapUsed sMo .bow 0 + (((liveTags (sMo.core .bow 0) dMoor).map (tagLen (sMo.core .bow 0).tags)).foldl (· + ·) 0) ≤ swapCapacity sMo .bow
      ∧ (sMo.ctx .bow 3).evict = false ∧ (sEv.ctx .bow 3).evict = true
      ∧ swapCapacity sFull .bow < swapUsed sFull .bow 0 + (((liveTags (sFull.core .bow 0) dMoor).map (tagLen (sFull.core .bow 0).tags)).foldl (· + ·) 0)
      ∧ (((sRd true).ctx .bow 3).saved.map (fun v => decide (swapCapacity (sRd true) .bow < swapUsed (sRd true) .bow 0 + savedBytes v))) = [true]
      ∧ (((sRd false).ctx .bow 3).saved.map (fun v => decide (swapUsed (sRd false) .bow 0 + savedBytes v ≤ swapCapacity (sRd false) .bow))) = [true]
      ∧ rollRuns sPd .bow 0 = true ∧ (sPd.rollOf .bow 0).pend = [(7, 1)] ∧ inTrial sPd .bow = false
      ∧ (∀ j < 4, spareIdle (spareMarkBad (sPd.rollOf .bow 0).word 1) j = false)
      ∧ rollRuns sNs .bow 0 = true ∧ (∀ j < 4, spareOpen (sNs.rollOf .bow 0) j = false)
      ∧ ((sFl true).core .bow 0).inflight ≠ [] ∧ (∀ p ∈ ((sFl true).half .bow).cores, p.2.window = [] ∧ p.2.wait = none)
      ∧ (sRs.core .bow 0).restoring = true ∧ (sRs.ctx .bow 3).ticket = some tk7 ∧ (sRs.ctx .bow 3).saved.find? (fun w => w.core == 0) = (sRs.ctx .bow 3).saved.head?
      ∧ progCore .bow tk7.prog 0 = some pc0 ∧ opcodeOf (dSem false) = 9 ∧ (sRs.ctx .bow 3).sem = some (semId (dSem false)) ∧ reloadBit (dSem false) = false
      ∧ (∀ p ∈ (sRs.half .bow).cores, p.2.window = [])
      ∧ ((sFl true).core .bow 0).inflight[0]? = some (fl true) ∧ ((sFl true).half .bow).power.hold = false ∧ (fl true).ran = true ∧ (fl false).ran = false
      ∧ ((sFl true).half .bow).xfers.any (fun y => y.core == 0 && y.cid == 6) = false
      ∧ rollRuns (sRo true) .bow 0 = true ∧ ((sRo true).rollOf .bow 0).testSpare = some 1 ∧ ((sRo false).rollOf .bow 0).lbist = false
      ∧ rollRuns ((sRo true).setNum 0xA021 0 3) .bow 0 = false)
    ∧ errorFree sMo :=
  ⟨⟨wf_by (by decide +kernel), wf_by (by decide +kernel), wf_by (by decide +kernel), wf_by (by decide +kernel), ⟨rfl, rfl, rfl⟩, ⟨rfl, rfl, rfl⟩, ⟨rfl, rfl, rfl⟩⟩
    , ⟨wf_by (by decide +kernel), wf_by (by decide +kernel), wf_by (by decide +kernel), wf_by (by decide +kernel)⟩, by decide +kernel, rfl, rfl, rfl⟩
theorem test_save :
    ((after (.contextSaveDone .bow 0) sMo).ctx .bow 3).saved.map (fun v => v.live.map (fun p => (p.1, p.2.length, p.2.take 2))) = [[(2, 2048, [1, 2])]] := by
  decide +kernel
/-- R220, R227: a context that gives up its slot goes to its save area; a full cluster delays a restore from there. -/
theorem test_save_evicts :
    ((after (.contextSaveDone .bow 0) sEv).ctx .bow 3).state = .unloaded ∧ after (.contextSaveDone .bow 0) sFull = sFull
    ∧ after (.contextRestore .bow 0) (sRd true) = sRd true ∧ ((after (.contextRestore .bow 0) (sRd false)).core .bow 0).restoring = false := by decide +kernel
/-- R87, R92: the last spare fails its test with a position promised to it; no pass runs where no spare is open. -/
theorem test_last_spare :
    coreRetired (after (.lbistEnd .bow 0 false) sPd) .bow 0 = true ∧ (after (.rollPassEnd .bow 0) sNs).num 0xA021 0 = 2 := by decide +kernel
theorem test_restore :
    let t := after (.contextRestore .bow 0) sRs
    t.read (pl 2) 2 = [1, 2] ∧ (t.core .bow 0).fetch = 0x60 ∧ (t.core .bow 0).restoring = false := by decide +kernel
theorem test_complete : ((after (.commandComplete .bow 0 0) (sFl true)).core .bow 0).inflight = [] ∧ after (.commandComplete .bow 0 0) (sFl false) = sFl false := by
  decide +kernel
/-- R88, R90, R92: the next pass takes the next free spare in cyclic order. -/
theorem test_roll :
    ((after (.rollPassEnd .bow 0) (sRo false)).rollOf .bow 0).testSpare = some 2 ∧ (after (.rollPassEnd .bow 0) (sRo false)).num 0xA022 0 = 1
    ∧ spareBad ((after (.lbistEnd .bow 0 false) (sRo true)).rollOf .bow 0).word 1 = true ∧ (after (.lbistEnd .bow 0 true) (sRo true)).num 0xA021 0 = 1 := by
  decide +kernel

/-- The active block is of form 1, the `STREAM` of form 0. -/
def sF1 : State := ofRun (fun k => { k with wActive := some { (blk) with form := 1 } })
theorem test_witness_StreamForm :
    CoreIdle sF1 .bow 0 3 (dStream false) ∧ CoreIdle sRun .bow 0 3 (0x0D + 2 ^ 64) ∧ CoreIdle sRun .bow 0 3 4 ∧ CoreIdle sRun .bow 0 3 8
    ∧ (opcodeOf (dStream false) = 3 ∧ streamBlock (sF1.core .bow 0) = some { (blk) with form := 1 } ∧ fld (dStream false) 75 74 ≠ 1
      ∧ (sF1.ctx .bow 3).ticket = some tk7 ∧ (sF1.ctx .bow 3).state ≠ .ending ∧ cmdBytes (0x0D + 2 ^ 64) = 32
      ∧ (∀ x ∈ [0x0D + 2 ^ 64, 4, 8], cmdBad (fetched sRun .bow 0 x) .bow 0 (cmdAt sRun .bow 0 x) = true)) :=
  ⟨idle_by (by decide +kernel) (by decide +kernel), idle_by (by decide +kernel) (by decide +kernel), idle_by (by decide +kernel) (by decide +kernel)
    , idle_by (by decide +kernel) (by decide +kernel), by decide +kernel⟩
theorem test_streamForm : ((after (.stream .bow 0 (BitVec.ofNat 256 (dStream false))) sF1).half .bow).done.map (·.status) = [3] := by decide +kernel

def dZp : List Nat := [2 + slots [(0, 0), (1, 1)] + 2 ^ 64 * 11, 3 + 2 ^ 64 * 11 + 2 ^ 128, 6 + 2 ^ 64 * 11 + 2 ^ 116]
def cZp : List Nat := [4 + 2 ^ 64 * 11 + 2 ^ 128, 4 + slots [(5, 1)] + 2 ^ 256 * 2 ^ 180 * 11]
theorem test_witness_ZeroPoints :
    (∀ x ∈ dZp, CoreIdle sRun .bow 0 3 x) ∧ (∀ x ∈ cZp, CoreIdle sRun .bow 0 3 x)
    ∧ (fmtIsGangInt .bf16 = false ∧ fmtIsInt .bf16 = false ∧ fmtOf 11 = some .bf16 ∧ (∀ x ∈ dZp, fld x 68 64 = 11) ∧ fld (nth cZp 0) 68 64 = 11
      ∧ fld (nth cZp 1) 440 436 = 11 ∧ (slotTag (nth dZp 0) 1).isSome = true ∧ fld (nth dZp 1) 135 128 ≠ 0 ∧ fld (nth cZp 0) 135 128 ≠ 0
      ∧ (slotTag (nth cZp 1) 5).isSome = true ∧ fld (nth dZp 2) 123 116 ≠ 0) := by
  refine ⟨fun x hx => ?_, fun x hx => ?_, by decide +kernel⟩
  · have h : x = nth dZp 0 ∨ x = nth dZp 1 ∨ x = nth dZp 2 := by simpa [dZp, nth] using hx
    obtain rfl | rfl | rfl := h <;> exact idle_by (by decide +kernel) (by decide +kernel)
  · have h : x = nth cZp 0 ∨ x = nth cZp 1 := by simpa [cZp, nth] using hx
    obtain rfl | rfl := h <;> exact idle_by (by decide +kernel) (by decide +kernel)

/-! ### The machine -/

theorem test_witness_StepRunsFront : ({ on with pending := [] } : State).pending = [] := rfl
theorem test_step :
    (match step { sQ with pending := [.doorbell .bow .host 40 (natLe 8 0x50011), .dWake] } with
      | .next t => (t.pending, (t.quay .bow 5).tail)
      | _ => ([], 0)) = ([.dWake], 17) := by decide +kernel
theorem test_witness_StoresWfKept : StoresWf State.reset ∧ step State.reset = .next (State.reset.atTime .bow 2) := ⟨wf_by (by decide +kernel), rfl⟩
theorem test_witness_StepKeepsQueueAndOutputs : step { on with pending := [.dWake] } = .next (after .dWake on) := rfl
/-- `FAULT_N` is released by `READY_3`. -/
theorem test_witness_FaultNStays :
    ((bt 3 2 flashReset).half .bow).faultN = true ∧ ((after (.ready3 .bow 5) (bt 3 2 flashReset)).half .bow).faultN = false := by decide +kernel

/-! ### Ill-formed operands -/

theorem test_illFormed_numbers :
    [Instr.move .bow 96 0, .doorbell .bow (.core 96) 0 (natLe 8 0), .doorbell .bow .host 0x100000 (natLe 8 0), .doorbell .bow .host 0 [],
      .flitCrcFailure .bow .ferry 1024, .sample .bow [(8, 0)] 0, .contextRunnable .bow 4096 0, .retraining .bow 24 true,
      .perBankRefresh .bow 0 16, .swapDrain .bow 12, .patrolScrub .bow 4 0, .msixUnmask .bow 2048, .trainingDone .bow .cw0 4 0, .closeFail .bow 8 0,
      .abdDwell .bow 4, .frameTimeout .bow 12 0 0, .frameTimeout .bow 0 4 0, .frameEnd .bow 0 16 .good 0, .gclCycleStart .bow 7 0, .launch .bow 8 0,
      .frerReset .bow 64, .triggerInstant .bow 16 0, .arbitrationLost .bow 0 7 0, .mailboxGo .bow 64 0, .recordEmit .bow 64 0, .supplyFault .bow 4,
      .line .bow 0 0 64 [] true .good 0].all (fun i => !i.wellFormed) = true := by decide +kernel
theorem test_illFormed_spans :
    [Instr.quayDescriptorWrite .bow 0 20 [0, 0, 0, 0, 0], .contextEntryWrite .bow 0 0 [], .bar4Read .bow (2 ^ 36) 1, .bar0Write .bow (2 ^ 25) [0],
      .configurationRequest .bow true 4096 [0], .frameIngress .bow 0 [0] true 0, .canSegment .bow 8 [0, 0], .canSegment .bow 0 [0], .udpDatagram .bow 0 65536 [],
      .read .bow (.bar0 0) [], .begin .bow (.can 8 0), .begin .bow (.udp 0 65536 0), .begin .bow (.bar0 64), .opRequest .bow (.bar0 0) .bow 3,
      .fwWrite .bow (.bar0 0) .bow 0x2000000 [0], .canReceive .bow 0 { (cf) with format := 3 } 0,
      .canReceive .bow 0 { (cf) with data := List.replicate 9 0 } 0].all (fun i => !i.wellFormed) = true := by decide +kernel
theorem test_illFormed_message (m : LinkMsg) (h : m.lines = 33) : (Instr.wr .bow .cw0 m).wellFormed = false := by
  simp [Instr.wellFormed, linkMsgOk, h]
theorem test_wellFormed :
    [Instr.move .bow 95 0, .doorbell .bow (.core 95) 0xFFFF8 (natLe 8 0), .canReceive .bow 3 cf 0, .opRequest .bow (.bar0 63) .stern 2, .bar4Read .bow (2 ^ 36 - 1) 1].all
      (fun i => i.wellFormed) = true := by decide +kernel

/-! ### The package -/

/-- Positions of the grid that carry what a test picks. -/
def countBalls (p : BallUse → Bool) : Nat :=
  (List.range 72).foldl (fun n r => (List.range 72).foldl (fun n c => if p (ballAt (r + 1) (c + 1)) then n + 1 else n) n) 0
/-- *Ball counts* (R470) and the rails' counts (R473). -/
theorem test_ball_counts :
    (countBalls (fun b => match b with | .signal h _ => h == .bow | _ => false), countBalls (fun b => match b with | .supply h _ => h == .stern | _ => false)
    , countBalls (fun b => match b with | .hostDie _ => true | _ => false), countBalls (fun b => b == .reserved), countBalls (fun b => b == .gnd)
    , countBalls (fun b => b == .supply .bow .core), countBalls (fun b => b == .supply .bow .vdd2h)) = (256, 544, 1536, 16, 2022, 320, 48) := by decide +kernel
/-- The examples of R470 and R473. -/
theorem test_ball_examples :
    ballAt 3 7 = .signal .bow (.csi 3 2 false) ∧ ballAt 70 7 = .signal .stern (.csi 3 2 false) ∧ ballAt 72 71 = .signal .stern (.canTx 2)
    ∧ ballAt 20 10 = .supply .bow .core ∧ ballAt 20 9 = .gnd ∧ ballAt 36 3 = .device 2 := by decide +kernel

end Sys2Proof.Tests
end

section
/-! O60 fails on one path: a fault rolls back the streams its context has built (R200), the rollback reads their index pages through the memory code (R258), and an uncorrectable line found there may be the fourth of its channel group, which takes the half to safe state (R393). A half in trial then gives up its new firmware and resets (R443), and with it go the completion records that `FaultEnded` says are kept. -/
namespace Sys2Proof.Machine

/-! ### What the statement asks of a `LOADW` -/

/-- The row of a `LOADW` is fetch of its descriptor (R103). -/
theorem exec_loadw (h : Half) (c : Nat) (d : BitVec 256) (s : State) :
    exec (.loadw h c d) s = .next (deliver s h c d.toNat (isOp 2)) := rfl

/-- Records that were due before a context ends with `FAULT_CONTEXT` are still due after it (R217, R229). -/
theorem FaultEnded.mem_done {s t : State} {h : Half} {n : Nat} {tk : Ticket} (hf : FaultEnded s t h n tk) {r : DoneRec}
    (hr : r ∈ (s.half h).done) : r ∈ (t.half h).done := by
  obtain ⟨_, _, _, _, hdone, _⟩ := hf
  exact hdone ▸ List.mem_append_left _ hr

/-! ### A half in trial whose next bad line is the fourth -/

/-- The ticket that context 3 runs: its program names core 0 of the Bow half. -/
def trialTicket : Ticket := ⟨5, 0, 9, 7, 0, false, [], ⟨7, 0, 0, 0x400000, [], [⟨false, 0, 0x300000, 0x100, 0, []⟩]⟩⟩

/-- The record of an earlier ticket of the same queue, not yet written. -/
def earlierRecord : DoneRec := ⟨5, 0, 8, none, 0, 0, 0, 0, 0, 0, 0, false⟩

/-- The Bow half in trial (R443): context 3 runs on core 0 and has built a stream of one candidate on index page 0, three lines of channel group 0 were found uncorrectable, and a record waits to be written. -/
def trialHalf : HalfState :=
  { halfReset with
    ctxs := [(3, { ctxReset with state := .running, ticket := some trialTicket, startT := some 8 })]
    cores := [(0, { coreFree with ctx := some 3, streamBase := 0x300000, streamLen := 0x100 })]
    done := [earlierRecord]
    manifest := [(8, { mentryReset with head := 0, cand := 1, context := 3, state := .active, built := true })]
    safety := { safetyReset with ueHist := [(0, 0), (0, 0), (0, 0)] }
    flash := { flashReset with trial := true }
    boot := { bootReset with stage := 3, trialT := some 0 } }

/-- Model 0 has one layer, and the line of index page 0 has five bytes in error, more than its code corrects (R249). -/
def trialState : State :=
  { State.reset with
    dict := [(dkey 0x4440 1, 1)]
    lineErr := [(0, [(0, 1), (1, 1), (2, 1), (3, 1), (4, 1)])]
    bow := trialHalf }

/-- A `LOADW` of BF16 weights with a tag for zero points. -/
def bf16ZpLoadw : BitVec 256 := BitVec.ofNat 256 (2 + 2 ^ 9 + 2 ^ 64 * 11)

theorem trialState_storesWf : StoresWf trialState :=
  ⟨by decide +kernel, by decide +kernel, by decide +kernel, by decide +kernel, by decide +kernel⟩

/-- The bad line is none of the command stream's: fetch of the descriptor reads as good. -/
theorem trialState_coreIdle : CoreIdle trialState .bow 0 3 bf16ZpLoadw.toNat where
  tables := trialState_storesWf
  ctx := by decide +kernel
  started := by decide +kernel
  noHold := by decide +kernel
  running := by decide +kernel
  empty := by decide +kernel
  quiet := by decide +kernel
  room := by decide +kernel
  code := by decide +kernel

/-- The fault's rollback finds the bad line, the half resets, and the earlier record is gone. -/
theorem trialState_loses_earlierRecord :
    earlierRecord ∉ ((deliver trialState .bow 0 bf16ZpLoadw.toNat (isOp 2)).half .bow).done := by decide +kernel

/-- Refutes O60: a zero point given for BF16 ends its context in a half in trial; the rollback of its built stream meets the fourth uncorrectable line, the half resets, and the record of an earlier ticket is lost. -/
theorem not_zeroPoints : ¬ Obligations.ZeroPoints := by
  unfold Obligations.ZeroPoints
  rintro ⟨-, hends⟩
  obtain ⟨hloadw, -⟩ := hends .bow 0 3 bf16ZpLoadw 0 trialTicket trialState (by decide +kernel) (by decide +kernel)
  obtain ⟨t, hexec, hfault⟩ := hloadw trialState_coreIdle (by decide) ⟨.bf16, by decide, rfl⟩ (by decide)
  obtain rfl : deliver trialState .bow 0 bf16ZpLoadw.toNat (isOp 2) = t :=
    Host.Outcome.next.inj ((exec_loadw ..).symm.trans hexec)
  exact trialState_loses_earlierRecord (hfault.mem_done (List.mem_singleton_self earlierRecord))

end Sys2Proof.Machine
end

section
/-! O59 fails on the path on which O60 does: the fault's rollback reads the index page of a built stream (R200, R258), finds the fourth uncorrectable line of its channel group (R393), and the half, which is in trial, resets (R443). The refutation is of the first clause: a `STREAM` of another `FORM` does end its context, but the completion records that were due before are lost. -/
namespace Sys2Proof.Machine

/-- The row of a `STREAM` is fetch of its descriptor (R103). -/
theorem exec_stream (h : Half) (c : Nat) (d : BitVec 256) (s : State) :
    exec (.stream h c d) s = .next (deliver s h c d.toNat (isOp 3)) := rfl

/-- An active block of form 1. -/
def formOneBlock : WBlk := ⟨1, .int8, 0, [], [], []⟩

/-- The half in trial, its core 0 with weights of form 1. -/
def trialStateFormOne : State :=
  trialState.setCore .bow 0 { trialState.core .bow 0 with wActive := some formOneBlock }

/-- A `STREAM` of form 0. -/
def formZeroStream : BitVec 256 := 3

theorem trialStateFormOne_storesWf : StoresWf trialStateFormOne :=
  ⟨trialState_storesWf.mem, trialState_storesWf.dict, trialState_storesWf.dictBytes, by decide +kernel, trialState_storesWf.stern⟩

/-- With weights loaded core 0 is idle as before: the bad line is none of the command stream's. -/
theorem trialStateFormOne_coreIdle : CoreIdle trialStateFormOne .bow 0 3 formZeroStream.toNat where
  tables := trialStateFormOne_storesWf
  ctx := by decide +kernel
  started := by decide +kernel
  noHold := by decide +kernel
  running := by decide +kernel
  empty := by decide +kernel
  quiet := by decide +kernel
  room := by decide +kernel
  code := by decide +kernel

/-- The `STREAM` and the block differ in their form. -/
theorem formZeroStream_form_ne : fld formZeroStream.toNat 75 74 ≠ formOneBlock.form := by decide

/-- The fault's rollback finds the bad line, the half resets, and the earlier record is gone. -/
theorem trialStateFormOne_loses_earlierRecord :
    earlierRecord ∉ ((deliver trialStateFormOne .bow 0 formZeroStream.toNat (isOp 3)).half .bow).done := by decide +kernel

/-- Refutes O59: a `STREAM` of form 0 over a block of form 1 ends its context in a half in trial; the rollback of its built stream meets the fourth uncorrectable line, the half resets, and the record of an earlier ticket is lost. -/
theorem not_streamForm : ¬ Obligations.StreamForm := by
  unfold Obligations.StreamForm
  intro hall
  obtain ⟨hstream, -⟩ := hall .bow 0 3 formZeroStream 0 trialStateFormOne
  obtain ⟨t, hexec, hfault⟩ := hstream formOneBlock trialTicket trialStateFormOne_coreIdle (by decide) (by decide +kernel)
    formZeroStream_form_ne (by decide +kernel) (by decide +kernel)
  obtain rfl : deliver trialStateFormOne .bow 0 formZeroStream.toNat (isOp 3) = t :=
    Host.Outcome.next.inj ((exec_stream ..).symm.trans hexec)
  have hkept : earlierRecord ∈ (trialStateFormOne.half .bow).done := List.mem_singleton_self earlierRecord
  exact trialStateFormOne_loses_earlierRecord (hfault.mem_done hkept)

end Sys2Proof.Machine
end

section
/-! O34: the following-error timer (R343). A closed loop's sample is followed through its parts: the setpoint read and the measurements leave the loop and its limits as they are, the law keeps the count, supervision counts, resets or trips, and the output frame leaves the loop alone. The loops that are not due stay so. -/
namespace Sys2Proof.Machine

/-! ### Lists by index -/

theorem length_upto {α : Type} (m : Nat) (f : Nat → α) : (upto m f).length = m := by
  simp only [upto, List.length_map, List.length_range]

theorem getD_upto {α : Type} {m j : Nat} (f : Nat → α) (d : α) (hj : j < m) : (upto m f).getD j d = f j := by
  simp only [upto, List.getD_eq_getElem?_getD, List.getElem?_map, List.getElem?_range hj, Option.map_some, Option.getD_some]

theorem upto_congr {α : Type} {m : Nat} {f g : Nat → α} (hfg : ∀ j < m, f j = g j) : upto m f = upto m g :=
  List.map_congr_left fun j hj => hfg j (List.mem_range.1 hj)

theorem foldl_eq_self {α β : Type} {f : β → α → β} {b : β} (l : List α) (hf : ∀ x ∈ l, f b x = b) : l.foldl f b = b := by
  induction l with
  | nil => rfl
  | cons x l ih =>
    rw [List.foldl_cons, hf x List.mem_cons_self]
    exact ih fun y hy => hf y (List.mem_cons_of_mem x hy)

/-- A fold over distinct elements of which one alone changes anything takes that one step. -/
theorem foldl_eq_single {α β : Type} {f : β → α → β} {b : β} {l : List α} {n : α} (hn : n ∈ l) (hl : l.Nodup)
    (before : ∀ k ∈ l, k ≠ n → f b k = b) (after : ∀ k ∈ l, k ≠ n → f (f b n) k = f b n) : l.foldl f b = f b n := by
  obtain ⟨l₁, l₂, rfl⟩ := List.append_of_mem hn
  obtain ⟨-, htail, hdisj⟩ := List.nodup_append.1 hl
  obtain ⟨hnotin, -⟩ := List.nodup_cons.1 htail
  have hbefore : ∀ k ∈ l₁, f b k = b := fun k hk =>
    before k (List.mem_append_left _ hk) (hdisj k hk n List.mem_cons_self)
  have hafter : ∀ k ∈ l₂, f (f b n) k = f b n := fun k hk =>
    after k (List.mem_append_right _ (List.mem_cons_of_mem n hk)) fun hkn => hnotin (hkn ▸ hk)
  rw [List.foldl_append, List.foldl_cons, foldl_eq_self l₁ hbefore, foldl_eq_self l₂ hafter]

/-! ### Loops and their entries after an update -/

theorem dkey_ne_of_sub_ne {i i' j j' : Nat} (hj : j < 256) (hj' : j' < 256) (hne : j ≠ j') : dkey i j ≠ dkey i' j' := by
  unfold dkey; omega

theorem dkey_loopIdx_ne (h : Half) {k n j j' : Nat} (hkn : k ≠ n) (hj : j < 256) (hj' : j' < 256) :
    dkey (loopIdx h k) j ≠ dkey (loopIdx h n) j' := by
  cases h <;> simp only [dkey, loopIdx, hk8] <;> omega

theorem loop_setLoop (s : State) (h : Half) (n : Nat) (l : Loop) (hw : StoresWf s) : (s.setLoop h n l).loop h n = l := by
  obtain ⟨-, -, -, -, -, -, -, -, -, -, -, hloops, -⟩ := hw.half h
  rw [State.loop, State.setLoop, half_modHalf, Tab.get_set_sorted loopReset _ n n l hloops, if_pos rfl]

theorem loop_setLoop_ne (s : State) (h : Half) {n k : Nat} (l : Loop) (hkn : k ≠ n) :
    (s.setLoop h n l).loop h k = s.loop h k := by
  rw [State.loop, State.setLoop, half_modHalf]
  exact Tab.get_set_ne loopReset _ n k l hkn

@[simp] theorem num_setLoop (s : State) (h : Half) (n : Nat) (l : Loop) (i j : Nat) : (s.setLoop h n l).num i j = s.num i j :=
  num_modHalf ..
@[simp] theorem setLoop_dict (s : State) (h : Half) (n : Nat) (l : Loop) : (s.setLoop h n l).dict = s.dict := modHalf_dict ..
@[simp] theorem setLoop_clock (s : State) (h : Half) (n : Nat) (l : Loop) : (s.setLoop h n l).clock = s.clock := modHalf_clock ..
@[simp] theorem loop_setNum (s : State) (h : Half) (i j v k : Nat) : (s.setNum i j v).loop h k = s.loop h k := rfl

theorem loop_modHalf (s : State) (h : Half) (f : HalfState → HalfState) (k : Nat) (hf : ∀ x, (f x).loops = x.loops) :
    (s.modHalf h f).loop h k = s.loop h k := by
  simp only [State.loop, half_modHalf, hf]

/-- A trip sets the loop's state and cause, and leaves the law's state and the count (R342). -/
theorem tripLoop_spec (s : State) (h : Half) (n cause : Nat) (hd : Tab.sortedFrom none s.dict = true) :
    (tripLoop s h n cause).loop h n = s.loop h n ∧ loopState (tripLoop s h n cause) h n = 3
      ∧ (tripLoop s h n cause).num (loopIdx h n) 0x1E = cause := by
  refine ⟨loop_modHalf _ h _ n fun _ => rfl, ?_, ?_⟩
  · simp only [loopState, tripLoop, State.modSafety, num_modHalf]
    rw [num_setNum_ne _ _ _ _ _ _ (dkey_ne_of_sub_ne (by decide) (by decide) (by decide)), num_setNum_same _ _ _ _ hd]
  · simp only [tripLoop, State.modSafety, num_modHalf]
    exact num_setNum_same _ _ _ _ (setNum_sorted _ _ _ _ hd)

/-! ### Another loop -/

/-- Loop `k` of half `h`, its settings and the model's clock are the same in both states. -/
structure SameLoop (s t : State) (h : Half) (k : Nat) : Prop where
  loop : t.loop h k = s.loop h k
  clock : t.clock = s.clock
  num : ∀ j < 0x20, t.num (loopIdx h k) j = s.num (loopIdx h k) j

namespace SameLoop
variable {s t u : State} {h : Half} {n k : Nat}

theorem rfl' : SameLoop s s h k := ⟨rfl, rfl, fun _ _ => rfl⟩

theorem trans (a : SameLoop s t h k) (b : SameLoop t u h k) : SameLoop s u h k :=
  ⟨b.loop.trans a.loop, b.clock.trans a.clock, fun j hj => (b.num j hj).trans (a.num j hj)⟩

theorem setLoop (a : SameLoop s t h k) (l : Loop) (hkn : k ≠ n) : SameLoop s (t.setLoop h n l) h k :=
  a.trans ⟨loop_setLoop_ne t h l hkn, setLoop_clock .., fun _ _ => num_setLoop ..⟩

theorem setNum (a : SameLoop s t h k) (hkn : k ≠ n) {j : Nat} (hj : j < 256) (v : Nat) :
    SameLoop s (t.setNum (loopIdx h n) j v) h k :=
  a.trans ⟨rfl, rfl, fun i hi => num_setNum_ne _ _ _ _ _ _ (dkey_loopIdx_ne h hkn (by omega) hj)⟩

theorem modHalf (a : SameLoop s t h k) (f : HalfState → HalfState) (hf : ∀ x, (f x).loops = x.loops) :
    SameLoop s (t.modHalf h f) h k :=
  a.trans ⟨loop_modHalf t h f k hf, modHalf_clock .., fun _ _ => num_modHalf ..⟩

theorem trip (a : SameLoop s t h k) (hkn : k ≠ n) (cause : Nat) : SameLoop s (tripLoop t h n cause) h k := by
  unfold tripLoop State.modSafety
  exact ((a.setNum hkn (j := 2) (by decide) 3).setNum hkn (j := 0x1E) (by decide) cause).modHalf _ fun _ => rfl

/-- When a loop is due depends on that loop, its settings and the clock alone (R331, R332). -/
theorem dueInstant_eq (a : SameLoop s t h k) (tt : Time) : dueInstant t h k tt = dueInstant s h k tt := by
  unfold dueInstant loopState
  rw [a.loop, a.clock, a.num 2 (by decide), a.num 5 (by decide)]

end SameLoop

/-- Supervision of one loop touches no other (R342). -/
theorem superviseLoop_other (s : State) {h : Half} {n k : Nat} (hkn : k ≠ n) (stale expired : Bool) (v : List F32) :
    SameLoop s (superviseLoop s h n stale expired v) h k := by
  unfold superviseLoop
  extract_lets
  split
  · exact .rfl'
  split
  · exact SameLoop.rfl'.trip hkn 2
  split
  · exact SameLoop.rfl'.trip hkn 3
  split <;> split
  · exact (SameLoop.rfl'.setLoop _ hkn).setNum hkn (by decide) 2
  · exact SameLoop.rfl'.setLoop _ hkn
  · exact (SameLoop.rfl'.setLoop _ hkn).trip hkn 1
  · exact SameLoop.rfl'.setLoop _ hkn

/-! ### Supervision of a closed loop -/

/-- `FE_LIMIT_j` of loop `n` (R343). -/
def feLimit (s : State) (h : Half) (n j : Nat) : F32 := BitVec.ofNat 32 (s.num (loopIdx h n) (0x0A + j))

/-- `CLOSED` is not `CLOSING` (R342). -/
theorem closed_ne_closing : ¬ (2 : Nat) = 1 := by decide

theorem followingReached_setLoop (s : State) (h : Half) (n fe : Nat) (l : Loop) :
    followingReached (s.setLoop h n l) h n fe = followingReached s h n fe := by
  simp only [followingReached, num_setLoop]

section Closed
variable {s : State} {h : Half} {n : Nat} {v : List F32}

/-- A good sample with a following error beyond its limit counts, and trips at the time (R343). -/
theorem superviseLoop_beyond (hst : loopState s h n = 2) (hv : ∃ j < v.length, fgt (fabs (v.getD j 0)) (feLimit s h n j) = true) :
    superviseLoop s h n false false v =
      let t := s.setLoop h n { s.loop h n with fe := (s.loop h n).fe + 1 }
      if followingReached s h n ((s.loop h n).fe + 1) = true then tripLoop t h n 1 else t := by
  have hbeyond : (List.range v.length).any (fun j => fgt (fabs (v.getD j 0)) (BitVec.ofNat 32 (s.num (loopIdx h n) (0x0A + j)))) = true := by
    obtain ⟨j, hj, hgt⟩ := hv
    exact List.any_eq_true.2 ⟨j, List.mem_range.2 hj, hgt⟩
  simp only [superviseLoop, hst, hbeyond, followingReached_setLoop, ne_eq, not_true_eq_false, and_false, if_false, if_true,
    Bool.false_eq_true, Bool.true_and, closed_ne_closing]

/-- A good sample within all the limits resets the count (R343). -/
theorem superviseLoop_within (hst : loopState s h n = 2)
    (hv : ∀ j < v.length, isNaN (v.getD j 0) = false ∧ isNaN (feLimit s h n j) = false ∧ fgt (fabs (v.getD j 0)) (feLimit s h n j) = false) :
    superviseLoop s h n false false v = s.setLoop h n { s.loop h n with fe := 0 } := by
  have hbeyond : (List.range v.length).any (fun j => fgt (fabs (v.getD j 0)) (BitVec.ofNat 32 (s.num (loopIdx h n) (0x0A + j)))) = false :=
    List.any_eq_false.2 fun j hj => Bool.not_eq_true _ ▸ (hv j (List.mem_range.1 hj)).2.2
  have hwithin : (List.range v.length).all (fun j => !isNaN (v.getD j 0) && !isNaN (BitVec.ofNat 32 (s.num (loopIdx h n) (0x0A + j)))
      && !fgt (fabs (v.getD j 0)) (BitVec.ofNat 32 (s.num (loopIdx h n) (0x0A + j)))) = true := by
    refine List.all_eq_true.2 fun j hj => ?_
    obtain ⟨hv1, hl, hgt⟩ := hv j (List.mem_range.1 hj)
    unfold feLimit at hl hgt
    simp only [hv1, hl, hgt, Bool.not_false, Bool.and_self]
  simp only [superviseLoop, hst, hbeyond, hwithin, ne_eq, not_true_eq_false, and_false, if_false, if_true,
    Bool.false_eq_true, Bool.false_and, closed_ne_closing]

end Closed

/-! ### What the reads and the output frame of a sample leave alone -/

/-- The control engine reads the same of both states: loops, clock, time steps, and every entry below sub-index 0x20. -/
structure SameEngine (s t : State) (h : Half) : Prop where
  loop : ∀ k, t.loop h k = s.loop h k
  clock : t.clock = s.clock
  steps : t.steps = s.steps
  num : ∀ i, ∀ j < 0x20, t.num i j = s.num i j

namespace SameEngine
variable {s t u : State} {h : Half}

theorem rfl' : SameEngine s s h := ⟨fun _ => rfl, rfl, rfl, fun _ _ _ => rfl⟩

theorem trans (a : SameEngine s t h) (b : SameEngine t u h) : SameEngine s u h :=
  ⟨fun k => (b.loop k).trans (a.loop k), b.clock.trans a.clock, b.steps.trans a.steps, fun i j hj => (b.num i j hj).trans (a.num i j hj)⟩

theorem modHalf (a : SameEngine s t h) (f : HalfState → HalfState) (hf : ∀ x, (f x).loops = x.loops) : SameEngine s (t.modHalf h f) h :=
  a.trans ⟨fun k => loop_modHalf t h f k hf, modHalf_clock .., modHalf_steps .., fun _ _ _ => num_modHalf ..⟩

theorem sameLoop (a : SameEngine s t h) (k : Nat) : SameLoop s t h k := ⟨a.loop k, a.clock, a.num _⟩

theorem measure_eq (a : SameEngine s t h) (n : Nat) {j : Nat} (hj : j < 4) (i : Time) : measure t h n j i = measure s h n j i := by
  unfold measure frameAge stepsSince
  dsimp only
  rw [a.clock, a.steps, a.num _ 9 (by decide), a.num _ (0x13 + j) (by omega), a.num _ 0x0A (by decide), a.num _ 0x0B (by decide)]

end SameEngine

/-- The second state is the first with the counter of free values moved on. -/
def FreeOnly (s t : State) : Prop := ∃ m, t = { s with freeCtr := m }

namespace FreeOnly
variable {s t u : State}

theorem rfl' : FreeOnly s s := ⟨s.freeCtr, rfl⟩

theorem trans (a : FreeOnly s t) (b : FreeOnly t u) : FreeOnly s u := by
  obtain ⟨m, rfl⟩ := a
  obtain ⟨m', rfl⟩ := b
  exact ⟨m', rfl⟩

theorem clean (a : FreeOnly s t) (hc : cleanMem s) : cleanMem t := by
  obtain ⟨m, rfl⟩ := a
  exact hc

theorem free : FreeOnly s s.free.2 := ⟨_, rfl⟩

theorem sameEngine (a : FreeOnly s t) (h : Half) : SameEngine s t h := by
  obtain ⟨m, rfl⟩ := a
  exact ⟨fun _ => by cases h <;> rfl, rfl, rfl, fun _ _ _ => rfl⟩

end FreeOnly

theorem engineRead_freeOnly {s : State} (hc : cleanMem s) (h : Half) (a n : Nat) : FreeOnly s (engineRead s h a n).2 := by
  unfold engineRead
  split
  · simp only [readCheck_clean s a n hc, if_true]
    exact .rfl'
  · exact ⟨_, rfl⟩

theorem readPoints_freeOnly {s : State} (hc : cleanMem s) (h : Half) (n : Nat) (t : Time) : FreeOnly s (readPoints s h n t).2 := by
  unfold readPoints
  extract_lets base p slot q hd t0 src dt np d expired point
  have hp : FreeOnly s p.2 := engineRead_freeOnly hc ..
  have hq : FreeOnly s q.2 := hp.trans (engineRead_freeOnly (hp.clean hc) ..)
  have hpoint (w : State) (hw : FreeOnly s w) (i : Nat) : FreeOnly s (point w i).2 :=
    hw.trans (engineRead_freeOnly (hw.clean hc) ..)
  split
  · exact hq.trans ⟨_, rfl⟩
  split
  · exact hpoint _ hq 0
  split
  · exact hpoint _ hq _
  · exact hpoint _ (hpoint _ hq _) _

/-- A setpoint read of clean memory changes at most the retry counter, at sub-index 0x20 (R337). -/
theorem readSetpoint_sameEngine {s : State} (hc : cleanMem s) (h : Half) (n : Nat) (hits : List (Nat × Nat)) (t : Time) :
    SameEngine s (readSetpoint s h n hits t).2 h := by
  unfold readSetpoint
  split
  · exact ⟨fun _ => rfl, rfl, rfl, fun _ j hj => num_bump_ne _ _ _ _ _ _ (dkey_ne_of_sub_ne (by omega) (by decide) (by omega))⟩
  · exact (readPoints_freeOnly hc h n t).sameEngine h

theorem encodeField_freeOnly (s : State) (u scale ofs : F32) (w : Nat) (signed : Bool) :
    FreeOnly s (encodeField s u scale ofs w signed).2 := by
  unfold encodeField
  extract_lets
  split
  · exact ⟨_, rfl⟩
  · exact .rfl'
  · exact .rfl'

theorem foldl_putOutput_freeOnly (tpl : List Byte) (u : List F32) (tripped : Bool) (ks : List Nat) (r : List Byte × State) :
    FreeOnly r.2 (ks.foldl (putOutput tpl u tripped) r).2 := by
  induction ks generalizing r with
  | nil => exact .rfl'
  | cons k ks ih => exact (encodeField_freeOnly r.2 _ _ _ _ _).trans (ih _)

theorem queueCan_sameEngine (s : State) (h : Half) (c : Nat) (f : CanTx) : SameEngine s (queueCan s h c f) h := by
  unfold queueCan
  extract_lets
  split
  · exact .rfl'
  · exact SameEngine.rfl'.modHalf _ fun _ => rfl

theorem postLoopFrame_sameEngine (s : State) (h : Half) (n : Nat) (bs : List Byte) (launch src : Time) :
    SameEngine s (postLoopFrame s h n bs launch src) h := by
  unfold postLoopFrame
  extract_lets
  split
  · exact .rfl'
  split
  · exact SameEngine.rfl'.modHalf _ fun _ => rfl
  split
  · exact .rfl'
  · exact (FreeOnly.free.sameEngine h).trans (queueCan_sameEngine ..)

/-- Building and posting the output frame leaves every loop as it is (R345). -/
theorem outputFrame_sameEngine (s : State) (h : Half) (n : Nat) (u : List F32) (i : Time) : SameEngine s (outputFrame s h n u i) h := by
  unfold outputFrame
  extract_lets tpl st len base count r
  split
  · exact .rfl'
  · have hr : FreeOnly s r.2 := foldl_putOutput_freeOnly ..
    exact (hr.sameEngine h).trans (postLoopFrame_sameEngine ..)

/-! ### One sample -/

/-- The number of inputs of a loop's law (R339, R340). -/
def loopInputs (s : State) (h : Half) (n : Nat) : Nat := if s.num (loopIdx h n) 1 == 0 then 1 else min 4 (s.num (loopIdx h n) 0x10)

theorem loopInputs_le (s : State) (h : Half) (n : Nat) : loopInputs s h n ≤ 4 := by
  unfold loopInputs
  split <;> omega

/-- The measurements of a sample, each with whether it is stale (R335). -/
def sampleMeasures (s : State) (h : Half) (n : Nat) (i : Time) : List (F32 × Bool) :=
  upto (loopInputs s h n) (fun j => measure s h n j i)

/-- The following error `v_j` of a sample (R339, R340). -/
def followError (s : State) (h : Half) (n : Nat) (hits : List (Nat × Nat)) (i : Time) (j : Nat) : F32 :=
  fsub ((readSetpoint s h n hits i).1.ch.getD (s.num (loopIdx h n) (0x17 + j)) 0) ((sampleMeasures s h n i).getD j (0, true)).1

/-- The following errors of a sample, one for each input (R339, R340). -/
def followErrors (s : State) (h : Half) (n : Nat) (hits : List (Nat × Nat)) (i : Time) : List F32 :=
  upto (loopInputs s h n) (followError s h n hits i)

theorem length_followErrors (s : State) (h : Half) (n : Nat) (hits : List (Nat × Nat)) (i : Time) :
    (followErrors s h n hits i).length = loopInputs s h n := length_upto ..

theorem getD_followErrors {s : State} {h : Half} {n j : Nat} (hits : List (Nat × Nat)) (i : Time) (hj : j < loopInputs s h n) :
    (followErrors s h n hits i).getD j 0 = followError s h n hits i j := getD_upto _ _ hj

/-- The state in which a sample of loop `n` is supervised: the law has run, and neither the count, nor the settings, nor another loop has changed. -/
structure Sampled (s t : State) (h : Half) (n : Nat) : Prop where
  wf : StoresWf t
  fe : (t.loop h n).fe = (s.loop h n).fe
  num : ∀ j < 0x20, t.num (loopIdx h n) j = s.num (loopIdx h n) j
  other : ∀ k, k ≠ n → SameLoop s t h k

theorem Sampled.feLimit_eq {s t : State} {h : Half} {n j : Nat} (ht : Sampled s t h n) (hj : j < 4) :
    feLimit t h n j = feLimit s h n j := by
  rw [feLimit, ht.num (0x0A + j) (by omega), feLimit]

theorem Sampled.followingReached_eq {s t : State} {h : Half} {n : Nat} (ht : Sampled s t h n) (fe : Nat) :
    followingReached t h n fe = followingReached s h n fe := by
  simp only [followingReached, ht.num 0x0E (by decide), ht.num 5 (by decide)]

/-- A sample reads, runs its law, supervises the loop and posts its frame (R331). -/
theorem runSample_eq {s : State} (hw : StoresWf s) (hc : cleanMem s) (h : Half) (n : Nat) (hits : List (Nat × Nat)) (i : Time) :
    ∃ t out, Sampled s t h n
      ∧ runSample s h n hits i = outputFrame (superviseLoop t h n ((sampleMeasures s h n i).any Prod.snd)
          (readSetpoint s h n hits i).1.expired (followErrors s h n hits i)) h n out i := by
  have hle := loopInputs_le s h n
  have hsame := readSetpoint_sameEngine hc h n hits i
  have hwf : StoresWf (readSetpoint s h n hits i).2 := (readSetpoint_keeps (ex := none) h n hits i Keeps.rfl).wf hw
  unfold runSample
  extract_lets idx pid inp r sp s₁ ys sps v l₁ l o s₂ s₃
  have hys : ys = sampleMeasures s h n i := upto_congr fun j hj => hsame.measure_eq n (Nat.lt_of_lt_of_le hj hle) i
  have hsps (j : Nat) (hj : j < inp) : sps.getD j 0 = sp.ch.getD (s.num idx (0x17 + j)) 0 := by
    rw [getD_upto _ _ hj, hsame.num idx (0x17 + j) (by have := Nat.lt_of_lt_of_le hj hle; omega)]
  have hv : v = followErrors s h n hits i := upto_congr fun j hj => by
    rw [hsps j hj, hys]
    rfl
  have hofe : o.1.fe = (s.loop h n).fe := calc
    o.1.fe = l₁.fe := by simp only [o]; split <;> rfl
    _ = (s.loop h n).fe := congrArg Loop.fe (hsame.loop n)
  refine ⟨s₂, o.2, ⟨(setLoop_keeps (ex := none) h n o.1 Keeps.rfl).wf hwf, ?_, ?_, ?_⟩, ?_⟩
  · rw [loop_setLoop _ _ _ _ hwf, hofe]
  · exact fun j hj => (num_setLoop ..).trans (hsame.num _ j hj)
  · exact fun k hkn => (hsame.sameLoop k).setLoop _ hkn
  · rw [← hys, ← hv]

/-- A sample of one loop leaves every other as due as it was. -/
theorem runSample_dueInstant_other {s : State} (hw : StoresWf s) (hc : cleanMem s) {h : Half} {n k : Nat} (hkn : k ≠ n)
    (hits : List (Nat × Nat)) (i tt : Time) : dueInstant (runSample s h n hits i) h k tt = dueInstant s h k tt := by
  obtain ⟨t, out, ht, heq⟩ := runSample_eq hw hc h n hits i
  rw [heq]
  exact (((ht.other k hkn).trans (superviseLoop_other t hkn ..)).trans ((outputFrame_sameEngine ..).sameLoop k)).dueInstant_eq tt

/-- With one loop due, `SAMPLE` is that loop's sample (R331). -/
theorem exec_sample_single {s : State} {h : Half} {n : Nat} {hits : List (Nat × Nat)} {i tt : Time} (hw : StoresWf (s.atTime h tt))
    (hc : cleanMem (s.atTime h tt)) (hn : n < 8) (hdue : dueInstant (s.atTime h tt) h n tt = some i)
    (hothers : ∀ k < 8, k ≠ n → dueInstant (s.atTime h tt) h k tt = none) :
    exec (.sample h hits tt) s = .next (runSample (s.atTime h tt) h n hits i) := by
  refine congrArg Host.Outcome.next ((foldl_eq_single (List.mem_range.2 hn) List.nodup_range ?_ ?_).trans ?_)
  · intro k hk hkn
    simp only [hothers k (List.mem_range.1 hk) hkn]
  · intro k hk hkn
    simp only [hdue, runSample_dueInstant_other hw hc hkn, hothers k (List.mem_range.1 hk) hkn]
  · simp only [hdue]

section GoodSample
variable {s : State} {h : Half} {n : Nat} {hits : List (Nat × Nat)} {i : Time}

/-- After a sample that neither a stale measurement nor an expired trajectory trips, the loop is as supervision of its following errors leaves it. -/
theorem runSample_good (hw : StoresWf s) (hc : cleanMem s) (hfresh : (sampleMeasures s h n i).any Prod.snd = false)
    (hlive : (readSetpoint s h n hits i).1.expired = false) :
    ∃ t, Sampled s t h n ∧ SameLoop (superviseLoop t h n false false (followErrors s h n hits i)) (runSample s h n hits i) h n := by
  obtain ⟨t, out, ht, heq⟩ := runSample_eq hw hc h n hits i
  rw [hfresh, hlive] at heq
  exact ⟨t, ht, heq ▸ (outputFrame_sameEngine ..).sameLoop n⟩

/-- A sample of a closed loop beyond a limit counts, and trips the loop with cause `FOLLOWING` once the time is reached (R343). -/
theorem runSample_beyond (hw : StoresWf s) (hc : cleanMem s) (hst : loopState s h n = 2)
    (hfresh : (sampleMeasures s h n i).any Prod.snd = false) (hlive : (readSetpoint s h n hits i).1.expired = false)
    (hv : ∃ j < loopInputs s h n, fgt (fabs (followError s h n hits i j)) (feLimit s h n j) = true) :
    ((runSample s h n hits i).loop h n).fe = (s.loop h n).fe + 1
      ∧ if followingReached s h n ((s.loop h n).fe + 1) = true then
          loopState (runSample s h n hits i) h n = 3 ∧ (runSample s h n hits i).num (loopIdx h n) 0x1E = 1
        else loopState (runSample s h n hits i) h n = 2 := by
  obtain ⟨t, ht, hafter⟩ := runSample_good hw hc hfresh hlive
  obtain ⟨j, hj, hgt⟩ := hv
  have hbeyond : ∃ j < (followErrors s h n hits i).length, fgt (fabs ((followErrors s h n hits i).getD j 0)) (feLimit t h n j) = true :=
    ⟨j, by rwa [length_followErrors], by rwa [getD_followErrors hits i hj, ht.feLimit_eq (Nat.lt_of_lt_of_le hj (loopInputs_le s h n))]⟩
  have hstate : loopState t h n = 2 := (ht.num 2 (by decide)).trans hst
  obtain ⟨hloop, htripped, hcause⟩ :=
    tripLoop_spec (t.setLoop h n { t.loop h n with fe := (s.loop h n).fe + 1 }) h n 1 (by rw [setLoop_dict]; exact ht.wf.dict)
  rw [hafter.loop, loopState, hafter.num 2 (by decide), hafter.num 0x1E (by decide), superviseLoop_beyond hstate hbeyond, ht.fe,
    ht.followingReached_eq]
  dsimp only
  split
  · exact ⟨by rw [hloop, loop_setLoop _ _ _ _ ht.wf], htripped, hcause⟩
  · exact ⟨by rw [loop_setLoop _ _ _ _ ht.wf], (num_setLoop ..).trans hstate⟩

/-- A sample of a closed loop within all its limits resets the count (R343). -/
theorem runSample_within (hw : StoresWf s) (hc : cleanMem s) (hst : loopState s h n = 2)
    (hfresh : (sampleMeasures s h n i).any Prod.snd = false) (hlive : (readSetpoint s h n hits i).1.expired = false)
    (hv : ∀ j < loopInputs s h n, isNaN (followError s h n hits i j) = false ∧ isNaN (feLimit s h n j) = false
      ∧ fgt (fabs (followError s h n hits i j)) (feLimit s h n j) = false) :
    ((runSample s h n hits i).loop h n).fe = 0 ∧ loopState (runSample s h n hits i) h n = 2 := by
  obtain ⟨t, ht, hafter⟩ := runSample_good hw hc hfresh hlive
  have hwithin : ∀ j < (followErrors s h n hits i).length, isNaN ((followErrors s h n hits i).getD j 0) = false
      ∧ isNaN (feLimit t h n j) = false ∧ fgt (fabs ((followErrors s h n hits i).getD j 0)) (feLimit t h n j) = false := by
    intro j hj
    rw [length_followErrors] at hj
    rw [getD_followErrors hits i hj, ht.feLimit_eq (Nat.lt_of_lt_of_le hj (loopInputs_le s h n))]
    exact hv j hj
  have hstate : loopState t h n = 2 := (ht.num 2 (by decide)).trans hst
  rw [hafter.loop, loopState, hafter.num 2 (by decide), superviseLoop_within hstate hwithin, loop_setLoop _ _ _ _ ht.wf, num_setLoop]
  exact ⟨rfl, hstate⟩

end GoodSample

/-- The `FOLLOWING` row trips a closed loop whose count has reached the time (R343). -/
theorem exec_following_reached {s : State} {h : Half} {n : Nat} (hn : n < 8) (hst : loopState s h n = 2) (hfe : 0 < (s.loop h n).fe)
    (hreached : followingReached s h n (s.loop h n).fe = true) : exec (.following h n) s = .next (tripLoop s h n 1) :=
  congrArg Host.Outcome.next (if_pos ⟨hn, hst, hfe, hreached⟩)

/-- Settles O34: a closed loop's good sample counts beyond a limit and resets within all of them, and the loop trips at the time (R343). -/
theorem followingError : Obligations.FollowingError := by
  unfold Obligations.FollowingError
  constructor
  · intro h n hits i tt s hw hc u inp r ys v lim count hn hdue hothers hst hfresh hlive
    have huw : StoresWf u := (atTime_keeps (ex := none) h tt Keeps.rfl).wf hw
    have huc : cleanMem u := by simpa only [u, cleanMem, atTime_poison, atTime_lineErr, atTime_sramBad] using hc
    refine ⟨_, exec_sample_single huw huc hn hdue hothers, fun hbeyond => ?_, fun hwithin => ?_⟩
    · simpa only [followingReached, decide_eq_true_eq] using runSample_beyond huw huc hst hfresh hlive hbeyond
    · exact runSample_within huw huc hst hfresh hlive hwithin
  · intro h n s hn hst hfe hreached
    exact exec_following_reached hn hst hfe (decide_eq_true hreached)

end Sys2Proof.Machine
end
